-- ==== Sys2Proof/Word.lean ====
section
/-! DEFINITION. The word types of the machine: bytes, scalar words, cell payloads and row registers. -/

namespace Sys2Proof

/-- One byte of memory. -/
abbrev Byte := BitVec 8

/-- One scalar register, R59. -/
abbrev Word := BitVec 64

/-- A cell token's payload or a tile's vector register, R100 and R64. -/
abbrev Payload := BitVec 256

/-- A row register of the epilogue engine, 128 lanes of 32 bits, R59. -/
abbrev Row := BitVec 4096

end Sys2Proof
end

