-- ==== Sys2Proof/Machine/Flags.lean ====
section
/-! DEFINITION. The sticky status flags of R30 and how results raise them (R28, R29, R31). -/

namespace Sys2Proof.Machine

/-- The five flags of FSTAT: [4] NZ, [3] NV, [2] OF, [1] UF, [0] NX (R30). -/
abbrev Flags := BitVec 5

/-- No flag. -/
def noFlags : Flags := 0
/-- An inexact result. -/
def flagNX : Flags := 0b00001
/-- Underflow, R29. -/
def flagUF : Flags := 0b00010
/-- Overflow, or a saturation under R13 or R31. -/
def flagOF : Flags := 0b00100
/-- Invalid operation. -/
def flagNV : Flags := 0b01000
/-- A NaN converted to FP4 or to an integer. -/
def flagNZ : Flags := 0b10000

/-- `f` when the condition holds. -/
def flagIf (c : Bool) (f : Flags) : Flags := if c then f else noFlags

/-- The flags of a rounded result inside the range: NX when it differs from the exact value, and UF when it is also tiny (R29, R31). -/
def roundFlags (inexact tiny : Bool) : Flags := flagIf inexact flagNX ||| flagIf (inexact && tiny) flagUF

/-- The flags of a finite result beyond the range, R28. -/
def overflowFlags : Flags := flagOF ||| flagNX

/-- Raising flags; they stay until software writes ones over them (R30). -/
def raiseFlags (old new : Flags) : Flags := old ||| new

/-- A write of `v` to a register whose bits a written 1 clears, R11. -/
def clearOnes {n : Nat} (old v : BitVec n) : BitVec n := old &&& ~~~ v

end Sys2Proof.Machine
end

