-- ==== Sys2Proof/Syntax.lean ====
section
/-! DEFINITION. The instructions and device events of spec/opcode_table.json, one constructor per row, with the names their fields take (R40 to R58). -/

namespace Sys2Proof

/-- A register field of a W-form, s0 to s31 (R42, R43). -/
abbrev Reg := Fin 32

/-- A register field of an H-form, s0 to s15 (R44). -/
abbrev HReg := Fin 16

/-- The scopes of R8, in the order of their codes. -/
inductive Scope where
  | thread | core | cluster | group | device | system
deriving DecidableEq, Repr

/-- The orders of R9, in the order of their codes. -/
inductive Order where
  | relaxed | acquire | release | acqRel
deriving DecidableEq, Repr

/-- Access sizes of R43: 1, 2, 4 and 8 bytes. -/
inductive Size where
  | b | h | w | d
deriving DecidableEq, Repr

/-- The width bit W of R67, and the size bit of an atomic (R43): `w` is 32 bits, `d` is 64 bits. -/
inductive Width where
  | w | d
deriving DecidableEq, Repr

/-- The rounding codes of R25; code 7 is not one. -/
inductive Rnd where
  | rne | rtz | rdn | rup | rna | rod | rhd
deriving DecidableEq, Repr

/-- The float formats of R77 and R80 with their codes 0 to 7. -/
inductive FloatType where
  | f32 | f64 | bf16 | f16 | e4m3 | e5m2 | fp4 | e3m5
deriving DecidableEq, Repr

/-- The integer types of R80 with their codes 8 to 15. -/
inductive IntType where
  | i8 | n8 | i16 | n16 | i32 | n32 | i64 | n64
deriving DecidableEq, Repr

/-- The destination types of a conversion, R80. -/
inductive NumType where
  | float (f : FloatType)
  | int (t : IntType)
deriving DecidableEq, Repr

/-- The scalar formats of the arithmetic ops of R77. -/
inductive ScalarFmt where
  | f32 | f64
deriving DecidableEq, Repr

/-- The predicates of `fcmp`, R79. -/
inductive FPred where
  | eq | lt | le | un
deriving DecidableEq, Repr

/-- A neighbour offset of `cellkey`, R75. -/
inductive Delta where
  | zero | plus | minus
deriving DecidableEq, Repr

/-- The hints of `pref`, R95. -/
inductive Hint where
  | l1 | segment | mere
deriving DecidableEq, Repr

/-- The parts of a row that `evst` stores, R166. -/
inductive Part where
  | whole | lo | hi
deriving DecidableEq, Repr

/-- The ty field of a cell word, R50: signed, unsigned, float, raw. -/
inductive Ty where
  | i | n | f | r
deriving DecidableEq, Repr

/-- The four links of a tile, in the order of their codes (R51, R52). -/
inductive Link where
  | north | east | south | west
deriving DecidableEq, Repr

/-- The source codes of R51. -/
inductive Src where
  | tok | link (l : Link) | iter | lane | zero | c (n : Fin 8) | v (n : Fin 16)
deriving DecidableEq, Repr

/-- The target codes of R52. -/
inductive Tgt where
  | slotA (i : Fin 16) | slotB (i : Fin 16) | reg (n : Fin 16) | link (l : Link) | done | none | slotC (i : Fin 8)
deriving DecidableEq, Repr

/-- The agents that issue instructions: swarm threads, the sequencers of R59, and one instruction of one cell tile (R102). -/
inductive AgentId where
  | thread (core slot : Nat)
  | region (cl : Nat)
  | matrix (cl b : Nat)
  | epilogue (cl b : Nat)
  | copySeq (cl b : Nat)
  | tile (cl pos idx : Nat)
deriving DecidableEq, Repr

/-- An address generator: a memory-port tile of the module, or running copy n of a copy engine (R297). -/
inductive GenNode where
  | port (p : Nat)
  | copy (e n : Nat)
deriving DecidableEq, Repr

/-- What waits for Krany's fault service (R206, R297). -/
inductive FaultSite where
  | agent (a : AgentId)
  | node (g : GenNode)
  /-- The start or save of a task (R358, R368). -/
  | task (t : Nat)
deriving DecidableEq, Repr

/-- What a peer asks of a shared page (R325, R395). -/
inductive RemoteOp where
  | read | write | add | and | or | xor | min | max | minn | maxn | swap | fadd | fmin | fmax | cas (expected : Word) | incw
deriving DecidableEq, Repr

/-- What a host access reaches (R352, R387, R388). -/
inductive HostTarget where
  | memory (pa : Nat)
  | kickPage (q off : Nat)
  | register (off : Nat)
deriving DecidableEq, Repr

/-- A unit that is retired or restored (R408), by its number on the module. -/
inductive ModuleUnit where
  | cluster (n : Nat) | block (n : Nat) | core (n : Nat) | slice (n : Nat) | stack (n : Nat) | pseudoChannel (n : Nat) | lane (port : Nat)
deriving DecidableEq, Repr

/-- What flash holds beside the journal: the two copies of the configuration table, each with the number its signature is known by, and the images by offset, each by the number its digest is known by (R402). -/
structure FlashTables where
  tableA : Option (Vector (BitVec 64) 8 × Nat)
  tableB : Option (Vector (BitVec 64) 8 × Nat)
  images : List (Nat × Nat)
deriving DecidableEq, Repr

/-- What a boot finds outside the model: flash as service left it while the power was off, the pseudo-channels that fail training, the scale-up ports that train, and Krany's identifier and routes (R388, R392, R405). -/
structure BootInput where
  tables : Option FlashTables
  badChannels : List Nat
  ports : List Nat
  devid : Word
  routes : List (Nat × List Nat)
  /-- The stack or the port that the step under way goes on to train: it writes a record and does not end (R404). -/
  training : Option Nat
deriving DecidableEq, Repr

/-- One constructor per row of the table of operations and events.
The rows from `configFiring` on are events of the device: they have no encoding and are started by the agenda. -/
inductive Instr where
  /-- R67. -/
  | add (w : Width) (d a b : Reg)
  /-- R67. -/
  | sub (w : Width) (d a b : Reg)
  /-- R67. -/
  | and (d a b : Reg)
  /-- R67. -/
  | or (d a b : Reg)
  /-- R67. -/
  | xor (d a b : Reg)
  /-- R67. -/
  | andn (d a b : Reg)
  /-- R67. -/
  | shl (w : Width) (d a b : Reg)
  /-- R67. -/
  | shr (w : Width) (d a b : Reg)
  /-- R67. -/
  | sra (w : Width) (d a b : Reg)
  /-- R67. -/
  | min (w : Width) (d a b : Reg)
  /-- R67. -/
  | max (w : Width) (d a b : Reg)
  /-- R67. -/
  | minn (w : Width) (d a b : Reg)
  /-- R67. -/
  | maxn (w : Width) (d a b : Reg)
  /-- R67. -/
  | slt (w : Width) (d a b : Reg)
  /-- R67. -/
  | sltn (w : Width) (d a b : Reg)
  /-- R71. -/
  | sel (d a b : Reg)
  /-- R67. -/
  | mul (w : Width) (d a b : Reg)
  /-- R67. -/
  | mulh (w : Width) (d a b : Reg)
  /-- R67. -/
  | mulhn (w : Width) (d a b : Reg)
  /-- R69. -/
  | div (w : Width) (d a b : Reg)
  /-- R69. -/
  | divn (w : Width) (d a b : Reg)
  /-- R69. -/
  | rem (w : Width) (d a b : Reg)
  /-- R69. -/
  | remn (w : Width) (d a b : Reg)
  /-- R67. -/
  | clz (w : Width) (d a : Reg)
  /-- R67. -/
  | ctz (w : Width) (d a : Reg)
  /-- R67. -/
  | popc (w : Width) (d a : Reg)
  /-- R70. -/
  | bext (d a b : Reg)
  /-- R70. -/
  | bins (d a b : Reg)
  /-- R76. -/
  | cellkey (dx dy dz : Delta) (d a b : Reg)
  /-- R72. -/
  | addi (d a : Reg) (imm : BitVec 15)
  /-- R72. -/
  | andi (d a : Reg) (imm : BitVec 15)
  /-- R72. -/
  | ori (d a : Reg) (imm : BitVec 15)
  /-- R72. -/
  | xori (d a : Reg) (imm : BitVec 15)
  /-- R74. -/
  | shli (w : Width) (d a : Reg) (n : BitVec 6)
  /-- R74. -/
  | shri (w : Width) (d a : Reg) (n : BitVec 6)
  /-- R74. -/
  | srai (w : Width) (d a : Reg) (n : BitVec 6)
  /-- R73. -/
  | ldi (d : Reg) (imm : BitVec 15)
  /-- R73. -/
  | ldhi (d a : Reg) (imm : BitVec 15)
  /-- R84. -/
  | beq (a b : Reg) (off : BitVec 12)
  /-- R84. -/
  | bne (a b : Reg) (off : BitVec 12)
  /-- R84. -/
  | blt (a b : Reg) (off : BitVec 12)
  /-- R84. -/
  | bge (a b : Reg) (off : BitVec 12)
  /-- R84. -/
  | bltn (a b : Reg) (off : BitVec 12)
  /-- R84. -/
  | bgen (a b : Reg) (off : BitVec 12)
  /-- R84. -/
  | bz (a : Reg) (off : BitVec 12)
  /-- R84. -/
  | bnz (a : Reg) (off : BitVec 12)
  /-- R85. -/
  | jmp (off : BitVec 25)
  /-- R85. -/
  | jal (off : BitVec 25)
  /-- R86. -/
  | jalr (d a : Reg) (off : BitVec 14)
  /-- R87. -/
  | loop (d : Reg) (off : BitVec 14)
  /-- R89. -/
  | ld (z : Size) (o : Order) (sc : Scope) (d a : Reg) (off : BitVec 8)
  /-- R89. -/
  | lds (z : Size) (o : Order) (sc : Scope) (d a : Reg) (off : BitVec 8)
  /-- R89. -/
  | st (z : Size) (o : Order) (sc : Scope) (d a : Reg) (off : BitVec 8)
  /-- R94. -/
  | ldx (z : Size) (o : Order) (sc : Scope) (scaled : Bool) (d a b : Reg)
  /-- R94. -/
  | stx (z : Size) (o : Order) (sc : Scope) (scaled : Bool) (d a b : Reg)
  /-- R95. -/
  | pref (h : Hint) (scaled : Bool) (a b : Reg)
  /-- R94. -/
  | ldxSx (z : Size) (o : Order) (sc : Scope) (scaled : Bool) (d a b : Reg)
  /-- R181. -/
  | amoAdd (z : Width) (o : Order) (sc : Scope) (d a b : Reg)
  /-- R181. -/
  | amoAnd (z : Width) (o : Order) (sc : Scope) (d a b : Reg)
  /-- R181. -/
  | amoOr (z : Width) (o : Order) (sc : Scope) (d a b : Reg)
  /-- R181. -/
  | amoXor (z : Width) (o : Order) (sc : Scope) (d a b : Reg)
  /-- R181. -/
  | amoMin (z : Width) (o : Order) (sc : Scope) (d a b : Reg)
  /-- R181. -/
  | amoMax (z : Width) (o : Order) (sc : Scope) (d a b : Reg)
  /-- R181. -/
  | amoMinn (z : Width) (o : Order) (sc : Scope) (d a b : Reg)
  /-- R181. -/
  | amoMaxn (z : Width) (o : Order) (sc : Scope) (d a b : Reg)
  /-- R181. -/
  | amoSwap (z : Width) (o : Order) (sc : Scope) (d a b : Reg)
  /-- R181. -/
  | amoFadd (z : Width) (o : Order) (sc : Scope) (d a b : Reg)
  /-- R181. -/
  | amoFmin (z : Width) (o : Order) (sc : Scope) (d a b : Reg)
  /-- R181. -/
  | amoFmax (z : Width) (o : Order) (sc : Scope) (d a b : Reg)
  /-- R179. -/
  | aredAdd (z : Width) (o : Order) (sc : Scope) (a b : Reg)
  /-- R179. -/
  | aredAnd (z : Width) (o : Order) (sc : Scope) (a b : Reg)
  /-- R179. -/
  | aredOr (z : Width) (o : Order) (sc : Scope) (a b : Reg)
  /-- R179. -/
  | aredXor (z : Width) (o : Order) (sc : Scope) (a b : Reg)
  /-- R179. -/
  | aredMin (z : Width) (o : Order) (sc : Scope) (a b : Reg)
  /-- R179. -/
  | aredMax (z : Width) (o : Order) (sc : Scope) (a b : Reg)
  /-- R179. -/
  | aredMinn (z : Width) (o : Order) (sc : Scope) (a b : Reg)
  /-- R179. -/
  | aredMaxn (z : Width) (o : Order) (sc : Scope) (a b : Reg)
  /-- R179. -/
  | aredSwap (z : Width) (o : Order) (sc : Scope) (a b : Reg)
  /-- R179. -/
  | aredFadd (z : Width) (o : Order) (sc : Scope) (a b : Reg)
  /-- R179. -/
  | aredFmin (z : Width) (o : Order) (sc : Scope) (a b : Reg)
  /-- R179. -/
  | aredFmax (z : Width) (o : Order) (sc : Scope) (a b : Reg)
  /-- R180. -/
  | cas (z : Width) (o : Order) (sc : Scope) (d a b : Reg)
  /-- R180. -/
  | incw (z : Width) (o : Order) (sc : Scope) (d a b : Reg)
  /-- R185. -/
  | fence (o : Order) (sc : Scope) (d : Reg)
  /-- R185. -/
  | xfence (sc : Scope) (paths : BitVec 6) (d : Reg)
  /-- R187. -/
  | waitvEq (acq : Bool) (z : Width) (sc : Scope) (d a b : Reg)
  /-- R187. -/
  | waitvNe (acq : Bool) (z : Width) (sc : Scope) (d a b : Reg)
  /-- R187. -/
  | waitvLt (acq : Bool) (z : Width) (sc : Scope) (d a b : Reg)
  /-- R187. -/
  | waitvGe (acq : Bool) (z : Width) (sc : Scope) (d a b : Reg)
  /-- R190. -/
  | warm (d a : Reg)
  /-- R190. -/
  | wexp (d a b : Reg)
  /-- R192. -/
  | wwait (d a b : Reg)
  /-- R193. -/
  | wrd (status : Bool) (d a : Reg)
  /-- R193. -/
  | wdis (a : Reg)
  /-- R197. -/
  | cldec (o : Order) (sc : Scope) (d a b : Reg)
  /-- R197. -/
  | clpush (o : Order) (sc : Scope) (d a b : Reg)
  /-- R198. -/
  | clnext (o : Order) (sc : Scope)
  /-- R199. -/
  | renq (ack : Bool) (d a b : Reg)
  /-- R200. -/
  | qbind (off : Bool) (d a b : Reg)
  /-- R199. -/
  | launch (d a b : Reg)
  /-- R199. -/
  | trig
  /-- R374. -/
  | tkrec (d a : Reg)
  /-- R374. -/
  | tkplay (d a : Reg)
  /-- R374. -/
  | tkend (d a : Reg)
  /-- R373. -/
  | tkstat (counts : Bool) (d a : Reg)
  /-- R374. -/
  | tkdrop (d a : Reg)
  /-- R201. -/
  | tmset (d a : Reg)
  /-- R201. -/
  | tmget (d : Reg)
  /-- R202. -/
  | msend (d a b : Reg)
  /-- R202. -/
  | mrecv (nb : Bool) (d : Reg)
  /-- R201. -/
  | floor (d : Reg)
  /-- R201. -/
  | fljoin (a : Reg)
  /-- R208. -/
  | nop
  /-- R209. -/
  | halt
  /-- R208. -/
  | yield
  /-- R208. -/
  | brk
  /-- R208. -/
  | trap (n : BitVec 10)
  /-- R207. -/
  | eret
  /-- R211. -/
  | sysr (d : Reg) (n : BitVec 10)
  /-- R211. -/
  | sysw (d : Reg) (n : BitVec 10)
  /-- R210. -/
  | sleepc (p : Bool) (a : Reg)
  /-- R208. -/
  | rdcyc (d : Reg)
  /-- R145. -/
  | cpgo (d : Reg)
  /-- R147. -/
  | cpmx (d : Reg)
  /-- R148. -/
  | cpgath (d a b : Reg)
  /-- R148. -/
  | cpscat (d a b : Reg)
  /-- R149. -/
  | cpseal (d : Reg)
  /-- R149. -/
  | cpwaitb (n : BitVec 5)
  /-- R151. -/
  | cpdisc (a b : Reg)
  /-- R151. -/
  | cppre (a b : Reg)
  /-- R150. -/
  | cpstr (d a : Reg)
  /-- R150. -/
  | cpfree (a : Reg)
  /-- R158. -/
  | mxprog (i32 unload : Bool) (a : Reg)
  /-- R157. -/
  | mxmm (deferred : Bool) (slot : Fin 8) (acc : Fin 4) (b : Reg)
  /-- R159. -/
  | mxclr (acc : Fin 4) (b : Reg)
  /-- R159. -/
  | mxwait (all : Bool)
  /-- R164. -/
  | evacc (bs : Bool) (acc : Fin 4) (v : Fin 16) (a : Reg)
  /-- R165. -/
  | evld (v : Fin 16) (a b : Reg)
  /-- R166. -/
  | evst (part : Part) (v : Fin 16) (a b : Reg)
  /-- R167. -/
  | fork (d a b : Reg)
  /-- R168. -/
  | rdz (d a : Reg)
  /-- R170. -/
  | escr
  /-- R172. -/
  | cfgld (d a b : Reg)
  /-- R245. -/
  | cfgrun (a b : Reg)
  /-- R174. -/
  | cfgpatch (d a b : Reg)
  /-- R175. -/
  | cfgseam (off : Bool) (a : Reg)
  /-- R176. -/
  | cfgsync (sc : Scope)
  /-- R177. -/
  | cfgest (a : Reg)
  /-- R177. -/
  | cfgspawn (d a : Reg)
  /-- R177. -/
  | cfgjoin (d a : Reg)
  /-- R96. -/
  | oxli (x : Fin 8) (imm : BitVec 15)
  /-- R96. -/
  | oxmv (x : Fin 8) (a : Reg)
  /-- R96. -/
  | oxld (x : Fin 8) (a : Reg) (off : BitVec 15)
  /-- R53. -/
  | pfx (sat : Bool) (tgt2 : Tgt) (srcC : Src) (r : Rnd) (z : Bool) (k : Fin 8)
  /-- R78. -/
  | fadd (r : Rnd) (f : ScalarFmt) (d a b : Reg)
  /-- R78. -/
  | fsub (r : Rnd) (f : ScalarFmt) (d a b : Reg)
  /-- R78. -/
  | fmul (r : Rnd) (f : ScalarFmt) (d a b : Reg)
  /-- R78. -/
  | ffma (r : Rnd) (f : ScalarFmt) (d a b : Reg)
  /-- R78. -/
  | fdiv (r : Rnd) (f : ScalarFmt) (d a b : Reg)
  /-- R78. -/
  | fsqrt (r : Rnd) (f : ScalarFmt) (d a : Reg)
  /-- R78. -/
  | fmin (f : ScalarFmt) (d a b : Reg)
  /-- R78. -/
  | fmax (f : ScalarFmt) (d a b : Reg)
  /-- R79. -/
  | fcmp (p : FPred) (f : ScalarFmt) (d a b : Reg)
  /-- R81. -/
  | fcvt (r : Rnd) (src : FloatType) (dst : NumType) (d a : Reg)
  /-- R81. -/
  | fcvtInt (r : Rnd) (src : IntType) (dst : NumType) (d a : Reg)
  /-- R82. -/
  | fclass (f : ScalarFmt) (d a : Reg)
  /-- R45. -/
  | hAdd (d a : HReg)
  /-- R45. -/
  | hSub (d a : HReg)
  /-- R45. -/
  | hAnd (d a : HReg)
  /-- R45. -/
  | hOr (d a : HReg)
  /-- R45. -/
  | hXor (d a : HReg)
  /-- R45. -/
  | hShl (d a : HReg)
  /-- R45. -/
  | hShr (d a : HReg)
  /-- R45. -/
  | hSra (d a : HReg)
  /-- R45. -/
  | hMv (d a : HReg)
  /-- R45. -/
  | hMin (d a : HReg)
  /-- R45. -/
  | hMax (d a : HReg)
  /-- R45. -/
  | hMinn (d a : HReg)
  /-- R45. -/
  | hMaxn (d a : HReg)
  /-- R45. -/
  | hSlt (d a : HReg)
  /-- R45. -/
  | hSltn (d a : HReg)
  /-- R45. -/
  | hAndn (d a : HReg)
  /-- R45. -/
  | hAddi (d a : HReg) (imm : BitVec 3)
  /-- R45. -/
  | hLdi (d : HReg) (imm : BitVec 7)
  /-- R45. -/
  | hLdD (d a : HReg) (off : BitVec 3)
  /-- R45. -/
  | hStD (d a : HReg) (off : BitVec 3)
  /-- R45. -/
  | hLdW (d a : HReg) (off : BitVec 3)
  /-- R45. -/
  | hStW (d a : HReg) (off : BitVec 3)
  /-- R45. -/
  | hBz (d : HReg) (off : BitVec 7)
  /-- R45. -/
  | hBnz (d : HReg) (off : BitVec 7)
  /-- R45. -/
  | hJmp (off : BitVec 11)
  /-- R45. -/
  | hJalr (d a : HReg)
  /-- R45. -/
  | hNop
  /-- R45. -/
  | hHalt
  /-- R45. -/
  | hYield
  /-- R45. -/
  | hBrk
  /-- R129. -/
  | vmov (t1 t0 : Tgt) (a : Src)
  /-- R116. -/
  | vadd (y : Ty) (t1 t0 : Tgt) (b a : Src)
  /-- R116. -/
  | vsub (y : Ty) (t1 t0 : Tgt) (b a : Src)
  /-- R116. -/
  | vmul (y : Ty) (t1 t0 : Tgt) (b a : Src)
  /-- R116. -/
  | vmulh (y : Ty) (t1 t0 : Tgt) (b a : Src)
  /-- R116. -/
  | vfma (y : Ty) (t1 t0 : Tgt) (b a : Src)
  /-- R116. -/
  | vmin (y : Ty) (t1 t0 : Tgt) (b a : Src)
  /-- R116. -/
  | vmax (y : Ty) (t1 t0 : Tgt) (b a : Src)
  /-- R116. -/
  | vabs (y : Ty) (t1 t0 : Tgt) (a : Src)
  /-- R116. -/
  | vneg (y : Ty) (t1 t0 : Tgt) (a : Src)
  /-- R117. -/
  | vand (t1 t0 : Tgt) (b a : Src)
  /-- R117. -/
  | vor (t1 t0 : Tgt) (b a : Src)
  /-- R117. -/
  | vxor (t1 t0 : Tgt) (b a : Src)
  /-- R117. -/
  | vshl (t1 t0 : Tgt) (b a : Src)
  /-- R117. -/
  | vshr (t1 t0 : Tgt) (b a : Src)
  /-- R117. -/
  | vsra (t1 t0 : Tgt) (b a : Src)
  /-- R117. -/
  | vcmpeq (y : Ty) (t1 t0 : Tgt) (b a : Src)
  /-- R117. -/
  | vcmplt (y : Ty) (t1 t0 : Tgt) (b a : Src)
  /-- R117. -/
  | vcmple (y : Ty) (t1 t0 : Tgt) (b a : Src)
  /-- R117. -/
  | vsel (t1 t0 : Tgt) (b a : Src)
  /-- R121. -/
  | vcvt (y : Ty) (t1 t0 : Tgt) (a : Src)
  /-- R122. -/
  | vpack (y : Ty) (t1 t0 : Tgt) (b a : Src)
  /-- R122. -/
  | vunpk (y : Ty) (t1 t0 : Tgt) (b a : Src)
  /-- R124. -/
  | vscale (y : Ty) (t1 t0 : Tgt) (b a : Src)
  /-- R125. -/
  | vrcp (t1 t0 : Tgt) (a : Src)
  /-- R125. -/
  | vrsq (t1 t0 : Tgt) (a : Src)
  /-- R125. -/
  | vsqrt (t1 t0 : Tgt) (a : Src)
  /-- R125. -/
  | vexp2 (t1 t0 : Tgt) (a : Src)
  /-- R125. -/
  | vlog2 (t1 t0 : Tgt) (a : Src)
  /-- R126. -/
  | vacc (y : Ty) (t1 t0 : Tgt) (b a : Src)
  /-- R127. -/
  | vred (y : Ty) (t1 t0 : Tgt) (a : Src)
  /-- R128. -/
  | vscan (y : Ty) (t1 t0 : Tgt) (a : Src)
  /-- R129. -/
  | vsteer (t1 t0 : Tgt) (b a : Src)
  /-- R130. -/
  | vmerge (y : Ty) (t1 t0 : Tgt) (b a : Src)
  /-- R129. -/
  | vgate (t1 t0 : Tgt) (b a : Src)
  /-- R129. -/
  | vshuf (t1 t0 : Tgt) (b a : Src)
  /-- R129. -/
  | vbcast (t1 t0 : Tgt) (b a : Src)
  /-- R129. -/
  | vidx (t1 t0 : Tgt) (b a : Src)
  /-- R129. -/
  | vdrop (t1 t0 : Tgt) (a : Src)
  /-- R132. -/
  | esc (entry : Fin 4) (t1 t0 : Tgt) (a : Src)
  /-- R119. -/
  | vcfgt (y : Ty) (t1 t0 : Tgt) (a : Src)
  /-- R118. -/
  | configFiring (cl pos idx : Nat)
  /-- R105. -/
  | tokenDelivery (cl pos n : Nat)
  /-- R103. -/
  | creditReturn (cl pos n : Nat)
  /-- R268. -/
  | escapeDispatch (cl n core : Nat)
  /-- R269. -/
  | escapeQueueStart (cl core slot : Nat)
  /-- R133. -/
  | escapeReplyDelivery (cl pos idx ticket : Nat)
  /-- R246. -/
  | converge (cl : Nat)
  /-- R249. -/
  | nodeStart (node : Nat)
  /-- R261. -/
  | stallDetect (cl : Nat)
  /-- R253. -/
  | splitterDeal (cl stage : Nat)
  /-- R253. -/
  | mergerTake (cl stage : Nat)
  /-- R255. -/
  | stageHigh (cl stage : Nat)
  /-- R255. -/
  | stageLow (cl stage : Nat)
  /-- R255. -/
  | stageFenceMerge (cl stage : Nat)
  /-- R175. -/
  | seamStitch (cl port : Nat)
  /-- R174. -/
  | nodeReplace (cl pos idx : Nat)
  /-- R289. -/
  | portAccess (cl port : Nat)
  /-- R291. -/
  | portResponse (cl port : Nat)
  /-- R297. -/
  | wakeToken (g : GenNode)
  /-- R140. -/
  | copyStart (e : Nat)
  /-- R145. -/
  | copyElement (e n : Nat)
  /-- R152. -/
  | copyComplete (e n : Nat)
  /-- R150. -/
  | streamTileStart (e n : Nat)
  /-- R160. -/
  | landingNotice (blk slot : Nat)
  /-- R160. -/
  | deferredEnter (blk slot : Nat)
  /-- R161. -/
  | matrixFetchStart (blk : Nat)
  /-- R157. -/
  | matrixCommandComplete (blk : Nat)
  /-- R286. -/
  | bankctlWrite (cl bank : Nat) (v : Word)
  /-- R286. -/
  | bankSwitchComplete (cl bank : Nat)
  /-- R301. -/
  | weirCountNotice (n : Nat)
  /-- R306. -/
  | weirCredit (n : Nat)
  /-- R182. -/
  | lineEviction (cache line : Nat)
  /-- R295. -/
  | pageMove (task page frame : Nat)
  /-- R264. -/
  | threadWake (a : AgentId)
  /-- R187. -/
  | waitvReread (a : AgentId)
  /-- R206. -/
  | watchdogExpiry (a : AgentId)
  /-- R206. -/
  | pageFaultResolved (f : FaultSite) (pte : Word) (home : Option (Nat × Bool))
  /-- R271. -/
  | ringRefill (core : Nat)
  /-- R275. -/
  | floorPublish
  /-- R279. -/
  | regroup (core spare : Nat)
  /-- R353. -/
  | kick (q : Nat) (v : Word)
  /-- R356. -/
  | resume (q : Nat) (v : Word)
  /-- R355. -/
  | packetFetch (q : Nat)
  /-- R353. -/
  | queuePoll (q : Nat)
  /-- R358. -/
  | taskStart (q dataFrame queueFrame : Nat) (queueVa : Word)
  /-- R354. -/
  | noopComplete (q : Nat)
  /-- R359. -/
  | taskComplete (t : Nat)
  /-- R362. -/
  | tokenReplenish (q : Nat)
  /-- R363. -/
  | scheduleDecision (newcomer t : Nat)
  /-- R363. -/
  | drainTimeout (t : Nat)
  /-- R366. -/
  | checkpoint (t : Nat)
  /-- R369. -/
  | restore (t : Nat)
  /-- R363. -/
  | kill (t : Nat)
  /-- R370. -/
  | debugHalt (t : Nat)
  /-- R371. -/
  | debugStep (a : AgentId)
  /-- R370. -/
  | debugResume (t : Nat) (detach : Bool)
  /-- R387. -/
  | hostAccess (target : HostTarget) (write : Bool) (z : Size) (v : Word)
  /-- R390. -/
  | hostLinkRecovery (back : Bool)
  /-- R390. -/
  | hostLinkDown
  /-- R389. -/
  | ownershipChange (owner : Nat)
  /-- R325. -/
  | remoteRequest (src : Nat) (op : RemoteOp) (pa : Nat) (z : Size) (v : Word)
  /-- R199. -/
  | renqReceive (src q : Nat) (packet : Vector Word 8)
  /-- R395. -/
  | remoteReadMiss (dev page : Nat)
  /-- R396. -/
  | pageHandover (page home : Nat)
  /-- R397. -/
  | tombstoneForward (page n : Nat)
  /-- R397. -/
  | tombstoneRemove (page : Nat)
  /-- R398. -/
  | portRetrain (port : Nat)
  /-- R399. -/
  | portDown (port : Nat)
  /-- R388. -/
  | registerWrite (addr : Nat) (v : Word)
  /-- R403. -/
  | dykeWrite (n : Nat) (v : Word)
  /-- R402. -/
  | powerOn (b : BootInput)
  /-- R406. -/
  | attestChallenge (nonce : Nat)
  /-- R407. -/
  | firmwareRoll (image : Nat)
  /-- R408. -/
  | unitRetire (u : ModuleUnit) (back : Bool)
  /-- R409. -/
  | scrubUncorrectable (line : Nat)
  /-- R410. -/
  | thermalTrip
  /-- R65. -/
  | illegalInstruction
  /-- R297. -/
  | faultUnresolvable (f : FaultSite)
  /-- R351. -/
  | queueOpen (q : Nat) (desc : Vector Word 5)
  /-- R387. -/
  | hostSnoop (line : Nat)
  /-- R395. -/
  | readCopyInvalidate (page : Nat)
  /-- R404. -/
  | powerLoss (torn : Bool)
  /-- R401. -/
  | peerComeBack (dev : Nat)
deriving DecidableEq, Repr

end Sys2Proof
end

