-- ==== Sys2Proof/Machine/State.lean ====
section
/-! DEFINITION. The state of one module as plain data: every agent, engine, level of memory and record that the spec gives the machine, and its value after reset. -/

namespace Sys2Proof.Machine

/-! ## Names of the units -/

/-- A table from keys to records; a key that is not listed has the record a fresh unit has. -/
abbrev Tbl (κ α : Type) := List (κ × α)

/-- One entry of the agenda: `dt` cycles pass, then the turn is taken (log entry 1). -/
inductive Turn where
  /-- The barrel of a core picks a slot (R263). -/
  | core (c : Nat)
  /-- A sequencer issues (R97). -/
  | sequencer (a : AgentId)
  /-- A cell tile picks one ready instruction (R106). -/
  | tile (cl pos : Nat)
  /-- An event of the device. -/
  | event (e : Instr)
deriving DecidableEq, Repr

structure Item where
  dt : Nat
  turn : Turn
deriving DecidableEq, Repr

/-! ## Threads and sequencers (R59, R211) -/

/-- Why an agent sleeps (R60, R178, R206, R213). -/
inductive Wait where
  | chainInput | chainOutput | chainDrain
  | copyQueue | batches (n : Nat) | sealed | streams
  | matrixQueue | deferredSlot (slot : Nat) | matrixIdle (all : Bool) | accumulator (acc : Nat)
  | forkBlock (blk : Nat) | rendezvous (blk : Nat) | heldBlocks
  | load | run | patch | seam | sync | spawn | join (node : Nat)
  | value (line : Nat) | weir (n : Nat) (gen : BitVec 16)
  | codelet | overflow (core : Nat)
  | packetSlot (dest : Nat) | answer | inbox (core : Nat) | message | clock (till : Word)
  | page (va : Word) | recording (id : Nat) | bank (addr : Nat)
  /-- The store that started a mode switch of a bank, block × 32 + bank: it is performed when BUSY clears (R286). -/
  | bankSwitch (key : Nat) (store : Instr)
  /-- A shared page of another device, by its local frame (R395, R398). -/
  | remote (frame : Nat)
deriving DecidableEq, Repr

/-- The state of a slot or sequencer (R262); Spaced follows from the last issue cycle, and Frozen from the task's record. -/
inductive Status where
  | empty
  | ready
  | sleeping (w : Wait) (since : Nat)
  | halted
  | stopped
deriving DecidableEq, Repr

/-- Where a thread came from: a persistent thread of the launch (R267) or an escape (R132). -/
inductive Origin where
  | none
  | persistent (j : Nat)
  | escape (cl pos entry ticket : Nat)
deriving DecidableEq, Repr

/-- A copy by its engine and the order in which the engine accepted it. -/
structure CopyId where
  engine : Nat
  serial : Nat
deriving DecidableEq, Repr

/-- A trap of R206 as it is reported. -/
structure TrapRecord where
  cls : Nat
  epc : Word
  eval : Word
deriving DecidableEq, Repr

/-- The registers and waiting state of one thread or sequencer (R59, R211). -/
structure Hart where
  status : Status
  origin : Origin
  task : Option Nat
  x : Vector Word 32
  ox : Vector Word 8
  pc : Word
  fstat : Flags
  vtime : Word
  joined : Bool
  lookahead : Word
  tvec : Word
  epc : Word
  ecause : BitVec 16
  eval : Word
  escr : Word
  tmode : Bool
  codelet : Bool
  codeRet : Word
  wdog : Word
  tkfell : BitVec 16
  mxblk : Word
  held : List Nat
  openBatch : List CopyId
  sealedBatches : List (Nat × List CopyId)
  nextBatch : Word
  promises : List (CopyId × Word)
  /-- The neighbours of a bound chain: upstream and downstream core (R200). -/
  chain : Option (Option Nat × Option Nat)
  lastIssue : Option Nat
  /-- The cycle in which the agent last woke: a thread is Ready from the next one (R264). -/
  wokenAt : Option Nat
  yielded : List Nat
  /-- A departure trap that the next issue takes: instruction length and EVAL (R382). -/
  pendingTrap : Option (Nat × Word)
  /-- Further departure traps of the thread, which wait until it has left its handler (R382). -/
  laterTraps : List (Nat × Word)
  /-- The thread woke in `mrecv` and has not issued it again: it still counts as asleep for the floor (R203, R276). -/
  receiving : Bool
  stop : Option TrapRecord
deriving DecidableEq, Repr

/-- An agent that has not started: every register 0 but `MXBLK` (R59, R211, R267). -/
def Hart.fresh : Hart where
  status := .empty
  origin := .none
  task := none
  x := Vector.replicate 32 0
  ox := Vector.replicate 8 0
  pc := 0
  fstat := 0
  vtime := 0
  joined := false
  lookahead := 0
  tvec := 0
  epc := 0
  ecause := 0
  eval := 0
  escr := 0
  tmode := false
  codelet := false
  codeRet := 0
  wdog := 0
  tkfell := 0
  mxblk := BitVec.allOnes 64
  held := []
  openBatch := []
  sealedBatches := []
  nextBatch := 0
  promises := []
  chain := none
  lastIssue := none
  wokenAt := none
  yielded := []
  pendingTrap := none
  laterTraps := []
  receiving := false
  stop := none

/-- A slot or sequencer without a program: only the cycle of its last issue stands (R97, R263). -/
def vacantHart (h : Hart) : Hart := { Hart.fresh with lastIssue := h.lastIssue }

/-! ## Caches (R281, R326) -/

/-- One 64-byte line: its number, bytes, byte dirty mask and the versions at its fill. -/
structure Line where
  no : Nat
  data : Vector Byte 64
  dirty : BitVec 64
  versions : Vector (BitVec 6) 4
  /-- The task and recording whose push brought the line, until it has served a read (R373). -/
  pushed : Option (Nat × Nat)
  /-- The thread that last wrote one of the dirty bytes (R381). -/
  writer : Option (Nat × Nat)
  /-- The bytes that others have written at the segment cache, and at the home, since this line took them from there: a push of the line does not carry those writes (R324). -/
  missedSegment : BitVec 64
  missedHome : BitVec 64
deriving DecidableEq, Repr

/-- A clean line just filled. -/
def Line.filled (no : Nat) (data : Vector Byte 64) (versions : Vector (BitVec 6) 4) : Line :=
  ⟨no, data, 0, versions, none, none, 0, 0⟩

/-- A line that Trackway pushed and no acquire has made ordinary (R324): its recording, producer and consumer slot, and whether a write the push did not carry has been performed at the segment cache or at the home.
`freshL1` and `freshSegment` are the bytes that the producer's L1 and its segment cache hold and the push did not carry. -/
structure Held where
  no : Nat
  data : Vector Byte 64
  task : Nat
  id : Nat
  prodCore : Nat
  prodSlot : Nat
  consSlot : Nat
  freshL1 : BitVec 64
  freshSegment : BitVec 64
  staleSegment : Bool
  staleHome : Bool
deriving DecidableEq, Repr

/-- A cache with its version counters for cluster, group, device and system scope, in this order. -/
structure Cache where
  lines : List Line
  versions : Vector (BitVec 6) 4
deriving DecidableEq, Repr

def Cache.fresh : Cache := ⟨[], Vector.replicate 4 0⟩

/-! ## Cores and home segments (R262 to R280) -/

/-- An entry of a ready ring or overflow queue: entry address, argument, and the acquire that a weir's codelet carries (R307). -/
structure Codelet where
  entry : Word
  arg : Word
  acquire : Option Scope
deriving DecidableEq, Repr

/-- A message of an inbox: timestamp and 24 payload bytes (R201). -/
structure Message where
  stamp : Word
  p0 : Word
  p1 : Word
  p2 : Word
deriving DecidableEq, Repr

/-- A recording entry of R377 with its recorder. -/
structure TrackEntry where
  id : Nat
  line : Nat
  prodCore : Nat
  prodSlot : Nat
  consCore : Nat
  consSlot : Nat
  seq : BitVec 32
  /-- The segment cache keeps the entry, because the core's recorder was full (R378). -/
  inSegment : Bool
deriving DecidableEq, Repr

structure Core where
  lastSlot : Nat
  ring : List Codelet
  overflow : List Codelet
  /-- Pushes that the overflow queue has taken; push n stands at entry n mod 65,536 of its memory (R271). -/
  overflowed : Nat
  /-- Pushes of weirs that found the overflow queue full, each with its task: they wait for room as a pusher does (R191, R197). -/
  waitingPushes : List (Option Nat × Codelet)
  inbox : List Message
  /-- Values from the upstream neighbour with the first cycle in which each can be popped (R273). -/
  chain : List (Word × Nat)
  clovf : Word
  l1 : Cache
  held : List Held
  /-- The physical core that stands for this number after a regroup (R279). -/
  physical : Option Nat
  lastRefill : Option Nat
  /-- The cycle in which the core last issued (R263). -/
  issuedAt : Option Nat
deriving DecidableEq, Repr

/-- Slot 15 issued last, so that the search of R263 begins at slot 0 (log entry 2). -/
def Core.fresh : Core := ⟨15, [], [], 0, [], [], [], 0, Cache.fresh, [], none, none, none⟩

/-- A payload waiting for a slot (R132, R268, R269). -/
structure Escape where
  task : Nat
  cl : Nat
  pos : Nat
  idx : Nat
  entry : Nat
  ticket : Nat
  payload : Payload
  tag : BitVec 16
deriving DecidableEq, Repr

structure Segment where
  cache : Cache
  /-- Payloads parked and not yet dispatched (R257). -/
  parked : List Escape
  /-- The segment's escape queue of 256 entries (R269). -/
  escapes : List Escape
  /-- The class U queue of 64 entries (R277). -/
  reserved : List Escape
  wtrip : BitVec 64
deriving DecidableEq, Repr

def Segment.fresh : Segment := ⟨Cache.fresh, [], [], [], 0⟩

/-! ## Cell tiles (R64, R100 to R135, R243) -/

/-- A token, R100. -/
structure Token where
  payload : Payload
  config : Bool
  last : Bool
  tag : BitVec 16
deriving DecidableEq, Repr

/-- A token that has landed, with its landing cycle. -/
structure Landed where
  token : Token
  at_ : Nat
deriving DecidableEq, Repr

/-- One context of a tile: element width, flavours and group format, masks, constants and the sixteen slots (R243). -/
structure TileContext where
  loaded : Bool
  control : BitVec 64
  masks : Vector (BitVec 32) 8
  consts : Vector (BitVec 32) 8
  slots : Vector (BitVec 64) 16
  /-- The ticket that each escape entry issues next (R131). -/
  nextTicket : Vector Nat 4
deriving DecidableEq, Repr

def TileContext.fresh : TileContext :=
  ⟨false, 0, Vector.replicate 8 0, Vector.replicate 8 0, Vector.replicate 16 0, Vector.replicate 4 0⟩

/-- Where a result in flight goes. -/
inductive Dest where
  | slotA (i : Nat) | slotB (i : Nat) | slotC (i : Nat) | reg (n : Nat)
  /-- The input FIFO of the neighbour on this link (R105). -/
  | link (l : Link)
  | done
deriving DecidableEq, Repr

/-- A result on its way: the first cycle in which it can be used, and the instruction that sent it. -/
structure Flight where
  due : Nat
  dest : Dest
  token : Token
  from_ : Nat
deriving DecidableEq, Repr

/-- A parked escape (R131 to R133): the order in which its ticket was issued and the reply, with its earliest delivery cycle. -/
structure Ticket where
  idx : Nat
  entry : Nat
  ticket : Nat
  order : Nat
  token : Token
  reply : Option (Payload × Nat × Nat)
deriving DecidableEq, Repr

/-- A node that `cfgpatch` drains: the instruction, its new slot word and what must still be fired (R174). -/
structure Draining where
  ctx : Nat
  idx : Nat
  word : BitVec 64
  issuer : AgentId
  dest : Reg
  /-- Tokens of each link's FIFO that are still to be converted under the old code. -/
  links : Vector Nat 4
  /-- Tokens popped from each link since, whose credits are withheld. -/
  withheld : Vector Nat 4
deriving DecidableEq, Repr

structure Tile where
  v : Vector Payload 16
  i : Vector (BitVec 32) 4
  contexts : Vector TileContext 8
  slotA : Vector (Option Landed) 16
  slotB : Vector (Option Landed) 16
  slotC : Vector (Option Landed) 8
  fifo : Vector (List Landed) 4
  credits : Vector Nat 4
  /-- Credits on their way back, with the first cycle in which each counts (R103). -/
  creditsDue : List (Nat × Nat)
  flights : List Flight
  counts : Vector Nat 16
  mergeTag : Vector (BitVec 16) 16
  waits : Vector Nat 16
  readySince : Vector (Option Nat) 16
  /-- The cycle of the tile's last firing, and the slots that it consumed, which are empty from the next cycle on (R104). -/
  lastFired : Option Nat
  consumed : List Dest
  flags : Flags
  doneCount : Nat
  tickets : List Ticket
  nextOrder : Nat
  nextReply : Nat
  draining : Option Draining
deriving DecidableEq, Repr

def Tile.fresh : Tile where
  v := Vector.replicate 16 0
  i := Vector.replicate 4 0
  contexts := Vector.replicate 8 TileContext.fresh
  slotA := Vector.replicate 16 none
  slotB := Vector.replicate 16 none
  slotC := Vector.replicate 8 none
  fifo := Vector.replicate 4 []
  credits := Vector.replicate 4 0
  creditsDue := []
  flights := []
  counts := Vector.replicate 16 0
  mergeTag := Vector.replicate 16 0
  waits := Vector.replicate 16 0
  readySince := Vector.replicate 16 none
  lastFired := none
  consumed := []
  flags := 0
  doneCount := 0
  tickets := []
  nextOrder := 0
  nextReply := 0
  draining := none

/-! ## Copy engines (R140 to R152) -/

/-- What a command of a copy engine does. -/
inductive CopyKind where
  | tile
  | landing
  | gather (list : Word) (rows : Nat)
  | scatter (list : Word) (rows : Nat)
  | stream (slots : Nat)
  | discard (start len : Word)
  | prefetch (start len : Word)
deriving DecidableEq, Repr

/-- A fault record of R298. -/
structure FaultRecord where
  va : Word
  counters : List Nat
  tag : Nat
  fcode : Nat
  node : Nat
  kind : Nat
  engine : Nat
  state : Nat
  cause : Nat
deriving DecidableEq, Repr

structure Copy where
  id : CopyId
  owner : AgentId
  task : Nat
  kind : CopyKind
  /-- The descriptor as it stood in ox0 to ox7 at issue. -/
  desc : Vector Word 8
  /-- The copy sequence number of R140. -/
  number : Nat
  /-- The next element in loop order; of nibbles, the next pair. -/
  next : Nat
  /-- The index of the row under way of a gather or scatter, once it has been read (R148). -/
  index : Option Word
  /-- The values read of the element under way whose write has not been performed (R297). -/
  held : List Nat
  /-- Banks whose mode switch waits for this command, block × 32 + bank (R286). -/
  early : List Nat
  /-- Freed-slot streams: the stream's number, tiles started and slots freed (R150). -/
  stream : Nat
  started : Nat
  freed : Nat
  flags : Flags
  record : Option FaultRecord
deriving DecidableEq, Repr

structure CopyEngine where
  queue : List Copy
  running : List Copy
  strstat : BitVec 16
  /-- Copies accepted from each task (R140). -/
  counts : Tbl Nat Nat
  serial : Nat
deriving DecidableEq, Repr

def CopyEngine.fresh : CopyEngine := ⟨[], [], 0, [], 0⟩

/-! ## Matrix blocks (R153 to R170, R285, R286) -/

/-- A matrix command as captured at issue (R153, R155, R158, R159). -/
inductive MatrixOp where
  | program (i32 : Bool) (ops : Word)
  | unload
  | multiply (acc : Nat) (desc : Vector Word 6)
  | fill (acc : Nat) (pattern : BitVec 32)
deriving DecidableEq, Repr

structure MatrixCmd where
  op : MatrixOp
  owner : AgentId
  task : Nat
  /-- The fetch of its operands has started (R161). -/
  fetching : Bool
  /-- Every block of its MCAST has had a product at the head of its queue together with this one, and the operands were compared (R161). -/
  met : Bool
  /-- The blocks that one fetch of each operand feeds, as the comparison found them (R161). -/
  sharedA : List Nat
  sharedB : List Nat
  /-- A debugger's halt stopped the command inside its accumulator after this many groups: INFLIGHT and how far the partial value has come (R370). -/
  inflight : Option Nat
  /-- The rows of each operand as fetched, little-endian. -/
  rowsA : Option (List Nat)
  rowsB : Option (List Nat)
  /-- The tokens taken for an operand that comes over a link (R155). -/
  tokensA : List Payload
  tokensB : List Payload
  /-- Banks whose mode switch waits for this command, block × 32 + bank (R286). -/
  early : List Nat
deriving DecidableEq, Repr

/-- A deferred slot (R160). -/
structure Deferred where
  cmd : Option MatrixCmd
  need : Nat
  landed : Nat
  released : Bool
deriving DecidableEq, Repr

inductive BankMode where
  | scratch | cacheWay | fifo
deriving DecidableEq, Repr

/-- A bank's control register and FIFO entries (R285). -/
structure Bank where
  mode : BankMode
  busy : Option BankMode
  entries : List (Vector Byte 64)
  disc : Nat
deriving DecidableEq, Repr

def Bank.fresh : Bank := ⟨.scratch, none, [], 0⟩

structure Block where
  queue : List MatrixCmd
  slots : Vector Deferred 8
  /-- Released commands wait in the order of their release (R160). -/
  releases : List Nat
  program : Option (Bool × Word)
  /-- Rows of each accumulator, 128 columns of 32 bits; an unlisted row is 0. -/
  acc : Vector (Tbl Nat Row) 4
  /-- The last command that summed into the accumulator was an integer one (R36, R158, R164). -/
  accInt : Vector Bool 4
  /-- The link FIFOs of the footprint's input ports (R239). -/
  ports : Vector (List Landed) 8
  banks : Vector Bank 32
  ways : List Line
  holder : Option (Nat × Nat)
  forked : Bool
  discarded : Bool
  stopped : Bool
  owner : Option Nat
deriving DecidableEq, Repr

def Block.fresh : Block where
  queue := []
  slots := Vector.replicate 8 ⟨none, 0, 0, false⟩
  releases := []
  program := none
  acc := Vector.replicate 4 []
  accInt := Vector.replicate 4 false
  ports := Vector.replicate 8 []
  banks := Vector.replicate 32 Bank.fresh
  ways := []
  holder := none
  forked := false
  discarded := false
  stopped := false
  owner := none

/-- The registers that only an epilogue sequencer has (R59, R163, R27). -/
structure Epilogue where
  v : Vector Row 16
  c : Vector (BitVec 32) 8
  k : Vector (BitVec 128) 8
  i : Vector (BitVec 32) 4
  emode : BitVec 6
  stores : Nat
  row : Nat
deriving DecidableEq, Repr

/-- k0 is all ones and EMODE is 2; the rest is 0 (R59, R211). -/
def Epilogue.fresh : Epilogue where
  v := Vector.replicate 16 0
  c := Vector.replicate 8 0
  k := (Vector.replicate 8 0).set 0 (BitVec.allOnes 128)
  i := Vector.replicate 4 0
  emode := 2
  stores := 0
  row := 0

/-! ## Weirs (R188 to R194, R301 to R307) -/

inductive WeirState where
  | idle | armed | tripped
deriving DecidableEq, Repr

structure Weir where
  state : WeirState
  bal : Int
  par : BitVec 16
  gen : BitVec 16
  pastEnd : Bool
  late : Bool
  /-- ox0 to ox4 as captured at arming (R189). -/
  desc : Vector Word 5
  /-- The window as physical pieces: start and length (R301). -/
  window : List (Nat × Nat)
  task : Option Nat
deriving DecidableEq, Repr

def Weir.fresh : Weir := ⟨.idle, 0, 0, 0, false, false, Vector.replicate 5 0, [], none⟩

/-- A count notice or credit on its way to a weir: the slice or bank that sent it, and the bytes (R303, R306). -/
structure Notice where
  weir : Nat
  /-- The task that armed the weir, or whose engine sends the credit. -/
  task : Option Nat
  source : Nat
  bytes : Nat
deriving DecidableEq, Repr

/-! ## Trackway (20_trackway) -/

inductive TrackState where
  | none | recording | recorded | playing
deriving DecidableEq, Repr

/-- One recording identifier of one task (R373 to R383). -/
structure Track where
  state : TrackState
  base : Nat
  len : Nat
  threshold : Nat
  trapEnable : Bool
  deps : Nat
  fell : Bool
  spill : Bool
  lost : Bool
  pushed : Nat
  usedp : Nat
  iters : Nat
  entries : List TrackEntry
  /-- Threads with an open part, and their store sequences. -/
  parts : List ((Nat × Nat) × Nat)
  /-- The last writer of each physical line in the iteration, with its store sequence (R376). -/
  writers : List (Nat × (Nat × Nat) × Nat)
  /-- The iteration write tags (R381): the point (a cluster's segment cache, or 32 for the home) and physical line, and the thread. -/
  tags : List ((Nat × Nat) × (Nat × Nat))
deriving DecidableEq, Repr

def Track.fresh : Track :=
  ⟨.none, 0, 0, 0, false, 0, false, false, false, 0, 0, 0, [], [], [], []⟩

/-! ## Regions, contexts and controller nodes (08_fabric) -/

/-- An escape-table entry (R131, R242). -/
structure EscapeEntry where
  handler : Word
  pool : Nat
  ordered : Bool
  valid : Bool
deriving DecidableEq, Repr

/-- A loaded context of the lead region: its tables, tiles and port records (R242). -/
structure Loaded where
  escapes : Vector EscapeEntry 4
  stages : List Word
  tiles : List (Nat × Nat)
  ports : List (Nat × Vector Word 8)
deriving DecidableEq, Repr

/-- A run of a context slot (R245): the counts, the cycle in which it was started, the first cycle in which a tile may fire (R247), and the leaf node, if one started it. -/
structure Run where
  slot : Nat
  n : Vector Nat 4
  issued : Nat
  start : Nat
  node : Option Nat
  group : List Nat
deriving DecidableEq, Repr

/-- A stage of the running context (R252 to R255). -/
structure Stage where
  entry : Word
  active : Nat
  changing : Option Nat
  input : List Landed
  output : List Landed
  splitPos : Nat
  mergePos : Nat
  /-- Fences still to be sent, to replicas from this one on, before dealing under the new count. -/
  fencesLeft : Nat
  highSince : Option Nat
  lowSince : Option Nat
  /-- Credits the splitter holds for the entry link of each replica, and for the drain link. -/
  entryCredits : Vector Nat 8
  drainCredits : Nat
  /-- Credits on their way back, each with the first cycle in which it counts: of the entry link of a replica, or with 8 of the drain link (R103). -/
  creditsDue : List (Nat × Nat)
  /-- Tokens on the exit link of each replica. -/
  exits : Vector (List Landed) 8
deriving DecidableEq, Repr

structure Region where
  loaded : Vector (Option Loaded) 8
  run : Option Run
  /-- The lead whose run this region takes part in (R256). -/
  lead : Option Nat
  lastConverged : Option Nat
  /-- The cause and LEFT of a run that ended without converging (R250). -/
  failed : Option (Nat × Bool)
  frozen : Bool
  progress : Nat
  stitched : BitVec 32
  seamAsk : Option (BitVec 32 × Bool)
  stepCredits : Nat
  stages : List Stage
  node : Option Nat
deriving DecidableEq, Repr

def Region.fresh : Region where
  loaded := Vector.replicate 8 none
  run := none
  lead := none
  lastConverged := none
  failed := none
  frozen := false
  progress := 0
  stitched := 0
  seamAsk := none
  stepCredits := 0
  stages := []
  node := none

/-- How far a controller node has come (R249). -/
inductive NodePhase where
  | waiting
  /-- A gated leaf that has consumed its step credit and waits for its image (R249). -/
  | loading
  | running
  | ended (status : Word)
deriving DecidableEq, Repr

/-- A controller node (R248 to R250): for an inner node, the runs started and ended of each child. -/
structure Node where
  desc : Vector Word 4
  task : Nat
  parent : Option (Nat × Nat)
  spawner : Option AgentId
  phase : NodePhase
  started : List Nat
  ended : List Nat
  left : Bool
deriving DecidableEq, Repr

/-- A memory-port tile (R288 to R299). -/
structure Port where
  record : Option (Vector Word 8)
  next : Nat
  input : List Landed
  buffer : List Token
  credits : Nat
  creditsDue : List Nat
  taken : Nat
  /-- The accesses whose tokens the tile has not all taken, by the tokens that are left, the earliest first (R290). -/
  owed : List Nat
  first : Option Token
  fault : Option FaultRecord
deriving DecidableEq, Repr

def Port.fresh : Port := ⟨none, 0, [], [], 4, [], 0, [], none, none⟩

/-! ## Queues and tasks (18_queues, 19_scheduling) -/

inductive QueueState where
  | idle | fetching | waiting | error
deriving DecidableEq, Repr

/-- A command queue (R351 to R356, R362). -/
structure Queue where
  opened : Bool
  desc : Vector Word 5
  wmax : Nat
  rd : Nat
  state : QueueState
  pending : Option Nat
  balance : Nat
  tokenSince : Nat
  pollSince : Nat
deriving DecidableEq, Repr

def Queue.fresh : Queue := ⟨false, Vector.replicate 5 0, 0, 0, .idle, none, 0, 0, 0⟩

inductive TaskPhase where
  /-- Accepted and waiting to start (R355, R361). -/
  | accepted
  | running
  /-- Frozen by a save that waits for a page of its area (R368). -/
  | saving
  /-- Saved by a checkpoint (R366). -/
  | saved
  | done
deriving DecidableEq, Repr

/-- The actions of R363. -/
inductive Action where
  | none | drain | checkpoint | kill
deriving DecidableEq, Repr

/-- A packet that a queue accepted, with its descriptor and its course (R354, R357 to R363). -/
structure Task where
  queue : Nat
  index : Nat
  packet : Vector Word 8
  desc : Vector Word 24
  /-- For each declared cluster, its core mask and the reserved escape slots of its cores (R357). -/
  cores : List (Nat × Word × List Nat)
  /-- The sections of the image, if its header is valid: kind, offset, size and link address (R411). -/
  image : Option (List (Nat × Word × Word × Word))
  /-- LEN of the image's header. -/
  imageLen : Nat
  /-- The slots of each core that R277 reserves for this task's escapes, as a mask, from its start on. -/
  reserved : Tbl Nat Nat
  noop : Bool
  phase : TaskPhase
  cause : Nat
  left : Bool
  discarded : Bool
  streamsLeft : Bool
  variant : Option Nat
  acceptedAt : Nat
  savedAt : Nat
  /-- The page that the task's start or save waits for (R206, R368). -/
  waitPage : Option Word
  /-- That page cannot be mapped. -/
  pageLost : Bool
  estimate : Nat
  estimateAt : Nat
  trig : Bool
  /-- The scheduling record: the last action decided (R363). -/
  action : Action
  /-- When it was decided, until a save has carried it out. -/
  decidedAt : Option Nat
  /-- The limit L of the last decision, in cycles (R363). -/
  limit : Nat
  finalDrain : Bool
  spent : Bool
  debugHalted : Bool
  /-- The thread or sequencer that a debugger steps (R371). -/
  stepping : Option AgentId
  /-- Every agent of the task was stopped where it stands, until the task completes (R297, R409). -/
  stopped : Bool
  /-- FREEZE and EST of the last save: the chip clock and E at the end of phase 1 (R367). -/
  frozenAt : Nat
  frozenEst : Nat
  /-- The task is launched again on another variant, without the units that were retired (R279, R408). -/
  relaunched : Bool
  /-- Since when the agents have been frozen by a debugger or a save, whose cycles do not count (R213, R261, R368). -/
  heldSince : Option Nat
  /-- The newcomer of the last decision, and those whose pre-emption ended in a final drain (R368). -/
  preempter : Option Nat
  finalFor : List Nat
deriving DecidableEq, Repr

/-- What a checkpoint holds of the units of a task (R366), and the bytes of its local memories and banks. -/
structure Snapshot where
  task : Nat
  harts : Tbl AgentId Hart
  cores : Tbl Nat Core
  segments : Tbl Nat Segment
  tiles : Tbl (Nat × Nat) Tile
  regions : Tbl Nat Region
  ports : Tbl Nat Port
  nodes : Tbl Nat Node
  blocks : Tbl Nat Block
  epilogues : Tbl Nat Epilogue
  engines : Tbl Nat CopyEngine
  weirs : Tbl Nat Weir
  tracks : Tbl (Nat × Nat) Track
  /-- Landing and freed-slot notices that were on their way at the freeze (R178). -/
  landings : List (Nat × Nat)
  freed : List Nat
  bytes : List Host.Cell
deriving DecidableEq, Repr

/-- What Krany and the device report outside the module (R352, R355, R363, R409). -/
inductive Report where
  | msix (vector : Nat)
  | threadStopped (a : AgentId) (r : TrapRecord)
  | escapeLost (cl : Nat)
  | writeDropped
  | regionStalled (cl : Nat)
  | runFailed (cl cause : Nat)
  | addressFault (r : FaultRecord)
  | uncorrectable (line : Nat)
  | corrected (count : Nat)
  | scheduled (task : Nat) (a : Action)
  | attestation (meas : Vector (BitVec 256) 8) (nonce : Nat) (signature : BitVec 62848)
  | hostAbort
  | hostData (v : Word)
  | peerData (dev : Nat) (v : Word)
  | peerAnswer (dev status : Nat)
  /-- A peer's access that a Dyke window does not allow (R403). -/
  | peerRefused (dev addr : Nat)
  | forwarded (dev : Nat) (addr : Nat)
deriving DecidableEq, Repr
/-! ## Host link, peers and shared pages (22_links) -/

inductive LinkState where
  | up | recovery | down
deriving DecidableEq, Repr

/-- A `renq` packet that has left and is not acknowledged (R393, R199). -/
structure Renq where
  dest : Nat
  queue : Nat
  packet : Vector Word 8
  sender : AgentId
  task : Option Nat
  va : Word
  ack : Bool
  /-- The register that takes the status of an acknowledged packet. -/
  dest_ : Reg
  /-- The instruction that sent it, and its address. -/
  instr : Instr
  pc : Word
  /-- The status of a packet whose credit has come back, until its sender takes it. -/
  answer : Option Nat
  /-- The sender's thread or task has ended, or a handler passed its instruction over: nobody takes the status. -/
  gone : Bool
  /-- It was sent by a trap handler. -/
  handler : Bool
  /-- It was sent while every port to the peer retrained, and has not left yet (R398). -/
  waiting : Bool
deriving DecidableEq, Repr

/-- A posted write to a peer that is not acknowledged (R186, R399). -/
structure Posted where
  peer : Nat
  /-- The agent, for a copy the one that issued it, or none for a write of the front end. -/
  agent : Option AgentId
  task : Option Nat
  va : Word
  bytes : Nat
  /-- The local frame that stands for the peer's page (R397). -/
  frame : Nat
  /-- The peer was declared down first; the next system-scope fence reports it (R186). -/
  lost : Bool
  /-- It was issued while every port to the peer retrained, and has not left yet (R398). -/
  waiting : Bool
  /-- The agent's thread has ended: no fence reports the write any more. -/
  gone : Bool
  /-- The agents that acquired the completion of the write's agent: their `xfence` waits for it (R185). -/
  acquired : List AgentId
deriving DecidableEq, Repr

/-- A request that a tombstone forwarded, or that waits at a moving page (R396, R397). -/
structure Remote where
  source : Nat
  op : RemoteOp
  addr : Nat
  size : Size
  value : Word
deriving DecidableEq, Repr

/-- The home entry of a shared frame (R394 to R397). -/
structure HomeEntry where
  home : Nat
  coherent : Bool
  /-- Other devices that hold a read copy, where this device is the home. -/
  copies : List Nat
  /-- This device, not the home, holds a read copy. -/
  copy : Bool
  moving : Bool
  tombstone : Option Nat
  held : List Remote
  /-- The device to which a page on the move goes (R396), or of a page homed elsewhere the new home that this device has learnt of and sends nothing to until the old one has answered every request (R397). -/
  next : Option Nat
deriving DecidableEq, Repr

/-- A write of the front end or of the link error ring that waits: for the host link, a port, or a page on the move (R390, R396, R398). -/
structure FrontWrite where
  addr : Nat
  shared : Bool
  words : List Word
  /-- The task that it is for, and the virtual address. -/
  task : Option Nat
  va : Word
  /-- It is a record of the link error ring. -/
  ring : Bool
  /-- The MSI-X notice that follows it (R356, R359, R400). -/
  notice : Option Nat
  /-- The root through which the virtual address is still to be translated, where a table cannot be read yet. -/
  root : Option Nat
  /-- The task whose release it follows (R359). -/
  after : Option Nat
deriving DecidableEq, Repr

/-- The registers of BAR2 (R388). -/
structure LinkRegs where
  devid : Word
  lebase : Word
  lectl : Word
  lewidx : Word
  leridx : Word
  ledrop : Word
deriving DecidableEq, Repr

inductive PortState where
  | up
  | retraining (since : Nat)
  | down
deriving DecidableEq, Repr
/-! ## Boot, firmware and service (23_service) -/

inductive Phase where
  | off
  /-- The boot step under way (R405). -/
  | booting (step : Nat)
  | running | recovery
deriving DecidableEq, Repr

/-- A journal record (R404); a torn record reads as STATE 1. -/
structure Journal where
  step : Nat
  state : Nat
  boot : Nat
  detail : Nat
  crc : BitVec 32
deriving DecidableEq, Repr

structure Flash where
  tables : FlashTables
  journal : List Journal
deriving DecidableEq, Repr

structure Service where
  phase : Phase
  boot : Nat
  flash : Flash
  /-- The configuration table in use. -/
  table : Option (Vector Word 8)
  /-- First cores and width of the firmware and standby columns. -/
  column : Nat
  standby : Nat
  width : Nat
  /-- Roles that have moved in the roll under way, the latest first (R407). -/
  rolled : List Nat
  meas : Vector (BitVec 256) 8
  dyke : Vector (Word × Word) 16
  /-- Units that are not enabled, by the bit numbers of R360, and from 2,592 on the pseudo-channels (R408). -/
  retired : List Nat
  /-- Units on their way to being retired (R360, R408). -/
  draining : List Nat
  signature : Word
  owner : Nat
  host : LinkState
  /-- Kicks and resumes held while the host link is in recovery (R390). -/
  heldKicks : List (Nat × Bool × Word)
  poison : List Nat
  /-- Errors that the codes corrected, as telemetry counts them (R409). -/
  corrected : Nat
  debugger : Bool
  floor : Word
  floorAt : Option Nat
  firmwareImage : Option Nat
deriving DecidableEq, Repr

/-- Nothing is in flash, and no boot has run (log entry 2); the host link comes up with boot step 6 (R405). -/
def Service.fresh : Service where
  phase := .off
  boot := 0
  flash := ⟨⟨none, none, []⟩, []⟩
  table := none
  column := 0
  standby := 0
  width := 0
  rolled := []
  meas := Vector.replicate 8 0
  dyke := Vector.replicate 16 (0, 0)
  retired := []
  draining := []
  signature := 0
  owner := 0
  host := .down
  heldKicks := []
  poison := []
  corrected := 0
  debugger := false
  floor := BitVec.allOnes 64
  floorAt := none
  firmwareImage := none

/-! ## The module -/

/-- Why a step has no next state. -/
inductive Fault where
  /-- An item of the agenda, an event or `cur` names a unit that the module does not have (R1).
  Raised by `step` and by the events' meanings; safe: the hardware has no such unit to act. -/
  | noSuchUnit
deriving DecidableEq, Repr

/-- Why an instruction has no meaning. -/
inductive Refusal where
  /-- The instruction has no meaning in this model yet; raised by `exec` alone; safe. -/
  | notModelled (mnemonic : String)
deriving DecidableEq, Repr

structure State where
  /-- The chip clock, R6. -/
  clock : Nat
  /-- The model's own counter of free values (log entry 4). -/
  freeCtr : Nat
  /-- The agent whose instruction `exec` runs (log entry 1). -/
  cur : AgentId
  agenda : List Item
  turn : Turn
  harts : Tbl AgentId Hart
  cores : Tbl Nat Core
  segments : Tbl Nat Segment
  tiles : Tbl (Nat × Nat) Tile
  engines : Tbl Nat CopyEngine
  /-- Freed-slot notices on their way, by stream handle (R150, R300). -/
  freed : List Nat
  /-- Landing notices on their way: block and deferred slot (R147, R160). -/
  landings : List (Nat × Nat)
  blocks : Tbl Nat Block
  epilogues : Tbl Nat Epilogue
  weirs : Tbl Nat Weir
  notices : List Notice
  credits : List Notice
  tracks : Tbl (Nat × Nat) Track
  /-- HBM, host memory, scratch banks and local memories: bytes that are not 0, addresses rising. -/
  mem : List Host.Cell
  /-- The lines that the mere slices hold (R281). -/
  mere : List Line
  regions : Tbl Nat Region
  ports : Tbl Nat Port
  nodes : Tbl Nat Node
  nextNode : Nat
  queues : Tbl Nat Queue
  tasks : Tbl Nat Task
  nextTask : Nat
  /-- What the checkpoint of a task holds, by task, until it is restored or ends (R366). -/
  saves : Tbl Nat Snapshot
  /-- Pages that Krany has mapped beside the task's tables (R206, R358, R412): task, virtual page, frame and entry bits. -/
  maps : List (Nat × Nat × Word)
  reports : List Report
  links : LinkRegs
  scaleUp : Tbl Nat PortState
  /-- The routing table of R392: identifiers and the ports that lead to each. -/
  routes : Tbl Nat (List Nat)
  /-- Peers that were declared down, each with the port that went down (R399, R400). -/
  peersDown : Tbl Nat Nat
  frontWrites : List FrontWrite
  renqCredits : Tbl Nat Nat
  renqs : List Renq
  posted : List Posted
  homes : Tbl Nat HomeEntry
  service : Service
deriving DecidableEq, Repr

/-- The module right after power-on reset, before the boot steps of R402: nothing is held and nothing has started. -/
def State.reset : State where
  clock := 0
  freeCtr := 0
  cur := .thread 0 0
  agenda := []
  turn := .core 0
  harts := []
  cores := []
  segments := []
  tiles := []
  engines := []
  freed := []
  landings := []
  blocks := []
  epilogues := []
  weirs := []
  notices := []
  credits := []
  tracks := []
  mem := []
  mere := []
  regions := []
  ports := []
  nodes := []
  nextNode := 0
  queues := []
  tasks := []
  nextTask := 0
  saves := []
  maps := []
  reports := []
  links := ⟨0, 0, 0, 0, 0, 0⟩
  scaleUp := []
  routes := []
  peersDown := []
  frontWrites := []
  renqCredits := []
  renqs := []
  posted := []
  homes := []
  service := Service.fresh

end Sys2Proof.Machine
end

