-- ==== Sys2Proof/Machine/Tables.lean ====
section
/-! DEFINITION. Looking a unit up in its table and putting it back: the accessors through which every meaning reads and writes State. -/

namespace Sys2Proof.Machine

/-- The record of a key, or `d` where none is listed. -/
def tget {κ α : Type} [DecidableEq κ] (d : α) (k : κ) : Tbl κ α → α
  | [] => d
  | (k', v) :: r => if k' = k then v else tget d k r

/-- The table with the record of `k` replaced, or added at the end. -/
def tset {κ α : Type} [DecidableEq κ] (k : κ) (v : α) : Tbl κ α → Tbl κ α
  | [] => [(k, v)]
  | (k', v') :: r => if k' = k then (k, v) :: r else (k', v') :: tset k v r

/-- The record of a key that may be missing. -/
def tfind {κ α : Type} [DecidableEq κ] (k : κ) : Tbl κ α → Option α
  | [] => none
  | (k', v) :: r => if k' = k then some v else tfind k r

/-- The table without a key. -/
def tdrop {κ α : Type} [DecidableEq κ] (k : κ) (t : Tbl κ α) : Tbl κ α := t.filter fun p => p.1 ≠ k

/-- An element of a list by number, or `d`. -/
def nth {α : Type} (d : α) : List α → Nat → α
  | [], _ => d
  | a :: _, 0 => a
  | _ :: r, n + 1 => nth d r n

/-- The element of a list by number, if it is there. -/
def nth? {α : Type} : List α → Nat → Option α
  | [], _ => none
  | a :: _, 0 => some a
  | _ :: r, n + 1 => nth? r n

/-- The list with one element replaced. -/
def setNth {α : Type} : List α → Nat → α → List α
  | [], _, _ => []
  | _ :: r, 0, v => v :: r
  | a :: r, n + 1, v => a :: setNth r n v

/-- The list without one element. -/
def dropNth {α : Type} : List α → Nat → List α
  | [], _ => []
  | _ :: r, 0 => r
  | a :: r, n + 1 => a :: dropNth r n

/-- An element of a vector by a number, or `d` past its end. -/
def vget {α : Type} {n : Nat} (d : α) (v : Vector α n) (k : Nat) : α := v[k]?.getD d

/-- The vector with the element at a number replaced; nothing past its end. -/
def vset {α : Type} {n : Nat} (v : Vector α n) (k : Nat) (x : α) : Vector α n := v.setIfInBounds k x

/-! ## Numbers of units (R1, R141, R167, R188, R237, R240, R265) -/

def numClusters : Nat := 32
def numCores : Nat := 2048
/-- The cluster whose home segment holds a core. -/
def coreCluster (c : Nat) : Nat := c / 64
/-- A block handle of R167: (cluster << 3) | block. -/
def blockNo (cl b : Nat) : Nat := 8 * cl + b
/-- A weir of the module: cluster and w0 to w63. -/
def weirNo (cl w : Nat) : Nat := 64 * cl + w
/-- A memory-port tile of the module: cluster, edge and index. -/
def portNo (cl edge idx : Nat) : Nat := 32 * cl + 16 * edge + idx

end Sys2Proof.Machine

namespace Sys2Proof

/-- The cluster an agent lies in (R315). -/
def AgentId.cluster : AgentId → Nat
  | .thread c _ => Machine.coreCluster c
  | .region cl | .matrix cl _ | .epilogue cl _ | .copySeq cl _ | .tile cl _ _ => cl

/-- The copy engine of an agent (R140, R141). -/
def AgentId.engine : AgentId → Nat
  | .thread c _ => 256 + Machine.coreCluster c
  | .region cl | .tile cl _ _ => 256 + cl
  | .matrix cl b | .epilogue cl b | .copySeq cl b => 8 * cl + b

/-- An agent is a swarm thread. -/
def AgentId.isThread : AgentId → Bool
  | .thread _ _ => true
  | .region _ | .matrix _ _ | .epilogue _ _ | .copySeq _ _ | .tile _ _ _ => false

/-- A unit of the module (R1). -/
def AgentId.exists : AgentId → Bool
  | .thread c sl => c < 2048 && sl < 16
  | .region cl => cl < 32
  | .matrix cl b | .epilogue cl b | .copySeq cl b => cl < 32 && b < 8
  | .tile cl pos idx => cl < 32 && pos < 256 && idx < 16

end Sys2Proof

namespace Sys2Proof.Machine

/-! ## Accessors -/

namespace State

def hart (s : State) (a : AgentId) : Hart := tget Hart.fresh a s.harts
def setHart (s : State) (a : AgentId) (h : Hart) : State := { s with harts := tset a h s.harts }
def core (s : State) (c : Nat) : Core := tget Core.fresh c s.cores
def setCore (s : State) (c : Nat) (k : Core) : State := { s with cores := tset c k s.cores }
def segment (s : State) (cl : Nat) : Segment := tget Segment.fresh cl s.segments
def setSegment (s : State) (cl : Nat) (g : Segment) : State := { s with segments := tset cl g s.segments }
def tile (s : State) (cl pos : Nat) : Tile := tget Tile.fresh (cl, pos) s.tiles
def setTile (s : State) (cl pos : Nat) (t : Tile) : State := { s with tiles := tset (cl, pos) t s.tiles }
def engine (s : State) (e : Nat) : CopyEngine := tget CopyEngine.fresh e s.engines
def setEngine (s : State) (e : Nat) (c : CopyEngine) : State := { s with engines := tset e c s.engines }
def block (s : State) (b : Nat) : Block := tget Block.fresh b s.blocks
def setBlock (s : State) (b : Nat) (k : Block) : State := { s with blocks := tset b k s.blocks }
def epilogue (s : State) (b : Nat) : Epilogue := tget Epilogue.fresh b s.epilogues
def setEpilogue (s : State) (b : Nat) (e : Epilogue) : State := { s with epilogues := tset b e s.epilogues }
def weir (s : State) (w : Nat) : Weir := tget Weir.fresh w s.weirs
def setWeir (s : State) (w : Nat) (x : Weir) : State := { s with weirs := tset w x s.weirs }
def track (s : State) (task id : Nat) : Track := tget Track.fresh (task, id) s.tracks
def setTrack (s : State) (task id : Nat) (t : Track) : State := { s with tracks := tset (task, id) t s.tracks }
def region (s : State) (cl : Nat) : Region := tget Region.fresh cl s.regions
def setRegion (s : State) (cl : Nat) (r : Region) : State := { s with regions := tset cl r s.regions }
def port (s : State) (p : Nat) : Port := tget Port.fresh p s.ports
def setPort (s : State) (p : Nat) (x : Port) : State := { s with ports := tset p x s.ports }
def node (s : State) (n : Nat) : Option Node := tfind n s.nodes
def setNode (s : State) (n : Nat) (x : Node) : State := { s with nodes := tset n x s.nodes }
def queue (s : State) (q : Nat) : Queue := tget Queue.fresh q s.queues
def setQueue (s : State) (q : Nat) (x : Queue) : State := { s with queues := tset q x s.queues }
def task (s : State) (t : Nat) : Option Task := tfind t s.tasks
def setTask (s : State) (t : Nat) (x : Task) : State := { s with tasks := tset t x s.tasks }
def scalePort (s : State) (p : Nat) : PortState := tget .down p s.scaleUp
def report (s : State) (r : Report) : State := { s with reports := s.reports ++ [r] }

/-- The hart of the agent that runs. -/
def me (s : State) : Hart := s.hart s.cur
def setMe (s : State) (h : Hart) : State := s.setHart s.cur h

/-- The task of the agent that runs. -/
def myTask (s : State) : Option Task :=
  match s.me.task with
  | some t => s.task t
  | none => none

/-- A free value and the counter advanced past it (log entry 4). -/
def bumpFree (s : State) : State := { s with freeCtr := s.freeCtr + 1 }

end State

/-- A task whose engines run: it has started, no save or fault holds it, and a debugger that halted it steps one of its agents (R371). -/
def taskRuns (s : State) (t : Nat) : Bool :=
  match s.task t with
  | some k => k.phase = .running && !k.stopped && (!k.debugHalted || k.stepping.isSome)
  | none => false

/-- An agent that may issue; while a debugger steps one agent, the sequencers of the matrix blocks run with the engines (R371). -/
def agentRuns (s : State) (a : AgentId) : Bool :=
  match (s.hart a).task.bind s.task with
  | none => false
  | some k =>
    k.phase = .running && !k.stopped && (!k.debugHalted || match k.stepping, a with
      | none, _ => false
      | some _, .matrix _ _ | some _, .epilogue _ _ | some _, .copySeq _ _ => true
      | some b, .thread _ _ | some b, .region _ | some b, .tile _ _ _ => a = b)

/-! ## Fields of a task descriptor (R357) -/

/-- The clusters a mask names, ascending. -/
def clustersOf (mask : Nat) : List Nat := (List.range 32).filter fun c => mask.testBit c

namespace Task

def word (t : Task) (n : Nat) : Word := vget 0 t.desc n
def root (t : Task) : Nat := (t.word 0).toNat
def threadsPerSegment (t : Task) : Nat := (t.word 1).toNat / 2 ^ 48
def blockMask (t : Task) : Nat := (t.word 1).toNat / 2 ^ 32 % 2 ^ 8
def clusterMask (t : Task) : Nat := (t.word 1).toNat % 2 ^ 32
/-- A task holds its units from its start until it ends or is saved. -/
def holds (t : Task) : Bool := t.phase = .running || t.phase = .saving
/-- A launch or saved task that waits for its units. -/
def waits (t : Task) : Bool := !t.noop && (t.phase = .accepted || t.phase = .saved)
/-- The cluster mask of group g, 0 to 3. -/
def group (t : Task) (g : Nat) : Nat := (t.word (2 + g / 2)).toNat / 2 ^ (32 * (g % 2)) % 2 ^ 32
def hasCluster (t : Task) (cl : Nat) : Bool := t.clusterMask.testBit cl
def hasBlock (t : Task) (cl b : Nat) : Bool := t.hasCluster cl && t.blockMask.testBit b
/-- The declared blocks of a cluster, and of all clusters. -/
def blocksIn (t : Task) (cl : Nat) : List Nat := ((List.range 8).filter fun b => t.blockMask.testBit b).map (blockNo cl)
def blocks (t : Task) : List Nat := (clustersOf t.clusterMask).flatMap t.blocksIn
def coreMask (t : Task) (cl : Nat) : Word × List Nat := tget (0, []) cl t.cores
def hasCore (t : Task) (c : Nat) : Bool := t.hasCluster (coreCluster c) && (t.coreMask (coreCluster c)).1.toNat.testBit (c % 64)
def reservedSlots (t : Task) (c : Nat) : Nat := nth 0 (t.coreMask (coreCluster c)).2 (c % 64)
def args (t : Task) : Word := vget 0 t.packet 3
def tvec (t : Task) : Word := t.word 8

/-- The clusters of group scope around a cluster (R315). -/
def groupScope (t : Task) (cl : Nat) : List Nat :=
  let gs := [0, 1, 2, 3].filter fun g => (t.group g).testBit cl
  if gs.isEmpty then [cl] else (List.range 32).filter fun c => gs.any fun g => (t.group g).testBit c

end Task

/-- A task that a save or a debugger holds frozen, or that is saved (R366, R370). -/
def taskHeld (s : State) (n : Option Nat) : Bool :=
  match n.bind s.task with
  | some t => t.phase = .saving || t.phase = .saved || (t.phase = .running && t.debugHalted && t.stepping.isNone)
  | none => false

/-- The task that holds a cluster's units at the moment. -/
def clusterTask (s : State) (cl : Nat) : Option Nat := (s.tasks.find? fun p => p.2.holds && p.2.hasCluster cl).map fun p => p.1

/-- The units of a cluster stand still, because their task is frozen. -/
def clusterHeld (s : State) (cl : Nat) : Bool := taskHeld s (clusterTask s cl)

end Sys2Proof.Machine
end

