-- ==== Sys2Proof/Machine/Memory.lean ====
section
/-! DEFINITION. Bytes of HBM, host memory, banks and local memories in one canonical list, and lines of 64 bytes over them (R281, R287). -/

namespace Sys2Proof.Machine

/-! ## The canonical list -/

/-- What an unlisted address reads as: memory is clear after boot (R389; log entry 3). -/
def unlisted : Byte := 0

/-- The first byte listed for an address. -/
def memRead : List Host.Cell → Nat → Byte
  | [], _ => unlisted
  | (k, b) :: r, a => if k = a then b else memRead r a

/-- A byte put at its place, before every higher address. -/
def memInsert : List Host.Cell → Nat → Byte → List Host.Cell
  | [], a, b => [(a, b)]
  | (k, c) :: r, a, b =>
    if a < k then (a, b) :: (k, c) :: r
    else if k = a then (a, b) :: r
    else (k, c) :: memInsert r a b

/-- A write; the value of an unlisted address removes the entry. -/
def memWrite (m : List Host.Cell) (a : Nat) (b : Byte) : List Host.Cell :=
  if b = unlisted then m.filter fun c => c.1 ≠ a else memInsert m a b

/-- The canonical form: addresses rise strictly and no entry holds what an unlisted address reads as. -/
def memWf : List Host.Cell → Bool
  | [] => true
  | [(_, b)] => b ≠ unlisted
  | (k, b) :: (k', b') :: r => k < k' && b ≠ unlisted && memWf ((k', b') :: r)

/-- Bytes written at ascending addresses. -/
def memWriteList : List Host.Cell → Nat → List Byte → List Host.Cell
  | m, _, [] => m
  | m, a, b :: r => memWriteList (memWrite m a b) (a + 1) r

/-! ## Lines -/

/-- The 64 bytes of a line. -/
abbrev LineData := Vector Byte 64

/-- Byte `k` of a line. -/
def lineByte (d : LineData) (k : Nat) : Byte := vget 0 d k

/-- The line that a function gives byte by byte. -/
def lineOf (f : Nat → Byte) : LineData := Vector.ofFn fun k => f k.val

/-- `d` with the bytes of the mask taken from `new`. -/
def mergeLine (d new : LineData) (mask : BitVec 64) : LineData :=
  lineOf fun k => if mask.getLsbD k then lineByte new k else lineByte d k

/-- The byte mask of `n` bytes from offset `o` in a line. -/
def maskOf (o n : Nat) : BitVec 64 := BitVec.ofNat 64 ((2 ^ n - 1) * 2 ^ o)

/-- The low `n` bytes of a value at offset `o` of a line. -/
def placeBytes (o : Nat) (v : Nat) : LineData :=
  lineOf fun k => BitVec.ofNat 8 (v / 2 ^ (8 * (k - o)))

/-- The little-endian value of `n` bytes of a line from offset `o`. -/
def takeBytes (d : LineData) (o : Nat) : Nat → Nat
  | 0 => 0
  | n + 1 => (lineByte d o).toNat + 2 ^ 8 * takeBytes d (o + 1) n

/-- How many bytes a mask names. -/
def maskCount (m : BitVec 64) : Nat := ((List.range 64).filter fun k => m.getLsbD k).length

/-! ## Lists of lines -/

def findLine (no : Nat) : List Line → Option Line
  | [] => none
  | l :: r => if l.no = no then some l else findLine no r

def putLine (l : Line) : List Line → List Line
  | [] => [l]
  | l' :: r => if l'.no = l.no then l :: r else l' :: putLine l r

def dropLine (no : Nat) (ls : List Line) : List Line := ls.filter fun l => l.no ≠ no

namespace State

/-- A byte at the backing store: HBM, the host, a bank or a local memory. -/
def backing (s : State) (a : Nat) : Byte := memRead s.mem a
def setBacking (s : State) (a : Nat) (b : Byte) : State := { s with mem := memWrite s.mem a b }
def setBytes (s : State) (a : Nat) (bs : List Byte) : State := { s with mem := memWriteList s.mem a bs }

/-- A byte at its home mere slice: the cached line, or the memory behind it (R281). -/
def homeByte (s : State) (a : Nat) : Byte :=
  match findLine (a / 64) s.mere with
  | some l => lineByte l.data (a % 64)
  | none => s.backing a

/-- The line as its home holds it. -/
def homeLine (s : State) (no : Nat) : LineData := lineOf fun k => s.homeByte (64 * no + k)

/-- `n` bytes at a home, little-endian. -/
def homeBytes (s : State) (a : Nat) : Nat → Nat
  | 0 => 0
  | n + 1 => (s.homeByte a).toNat + 2 ^ 8 * s.homeBytes (a + 1) n

/-- A 64-bit word at its home. -/
def homeWord (s : State) (a : Nat) : Word := BitVec.ofNat 64 (s.homeBytes a 8)

/-- `n` bytes at a bank or local memory. -/
def backingBytes (s : State) (a : Nat) : Nat → Nat
  | 0 => 0
  | n + 1 => (s.backing a).toNat + 2 ^ 8 * s.backingBytes (a + 1) n

end State

/-- The `n` low bytes of a value, lowest first. -/
def bytesLE : Nat → Nat → List Byte
  | 0, _ => []
  | n + 1, v => BitVec.ofNat 8 v :: bytesLE n (v / 2 ^ 8)

/-! ## Weir counting (R301 to R304) -/

/-- The bytes of a line's mask that lie in a window of physical pieces. -/
def inWindow (no : Nat) (mask : BitVec 64) (w : List (Nat × Nat)) : Nat :=
  ((List.range 64).filter fun k =>
    mask.getLsbD k && w.any fun p => p.1 ≤ 64 * no + k && 64 * no + k < p.1 + p.2).length

/-- The stack and the pseudo-channel in it of a line of HBM (R287). -/
def channelOf (no : Nat) : Nat × Nat :=
  let u := 64 * no / 2 ^ 9
  let f : Nat → Nat := fun k => u / 2 ^ (5 * k) % 32
  (f 0 ^^^ f 1 ^^^ f 2 ^^^ f 3 ^^^ f 4 ^^^ f 5 ^^^ (u / 2 ^ 30 % 8), ((u / 2 ^ 5) ^^^ (u / 2 ^ 17)) % 384)

/-- The home mere slice of a line (R287); a host line has no slice of an HBM stack and is put at slice 256. -/
def sliceOf (no : Nat) : Nat :=
  if 2 ^ 42 ≤ 64 * no then 256
  else 8 * (channelOf no).1 + (channelOf no).2 / 48

/-- The bit numbers of the first mere slice (R360) and of the first pseudo-channel among the units. -/
def firstSlice : Nat := 2336
def firstChannel : Nat := 2592

/-- The slice that stands for a slice: itself, or the next enabled one of its stack (R408). -/
def standingSlice (retired : List Nat) (n : Nat) : Nat :=
  if 256 ≤ n then n
  else (((List.range 8).map fun k => n / 8 * 8 + (n + k) % 8).find? fun m => !retired.contains (firstSlice + m)).getD n

/-- No byte of a frame lies in one of the pseudo-channels among some units (R408). -/
def frameEnabled (retired : List Nat) (frame : Nat) : Bool :=
  2 ^ 30 ≤ frame || (List.range 8).all fun k =>
    let c := channelOf (64 * frame + 8 * k)
    !retired.contains (firstChannel + 384 * c.1 + c.2)

/-- The notices that a write of a line's masked bytes sends to every weir whose window holds some of them. -/
def countNotices (source no : Nat) (mask : BitVec 64) : Tbl Nat Weir → List Notice
  | [] => []
  | (k, w) :: r =>
    let n := inWindow no mask w.window
    if n = 0 then countNotices source no mask r
    else ⟨k, w.task, source, n⟩ :: countNotices source no mask r

namespace State

/-- Units that are retired or on their way to it: no frame of such a pseudo-channel is allocated (R408). -/
def closedUnits (s : State) : List Nat := s.service.retired ++ s.service.draining

/-- The weirs of the module, and those that a save holds (R369). -/
def allWeirs (s : State) : Tbl Nat Weir := s.weirs ++ s.saves.flatMap fun p => p.2.weirs

/-- A write performed at a home mere slice: the line becomes dirty there, and weirs hear of it (R301, R303). -/
def homeWrite (s : State) (no : Nat) (new : LineData) (mask : BitVec 64) : State :=
  let old := s.homeLine no
  let dirty := match findLine no s.mere with
    | some l => l.dirty
    | none => 0
  let l : Line := { Line.filled no (mergeLine old new mask) (Vector.replicate 4 0) with dirty := dirty ||| mask }
  { s with mere := putLine l s.mere, notices := s.notices ++ countNotices (standingSlice s.service.retired (sliceOf no)) no mask s.allWeirs }

/-- A line of host memory (R287). -/
def hostLine (no : Nat) : Bool := 2 ^ 41 ≤ no

/-- A line written out of the mere to the memory behind it, and dropped (R182, R296); what a host link that is not up does not take stays (R390). -/
def evictMere (s : State) (no : Nat) : State :=
  match findLine no s.mere with
  | none => s
  | some l =>
    if hostLine no && s.service.host ≠ .up && l.dirty ≠ 0 then s
    else
      let bytes := (List.range 64).filter fun k => l.dirty.getLsbD k
      let m := bytes.foldl (fun m k => memWrite m (64 * no + k) (lineByte l.data k)) s.mem
      { s with mem := m, mere := dropLine no s.mere }

/-- A line dropped from the mere without being written back (R151). -/
def discardMere (s : State) (no : Nat) : State := { s with mere := dropLine no s.mere }

/-- A line brought into its home slice (R151). -/
def fetchMere (s : State) (no : Nat) : State :=
  match findLine no s.mere with
  | some _ => s
  | none => { s with mere := putLine (Line.filled no (s.homeLine no) (Vector.replicate 4 0)) s.mere }

/-- Bytes written at a bank of a scratch window, and the weirs of that window told (R302). -/
def bankWrite (s : State) (a : Nat) (bs : List Byte) : State :=
  let no := a / 64
  let n := countNotices (512 + a / 2 ^ 17 % 8192) no (maskOf (a % 64) bs.length) s.weirs
  { s.setBytes a bs with notices := s.notices ++ n }

end State

end Sys2Proof.Machine
end

