-- ==== Sys2Proof/Machine/Address.lean ====
section
/-! DEFINITION. Where an address goes: the checks of R90, the device window (R283 to R286), translation (R293), and the Dyke windows (R403). -/

namespace Sys2Proof.Machine

/-- What an access wants to do with the bytes. -/
inductive Access where
  | read | write | update | fetch
deriving DecidableEq, Repr

/-- Why an address cannot be accessed (R90). -/
inductive AddrFault where
  | misaligned | page | protection
  /-- The bank is in the middle of a mode switch, or a FIFO bank, the host link or a page on the move cannot serve the access yet (R285, R286, R390, R397). -/
  | waits
  /-- The line holds uncorrectable data (R409). -/
  | poisoned
deriving DecidableEq, Repr

/-- The place of an access: memory with the attributes of its page, or a place of the device window. -/
inductive Place where
  | memory (pa : Nat) (coh sd shared : Bool)
  | bank (blk bank : Nat) (addr : Nat)
  | fifo (blk bank : Nat)
  | localMem (core addr : Nat)
  | bankControl (blk bank : Nat)
deriving DecidableEq, Repr

/-- Bits [63:57] equal to bit 56 (R90). -/
def canonical (va : Word) : Bool :=
  let top := va.toNat / 2 ^ 56
  top = 0 || top = 255

/-! ## Page tables (R293) -/

namespace Pte

def bit (e : Word) (n : Nat) : Bool := e.getLsbD n
def frame (e : Word) : Nat := e.toNat / 2 ^ 12 % 2 ^ 40 * 2 ^ 12
/-- Reserved bits [63:62], [58:52], [11:9], [6] and [2:1]. -/
def reserved : Word := 0xC7F0000000000E46#64
/-- A physical address that is backed: one of HBM, or with bit 47 set one of host memory (R287). -/
def backed (pa : Nat) : Bool := pa < 2 ^ 42 || pa.testBit 47
/-- Rd, W and X against an access; an atomic or update needs both Rd and W. -/
def permits (e : Word) : Access → Bool
  | .read => bit e 3
  | .write => bit e 4
  | .update => bit e 3 && bit e 4
  | .fetch => bit e 5

end Pte

/-- The sixteen entries of a 64 KiB page agree apart from their frames, which are contiguous and aligned. -/
def contMatches (s : State) (table idx : Nat) (e : Word) : Bool :=
  let first := idx / 16 * 16
  let base := Pte.frame e - 4096 * (idx % 16)
  Pte.frame e / 4096 % 16 = idx % 16 &&
  (List.range 16).all fun k =>
    let f := s.homeWord (table + 8 * (first + k))
    let rest : Word := 0xFFF0000000000FFF#64
    Pte.frame f = base + 4096 * k && (f &&& rest) = (e &&& rest)

/-- The bytes that one entry of a level maps. -/
def levelSize (level : Nat) : Nat := 2 ^ (12 + 9 * level)

/-- The one number of a physical address: with bit 47 set it names host address P[46:0], whatever the bits above (R287, R387). -/
def placeOf (pa : Nat) : Nat := if pa.testBit 47 then 2 ^ 47 + pa % 2 ^ 47 else pa

/-- A leaf's frame with the offset of the address in its page. -/
def leafAddress (level : Nat) (va : Nat) (e : Word) : Nat := placeOf (Pte.frame e + va % levelSize level)

/-- The walk from a level down: a level's number is one less than the first argument. A table in host memory waits for the host link (R390), and an entry of uncorrectable data is found as any such data is (R409). -/
def walk (s : State) (va : Nat) : Nat → Nat → Except AddrFault (Nat × Word)
  | 0, _ => .error .protection
  | level + 1, table =>
    if 2 ^ 47 ≤ table && s.service.host ≠ .up then .error (if s.service.host = .recovery then .waits else .protection)
    else
      let idx := va / levelSize level % 512
      let e := s.homeWord (table + 8 * idx)
      if s.service.poison.contains ((table + 8 * idx) / 64) then .error .poisoned
      else if !Pte.bit e 0 then .error .page
      else if e &&& Pte.reserved ≠ 0 then .error .protection
      else if !Pte.backed (Pte.frame e) then .error .protection
      else if Pte.bit e 7 then
        if 2 < level then .error .protection
        else if Pte.frame e % levelSize level ≠ 0 then .error .protection
        else if level = 0 && Pte.bit e 8 && !contMatches s table idx e then .error .protection
        else .ok (leafAddress level va e, e)
      else if level = 0 then .error .protection
      else walk s va level (placeOf (Pte.frame e))

/-- The entry that Krany keeps for a page beside the tables in memory, if any. -/
def mappedEntry (task page : Nat) : List (Nat × Nat × Word) → Option Word
  | [] => none
  | (t, p, e) :: r => if t = task && p = page then some e else mappedEntry task page r

/-- The physical address and leaf entry of a virtual address of a task. -/
def translate (s : State) (task : Nat) (root : Nat) (va : Nat) : Except AddrFault (Nat × Word) :=
  let low := va % 2 ^ 57
  match mappedEntry task (low / 4096) s.maps with
  | some e => .ok (leafAddress 0 low e, e)
  | none => walk s low 5 root

/-! ## Devices (R388, R392) -/

/-- This device's identifier, DEVID[17:0] (R388). -/
def State.ownDevice (s : State) : Nat := s.links.devid.toNat % 2 ^ 18

/-- An identifier that may be assigned to a device (R392). -/
def deviceAssigned (dev : Nat) : Bool := dev < 200000

/-! ## Reaching a peer (R392, R398) -/

inductive Reach where
  | up
  /-- Every port that could lead there is down or retraining, and one is retraining. -/
  | retraining
  | down
deriving DecidableEq, Repr

def numPorts : Nat := 48

/-- The ports that lead to a device, of those that the module has (R1, R392). -/
def routeOf (s : State) (dev : Nat) : List Nat := (tget [] dev s.routes).filter fun p => p < numPorts

/-- How a device identifier is reached through the routing table. -/
def reach (s : State) (dev : Nat) : Reach :=
  let ports := (routeOf s dev).map s.scalePort
  if (tfind dev s.peersDown).isSome || dev = 0x3FFFF then .down
  else if ports.any fun p => p = .up then .up
  else if ports.any fun p => match p with
    | .retraining _ => true
    | .up | .down => false
  then .retraining
  else .down

/-! ## Where a shared page is performed (R394, R395) -/

inductive Site where
  /-- This device is the home, or the page is not shared. -/
  | here
  /-- This device is the home, and the page is being handed over (R396). -/
  | moving
  /-- A read copy is held here, and the home is a peer. -/
  | copy (peer : Nat)
  /-- A coherent page of a peer with no copy here. -/
  | absent (peer : Nat)
  /-- An uncached page of a peer. -/
  | uncached (peer : Nat)
deriving DecidableEq, Repr

def siteOf (s : State) (pa : Nat) (shared : Bool) : Site :=
  if !shared then .here
  else match tfind (pa / 4096) s.homes with
    | none => .here
    | some e =>
      if e.home = s.ownDevice then (if e.moving then .moving else .here)
      else if !e.coherent then .uncached e.home
      else if e.copy then .copy e.home
      else .absent e.home

/-! ## The Dyke windows (R403) -/

def dykeHolds (pa : Nat) (w : Word × Word) : Bool :=
  w.1.getLsbD 0 && w.1.toNat / 4096 ≤ pa / 4096 && pa / 4096 ≤ w.2.toNat / 4096

/-- A task agent may read a window whose TASK bit is set, and never write one. -/
def dykeAllowsTask (s : State) (pa : Nat) (k : Access) : Bool :=
  (List.range 16).all fun n =>
    let w := vget (0, 0) s.service.dyke n
    !dykeHolds pa w || (w.2.getLsbD 1 && (k == .read || k == .fetch))

def dykeAllowsHost (s : State) (pa : Nat) : Bool :=
  (List.range 16).all fun n =>
    let w := vget (0, 0) s.service.dyke n
    !dykeHolds pa w || w.2.getLsbD 2

/-! ## The device window (R283) -/

def scratchBase : Nat := 0xFF00000000000000
def localBase : Nat := 0xFF00000040000000
def controlBase : Nat := 0xFF00000048000000
def windowEnd : Nat := controlBase + 32 * 0x1000

/-- The address of the escape stack's top for a slot (R269). -/
def stackTop (core slot : Nat) : Nat := localBase + core * 0x10000 + 0xC400 + 1024 * slot

/-- An address of one of the three regions, which lie end to end; the others of the upper half are translated (R283, R293). -/
def inWindowRange (va : Nat) : Bool := scratchBase ≤ va && va < windowEnd

/-- A range of addresses, first and last, meets the device window. -/
def meetsWindow (first last : Nat) : Bool := scratchBase ≤ last && first < windowEnd

/-- A place of the device window for an agent of a task (R283 to R285); `z` is the access size in bytes. -/
def windowPlace (s : State) (t : Task) (a : AgentId) (va : Nat) (z : Nat) (plainD : Bool) : Except AddrFault Place :=
  if va < scratchBase + 32 * 0x2000000 then
    let cl := (va - scratchBase) / 0x2000000
    let off := (va - scratchBase) % 0x2000000
    let b := off / 0x400000
    let k := off % 0x400000 / 0x20000
    if !t.hasBlock cl b then .error .protection
    else
      let bank := vget Bank.fresh (s.block (blockNo cl b)).banks k
      if bank.busy.isSome then .error .waits
      else match bank.mode with
        | .scratch => .ok (.bank (blockNo cl b) k va)
        | .fifo => if z = 64 then .ok (.fifo (blockNo cl b) k) else .error .protection
        | .cacheWay => .error .protection
  else if localBase ≤ va && va < localBase + 2048 * 0x10000 then
    let c := (va - localBase) / 0x10000
    let off := (va - localBase) % 0x10000
    let own := match a with
      | .thread c' sl => c = c' && 0xC000 + 1024 * sl ≤ off && off < 0xC400 + 1024 * sl
      | .region _ | .matrix _ _ | .epilogue _ _ | .copySeq _ _ | .tile _ _ _ => false
    if !t.hasCore c then .error .protection
    else if (0x6100 ≤ off && off < 0xC000) || own then .ok (.localMem c va)
    else .error .protection
  else if controlBase ≤ va && va < windowEnd then
    let cl := (va - controlBase) / 0x1000
    let off := (va - controlBase) % 0x1000
    let b := off / 0x100
    let k := off % 0x100 / 8
    if !plainD || 8 ≤ b || !t.hasBlock cl b then .error .protection
    else .ok (.bankControl (blockNo cl b) k)
  else .error .protection

/-- The home of a frame changes, and the old home has not answered every request yet (R397). -/
def homeSwitches (s : State) (pa : Nat) : Bool :=
  match tfind (pa / 4096) s.homes with
  | some e => e.next.isSome && !e.moving
  | none => false

/-- Where an access of `z` bytes of an agent goes, with the checks of R90 in their order.
`plainD` says that the access is an `ld.d` or `st.d`, which alone reach the bank control region (R284). -/
def resolve (s : State) (a : AgentId) (task : Option Nat) (va : Word) (z : Nat) (k : Access) (plainD : Bool) :
    Except AddrFault Place :=
  if !canonical va then .error .protection
  else if va.toNat % z ≠ 0 then .error .misaligned
  else match task with
    | none => .error .page
    | some n =>
      match s.task n with
      | none => .error .page
      | some t =>
        if inWindowRange va.toNat then
          if k == .fetch then .error .protection
          else match windowPlace s t a va.toNat z plainD with
            | .error f => .error f
            | .ok p => if s.service.poison.contains (va.toNat / 64) && k != .write then .error .poisoned else .ok p
        else
          match translate s n t.root va.toNat with
          | .error f => .error f
          | .ok (pa, e) =>
            if !Pte.permits e k then .error .protection
            else if !dykeAllowsTask s pa k then .error .protection
            else if (2 ^ 47 ≤ pa && s.service.host ≠ .up) || (Pte.bit e 61 && homeSwitches s pa) then .error .waits
            else if s.service.poison.contains (pa / 64) && k != .write then .error .poisoned
            else .ok (.memory pa (Pte.bit e 60) (Pte.bit e 59) (Pte.bit e 61))

end Sys2Proof.Machine
end

