-- ==== Sys2Proof/Config.lean ====
section
/-! DEFINITION. What the spec leaves to the part: free values that nothing in the model can evaluate (log entry 4). -/

namespace Sys2Proof.Config

/-- The faithful functions of R125 at FP32. -/
inductive SpecialFn where
  | rcp | rsq | exp2 | log2
deriving DecidableEq, Repr

/-- Which of the two bracketing FP32 values a faithful function delivers: a fixed function of the input alone (R125). -/
opaque faithfulUp : SpecialFn → BitVec 32 → Bool

/-- The estimate that a copy engine writes as a copy's promise (R147), one per reading of the free counter. -/
opaque promise : Nat → Word

/-- Whether a signature, by the number it is known by, verifies over some bytes in doublewords (R402, R406). -/
opaque signatureGood : Nat → List Word → Bool

/-- Whether the signature of a firmware image, by the number it is known by, verifies (R407). -/
opaque imageGood : Nat → Bool

/-- The digest of the ROM, a table, an image or a journal record, by the number it is known by (R406). -/
opaque digest : Nat → BitVec 256

/-- What Krany extends MEAS5 to MEAS7 with, one per reading of the free counter (R406). -/
opaque kranyDigest : Nat → BitVec 256

/-- The signature of 7,856 bytes over the measurements and a nonce with the module's identity key (R402, R406). -/
opaque attest : List (BitVec 256) → Nat → BitVec 62848

/-- The word at an address of a page that another device is the home of, at a time of the chip clock: what only that device knows (R394). -/
opaque peerWord : Nat → Nat → Word

/-- A value that the spec names no other source for, one per reading of the free counter. -/
opaque free : Nat → Word

end Sys2Proof.Config
end

