-- ==== Sys2Proof/Machine/Numbers.lean ====
section
/-! DEFINITION. Number formats and exact arithmetic (01_numbers R13 to R38): exact values, one rounding, narrowing, E3M5 scales and self-describing blocks. -/

namespace Sys2Proof.Machine

/-! ## Integers (R13) -/

/-- The low `n` bits of `v` read as two's complement. -/
def signedOf (n v : Nat) : Int :=
  let u := v % 2 ^ n
  if u < 2 ^ (n - 1) then (u : Int) else (u : Int) - (2 ^ n : Nat)

/-- The `n`-bit pattern of an integer, wrapping. -/
def wrapTo (n : Nat) (x : Int) : Nat := (x % ((2 ^ n : Nat) : Int)).toNat

/-- An integer type: its width and whether it is signed. -/
structure IntFmt where
  bits : Nat
  signed : Bool
deriving DecidableEq, Repr

def IntFmt.least (t : IntFmt) : Int := if t.signed then -((2 ^ (t.bits - 1) : Nat) : Int) else 0
def IntFmt.greatest (t : IntFmt) : Int :=
  if t.signed then ((2 ^ (t.bits - 1) : Nat) : Int) - 1 else ((2 ^ t.bits : Nat) : Int) - 1

/-- The value of a bit pattern. -/
def IntFmt.read (t : IntFmt) (v : Nat) : Int := if t.signed then signedOf t.bits v else ((v % 2 ^ t.bits : Nat) : Int)

/-- A result clamped to the type's range, with OF when it was clamped (R13). -/
def IntFmt.clamp (t : IntFmt) (x : Int) : Nat × Flags :=
  if x < t.least then (wrapTo t.bits t.least, flagOF)
  else if t.greatest < x then (wrapTo t.bits t.greatest, flagOF)
  else (wrapTo t.bits x, noFlags)

/-- A result wrapped, or clamped under saturation (R13). -/
def IntFmt.deliver (t : IntFmt) (sat : Bool) (x : Int) : Nat × Flags :=
  if sat then t.clamp x else (wrapTo t.bits x, noFlags)

def intFmt : IntType → IntFmt
  | .i8 => ⟨8, true⟩ | .n8 => ⟨8, false⟩ | .i16 => ⟨16, true⟩ | .n16 => ⟨16, false⟩
  | .i32 => ⟨32, true⟩ | .n32 => ⟨32, false⟩ | .i64 => ⟨64, true⟩ | .n64 => ⟨64, false⟩

/-! ## Floating-point formats (R14, R19) -/

/-- How a format uses its highest codes. -/
inductive Special where
  /-- An all-ones exponent is infinity or NaN. -/
  | ieee
  /-- Only the all-ones code is NaN: E4M3, and the unsigned E3M5. -/
  | nanOnly
  /-- Neither: FP4. -/
  | neither
deriving DecidableEq, Repr

/-- A format of R14: exponent and mantissa widths, bias, special codes and whether it has a sign. -/
structure FloatFmt where
  ebits : Nat
  mbits : Nat
  bias : Int
  special : Special
  signed : Bool
deriving DecidableEq, Repr

def floatFmt : FloatType → FloatFmt
  | .f64 => ⟨11, 52, 1023, .ieee, true⟩
  | .f32 => ⟨8, 23, 127, .ieee, true⟩
  | .bf16 => ⟨8, 7, 127, .ieee, true⟩
  | .f16 => ⟨5, 10, 15, .ieee, true⟩
  | .e5m2 => ⟨5, 2, 15, .ieee, true⟩
  | .e4m3 => ⟨4, 3, 7, .nanOnly, true⟩
  | .fp4 => ⟨2, 1, 1, .neither, true⟩
  | .e3m5 => ⟨3, 5, 3, .nanOnly, false⟩

/-- Bits of exponent and mantissa. -/
def FloatFmt.magBits (f : FloatFmt) : Nat := f.ebits + f.mbits
/-- Bits of the whole format. -/
def FloatFmt.bits (f : FloatFmt) : Nat := f.magBits + (if f.signed then 1 else 0)
/-- The code of infinity, where there is one. -/
def FloatFmt.infCode (f : FloatFmt) : Nat := (2 ^ f.ebits - 1) * 2 ^ f.mbits
/-- The code of the largest finite magnitude, R14 and R19. -/
def FloatFmt.maxCode (f : FloatFmt) : Nat :=
  match f.special with
  | .ieee => f.infCode - 1
  | .nanOnly => 2 ^ f.magBits - 2
  | .neither => 2 ^ f.magBits - 1
/-- The canonical NaN of R16; FP4 has none and gives 0 (R31). -/
def FloatFmt.nanCode (f : FloatFmt) : Nat :=
  match f.special with
  | .ieee => f.infCode + 2 ^ (f.mbits - 1)
  | .nanOnly => 2 ^ f.magBits - 1
  | .neither => 0
/-- The exponent of the smallest normal value. -/
def FloatFmt.emin (f : FloatFmt) : Int := 1 - f.bias
/-- A magnitude code with its sign. -/
def FloatFmt.withSign (f : FloatFmt) (neg : Bool) (code : Nat) : Nat :=
  if f.signed && neg then 2 ^ f.magBits + code else code

/-- An exact value: NaN, an infinity, or ± m × 2^e. -/
inductive FVal where
  | nan
  | inf (neg : Bool)
  | fin (neg : Bool) (m : Nat) (e : Int)
deriving DecidableEq, Repr

/-- The value of a bit pattern, R14, R15 and R19. -/
def FloatFmt.unpack (f : FloatFmt) (v : Nat) : FVal :=
  let mag := v % 2 ^ f.magBits
  let neg := f.signed && (v / 2 ^ f.magBits % 2 == 1)
  let ex := mag / 2 ^ f.mbits
  let fr := mag % 2 ^ f.mbits
  let special := match f.special with
    | .ieee => ex == 2 ^ f.ebits - 1
    | .nanOnly => mag == 2 ^ f.magBits - 1
    | .neither => false
  if special then
    if f.special == .ieee && fr == 0 then .inf neg else .nan
  else if ex == 0 then .fin neg fr (f.emin - f.mbits)
  else .fin neg (2 ^ f.mbits + fr) ((ex : Int) - f.bias - f.mbits)

/-- The hash of R26 from an element index and an iteration number. -/
def rhdHash (q t : BitVec 32) : Nat :=
  let x := q * 0xD1B54A35#32 + t * 0x8CB92BA7#32
  let x := x ^^^ (x >>> 15)
  let x := x * 0x2F6BC3D5#32
  let x := x ^^^ (x >>> 12)
  (x &&& 0xFFFF#32).toNat

/-- A rounding code with the sign-independent hash that RHD uses (R25, R26). -/
structure Rounding where
  rnd : Rnd
  hash : Nat
deriving DecidableEq, Repr

def roundRNE : Rounding := ⟨.rne, 0⟩

/-- A magnitude cut at a place: the integer part, and whether the value differs from it. -/
structure Cut where
  base : Nat
  inexact : Bool
deriving DecidableEq, Repr

/-- Rounds the magnitude `m × 2^e`, or one a little above it when `sticky`, to a multiple of `2^q` under R25. -/
def roundAt (r : Rounding) (neg : Bool) (m : Nat) (e : Int) (sticky : Bool) (q : Int) : Cut :=
  if q ≤ e then
    let base := m * 2 ^ (e - q).toNat
    let up := match r.rnd with
      | .rdn => neg && sticky
      | .rup => !neg && sticky
      | .rne | .rtz | .rna | .rod | .rhd => false
    let base := if r.rnd == .rod && sticky && base % 2 == 0 then base + 1 else if up then base + 1 else base
    ⟨base, sticky⟩
  else
    let d := (q - e).toNat
    let base := m / 2 ^ d
    let rem := m % 2 ^ d
    let inexact := rem != 0 || sticky
    let half := 2 ^ (d - 1)
    let up := match r.rnd with
      | .rne => half < rem || (rem == half && (sticky || base % 2 == 1))
      | .rtz => false
      | .rdn => neg && inexact
      | .rup => !neg && inexact
      | .rna => half ≤ rem
      | .rod => inexact && base % 2 == 0
      | .rhd => r.hash < rem * 2 ^ 16 / 2 ^ d
    ⟨if up then base + 1 else base, inexact⟩

/-- The magnitude that an overflow delivers, as the code of a format with infinities (R28). -/
def FloatFmt.overflowCode (f : FloatFmt) (r : Rnd) (sat neg : Bool) : Nat :=
  match f.special with
  | .ieee =>
    if sat then f.maxCode
    else match r with
      | .rne | .rna | .rhd => f.infCode
      | .rtz | .rod => f.maxCode
      | .rdn => if neg then f.infCode else f.maxCode
      | .rup => if neg then f.maxCode else f.infCode
  | .nanOnly | .neither => f.maxCode

/-- An infinite value delivered in a format (R31): a format without infinities saturates with OF only. -/
def FloatFmt.deliverInf (f : FloatFmt) (sat neg : Bool) : Nat × Flags :=
  match f.special with
  | .ieee => if sat then (f.withSign neg f.maxCode, flagOF) else (f.withSign neg f.infCode, noFlags)
  | .nanOnly | .neither => (f.withSign neg f.maxCode, flagOF)

/-- Rounds a finite exact value once into a format, with the flags of R28, R29 and R31.
`sticky` says that the exact magnitude lies a little above `m × 2^e`. -/
def FloatFmt.round (f : FloatFmt) (r : Rounding) (sat neg : Bool) (m : Nat) (e : Int) (sticky : Bool) : Nat × Flags :=
  if m == 0 && !sticky then (f.withSign neg 0, noFlags)
  else
    let top : Int := e + (Nat.log2 m : Int)
    let free : Int := top - f.mbits
    let least : Int := f.emin - f.mbits
    let q := if free < least then least else free
    let c := roundAt r neg m e sticky q
    let code := ((q - least).toNat) * 2 ^ f.mbits + c.base
    let unbounded := roundAt r neg m e sticky free
    let tiny := top < f.emin && !(top == f.emin - 1 && unbounded.base == 2 ^ (f.mbits + 1))
    if f.maxCode < code then (f.withSign neg (f.overflowCode r.rnd sat neg), overflowFlags)
    else (f.withSign neg code, roundFlags c.inexact tiny)

/-- A value narrowed into a format under R31 and R20. -/
def FloatFmt.convert (f : FloatFmt) (r : Rounding) (sat : Bool) : FVal → Nat × Flags
  | .nan =>
    match f.special with
    | .neither => (0, flagNZ)
    | .ieee => (f.nanCode, noFlags)
    | .nanOnly => (f.nanCode, flagIf (!f.signed) flagNV)
  | .inf neg => if !f.signed && neg then (f.nanCode, flagNV) else f.deliverInf sat neg
  | .fin neg m e =>
    if !f.signed && neg && m != 0 then (f.nanCode, flagNV)
    else f.round r sat (f.signed && neg) m e false

/-- A value delivered by an operation: an infinity of the operation itself stays one, except in a format without infinities. -/
def FloatFmt.deliver (f : FloatFmt) (r : Rounding) (sat : Bool) : FVal → Nat × Flags
  | .nan => (f.nanCode, noFlags)
  | .inf neg => f.deliverInf false neg
  | .fin neg m e => f.round r sat neg m e false

/-! ## Exact operations (R78, R116) -/

/-- The integer ± m × 2^(e - q) for a `q` that is at most `e`. -/
def scaledInt (neg : Bool) (m : Nat) (e q : Int) : Int :=
  let v : Int := ((m * 2 ^ (e - q).toNat : Nat) : Int)
  if neg then -v else v

def minInt (a b : Int) : Int := if a ≤ b then a else b

/-- An exact sum; a zero sum of opposite signs is +0, or −0 under RDN (R78). -/
def addVal (r : Rnd) : FVal → FVal → FVal × Flags
  | .nan, _ => (.nan, noFlags)
  | _, .nan => (.nan, noFlags)
  | .inf a, .inf b => if a == b then (.inf a, noFlags) else (.nan, flagNV)
  | .inf a, .fin _ _ _ => (.inf a, noFlags)
  | .fin _ _ _, .inf b => (.inf b, noFlags)
  | .fin na ma ea, .fin nb mb eb =>
    let q := minInt ea eb
    let v := scaledInt na ma ea q + scaledInt nb mb eb q
    if v = 0 then
      if na == nb then (.fin na 0 q, noFlags) else (.fin (r == .rdn) 0 q, noFlags)
    else (.fin (v < 0) v.natAbs q, noFlags)

def FVal.negate : FVal → FVal
  | .nan => .nan
  | .inf n => .inf (!n)
  | .fin n m e => .fin (!n) m e

def FVal.isNaN : FVal → Bool
  | .nan => true
  | .inf _ | .fin _ _ _ => false

/-- An exact product; 0 × ∞ is invalid. -/
def mulVal : FVal → FVal → FVal × Flags
  | .nan, _ => (.nan, noFlags)
  | _, .nan => (.nan, noFlags)
  | .inf a, .inf b => (.inf (a != b), noFlags)
  | .inf a, .fin b m _ => if m == 0 then (.nan, flagNV) else (.inf (a != b), noFlags)
  | .fin a m _, .inf b => if m == 0 then (.nan, flagNV) else (.inf (a != b), noFlags)
  | .fin a ma ea, .fin b mb eb => (.fin (a != b) (ma * mb) (ea + eb), noFlags)

/-- An operation's exact result rounded once, with the flags of both. -/
def FloatFmt.finish (f : FloatFmt) (r : Rounding) (sat : Bool) (x : FVal × Flags) : Nat × Flags :=
  let y := f.deliver r sat x.1
  (y.1, x.2 ||| y.2)

def FloatFmt.add (f : FloatFmt) (r : Rounding) (sat : Bool) (a b : Nat) : Nat × Flags :=
  f.finish r sat (addVal r.rnd (f.unpack a) (f.unpack b))

def FloatFmt.sub (f : FloatFmt) (r : Rounding) (sat : Bool) (a b : Nat) : Nat × Flags :=
  f.finish r sat (addVal r.rnd (f.unpack a) (f.unpack b).negate)

def FloatFmt.mul (f : FloatFmt) (r : Rounding) (sat : Bool) (a b : Nat) : Nat × Flags :=
  f.finish r sat (mulVal (f.unpack a) (f.unpack b))

/-- a × b + c with one rounding; 0 × ∞ is invalid whatever c is (R78). -/
def FloatFmt.fma (f : FloatFmt) (r : Rounding) (sat : Bool) (a b c : Nat) : Nat × Flags :=
  let p := mulVal (f.unpack a) (f.unpack b)
  let v := addVal r.rnd p.1 (f.unpack c)
  f.finish r sat (v.1, p.2 ||| v.2)

/-- a / b, R78. -/
def FloatFmt.div (f : FloatFmt) (r : Rounding) (sat : Bool) (a b : Nat) : Nat × Flags :=
  match f.unpack a, f.unpack b with
  | .nan, _ => (f.nanCode, noFlags)
  | _, .nan => (f.nanCode, noFlags)
  | .inf _, .inf _ => (f.nanCode, flagNV)
  | .inf na, .fin nb _ _ => f.deliverInf false (na != nb)
  | .fin na _ _, .inf nb => (f.withSign (na != nb) 0, noFlags)
  | .fin na ma ea, .fin nb mb eb =>
    if mb == 0 then
      if ma == 0 then (f.nanCode, flagNV) else f.deliverInf false (na != nb)
    else
      let k := f.mbits + 24 + Nat.log2 mb
      let n := ma * 2 ^ k
      f.round r sat (na != nb) (n / mb) (ea - eb - k) (n % mb != 0)

/-- The integer square root, one bit a step from bit `b - 1` down. -/
def isqrtFrom (n : Nat) : Nat → Nat → Nat
  | 0, r => r
  | b + 1, r =>
    let r' := r + 2 ^ b
    isqrtFrom n b (if r' * r' ≤ n then r' else r)

def isqrt (n : Nat) : Nat := isqrtFrom n (Nat.log2 n / 2 + 1) 0

/-- √a, R78. -/
def FloatFmt.sqrt (f : FloatFmt) (r : Rounding) (sat : Bool) (a : Nat) : Nat × Flags :=
  match f.unpack a with
  | .nan => (f.nanCode, noFlags)
  | .inf neg => if neg then (f.nanCode, flagNV) else f.deliverInf false false
  | .fin neg m e =>
    if m == 0 then (f.withSign neg 0, noFlags)
    else if neg then (f.nanCode, flagNV)
    else
      let k : Int := f.mbits + 24
      let k2 := if (e - 2 * k) % 2 = 0 then 2 * k else 2 * k + 1
      let n := m * 2 ^ k2.toNat
      let s := isqrt n
      f.round r sat false s ((e - k2) / 2) (s * s != n)

/-- Whether a magnitude order puts `a` below `b`; −0 orders below +0 (R17). -/
def ltVal (a b : FVal) : Bool :=
  match a, b with
  | .nan, _ => false
  | _, .nan => false
  | .inf na, .inf nb => na && !nb
  | .inf na, .fin _ _ _ => na
  | .fin _ _ _, .inf nb => !nb
  | .fin na ma ea, .fin nb mb eb =>
    let q := minInt ea eb
    let x := scaledInt na ma ea q
    let y := scaledInt nb mb eb q
    x < y || (x == y && ma == 0 && na && !nb)

/-- Equal values, with −0 equal to +0 (R79). -/
def eqVal (a b : FVal) : Bool :=
  match a, b with
  | .inf na, .inf nb => na == nb
  | .fin na ma ea, .fin nb mb eb =>
    let q := minInt ea eb
    scaledInt na ma ea q == scaledInt nb mb eb q
  | _, _ => false

/-- Strictly smaller, with −0 equal to +0 (R79). -/
def ltNum (a b : FVal) : Bool := ltVal a b && !eqVal a b

/-- R17. -/
def FloatFmt.min (f : FloatFmt) (a b : Nat) : Nat :=
  let x := f.unpack a; let y := f.unpack b
  if x.isNaN then (if y.isNaN then f.nanCode else b)
  else if y.isNaN then a
  else if ltVal y x then b else a

/-- R17. -/
def FloatFmt.max (f : FloatFmt) (a b : Nat) : Nat :=
  let x := f.unpack a; let y := f.unpack b
  if x.isNaN then (if y.isNaN then f.nanCode else b)
  else if y.isNaN then a
  else if ltVal x y then b else a

/-- A value rounded to an integral value and clamped to an integer type (R31, R81); a NaN gives 0 and NZ. -/
def toInt (t : IntFmt) (r : Rounding) : FVal → Nat × Flags
  | .nan => (0, flagNZ)
  | .inf neg => (wrapTo t.bits (if neg then t.least else t.greatest), flagOF)
  | .fin neg m e =>
    let c := roundAt r neg m e false 0
    let x : Int := if neg then -(c.base : Int) else c.base
    let y := t.clamp x
    (y.1, if y.2 == noFlags then flagIf c.inexact flagNX else overflowFlags)

/-- An integer rounded into a float format (R81). -/
def FloatFmt.ofInt (f : FloatFmt) (r : Rounding) (sat : Bool) (x : Int) : Nat × Flags :=
  f.convert r sat (.fin (x < 0) x.natAbs 0)

/-! ## Special functions (R125) -/

/-- Binary digits of log2 of a value in [1, 2) held with `p` fraction bits: each squaring gives one digit. -/
def log2Digits (p : Nat) : Nat → Nat → Nat → Nat
  | 0, _, acc => acc
  | n + 1, y, acc =>
    let s := y * y / 2 ^ p
    if 2 ^ (p + 1) ≤ s then log2Digits p n (s / 2) (2 * acc + 1)
    else log2Digits p n s (2 * acc)

/-- 2 to the fraction whose bits, highest first, are the low `n` bits of `x`; `c` is 2^(1/2), 2^(1/4) and so on, with `p` fraction bits. -/
def exp2Bits (p x : Nat) : Nat → Nat → Nat → Nat
  | 0, _, acc => acc
  | n + 1, c, acc =>
    let acc := if x / 2 ^ n % 2 == 1 then acc * c / 2 ^ p else acc
    exp2Bits p x n (isqrt (c * 2 ^ p)) acc

/-- The rounding that a special function uses: at FP32 the faithful functions take the neighbour that `Config` fixes for the input (R125). -/
def faithful (f : FloatFmt) (fn : Config.SpecialFn) (r : Rounding) (neg : Bool) (a : Nat) : Rounding :=
  if f.mbits == 23 then
    if Config.faithfulUp fn (BitVec.ofNat 32 a) then ⟨if neg then .rdn else .rup, 0⟩ else ⟨.rtz, 0⟩
  else r

/-- 1/A. -/
def FloatFmt.rcp (f : FloatFmt) (r : Rounding) (sat : Bool) (a : Nat) : Nat × Flags :=
  match f.unpack a with
  | .nan => (f.nanCode, noFlags)
  | .inf neg => (f.withSign neg 0, noFlags)
  | .fin neg m e =>
    if m == 0 then f.deliverInf false neg
    else
      let k := f.mbits + 24 + Nat.log2 m
      let n := 2 ^ k
      f.round (faithful f .rcp r neg a) sat neg (n / m) (-e - k) (n % m != 0)

/-- 1/√A. -/
def FloatFmt.rsq (f : FloatFmt) (r : Rounding) (sat : Bool) (a : Nat) : Nat × Flags :=
  match f.unpack a with
  | .nan => (f.nanCode, noFlags)
  | .inf neg => if neg then (f.nanCode, flagNV) else (0, noFlags)
  | .fin neg m e =>
    if m == 0 then f.deliverInf false neg
    else if neg then (f.nanCode, flagNV)
    else
      let k0 : Int := 2 * (f.mbits + 24 + (Nat.log2 m : Int))
      let k := if (e + k0) % 2 = 0 then k0 else k0 + 1
      let n := 2 ^ k.toNat
      let s := isqrt (n / m)
      f.round (faithful f .rsq r false a) sat false s (-((e + k) / 2)) (s * s * m != n)

/-- 2^A. A magnitude of 4,096 or more stands for itself: it is beyond every format. -/
def FloatFmt.exp2 (f : FloatFmt) (r : Rounding) (sat : Bool) (a : Nat) : Nat × Flags :=
  match f.unpack a with
  | .nan => (f.nanCode, noFlags)
  | .inf neg => if neg then (0, noFlags) else f.deliverInf false false
  | .fin neg m e =>
    let r' := faithful f .exp2 r false a
    if m == 0 then f.round r' sat false 1 0 false
    else if 12 ≤ e + (Nat.log2 m : Int) then
      f.round r' sat false 1 (if neg then -4096 else 4096) false
    else
      let p := 256
      -- fixed point with 160 fraction bits; every input of 8, 16 or 32 bits is one
      let x : Int := scaledInt neg m e (-160)
      let whole := x / ((2 ^ 160 : Nat) : Int)
      let frac := (x % ((2 ^ 160 : Nat) : Int)).toNat
      let v := exp2Bits p frac 160 (isqrt (2 ^ (2 * p + 1))) (2 ^ p)
      f.round r' sat false v (whole - p) (frac != 0)

/-- log₂ A. -/
def FloatFmt.log2 (f : FloatFmt) (r : Rounding) (sat : Bool) (a : Nat) : Nat × Flags :=
  match f.unpack a with
  | .nan => (f.nanCode, noFlags)
  | .inf neg => if neg then (f.nanCode, flagNV) else f.deliverInf false false
  | .fin neg m e =>
    if m == 0 then f.deliverInf false true
    else if neg then (f.nanCode, flagNV)
    else
      let l := Nat.log2 m
      let whole : Int := e + l
      let p := 256
      let d := 96
      let frac := log2Digits p d (m * 2 ^ (p - l)) 0
      if m == 2 ^ l then
        f.round (faithful f .log2 r (whole < 0) a) sat (whole < 0) whole.natAbs 0 false
      else
        let v : Int := whole * ((2 ^ d : Nat) : Int) + frac
        if v < 0 then f.round (faithful f .log2 r true a) sat true (v.natAbs - 1) (-d) true
        else f.round (faithful f .log2 r false a) sat false v.natAbs (-d) true

/-! ## Group scales and self-describing blocks (R19 to R24) -/

/-- The value of an E3M5 scale times 2^x; `none` for 0xFF (R19). -/
def scaleVal (s : Nat) (x : Int) : Option (Nat × Int) :=
  match (floatFmt .e3m5).unpack s with
  | .fin _ m e => some (m, e + x)
  | .nan | .inf _ => none

/-- element × scale × 2^x, exactly (R22). -/
def scaleElement (v : FVal) (s : Nat) (x : Int) : FVal :=
  match scaleVal s x with
  | none => .nan
  | some (m, e) => (mulVal v (.fin false m e)).1

/-- Byte `n` of a little-endian number. -/
def byteAt (v n : Nat) : Nat := v / 2 ^ (8 * n) % 2 ^ 8

/-- Bits [lo + n - 1 : lo] of a number. -/
def bitsAt (v lo n : Nat) : Nat := v / 2 ^ lo % 2 ^ n

/-- `v` with bits [lo + n - 1 : lo] replaced by the low `n` bits of `x`. -/
def putBits (v lo n x : Nat) : Nat :=
  v - (v / 2 ^ lo % 2 ^ n) * 2 ^ lo + (x % 2 ^ n) * 2 ^ lo

/-- The formats that a self-describing block may hold, with their codes (R21). -/
inductive BlockFmt where
  | zero | fp4 | e4m3 | e5m2 | int8 | bf16 | f16 | f32
deriving DecidableEq, Repr

/-- R21 and R24: any other code is a format fault. -/
def BlockFmt.ofCode : Nat → Option BlockFmt
  | 0x00 => some .zero | 0x10 => some .fp4 | 0x20 => some .e4m3 | 0x21 => some .e5m2
  | 0x30 => some .int8 | 0x40 => some .bf16 | 0x41 => some .f16 | 0x50 => some .f32
  | _ => none

/-- Element `k` of a grouped payload: its element bits start at byte `base`. -/
def groupElement (f : BlockFmt) (v base k : Nat) : FVal :=
  match f with
  | .fp4 => (floatFmt .fp4).unpack (bitsAt v (8 * base + 4 * k) 4)
  | .e4m3 => (floatFmt .e4m3).unpack (byteAt v (base + k))
  | .e5m2 => (floatFmt .e5m2).unpack (byteAt v (base + k))
  | .int8 => let x := signedOf 8 (byteAt v (base + k)); .fin (x < 0) x.natAbs 0
  | .bf16 => (floatFmt .bf16).unpack (bitsAt v (8 * base + 16 * k) 16)
  | .f16 => (floatFmt .f16).unpack (bitsAt v (8 * base + 16 * k) 16)
  | .f32 => (floatFmt .f32).unpack (bitsAt v (8 * base + 32 * k) 32)
  | .zero => .fin false 0 0

/-- Where a 64-byte block's elements begin, and how many it holds (R21). -/
def BlockFmt.layout : BlockFmt → Nat × Nat
  | .zero => (1, 96) | .fp4 => (14, 96) | .e4m3 | .e5m2 | .int8 => (8, 48) | .bf16 | .f16 => (2, 31) | .f32 => (2, 15)

/-- Whether a block carries E3M5 group scales from byte 2 on. -/
def BlockFmt.grouped : BlockFmt → Bool
  | .fp4 | .e4m3 | .e5m2 | .int8 => true
  | .zero | .bf16 | .f16 | .f32 => false

/-- Element `k` of a 64-byte block held little-endian in `v`, R22. -/
def blockElement (f : BlockFmt) (v k : Nat) : FVal :=
  let x := signedOf 8 (byteAt v 1)
  let el := groupElement f v f.layout.1 k
  if f.grouped then scaleElement el (byteAt v (2 + k / 8)) x
  else (mulVal el (.fin false 1 x)).1

/-! ## Sums in a fixed order (R32, R33) -/

/-- One level of the tree: neighbouring pairs added. -/
def pairLevel {α : Type} (op : α → α → α) : List α → List α
  | a :: b :: r => op a b :: pairLevel op r
  | l => l

/-- The binary tree of R32 with enough levels for the list. -/
def treeSum {α : Type} (op : α → α → α) : Nat → List α → List α
  | 0, l => l
  | n + 1, l => treeSum op n (pairLevel op l)

/-- Running sums in ascending lane order, R33. -/
def scanSum {α : Type} (op : α → α → α) : Option α → List α → List α
  | _, [] => []
  | none, a :: r => a :: scanSum op (some a) r
  | some s, a :: r => let t := op s a; t :: scanSum op (some t) r

end Sys2Proof.Machine
end

