-- ==== Sys2Proof/Machine/Desc.lean ====
section
/-! DEFINITION. The descriptors of copies and products, and the addresses they name (R142 to R150, R155, R286). -/

namespace Sys2Proof.Machine

/-! ## The descriptor (R142, R143) -/

/-- The eight operand-extension registers of a copy. -/
abbrev CopyDesc := Vector Word 8

namespace CopyDesc

def word (d : CopyDesc) (n : Nat) : Nat := (vget 0 d n).toNat
/-- The extent of a dimension; 0 means 1. -/
def ext (d : CopyDesc) (k : Nat) : Nat :=
  let n := d.word 2 / 2 ^ (16 * k) % 2 ^ 16
  if n = 0 then 1 else n
/-- A stride in bytes of dimension 1, 2 or 3 in a word of three i21 fields. -/
def stride (w k : Nat) : Int := signedOf 21 (w / 2 ^ (21 * (k - 1)))
def ss (d : CopyDesc) (k : Nat) : Int := stride (d.word 3) k
def ds (d : CopyDesc) (k : Nat) : Int := stride (d.word 4) k
def valid (d : CopyDesc) (k : Nat) : Nat := d.word 6 / 2 ^ (16 * k) % 2 ^ 16
def esz (d : CopyDesc) : Nat := d.word 5 % 2 ^ 4
def conv (d : CopyDesc) : Nat := d.word 5 / 2 ^ 4 % 2 ^ 4
def weir (d : CopyDesc) : Nat := d.word 5 / 2 ^ 8 % 2 ^ 6
def clip (d : CopyDesc) : Bool := (vget 0 d 5).getLsbD 14
def zf (d : CopyDesc) : Bool := (vget 0 d 5).getLsbD 15
def nocr (d : CopyDesc) : Bool := (vget 0 d 5).getLsbD 16
def mc (d : CopyDesc) : Bool := (vget 0 d 5).getLsbD 17
def scope (d : CopyDesc) : Nat := d.word 5 / 2 ^ 18 % 2 ^ 3
def rnd (d : CopyDesc) : Nat := d.word 5 / 2 ^ 21 % 2 ^ 3
def sat (d : CopyDesc) : Bool := (vget 0 d 5).getLsbD 24
def mask (d : CopyDesc) : Nat := d.word 7 / 2 ^ 8 % 2 ^ 8
def slot (d : CopyDesc) : Nat := d.word 7 % 2 ^ 3

/-- Elements are handled in pairs that fill one byte (R145). -/
def pairs (d : CopyDesc) : Bool := d.esz = 5 || d.conv = 9

/-- The bytes of a source element; a nibble lies in one byte. -/
def srcBytes (d : CopyDesc) : Nat :=
  match d.esz with
  | 0 => 1 | 1 => 2 | 2 => 4 | 3 => 8 | 4 => 64 | _ => 1

/-- The bytes of a destination element, R144. -/
def dstBytes (d : CopyDesc) : Nat :=
  match d.conv with
  | 0 => d.srcBytes
  | 1 | 2 | 8 => 2
  | 3 | 4 => 4
  | _ => 1

/-- The ESZ that a conversion needs (R144). -/
def convSource : Nat → Option Nat
  | 1 | 2 | 5 | 6 | 9 | 10 => some 2
  | 3 | 4 | 7 => some 1
  | 8 => some 0
  | _ => none

/-- ESZ and CONV are assigned and match. -/
def formatsOk (d : CopyDesc) : Bool :=
  if 5 < d.esz then false
  else if d.conv = 0 then true
  else convSource d.conv = some d.esz

/-- The scratch window of a cluster holds an address. -/
def inScratch (cl : Nat) (va : Nat) : Bool :=
  scratchBase + cl * 0x2000000 ≤ va && va < scratchBase + (cl + 1) * 0x2000000

/-- The uses that R146 allows; `landing` says that the copy is a `cpmx`. -/
def legal (d : CopyDesc) (cl : Nat) (landing : Bool) : Bool :=
  d.word 3 / 2 ^ 63 = 0 && d.word 4 / 2 ^ 63 = 0 && d.word 5 / 2 ^ 25 = 0 &&
  d.word 7 / 2 ^ 16 = 0 && d.word 7 / 2 ^ 3 % 2 ^ 5 = 0 &&
  d.formatsOk && d.rnd ≠ 7 && d.scope < 6 && !(d.mc && d.mask = 0) &&
  !(d.pairs && d.ext 0 % 2 = 1) && !((d.mc || landing) && !inScratch cl (d.word 1))

end CopyDesc

/-! ## The element loop (R145, R148, R150) -/

namespace Copy

/-- Elements or pairs in one run of dimension 0. -/
def perRow (c : Copy) : Nat :=
  let d : CopyDesc := c.desc
  if d.pairs then d.ext 0 / 2 else d.ext 0

/-- Steps of one tile of a stream. -/
def perTile (c : Copy) : Nat :=
  let d : CopyDesc := c.desc
  c.perRow * d.ext 1 * d.ext 2

/-- The first line and the number of lines that a range command handles (R151). -/
def lines (c : Copy) : Nat × Nat :=
  match c.kind with
  | .discard a n =>
    let first := (a.toNat + 63) / 64
    (first, (a.toNat + n.toNat) / 64 - first)
  | .prefetch a n =>
    if n = 0 then (0, 0) else (a.toNat / 64, (a.toNat + n.toNat - 1) / 64 + 1 - a.toNat / 64)
  | .tile | .landing | .gather _ _ | .scatter _ _ | .stream _ => (0, 0)

/-- Steps of the whole command. -/
def total (c : Copy) : Nat :=
  let d : CopyDesc := c.desc
  match c.kind with
  | .tile | .landing | .stream _ => c.perTile * d.ext 3
  | .gather _ rows | .scatter _ rows => c.perRow * rows
  | .discard _ _ | .prefetch _ _ => c.lines.2

/-- The indices i0 to i3 of the next step. -/
def place (c : Copy) : Nat × Nat × Nat × Nat :=
  let d : CopyDesc := c.desc
  let i0 := c.next % c.perRow * (if d.pairs then 2 else 1)
  let r := c.next / c.perRow
  match c.kind with
  | .gather _ _ | .scatter _ _ => (i0, r, 0, 0)
  | .tile | .landing | .stream _ | .discard _ _ | .prefetch _ _ =>
    (i0, r % d.ext 1, r / d.ext 1 % d.ext 2, r / d.ext 1 / d.ext 2)

/-- The address of a run on one side, before dimension 0. -/
def runAt (base : Word) (strides : Nat → Int) (i1 i2 i3 : Nat) : Int :=
  (base.toNat : Int) + i1 * strides 1 + i2 * strides 2 + i3 * strides 3

/-- The rows on the source and destination sides: a list index stands for one of them (R148). -/
def rows (c : Copy) (i1 : Nat) : Nat × Nat :=
  let n := match c.index with
    | some w => w.toNat
    | none => 0
  match c.kind with
  | .gather _ _ => (n, i1)
  | .scatter _ _ => (i1, n)
  | .tile | .landing | .stream _ | .discard _ _ | .prefetch _ _ => (i1, i1)

/-- Element `i0` of the step is clipped (R145, R148). -/
def clipped (c : Copy) (i0 : Nat) : Bool :=
  let d : CopyDesc := c.desc
  let (_, i1, i2, i3) := c.place
  d.clip && (d.valid 0 ≤ i0 || match c.kind with
    | .gather _ _ | .scatter _ _ => match c.index with
      | some w => d.valid 1 ≤ w.toNat
      | none => false
    | .tile | .landing | .stream _ | .discard _ _ | .prefetch _ _ => d.valid 1 ≤ i1 || d.valid 2 ≤ i2 || d.valid 3 ≤ i3)

/-- The source address of element `i0` of the step; two nibbles share a byte. -/
def srcAt (c : Copy) (i0 : Nat) : Word :=
  let d : CopyDesc := c.desc
  let (_, i1, i2, i3) := c.place
  let at_ := if d.esz = 5 then i0 / 2 else i0 * d.srcBytes
  BitVec.ofInt 64 (runAt (vget 0 d 0) d.ss (c.rows i1).1 i2 i3 + at_)

/-- The destination address of the step; a stream's tile goes to its slot (R150). -/
def dstAt (c : Copy) : Word :=
  let d : CopyDesc := c.desc
  let (i0, i1, i2, i3) := c.place
  let i3 := match c.kind with
    | .stream n => i3 % n
    | .tile | .landing | .gather _ _ | .scatter _ _ | .discard _ _ | .prefetch _ _ => i3
  let at_ := if d.pairs then i0 / 2 else i0 * d.dstBytes
  BitVec.ofInt 64 (runAt (vget 0 d 1) d.ds (c.rows i1).2 i2 i3 + at_)

/-- The elements of the step. -/
def parts (c : Copy) : List Nat :=
  let d : CopyDesc := c.desc
  let i0 := c.place.1
  if d.pairs then [i0, i0 + 1] else [i0]

/-- The reads of the step, in order: no clipped element is read. -/
def reads (c : Copy) : List (Word × Nat) :=
  let d : CopyDesc := c.desc
  let live := c.parts.filter fun i => !c.clipped i
  if d.esz = 5 then (live.take 1).map fun i => (c.srcAt i, 1)
  else live.map fun i => (c.srcAt i, d.srcBytes)

/-- The linear index of the step's first element (R27). -/
def linear (c : Copy) : Nat :=
  let d : CopyDesc := c.desc
  c.next * (if d.pairs then 2 else 1)

/-- Every element of the step is clipped. -/
def allClipped (c : Copy) : Bool := c.parts.all c.clipped

/-- The destination addresses: with multicast, the same offset of every block named (R145). -/
def targets (c : Copy) (cl : Nat) : List Word :=
  let d : CopyDesc := c.desc
  let va := c.dstAt
  if d.mc && CopyDesc.inScratch cl va.toNat then
    ((List.range 8).filter fun b => d.mask.testBit b).map fun b =>
      BitVec.ofNat 64 (scratchBase + cl * 0x2000000 + b * 0x400000 + (va.toNat - scratchBase) % 0x400000)
  else [va]

/-- A multicast element outside the scratch window of the cluster has no place in every block. -/
def strays (c : Copy) (cl : Nat) : Bool :=
  let d : CopyDesc := c.desc
  d.mc && !CopyDesc.inScratch cl c.dstAt.toNat

end Copy

/-- The cluster of a copy engine (R141). -/
def engineCluster (e : Nat) : Nat := if e < 256 then e / 8 else e - 256


/-! ## Banks that a command names (R286) -/

/-- The first address of a bank, by block × 32 + bank. -/
def bankBase (key : Nat) : Nat := scratchBase + key * 0x20000

/-- A range of addresses meets a bank. -/
def meetsBank (lo hi : Int) (key : Nat) : Bool :=
  lo < ((bankBase key + 0x20000 : Nat) : Int) && ((bankBase key : Nat) : Int) < hi

/-- How far `n` strides reach below and above their start. -/
def reachOf (n : Nat) (stride : Int) : Int × Int :=
  let x := ((n - 1 : Nat) : Int) * stride
  if x < 0 then (x, 0) else (0, x)

/-- The least range that holds runs of `len` bytes at a base under three extents and strides. -/
def hullOf (base : Word) (len : Nat) (n1 n2 n3 : Nat) (strides : Nat → Int) : Int × Int :=
  let r1 := reachOf n1 (strides 1)
  let r2 := reachOf n2 (strides 2)
  let r3 := reachOf n3 (strides 3)
  ((base.toNat : Int) + r1.1 + r2.1 + r3.1, (base.toNat : Int) + r1.2 + r2.2 + r3.2 + len)

namespace Copy

/-- The ranges that a copy reads and writes; a row that an index will name may be any (R148). -/
def hulls (c : Copy) : (Int × Int) × (Int × Int) :=
  let d : CopyDesc := c.desc
  let n := d.ext
  let srcLen := if d.esz = 5 then n 0 / 2 else n 0 * d.srcBytes
  let dstLen := if d.pairs then n 0 / 2 else n 0 * d.dstBytes
  let src := fun a b e => hullOf (vget 0 d 0) srcLen a b e d.ss
  let dst := fun a b e => hullOf (vget 0 d 1) dstLen a b e d.ds
  match c.kind with
  | .tile | .landing => (src (n 1) (n 2) (n 3), dst (n 1) (n 2) (n 3))
  | .stream k => (src (n 1) (n 2) (n 3), dst (n 1) (n 2) k)
  | .gather _ rows => (src (2 ^ 32) 1 1, dst rows 1 1)
  | .scatter _ rows => (src rows 1 1, dst (2 ^ 32) 1 1)
  | .discard _ _ | .prefetch _ _ => ((0, 0), (0, 0))

/-- The list of a gather or scatter. -/
def listHull (c : Copy) : Int × Int :=
  match c.kind with
  | .gather a n | .scatter a n => ((a.toNat : Int), (a.toNat : Int) + 4 * n)
  | .tile | .landing | .stream _ | .discard _ _ | .prefetch _ _ => (0, 0)

/-- The copy names a bank. -/
def names (c : Copy) (key : Nat) : Bool :=
  let d : CopyDesc := c.desc
  let (src, dst) := c.hulls
  meetsBank src.1 src.2 key || meetsBank c.listHull.1 c.listHull.2 key ||
  (if d.mc then
    d.mask.testBit (key / 32 % 8) && (List.range 8).any fun b => meetsBank dst.1 dst.2 (key / 256 * 256 + 32 * b + key % 32)
  else meetsBank dst.1 dst.2 key)

end Copy

/-! ## The operand descriptor of a product (R155) -/

/-- ox0 to ox5 as `mxmm` captures them. -/
abbrev MatrixDesc := Vector Word 6

namespace MatrixDesc

def word (d : MatrixDesc) (n : Nat) : Nat := (vget 0 d n).toNat
def m (d : MatrixDesc) : Nat := d.word 2 % 2 ^ 16
def n (d : MatrixDesc) : Nat := d.word 2 / 2 ^ 16 % 2 ^ 16
def k (d : MatrixDesc) : Nat := d.word 2 / 2 ^ 32 % 2 ^ 16
def fmt (d : MatrixDesc) : Nat := d.word 5 % 2 ^ 4
def mcast (d : MatrixDesc) : Nat := d.word 4 / 2 ^ 16 % 2 ^ 8
/-- Address of row 0 of operand A, or of B where `b` holds. -/
def addr (d : MatrixDesc) (b : Bool) : Nat := d.word (if b then 1 else 0)
def stride (d : MatrixDesc) (b : Bool) : Nat := d.word 3 / 2 ^ (if b then 32 else 0) % 2 ^ 32
def rows (d : MatrixDesc) (b : Bool) : Nat := if b then d.n else d.m
def kind (d : MatrixDesc) (b : Bool) : Nat := d.word 4 / 2 ^ (if b then 8 else 0) % 2 ^ 2
def blk (d : MatrixDesc) (b : Bool) : Nat := d.word 4 / 2 ^ (if b then 10 else 2) % 2 ^ 3
def port (d : MatrixDesc) (b : Bool) : Nat := d.word 4 / 2 ^ (if b then 28 else 24) % 2 ^ 4
/-- The grouped formats hold their rows as self-describing blocks. -/
def grouped (d : MatrixDesc) : Bool := 6 ≤ d.fmt
/-- Elements of one grouped block. -/
def perBlock (d : MatrixDesc) : Nat := if d.fmt = 6 then 96 else 48
/-- The bytes of one plain element. -/
def elemBytes (d : MatrixDesc) : Nat :=
  match d.fmt with
  | 0 => 4 | 1 | 2 => 2 | _ => 1
/-- The bytes of one row of an operand. -/
def rowBytes (d : MatrixDesc) : Nat :=
  if d.grouped then 64 * ((d.k + d.perBlock - 1) / d.perBlock) else d.k * d.elemBytes

/-- Reserved bits, kinds, formats and extents that R156 allows, but for the microprogram's condition. -/
def legal (d : MatrixDesc) : Bool :=
  0 < d.m && d.m ≤ 128 && 0 < d.n && d.n ≤ 128 && 0 < d.k && d.fmt < 10 &&
  !(d.grouped && d.k % 8 ≠ 0) && d.kind false ≠ 3 && d.kind true ≠ 3 &&
  d.word 2 / 2 ^ 48 = 0 && d.word 4 / 2 ^ 32 = 0 && d.word 4 / 2 ^ 13 % 2 ^ 3 = 0 && d.word 4 / 2 ^ 5 % 2 ^ 3 = 0 &&
  d.word 5 / 2 ^ 4 = 0

end MatrixDesc

/-- An operand of a command of a block names a bank. -/
def MatrixCmd.names (c : MatrixCmd) (key : Nat) : Bool :=
  match c.op with
  | .multiply _ d =>
    let one : Bool → Bool := fun b =>
      let d : MatrixDesc := d
      d.kind b ≠ 2 &&
        (let x := hullOf (BitVec.ofNat 64 (d.addr b)) d.rowBytes (d.rows b) 1 1 (fun _ => (d.stride b : Int))
         meetsBank x.1 x.2 key)
    one false || one true
  | .program _ _ | .unload | .fill _ _ => false

end Sys2Proof.Machine
end

