-- ==== Sys2Proof/Machine/Caches.lean ====
section
/-! DEFINITION. The L1 and segment caches: fills, write-backs, scope versions (R326, R327), releases and acquires on path t (R93). -/

namespace Sys2Proof.Machine

/-- A line serves accesses while its recorded versions are the cache's (R326). -/
def Cache.current (c : Cache) (l : Line) : Bool := l.versions = c.versions

/-- The byte a cache serves: of a current line, or a dirty byte of any line. -/
def Cache.byte? (c : Cache) (a : Nat) : Option Byte :=
  match findLine (a / 64) c.lines with
  | none => none
  | some l =>
    if c.current l || l.dirty.getLsbD (a % 64) then some (lineByte l.data (a % 64)) else none

/-- The cache holds a current line. -/
def Cache.hits (c : Cache) (no : Nat) : Bool :=
  match findLine no c.lines with
  | none => false
  | some l => c.current l

/-- The cache with a line filled at the current versions; dirty bytes stay dirty.
`missed` is the bytes whose newest write at the home the level below does not show. -/
def Cache.fill (c : Cache) (no : Nat) (f : Nat → Byte) (missed : BitVec 64) : Cache :=
  match findLine no c.lines with
  | some l =>
    if c.current l then c
    else { c with lines := putLine { l with
        no := no
        data := lineOf f
        versions := c.versions
        pushed := none
        missedSegment := l.missedSegment &&& l.dirty
        missedHome := (l.missedHome &&& l.dirty) ||| (missed &&& ~~~l.dirty) } c.lines }
  | none => { c with lines := putLine { Line.filled no (lineOf f) c.versions with missedHome := missed } c.lines }

/-- The masked bytes written into a filled line and marked dirty, by a thread or on behalf of none. -/
def Cache.write (c : Cache) (no : Nat) (new : LineData) (mask : BitVec 64) (by_ : Option (Nat × Nat)) : Cache :=
  match findLine no c.lines with
  | some l => { c with lines := putLine { l with
      data := mergeLine l.data new mask
      dirty := l.dirty ||| mask
      writer := by_.or l.writer } c.lines }
  | none => { c with lines := putLine { Line.filled no new c.versions with dirty := mask, writer := by_ } c.lines }

/-- The bytes of a line that the cache serves. -/
def Cache.served (c : Cache) (no : Nat) : BitVec 64 :=
  match findLine no c.lines with
  | none => 0
  | some l => if c.current l then BitVec.allOnes 64 else l.dirty

/-- The bytes of a line that are dirty in the cache. -/
def Cache.dirtyOf (c : Cache) (no : Nat) : BitVec 64 :=
  match findLine no c.lines with
  | none => 0
  | some l => l.dirty

/-- The bytes of a line at which others have written at the home since the cache took them. -/
def Cache.missedOf (c : Cache) (no : Nat) : BitVec 64 :=
  match findLine no c.lines with
  | none => 0
  | some l => l.missedHome

def Cache.drop (c : Cache) (no : Nat) : Cache := { c with lines := dropLine no c.lines }

namespace State

/-! ## What an agent's caches show -/

def l1 (s : State) (c : Nat) : Cache := (s.core c).l1
def setL1 (s : State) (c : Nat) (l : Cache) : State := s.setCore c { s.core c with l1 := l }
def seg (s : State) (cl : Nat) : Cache := (s.segment cl).cache
def setSeg (s : State) (cl : Nat) (l : Cache) : State := s.setSegment cl { s.segment cl with cache := l }

/-- A byte as a cluster's segment cache serves it. -/
def segByte (s : State) (cl : Nat) (a : Nat) : Byte :=
  match (s.seg cl).byte? a with
  | some b => b
  | none => s.homeByte a

/-- A byte as a core's L1 serves it. -/
def l1Byte (s : State) (c : Nat) (a : Nat) : Byte :=
  match (s.l1 c).byte? a with
  | some b => b
  | none => s.segByte (coreCluster c) a

/-! ## Tags and held lines -/

/-- The iteration write tag of a line at a point becomes the thread whose write or write-back is performed there, for every recording that is playing (R381). -/
def tagLine (s : State) (point no : Nat) (by_ : Option (Nat × Nat)) : State :=
  match by_ with
  | none => s
  | some t =>
    { s with tracks := s.tracks.map fun p =>
        match p.2.state with
        | .playing => (p.1, { p.2 with tags := tset (point, no) t p.2.tags })
        | .none | .recording | .recorded => p }

end State

/-- Where a performed write comes from: its agent, or the write-back of an L1 or of a segment cache. -/
inductive Source where
  | agent
  | l1 (core : Nat)
  | segment (cl : Nat)
deriving DecidableEq, Repr

/-- The bytes of a performed write that the push of a held line did not carry (R324). -/
def Source.uncarried (from_ : Source) (mask : BitVec 64) (h : Held) : BitVec 64 :=
  match from_ with
  | .agent => mask
  | .l1 c => if h.prodCore = c then mask &&& h.freshL1 else mask
  | .segment cl => if coreCluster h.prodCore = cl then mask &&& h.freshSegment else mask

/-- The bytes of a write performed at the home that a core's line does not show. -/
def Source.missedBy (from_ : Source) (mask : BitVec 64) (core : Nat) (l : Line) : BitVec 64 :=
  match from_ with
  | .agent | .l1 _ => mask
  | .segment cl => if coreCluster core = cl then mask &&& l.missedSegment else mask

/-- A write performed at a segment cache, or at the home, marks a held copy in a core (R324). -/
def spoilHeld (cl : Option Nat) (core no : Nat) (from_ : Source) (mask : BitVec 64) (h : Held) : Held :=
  let new := from_.uncarried mask h
  if h.no = no && new ≠ 0 then
    match cl with
    | none => { h with staleHome := true }
    | some k =>
      { h with
          staleSegment := h.staleSegment || coreCluster core = k
          freshSegment := if coreCluster h.prodCore = k then h.freshSegment ||| new else h.freshSegment }
  else h

/-- A write performed at a segment cache, or at the home, marks a line of a core's L1. -/
def missLine (cl : Option Nat) (core no : Nat) (from_ : Source) (mask : BitVec 64) (l : Line) : Line :=
  if l.no = no then
    match cl with
    | none => { l with missedHome := l.missedHome ||| from_.missedBy mask core l }
    | some k =>
      if coreCluster core = k && from_ ≠ .l1 core then { l with missedSegment := l.missedSegment ||| mask } else l
  else l

/-- What a performed write leaves in a core: marks on its held copies and on its own copy of the line. -/
def markCore (cl : Option Nat) (no : Nat) (from_ : Source) (mask : BitVec 64) (core : Nat) (k : Core) : Core :=
  { k with
    held := k.held.map (spoilHeld cl core no from_ mask)
    l1 := { k.l1 with lines := k.l1.lines.map (missLine cl core no from_ mask) } }

/-- And in a home segment: a write at the home marks the copy of its cache. -/
def markSegment (cl : Option Nat) (no : Nat) (from_ : Source) (mask : BitVec 64) (seg : Nat) (g : Segment) : Segment :=
  if cl.isNone && from_ ≠ .segment seg then
    { g with cache := { g.cache with lines := g.cache.lines.map fun l =>
        if l.no = no then { l with missedHome := l.missedHome ||| mask } else l } }
  else g

namespace State

/-- A performed write marks the copies of its line that do not show it. -/
def spoil (s : State) (cl : Option Nat) (no : Nat) (from_ : Source) (mask : BitVec 64) : State :=
  { s with
    cores := s.cores.map fun p => (p.1, markCore cl no from_ mask p.1 p.2)
    segments := s.segments.map fun p => (p.1, markSegment cl no from_ mask p.1 p.2) }

/-- A write in a core's L1 of bytes that the pushes out of that core before it did not carry. -/
def freshen (s : State) (c no : Nat) (mask : BitVec 64) : State :=
  { s with cores := s.cores.map fun p => (p.1, { p.2 with held := p.2.held.map fun h =>
      if h.no = no && h.prodCore = c then { h with freshL1 := h.freshL1 ||| mask } else h }) }

/-- Bytes performed at the home, with the tags and copies they bear on. -/
def performHomeBy (s : State) (no : Nat) (new : LineData) (mask : BitVec 64) (from_ : Source) (by_ : Option (Nat × Nat)) : State :=
  ((s.homeWrite no new mask).spoil none no from_ mask).tagLine 32 no by_

/-- A write of an agent performed at the home, by a thread or on behalf of none. -/
def performHome (s : State) (no : Nat) (new : LineData) (mask : BitVec 64) (by_ : Option (Nat × Nat) := none) : State :=
  s.performHomeBy no new mask .agent by_

/-! ## Fills and write-backs -/

def fillSeg (s : State) (cl no : Nat) : State :=
  s.setSeg cl ((s.seg cl).fill no (fun k => s.segByte cl (64 * no + k)) 0)

/-- Bytes performed in a segment cache. -/
def performSegBy (s : State) (cl no : Nat) (new : LineData) (mask : BitVec 64) (from_ : Source) (by_ : Option (Nat × Nat)) : State :=
  let s := s.fillSeg cl no
  ((s.setSeg cl ((s.seg cl).write no new mask by_)).spoil (some cl) no from_ mask).tagLine cl no by_

/-- A write of an agent performed in a segment cache. -/
def performSeg (s : State) (cl no : Nat) (new : LineData) (mask : BitVec 64) (by_ : Option (Nat × Nat)) : State :=
  s.performSegBy cl no new mask .agent by_

def fillL1 (s : State) (c no : Nat) : State :=
  let s := s.fillSeg (coreCluster c) no
  s.setL1 c ((s.l1 c).fill no (fun k => s.l1Byte c (64 * no + k)) ((s.seg (coreCluster c)).missedOf no))

/-- Bytes of a thread written into a line of its core's L1. -/
def writeL1 (s : State) (c sl no : Nat) (new : LineData) (mask : BitVec 64) : State :=
  (s.setL1 c ((s.l1 c).write no new mask (some (c, sl)))).freshen c no mask

def performL1 (s : State) (c sl no : Nat) (new : LineData) (mask : BitVec 64) : State :=
  (s.fillL1 c no).writeL1 c sl no new mask

/-- The dirty bytes of a segment cache's line written to the home; the line stays, clean. -/
def cleanSeg (s : State) (cl no : Nat) : State :=
  match findLine no (s.seg cl).lines with
  | none => s
  | some l =>
    if l.dirty = 0 then s
    else (s.setSeg cl { s.seg cl with lines := putLine { l with dirty := 0, writer := none } (s.seg cl).lines }).performHomeBy
      no l.data l.dirty (.segment cl) l.writer

/-- The dirty bytes of an L1 line written to the segment cache; the line stays, clean. -/
def cleanL1 (s : State) (c no : Nat) : State :=
  match findLine no (s.l1 c).lines with
  | none => s
  | some l =>
    if l.dirty = 0 then s
    else (s.setL1 c { s.l1 c with lines := putLine { l with dirty := 0, writer := none } (s.l1 c).lines }).performSegBy
      (coreCluster c) no l.data l.dirty (.l1 c) l.writer

/-- The numbers of a cache's lines. -/
def lineNumbers (c : Cache) : List Nat := c.lines.map Line.no

/-- A line leaves an L1, its dirty bytes to the segment cache. -/
def leaveL1 (s : State) (c no : Nat) : State :=
  if (findLine no (s.l1 c).lines).isNone then s
  else
    let s := s.cleanL1 c no
    s.setL1 c ((s.l1 c).drop no)

/-- A line leaves a segment cache, its dirty bytes to the home. -/
def leaveSeg (s : State) (cl no : Nat) : State :=
  if (findLine no (s.seg cl).lines).isNone then s
  else
    let s := s.cleanSeg cl no
    s.setSeg cl ((s.seg cl).drop no)

def cleanAllL1 (s : State) (c : Nat) : State := (lineNumbers (s.l1 c)).foldl (fun s no => s.cleanL1 c no) s
def cleanAllSeg (s : State) (cl : Nat) : State := (lineNumbers (s.seg cl)).foldl (fun s no => s.cleanSeg cl no) s

/-- A line leaves the cache ways of a block, its dirty bytes to the home (R285). -/
def leaveWay (s : State) (blk no : Nat) : State :=
  match findLine no (s.block blk).ways with
  | none => s
  | some l =>
    let s := if l.dirty = 0 then s else s.performHome no l.data l.dirty
    s.setBlock blk { s.block blk with ways := dropLine no (s.block blk).ways }

/-- Every copy of a line on the die written to its home and dropped, but for those in one core's L1 or one cluster's segment cache. -/
def recallBut (s : State) (core cl : Option Nat) (no : Nat) : State :=
  let s := s.cores.foldl (fun s p => if core = some p.1 then s else s.leaveL1 p.1 no) s
  let s := s.segments.foldl (fun s p => if cl = some p.1 then s else s.leaveSeg p.1 no) s
  s.blocks.foldl (fun s p => s.leaveWay p.1 no) s

/-- Every copy of a line on the die written to its home and dropped (R387, R375). -/
def recallLine (s : State) (no : Nat) : State := s.recallBut none none no

/-- The dirty bytes of a line written to its home from everywhere but one core's L1; the lines in L1s and segment caches stay, clean. -/
def cleanBut (s : State) (core : Option Nat) (no : Nat) : State :=
  let s := s.cores.foldl (fun s p => if core = some p.1 then s else s.cleanL1 p.1 no) s
  let s := s.segments.foldl (fun s p => s.cleanSeg p.1 no) s
  s.blocks.foldl (fun s p => s.leaveWay p.1 no) s

/-- The line written to its home wherever it is dirty. -/
def cleanLine (s : State) (no : Nat) : State := s.cleanBut none no

/-- Every dirty line of every L1 and segment cache written to its home (R328). -/
def cleanEverything (s : State) : State :=
  let s := s.cores.foldl (fun s p => s.cleanAllL1 p.1) s
  s.segments.foldl (fun s p => s.cleanAllSeg p.1) s

/-! ## Scope versions (R326, R327) -/

/-- One counter of a cache raised; a value that a line still records first invalidates every line not at the counter's value. -/
def bumpL1 (s : State) (c k : Nat) : State :=
  let now := vget 0 (s.l1 c).versions k
  let s :=
    if (s.l1 c).lines.any fun l => vget 0 l.versions k = now + 1 then
      ((s.l1 c).lines.filter fun l => vget 0 l.versions k ≠ now).foldl (fun s l => s.leaveL1 c l.no) s
    else s
  s.setL1 c { s.l1 c with versions := vset (s.l1 c).versions k (now + 1) }

def bumpSeg (s : State) (cl k : Nat) : State :=
  let now := vget 0 (s.seg cl).versions k
  let s :=
    if (s.seg cl).lines.any fun l => vget 0 l.versions k = now + 1 then
      ((s.seg cl).lines.filter fun l => vget 0 l.versions k ≠ now).foldl (fun s l => s.leaveSeg cl l.no) s
    else s
  s.setSeg cl { s.seg cl with versions := vset (s.seg cl).versions k (now + 1) }

end State

/-- The counter of a scope: cluster 0, group 1, device 2, system 3; thread and core scope have none. -/
def scopeCounter : Scope → Option Nat
  | .thread | .core => none
  | .cluster => some 0 | .group => some 1 | .device => some 2 | .system => some 3

namespace State

/-- The clusters of an agent's scope instance (R315), as far as cores of the die lie in it. -/
def scopeHolds (s : State) (a : AgentId) (sc : Scope) (core slot : Nat) : Bool :=
  match sc with
  | .thread => a = .thread core slot
  | .core => match a with
    | .thread c _ => c = core
    | .region _ | .matrix _ _ | .epilogue _ _ | .copySeq _ _ | .tile _ _ _ => false
  | .cluster => a.cluster = coreCluster core
  | .group => match (s.hart a).task.bind s.task with
    | some t => (t.groupScope a.cluster).contains (coreCluster core)
    | none => a.cluster = coreCluster core
  | .device | .system => true

/-- A departure of a recording that is playing (R382): DEPS rises, and the first past the threshold falls back.
The thread whose access caused it takes the trap at its next issue when the trap enable was 1. -/
def depart (s : State) (task id : Nat) (core slot : Nat) (len : Nat) : State :=
  let t := s.track task id
  let deps := if t.deps < 0xFFFF then t.deps + 1 else t.deps
  if t.state ≠ .playing then s
  else if t.fell || deps ≤ t.threshold || t.threshold = 0xFFFF then s.setTrack task id { t with deps := deps }
  else
    let s := s.setTrack task id { t with deps := deps, fell := true }
    let s := t.parts.foldl (fun s p =>
      let a := AgentId.thread p.1.1 p.1.2
      s.setHart a { s.hart a with tkfell := (s.hart a).tkfell ||| BitVec.ofNat 16 (2 ^ id) }) s
    if t.trapEnable then
      let a := AgentId.thread core slot
      let h := s.hart a
      let trap := (len, BitVec.ofNat 64 id)
      s.setHart a (if h.pendingTrap.isNone then { h with pendingTrap := some trap } else { h with laterTraps := h.laterTraps ++ [trap] })
    else s

/-- Some of the dirty bytes of an L1 line written to the segment cache, and of a segment cache's line to the home. -/
def cleanL1Of (s : State) (c no : Nat) (mask : BitVec 64) : State :=
  match findLine no (s.l1 c).lines with
  | none => s
  | some l =>
    if l.dirty &&& mask = 0 then s
    else (s.setL1 c { s.l1 c with lines := putLine { l with dirty := l.dirty &&& ~~~mask } (s.l1 c).lines }).performSegBy
      (coreCluster c) no l.data (l.dirty &&& mask) (.l1 c) l.writer

def cleanSegOf (s : State) (cl no : Nat) (mask : BitVec 64) : State :=
  match findLine no (s.seg cl).lines with
  | none => s
  | some l =>
    if l.dirty &&& mask = 0 then s
    else (s.setSeg cl { s.seg cl with lines := putLine { l with dirty := l.dirty &&& ~~~mask } (s.seg cl).lines }).performHomeBy
      no l.data (l.dirty &&& mask) (.segment cl) l.writer

/-- The bytes in which a held line that is not stale differs from the home: the push carried them, and they were never performed there, because the producer's core or cluster has written them again since. -/
def unperformed (s : State) (h : Held) : BitVec 64 :=
  ((List.range 64).filter fun k => s.homeByte (64 * h.no + k) ≠ lineByte h.data k).foldl (fun m k => m ||| maskOf k 1) 0

/-- What a push carried is performed at the home, also what the producer has written again since, and the consumer's segment cache lets the line go: whatever the consumer reads later, it reads nothing older than the line that becomes ordinary (R320, R324). -/
def performCarried (s : State) (c : Nat) (h : Held) : State :=
  let own := (s.l1 h.prodCore).dirtyOf h.no &&& ~~~h.freshL1
  let cl := coreCluster h.prodCore
  let s := (s.cleanL1Of h.prodCore h.no own).cleanSegOf cl h.no (own ||| ~~~h.freshSegment)
  let rest := s.unperformed h
  let s := if rest = 0 then s else s.performHomeBy h.no h.data rest (.segment cl) (some (h.prodCore, h.prodSlot))
  s.leaveSeg (coreCluster c) h.no

/-- A held line at an acquire of its consumer: it becomes ordinary, or is dropped when a write it does not carry was performed at the segment cache or at the home (R324). -/
def settleHeld (s : State) (c : Nat) (h : Held) : State :=
  if h.staleHome || h.staleSegment then s.depart h.task h.id c h.consSlot 4
  else
    let s := s.performCarried c h
    let old := (s.l1 c).lines
    let l : Line := match findLine h.no old with
      | some l => { l with
          data := mergeLine h.data l.data l.dirty
          versions := (s.l1 c).versions
          pushed := some (h.task, h.id)
          missedSegment := l.missedSegment &&& l.dirty
          missedHome := l.missedHome &&& l.dirty }
      | none => { Line.filled h.no h.data (s.l1 c).versions with pushed := some (h.task, h.id) }
    s.setL1 c { s.l1 c with lines := putLine l old }

/-- The held lines of a consumer whose acquire's scope instance holds their producers. -/
def settleAll (s : State) (a : AgentId) (sc : Scope) : State :=
  match a with
  | .thread c sl =>
    let hs := (s.core c).held
    let mine := fun (h : Held) => h.consSlot = sl && s.scopeHolds a sc h.prodCore h.prodSlot
    let s' := s.setCore c { s.core c with held := hs.filter fun h => !mine h }
    (hs.filter mine).foldl (fun s h => s.settleHeld c h) s'
  | .region _ | .matrix _ _ | .epilogue _ _ | .copySeq _ _ | .tile _ _ _ => s

/-- An acquire at a scope on path t of an agent (R93, R326). -/
def acquire (s : State) (a : AgentId) (sc : Scope) : State :=
  let s := match scopeCounter sc with
    | none => s
    | some n =>
      let s : State := match a with
        | .thread c _ => (List.range (n + 1)).foldl (fun (s : State) k => s.bumpL1 c k) s
        | .region _ | .matrix _ _ | .epilogue _ _ | .copySeq _ _ | .tile _ _ _ => s
      ((List.range (n + 1)).filter fun k => k ≠ 0).foldl (fun (s : State) k => s.bumpSeg a.cluster k) s
  s.settleAll a sc

/-- No host line stays in an agent's caches or the mere across a release at system scope (R92, R387). -/
def cleanHost (s : State) (a : AgentId) : State :=
  let s := match a with
    | .thread c _ => ((lineNumbers (s.l1 c)).filter hostLine).foldl (fun (s : State) no => s.leaveL1 c no) s
    | .region _ | .matrix _ _ | .epilogue _ _ | .copySeq _ _ | .tile _ _ _ => s
  let s := ((lineNumbers (s.seg a.cluster)).filter hostLine).foldl (fun (s : State) no => s.leaveSeg a.cluster no) s
  (s.mere.filter fun l => hostLine l.no).foldl (fun (s : State) l => s.evictMere l.no) s

/-- A release at a scope on path t of an agent: its dirty lines go outward to the scope's point (R93). -/
def release (s : State) (a : AgentId) (sc : Scope) : State :=
  match sc with
  | .thread | .core => s
  | .cluster => match a with
    | .thread c _ => s.cleanAllL1 c
    | .region _ | .matrix _ _ | .epilogue _ _ | .copySeq _ _ | .tile _ _ _ => s
  | .group | .device | .system =>
    let s := match a with
      | .thread c _ => s.cleanAllL1 c
      | .region _ | .matrix _ _ | .epilogue _ _ | .copySeq _ _ | .tile _ _ _ => s
    let s := s.cleanAllSeg a.cluster
    if sc = .system then s.cleanHost a else s

/-- The lines that lie between an agent and the home, out of the way: the segment cache's, and at thread or core scope the L1's too. -/
def leaveCaches (s : State) (a : AgentId) (sc : Scope) : State :=
  let fromSeg := fun (s : State) => (lineNumbers (s.seg a.cluster)).foldl (fun (s : State) no => s.leaveSeg a.cluster no) s
  match sc with
  | .thread | .core =>
    let s := match a with
      | .thread c _ => (lineNumbers (s.l1 c)).foldl (fun (s : State) no => s.leaveL1 c no) s
      | .region _ | .matrix _ _ | .epilogue _ _ | .copySeq _ _ | .tile _ _ _ => s
    fromSeg s
  | .cluster => fromSeg s
  | .group | .device | .system => s

/-- The scope down to whose point path t must go to meet the other paths, which are performed at the homes. -/
def homeScope : Scope → Scope
  | .thread | .core | .cluster | .group | .device => .device
  | .system => .system

/-- The caches of an agent made to see every write performed at a home: its dirty lines are written out there, the acquire is one at the scope, and lines of a cache that the scope's counters do not reach leave.
This is how an edge of R319, or an `xfence` that joins path t to other paths, acts on the caches (R185, R318; log entry 47). -/
def syncPaths (s : State) (a : AgentId) (sc : Scope) : State :=
  ((s.release a (homeScope sc)).acquire a sc).leaveCaches a sc

end State

end Sys2Proof.Machine
end

