-- ==== Sys2Proof/WellFormed.lean ====
section
/-! DEFINITION. What the operand types cannot express: the uses of an instruction word that R57, R65 and the entries call unassigned or illegal on every agent. -/

namespace Sys2Proof

/-- The orders a plain load accepts, R57. -/
def Order.loadOk : Order → Bool
  | .relaxed | .acquire => true
  | .release | .acqRel => false

/-- The orders a plain store accepts, R57. -/
def Order.storeOk : Order → Bool
  | .relaxed | .release => true
  | .acquire | .acqRel => false

/-- A shift count that a 32-bit shift form may hold, R74. -/
def Width.countOk : Width → BitVec 6 → Bool
  | .d, _ => true
  | .w, n => n.toNat < 32

/-- The ty values of an arithmetic cell opcode, R120. -/
def Ty.arith : Ty → Bool
  | .i | .n | .f => true
  | .r => false

/-- The ty values of `vmulh`, R120. -/
def Ty.integral : Ty → Bool
  | .i | .n => true
  | .f | .r => false

/-- The ty values of `vabs` and `vneg`, R120. -/
def Ty.signed : Ty → Bool
  | .i | .f => true
  | .n | .r => false

/-- The ty values of `vscale`, R120. -/
def Ty.scaling : Ty → Bool
  | .f | .r => true
  | .i | .n => false

/-- The ty values of `vmerge`, R130. -/
def Ty.merging : Ty → Bool
  | .r | .n | .i => true
  | .f => false

/-- The ty values of `vcfgt`, R119. -/
def Ty.config : Ty → Bool
  | .r | .n => true
  | .i | .f => false

/-- A word that is an instruction of the machine and not one of the illegal uses of R43, R57, R65, R74, R87, R89, R94, R95, R184 and R196.
The cell opcodes carry the ty values of R120. -/
def Instr.wellFormed : Instr → Bool
  | .shli w _ _ n | .shri w _ _ n | .srai w _ _ n => w.countOk n
  | .loop d _ => d ≠ 0
  | .ld _ o _ _ _ _ => o.loadOk
  | .lds z o _ _ _ _ => o.loadOk && z ≠ .d
  | .st _ o _ _ _ _ => o.storeOk
  | .ldx _ o _ _ _ _ _ => o.loadOk
  | .ldxSx z o _ _ _ _ _ => o.loadOk && z ≠ .d
  | .stx _ o _ _ _ _ _ => o.storeOk
  | .fence o _ _ => o ≠ .relaxed
  | .xfence _ m _ => m ≠ 0
  | .cldec o _ _ _ _ | .clpush o _ _ _ _ => o.storeOk
  | .clnext o _ => o.loadOk
  | .mxmm q _ _ b => q || b = 0
  | .vadd y _ _ _ _ | .vsub y _ _ _ _ | .vmul y _ _ _ _ | .vfma y _ _ _ _ => y.arith
  | .vmin y _ _ _ _ | .vmax y _ _ _ _ => y.arith
  | .vcmpeq y _ _ _ _ | .vcmplt y _ _ _ _ | .vcmple y _ _ _ _ => y.arith
  | .vacc y _ _ _ _ | .vred y _ _ _ | .vscan y _ _ _ => y.arith
  | .vmulh y _ _ _ _ => y.integral
  | .vabs y _ _ _ | .vneg y _ _ _ => y.signed
  | .vscale y _ _ _ _ => y.scaling
  | .vmerge y _ _ _ _ => y.merging
  | .vcfgt y _ _ _ => y.config
  | _ => true

end Sys2Proof
end

