-- ==== Sys2Proof/Decode.lean ====
section
/-! DEFINITION. Decoding of parcels and words (R40 to R58), total and rejecting by name, and after it the encoder. -/

namespace Sys2Proof

/-- Why bytes are not an instruction of the table, R65. -/
inductive Reject where
  /-- Fewer bytes than the instruction's length. -/
  | truncated
  /-- Parcel 0x0000, or H op4 0x0, R41 and R44. -/
  | zeroForm
  /-- H op4 0xE or 0xF, an f3 not assigned, or a nonzero d or a of op4 0xD, R44. -/
  | unassignedH
  /-- A major that no agent accepts, R46. -/
  | unassignedMajor
  /-- A function code, condition, aop, sub or ox selector not assigned. -/
  | unassignedCode
  /-- A reserved bit or a field the instruction does not use is not zero. -/
  | reservedNonzero
  /-- Scope code 6 or 7, R57. -/
  | badScope
  /-- Rounding code 7, R25. -/
  | badRounding
  /-- A source field that an opcode leaves unused does not hold 7, R51. -/
  | badSource
  /-- A target code not assigned, R52. -/
  | badTarget
  /-- A pair (x, ooooo) or a fixed ty not assigned, R49 and R120. -/
  | unassignedCell
  /-- A row register field above v15, R59. -/
  | badRow
  /-- Bits [31:26] of a prefix not zero, R55. -/
  | badPrefix
deriving DecidableEq, Repr

/-- The result of decoding. -/
abbrev Decoded (α : Type) := Except Reject α

/-- `n` bits of `w` from bit `lo`. -/
def field (w lo n : Nat) : Nat := w / 2 ^ lo % 2 ^ n

/-- `k` when the condition holds, else the rejection `r`. -/
def require {α : Type} (c : Bool) (r : Reject) (k : Decoded α) : Decoded α :=
  match c with
  | true => k
  | false => .error r

/-- Goes on with a value that a code may name. -/
def named {α β : Type} (x : Option α) (r : Reject) (k : α → Decoded β) : Decoded β :=
  match x with
  | some v => k v
  | none => .error r

/-! ## Codes -/

def Scope.code : Scope → Nat
  | .thread => 0 | .core => 1 | .cluster => 2 | .group => 3 | .device => 4 | .system => 5

/-- R8; 6 and 7 are unassigned. -/
def Scope.ofCode : Nat → Option Scope
  | 0 => some .thread | 1 => some .core | 2 => some .cluster | 3 => some .group
  | 4 => some .device | 5 => some .system | _ => none

def Order.code : Order → Nat
  | .relaxed => 0 | .acquire => 1 | .release => 2 | .acqRel => 3

/-- R9. -/
def Order.ofCode : Nat → Order
  | 0 => .relaxed | 1 => .acquire | 2 => .release | _ => .acqRel

def Size.code : Size → Nat
  | .b => 0 | .h => 1 | .w => 2 | .d => 3

/-- R43. -/
def Size.ofCode : Nat → Size
  | 0 => .b | 1 => .h | 2 => .w | _ => .d

/-- The size bit of an atomic or a `waitv`: 0 is .w and 1 is .d (R43, R184). -/
def Width.sizeCode : Width → Nat
  | .w => 0 | .d => 1

def Width.ofSize : Nat → Width
  | 0 => .w | _ => .d

/-- The width bit W of R67 and R74: 1 is the 32-bit form. -/
def Width.bit : Width → Nat
  | .d => 0 | .w => 1

def Width.ofBit : Nat → Width
  | 0 => .d | _ => .w

def Rnd.code : Rnd → Nat
  | .rne => 0 | .rtz => 1 | .rdn => 2 | .rup => 3 | .rna => 4 | .rod => 5 | .rhd => 6

/-- R25; 7 is reserved. -/
def Rnd.ofCode : Nat → Option Rnd
  | 0 => some .rne | 1 => some .rtz | 2 => some .rdn | 3 => some .rup
  | 4 => some .rna | 5 => some .rod | 6 => some .rhd | _ => none

def FloatType.code : FloatType → Nat
  | .f32 => 0 | .f64 => 1 | .bf16 => 2 | .f16 => 3 | .e4m3 => 4 | .e5m2 => 5 | .fp4 => 6 | .e3m5 => 7

/-- R80, codes 0 to 7. -/
def FloatType.ofCode : Nat → FloatType
  | 0 => .f32 | 1 => .f64 | 2 => .bf16 | 3 => .f16 | 4 => .e4m3 | 5 => .e5m2 | 6 => .fp4 | _ => .e3m5

/-- The code less 8, as `fcvt` with an integer source holds it (R80). -/
def IntType.code : IntType → Nat
  | .i8 => 0 | .n8 => 1 | .i16 => 2 | .n16 => 3 | .i32 => 4 | .n32 => 5 | .i64 => 6 | .n64 => 7

def IntType.ofCode : Nat → IntType
  | 0 => .i8 | 1 => .n8 | 2 => .i16 | 3 => .n16 | 4 => .i32 | 5 => .n32 | 6 => .i64 | _ => .n64

def NumType.code : NumType → Nat
  | .float f => f.code
  | .int t => 8 + t.code

/-- R80; 16 to 31 are unassigned. -/
def NumType.ofCode (n : Nat) : Option NumType :=
  if n < 8 then some (.float (FloatType.ofCode n))
  else if n < 16 then some (.int (IntType.ofCode (n - 8)))
  else none

def ScalarFmt.code : ScalarFmt → Nat
  | .f32 => 0 | .f64 => 1

/-- R77; 2 to 7 are unassigned for these ops. -/
def ScalarFmt.ofCode : Nat → Option ScalarFmt
  | 0 => some .f32 | 1 => some .f64 | _ => none

def FPred.code : FPred → Nat
  | .eq => 0 | .lt => 1 | .le => 2 | .un => 3

/-- R79; 4 to 7 are unassigned. -/
def FPred.ofCode : Nat → Option FPred
  | 0 => some .eq | 1 => some .lt | 2 => some .le | 3 => some .un | _ => none

def Delta.code : Delta → Nat
  | .zero => 0 | .plus => 1 | .minus => 3

/-- R75; 2 is unassigned. -/
def Delta.ofCode : Nat → Option Delta
  | 0 => some .zero | 1 => some .plus | 3 => some .minus | _ => none

def Hint.code : Hint → Nat
  | .l1 => 0 | .segment => 1 | .mere => 2

/-- R95; 3 to 31 are unassigned. -/
def Hint.ofCode : Nat → Option Hint
  | 0 => some .l1 | 1 => some .segment | 2 => some .mere | _ => none

def Part.code : Part → Nat
  | .whole => 0 | .lo => 1 | .hi => 2

/-- R166; 3 is unassigned. -/
def Part.ofCode : Nat → Option Part
  | 0 => some .whole | 1 => some .lo | 2 => some .hi | _ => none

def Ty.code : Ty → Nat
  | .i => 0 | .n => 1 | .f => 2 | .r => 3

/-- R50. -/
def Ty.ofCode : Nat → Ty
  | 0 => .i | 1 => .n | 2 => .f | _ => .r

def Link.code : Link → Nat
  | .north => 0 | .east => 1 | .south => 2 | .west => 3

def Link.ofCode : Nat → Link
  | 0 => .north | 1 => .east | 2 => .south | _ => .west

def Src.code : Src → Nat
  | .tok => 0
  | .link l => 1 + l.code
  | .iter => 5
  | .lane => 6
  | .zero => 7
  | .c n => 8 + n.val
  | .v n => 16 + n.val

/-- R51, every 5-bit code. -/
def Src.ofCode (n : Nat) : Src :=
  if n = 0 then .tok
  else if n < 5 then .link (Link.ofCode (n - 1))
  else if n = 5 then .iter
  else if n = 6 then .lane
  else if n = 7 then .zero
  else if n < 16 then .c (Fin.ofNat 8 (n - 8))
  else .v (Fin.ofNat 16 (n - 16))

def Tgt.code : Tgt → Nat
  | .slotA i => i.val
  | .slotB i => 16 + i.val
  | .reg n => 32 + n.val
  | .link l => 48 + l.code
  | .done => 52
  | .none => 55
  | .slotC i => 56 + i.val

/-- R52; 0b110101 and 0b110110 are unassigned. -/
def Tgt.ofCode (n : Nat) : Option Tgt :=
  if n < 16 then some (.slotA (Fin.ofNat 16 n))
  else if n < 32 then some (.slotB (Fin.ofNat 16 (n - 16)))
  else if n < 48 then some (.reg (Fin.ofNat 16 (n - 32)))
  else if n < 52 then some (.link (Link.ofCode (n - 48)))
  else if n = 52 then some .done
  else if n = 55 then some .none
  else if n < 56 then Option.none
  else some (.slotC (Fin.ofNat 8 (n - 56)))

/-! ## Fields of the formats (R42) -/

/-- The field [11:7]. -/
def fd (w : Nat) : Reg := Fin.ofNat 32 (field w 7 5)
/-- The field [16:12]. -/
def fa (w : Nat) : Reg := Fin.ofNat 32 (field w 12 5)
/-- The field [21:17]. -/
def fb (w : Nat) : Reg := Fin.ofNat 32 (field w 17 5)
/-- imm15, [31:17]. -/
def fimm (w : Nat) : BitVec 15 := BitVec.ofNat 15 (field w 17 15)
/-- A one-bit flag. -/
def fbit (w lo : Nat) : Bool := field w lo 1 == 1
/-- The d field of an H-form, [8:5]. -/
def hd (w : Nat) : HReg := Fin.ofNat 16 (field w 5 4)
/-- The a field of an H-form, [12:9]. -/
def ha (w : Nat) : HReg := Fin.ofNat 16 (field w 9 4)

/-! ## W-forms -/

/-- Major 0x00 with fn[9] = 0 and width bit `x` (R67). -/
def decodeAluCode (x : Width) (code w : Nat) : Decoded Instr :=
  let d := fd w; let a := fa w; let b := fb w
  let full := fun (k : Decoded Instr) => require (x == .d) .unassignedCode k
  let one := fun (k : Decoded Instr) => require (field w 17 5 == 0) .reservedNonzero k
  match code with
  | 0x00 => .ok (.add x d a b)
  | 0x01 => .ok (.sub x d a b)
  | 0x02 => full (.ok (.and d a b))
  | 0x03 => full (.ok (.or d a b))
  | 0x04 => full (.ok (.xor d a b))
  | 0x05 => full (.ok (.andn d a b))
  | 0x06 => .ok (.shl x d a b)
  | 0x07 => .ok (.shr x d a b)
  | 0x08 => .ok (.sra x d a b)
  | 0x09 => .ok (.min x d a b)
  | 0x0A => .ok (.max x d a b)
  | 0x0B => .ok (.minn x d a b)
  | 0x0C => .ok (.maxn x d a b)
  | 0x0D => .ok (.slt x d a b)
  | 0x0E => .ok (.sltn x d a b)
  | 0x0F => full (.ok (.sel d a b))
  | 0x10 => .ok (.mul x d a b)
  | 0x11 => .ok (.mulh x d a b)
  | 0x12 => .ok (.mulhn x d a b)
  | 0x14 => .ok (.div x d a b)
  | 0x15 => .ok (.divn x d a b)
  | 0x16 => .ok (.rem x d a b)
  | 0x17 => .ok (.remn x d a b)
  | 0x18 => one (.ok (.clz x d a))
  | 0x19 => one (.ok (.ctz x d a))
  | 0x1A => one (.ok (.popc x d a))
  | 0x1B => full (.ok (.bext d a b))
  | 0x1C => full (.ok (.bins d a b))
  | _ => .error .unassignedCode

/-- Major 0x00, R67 and R75. -/
def decodeAlu (w : Nat) : Decoded Instr :=
  match field w 31 1 with
  | 0 => decodeAluCode (Width.ofBit (field w 30 1)) (field w 22 8) w
  | _ =>
    require (field w 28 3 == 0) .unassignedCode <|
    named (Delta.ofCode (field w 22 2)) .unassignedCode fun x =>
    named (Delta.ofCode (field w 24 2)) .unassignedCode fun y =>
    named (Delta.ofCode (field w 26 2)) .unassignedCode fun z =>
    .ok (.cellkey x y z (fd w) (fa w) (fb w))

/-- Major 0x05, R74. -/
def decodeShift (w : Nat) : Decoded Instr :=
  require (field w 26 6 == 0) .reservedNonzero <|
  let x := Width.ofBit (field w 25 1); let n := BitVec.ofNat 6 (field w 17 6)
  match field w 23 2 with
  | 0 => .ok (.shli x (fd w) (fa w) n)
  | 1 => .ok (.shri x (fd w) (fa w) n)
  | 2 => .ok (.srai x (fd w) (fa w) n)
  | _ => .error .unassignedCode

/-- Major 0x08, R84: b at [16:12] and a at [11:7]. -/
def decodeBranch (w : Nat) : Decoded Instr :=
  let a := fd w; let b := fa w; let o := BitVec.ofNat 12 (field w 20 12)
  match field w 17 3 with
  | 0 => .ok (.beq a b o)
  | 1 => .ok (.bne a b o)
  | 2 => .ok (.blt a b o)
  | 3 => .ok (.bge a b o)
  | 4 => .ok (.bltn a b o)
  | 5 => .ok (.bgen a b o)
  | 6 => require (field w 12 5 == 0) .reservedNonzero (.ok (.bz a o))
  | _ => require (field w 12 5 == 0) .reservedNonzero (.ok (.bnz a o))

/-- Major 0x0B, R86 and R87. -/
def decodeJalr (w : Nat) : Decoded Instr :=
  let o := BitVec.ofNat 14 (field w 17 14)
  match field w 31 1 with
  | 0 => .ok (.jalr (fd w) (fa w) o)
  | _ => require (field w 12 5 == 0) .reservedNonzero (.ok (.loop (fd w) o))

/-- The WM layout of majors 0x0C to 0x0E, R89. -/
def decodeMem (w : Nat) (k : Size → Order → Scope → Reg → Reg → BitVec 8 → Instr) : Decoded Instr :=
  named (Scope.ofCode (field w 21 3)) .badScope fun sc =>
  .ok (k (Size.ofCode (field w 17 2)) (Order.ofCode (field w 19 2)) sc (fd w) (fa w) (BitVec.ofNat 8 (field w 24 8)))

/-- Major 0x0F, R94 and R95. -/
def decodeIndexed (w : Nat) : Decoded Instr :=
  let z := Size.ofCode (field w 22 2); let o := Order.ofCode (field w 27 2); let x := fbit w 29
  match field w 30 2 with
  | 0 => named (Scope.ofCode (field w 24 3)) .badScope fun sc => .ok (.ldx z o sc x (fd w) (fa w) (fb w))
  | 1 => named (Scope.ofCode (field w 24 3)) .badScope fun sc => .ok (.stx z o sc x (fd w) (fa w) (fb w))
  | 2 =>
    require (field w 22 7 == 0) .reservedNonzero <|
    named (Hint.ofCode (field w 7 5)) .unassignedCode fun h => .ok (.pref h x (fa w) (fb w))
  | _ => named (Scope.ofCode (field w 24 3)) .badScope fun sc => .ok (.ldxSx z o sc x (fd w) (fa w) (fb w))

/-- An `amo`, or the `ared` of the same aop when d = s0 (R179). -/
def amoOrAred (w : Nat) (amo : Width → Order → Scope → Reg → Reg → Reg → Instr)
    (ared : Width → Order → Scope → Reg → Reg → Instr) : Decoded Instr :=
  named (Scope.ofCode (field w 29 3)) .badScope fun sc =>
  let z := Width.ofSize (field w 26 1); let o := Order.ofCode (field w 27 2)
  match field w 7 5 with
  | 0 => .ok (ared z o sc (fa w) (fb w))
  | _ => .ok (amo z o sc (fd w) (fa w) (fb w))

/-- Major 0x10, R179. -/
def decodeAmo (w : Nat) : Decoded Instr :=
  match field w 22 4 with
  | 0 => amoOrAred w .amoAdd .aredAdd
  | 1 => amoOrAred w .amoAnd .aredAnd
  | 2 => amoOrAred w .amoOr .aredOr
  | 3 => amoOrAred w .amoXor .aredXor
  | 4 => amoOrAred w .amoMin .aredMin
  | 5 => amoOrAred w .amoMax .aredMax
  | 6 => amoOrAred w .amoMinn .aredMinn
  | 7 => amoOrAred w .amoMaxn .aredMaxn
  | 8 => amoOrAred w .amoSwap .aredSwap
  | 9 => amoOrAred w .amoFadd .aredFadd
  | 10 => amoOrAred w .amoFmin .aredFmin
  | 11 => amoOrAred w .amoFmax .aredFmax
  | _ => .error .unassignedCode

/-- Major 0x11, R180. -/
def decodeCas (w : Nat) : Decoded Instr :=
  named (Scope.ofCode (field w 29 3)) .badScope fun sc =>
  let z := Width.ofSize (field w 26 1); let o := Order.ofCode (field w 27 2)
  match field w 22 4 with
  | 0 => .ok (.cas z o sc (fd w) (fa w) (fb w))
  | 1 => .ok (.incw z o sc (fd w) (fa w) (fb w))
  | _ => .error .unassignedCode

/-- All bits of `w` in the given ranges (lo, width) are zero. -/
def zeroFields (w : Nat) : List (Nat × Nat) → Bool
  | [] => true
  | (lo, n) :: r => field w lo n == 0 && zeroFields w r

/-- The fields that an entry gives as zero (R65, R138), then the instruction. -/
def clear (w : Nat) (zs : List (Nat × Nat)) (i : Instr) : Decoded Instr :=
  require (zeroFields w zs) .reservedNonzero (.ok i)

/-- A WE scope field at [29:27]. -/
def withScope (w : Nat) (k : Scope → Decoded Instr) : Decoded Instr :=
  named (Scope.ofCode (field w 27 3)) .badScope k

/-- Major 0x12, R184. -/
def decodeFence (w : Nat) : Decoded Instr :=
  let acq := fbit w 31; let z := Width.ofSize (field w 30 1)
  match field w 22 5 with
  | 0 => withScope w fun sc => clear w [(12, 10)] (.fence (Order.ofCode (field w 30 2)) sc (fd w))
  | 1 => withScope w fun sc =>
      clear w [(18, 4), (30, 2)] (.xfence sc (BitVec.ofNat 6 (field w 12 6)) (fd w))
  | 2 => withScope w fun sc => .ok (.waitvEq acq z sc (fd w) (fa w) (fb w))
  | 3 => withScope w fun sc => .ok (.waitvNe acq z sc (fd w) (fa w) (fb w))
  | 4 => withScope w fun sc => .ok (.waitvLt acq z sc (fd w) (fa w) (fb w))
  | 5 => withScope w fun sc => .ok (.waitvGe acq z sc (fd w) (fa w) (fb w))
  | _ => .error .unassignedCode

/-- Major 0x13, R188. -/
def decodeWeir (w : Nat) : Decoded Instr :=
  match field w 22 5 with
  | 0 => clear w [(17, 5), (27, 5)] (.warm (fd w) (fa w))
  | 1 => clear w [(27, 5)] (.wexp (fd w) (fa w) (fb w))
  | 2 => clear w [(27, 5)] (.wwait (fd w) (fa w) (fb w))
  | 3 => clear w [(17, 5), (28, 4)] (.wrd (fbit w 27) (fd w) (fa w))
  | 4 => clear w [(7, 5), (17, 5), (27, 5)] (.wdis (fa w))
  | _ => .error .unassignedCode

/-- Major 0x14, R196. -/
def decodeCodelet (w : Nat) : Decoded Instr :=
  let o := Order.ofCode (field w 30 2)
  match field w 22 5 with
  | 0 => withScope w fun sc => .ok (.cldec o sc (fd w) (fa w) (fb w))
  | 1 => withScope w fun sc => .ok (.clpush o sc (fd w) (fa w) (fb w))
  | 2 => withScope w fun sc => clear w [(7, 15)] (.clnext o sc)
  | 3 => clear w [(28, 4)] (.renq (fbit w 27) (fd w) (fa w) (fb w))
  | 4 => clear w [(28, 4)] (.qbind (fbit w 27) (fd w) (fa w) (fb w))
  | 5 => clear w [(27, 5)] (.launch (fd w) (fa w) (fb w))
  | 6 => clear w [(7, 15), (27, 5)] .trig
  | _ => .error .unassignedCode

/-- Major 0x15, R204. -/
def decodeTrackway (w : Nat) : Decoded Instr :=
  match field w 22 5 with
  | 0 => clear w [(17, 5), (27, 5)] (.tkrec (fd w) (fa w))
  | 1 => clear w [(17, 5), (27, 5)] (.tkplay (fd w) (fa w))
  | 2 => clear w [(17, 5), (27, 5)] (.tkend (fd w) (fa w))
  | 3 => clear w [(17, 5), (28, 4)] (.tkstat (fbit w 27) (fd w) (fa w))
  | 4 => clear w [(17, 5), (27, 5)] (.tkdrop (fd w) (fa w))
  | _ => .error .unassignedCode

/-- Major 0x16, R201. -/
def decodeTime (w : Nat) : Decoded Instr :=
  match field w 22 5 with
  | 0 => clear w [(17, 5), (27, 5)] (.tmset (fd w) (fa w))
  | 1 => clear w [(12, 10), (27, 5)] (.tmget (fd w))
  | 2 => clear w [(27, 5)] (.msend (fd w) (fa w) (fb w))
  | 3 => clear w [(12, 10), (28, 4)] (.mrecv (fbit w 27) (fd w))
  | 4 => clear w [(12, 10), (27, 5)] (.floor (fd w))
  | 5 => clear w [(7, 5), (17, 5), (27, 5)] (.fljoin (fa w))
  | _ => .error .unassignedCode

/-- Major 0x17, R208. -/
def decodeSystem (w : Nat) : Decoded Instr :=
  let n := BitVec.ofNat 10 (field w 12 10)
  match field w 22 5 with
  | 0 => clear w [(7, 15), (27, 5)] .nop
  | 1 => clear w [(7, 15), (27, 5)] .halt
  | 2 => clear w [(7, 15), (27, 5)] .yield
  | 3 => clear w [(7, 15), (27, 5)] .brk
  | 4 => clear w [(7, 5), (27, 5)] (.trap n)
  | 5 => clear w [(7, 15), (27, 5)] .eret
  | 6 => clear w [(27, 5)] (.sysr (fd w) n)
  | 7 => clear w [(27, 5)] (.sysw (fd w) n)
  | 8 => clear w [(7, 5), (17, 5), (28, 4)] (.sleepc (fbit w 27) (fa w))
  | 9 => clear w [(12, 10), (27, 5)] (.rdcyc (fd w))
  | _ => .error .unassignedCode

/-- Major 0x18, R139. -/
def decodeCopy (w : Nat) : Decoded Instr :=
  match field w 22 5 with
  | 0 => clear w [(12, 10), (27, 5)] (.cpgo (fd w))
  | 1 => clear w [(12, 10), (27, 5)] (.cpmx (fd w))
  | 2 => clear w [(27, 5)] (.cpgath (fd w) (fa w) (fb w))
  | 3 => clear w [(27, 5)] (.cpscat (fd w) (fa w) (fb w))
  | 4 => clear w [(12, 10), (27, 5)] (.cpseal (fd w))
  | 5 => clear w [(7, 15)] (.cpwaitb (BitVec.ofNat 5 (field w 27 5)))
  | 6 => clear w [(7, 5), (27, 5)] (.cpdisc (fa w) (fb w))
  | 7 => clear w [(7, 5), (27, 5)] (.cppre (fa w) (fb w))
  | _ => .error .unassignedCode

/-- Major 0x19, R139. -/
def decodeStream (w : Nat) : Decoded Instr :=
  match field w 22 5 with
  | 0 => clear w [(17, 5), (27, 5)] (.cpstr (fd w) (fa w))
  | 1 => clear w [(7, 5), (17, 5), (27, 5)] (.cpfree (fa w))
  | _ => .error .unassignedCode

/-- A row register field at [11:7]. -/
def withRow (w : Nat) (k : Fin 16 → Decoded Instr) : Decoded Instr :=
  require (field w 11 1 == 0) .badRow (k (Fin.ofNat 16 (field w 7 4)))

/-- Major 0x1A, R153. The slot bits [29:27] of an `mxmm` without `.def` are accepted and have no effect, since the spec does not say whether they must be zero (R43; DESIGN CHOICE, log entry 52). -/
def decodeMatrix (w : Nat) : Decoded Instr :=
  let acc := Fin.ofNat 4 (field w 7 2)
  match field w 22 5 with
  | 0 => clear w [(7, 5), (17, 5), (29, 3)] (.mxprog (fbit w 27) (fbit w 28) (fa w))
  | 1 => require (fbit w 31 || field w 17 5 == 0) .reservedNonzero <|
      clear w [(9, 8), (30, 1)] (.mxmm (fbit w 31) (Fin.ofNat 8 (field w 27 3)) acc (fb w))
  | 2 => clear w [(9, 8), (27, 5)] (.mxclr acc (fb w))
  | 3 => clear w [(7, 15), (28, 4)] (.mxwait (fbit w 27))
  | 8 => withRow w fun v =>
      clear w [(17, 5), (30, 2)] (.evacc (fbit w 29) (Fin.ofNat 4 (field w 27 2)) v (fa w))
  | 9 => withRow w fun v => clear w [(27, 5)] (.evld v (fa w) (fb w))
  | 10 => withRow w fun v =>
      named (Part.ofCode (field w 27 2)) .unassignedCode fun p => clear w [(29, 3)] (.evst p v (fa w) (fb w))
  | _ => .error .unassignedCode

/-- Major 0x1B, R167. -/
def decodeFork (w : Nat) : Decoded Instr :=
  match field w 22 5 with
  | 0 => clear w [(27, 5)] (.fork (fd w) (fa w) (fb w))
  | 1 => clear w [(17, 5), (27, 5)] (.rdz (fd w) (fa w))
  | 2 => clear w [(7, 15), (27, 5)] .escr
  | _ => .error .unassignedCode

/-- Major 0x1C, R171. -/
def decodeConfig (w : Nat) : Decoded Instr :=
  match field w 22 5 with
  | 0 => clear w [(27, 5)] (.cfgld (fd w) (fa w) (fb w))
  | 1 => clear w [(7, 5), (27, 5)] (.cfgrun (fa w) (fb w))
  | 2 => clear w [(27, 5)] (.cfgpatch (fd w) (fa w) (fb w))
  | 3 => clear w [(7, 5), (17, 5), (28, 4)] (.cfgseam (fbit w 27) (fa w))
  | 4 => withScope w fun sc => clear w [(7, 15), (30, 2)] (.cfgsync sc)
  | 5 => clear w [(7, 5), (17, 5), (27, 5)] (.cfgest (fa w))
  | 6 => clear w [(17, 5), (27, 5)] (.cfgspawn (fd w) (fa w))
  | 7 => clear w [(17, 5), (27, 5)] (.cfgjoin (fd w) (fa w))
  | _ => .error .unassignedCode

/-- Major 0x1D, R47 and R96. -/
def decodeOx (w : Nat) : Decoded Instr :=
  let x := Fin.ofNat 8 (field w 7 3)
  match field w 10 2 with
  | 0 => clear w [(12, 5)] (.oxli x (fimm w))
  | 1 => clear w [(17, 15)] (.oxmv x (fa w))
  | 2 => .ok (.oxld x (fa w) (fimm w))
  | _ => .error .unassignedCode

/-- The prefix, R53. -/
def decodePfx (w : Nat) : Decoded Instr :=
  require (field w 26 6 == 0) .badPrefix <|
  named (Tgt.ofCode (field w 19 6)) .badTarget fun t =>
  named (Rnd.ofCode (field w 11 3)) .badRounding fun r =>
  .ok (.pfx (fbit w 25) t (Src.ofCode (field w 14 5)) r (fbit w 10) (Fin.ofNat 8 (field w 7 3)))

/-- Major 0x1F, R77. -/
def decodeFloat (w : Nat) : Decoded Instr :=
  let d := fd w; let a := fa w; let b := fb w
  let rnd := fun (k : Rnd → Decoded Instr) => named (Rnd.ofCode (field w 25 3)) .badRounding k
  let fmt := fun (k : ScalarFmt → Decoded Instr) => named (ScalarFmt.ofCode (field w 22 3)) .unassignedCode k
  match field w 28 4 with
  | 0 => rnd fun r => fmt fun f => .ok (.fadd r f d a b)
  | 1 => rnd fun r => fmt fun f => .ok (.fsub r f d a b)
  | 2 => rnd fun r => fmt fun f => .ok (.fmul r f d a b)
  | 3 => rnd fun r => fmt fun f => .ok (.ffma r f d a b)
  | 4 => rnd fun r => fmt fun f => .ok (.fdiv r f d a b)
  | 5 => rnd fun r => fmt fun f => clear w [(17, 5)] (.fsqrt r f d a)
  | 6 => fmt fun f => clear w [(25, 3)] (.fmin f d a b)
  | 7 => fmt fun f => clear w [(25, 3)] (.fmax f d a b)
  | 8 => named (FPred.ofCode (field w 25 3)) .unassignedCode fun p => fmt fun f => .ok (.fcmp p f d a b)
  | 9 => rnd fun r => named (NumType.ofCode (field w 17 5)) .unassignedCode fun t =>
      .ok (.fcvt r (FloatType.ofCode (field w 22 3)) t d a)
  | 10 => rnd fun r => named (NumType.ofCode (field w 17 5)) .unassignedCode fun t =>
      .ok (.fcvtInt r (IntType.ofCode (field w 22 3)) t d a)
  | 11 => fmt fun f => clear w [(17, 5), (25, 3)] (.fclass f d a)
  | _ => .error .unassignedCode

/-! ## Cell words (R48, R49) -/

/-- Both targets of a cell word. -/
def withTargets (w : Nat) (k : Tgt → Tgt → Decoded Instr) : Decoded Instr :=
  named (Tgt.ofCode (field w 23 6)) .badTarget fun t1 =>
  named (Tgt.ofCode (field w 17 6)) .badTarget fun t0 => k t1 t0

def srcA (w : Nat) : Src := Src.ofCode (field w 7 5)
def srcB (w : Nat) : Src := Src.ofCode (field w 12 5)
def cellTy (w : Nat) : Ty := Ty.ofCode (field w 29 2)

/-- An opcode with a ty field and two sources. -/
def cellTy2 (w : Nat) (k : Ty → Tgt → Tgt → Src → Src → Instr) : Decoded Instr :=
  withTargets w fun t1 t0 => .ok (k (cellTy w) t1 t0 (srcB w) (srcA w))

/-- An opcode with a ty field and one source; srcB must hold 7 (R51). -/
def cellTy1 (w : Nat) (k : Ty → Tgt → Tgt → Src → Instr) : Decoded Instr :=
  require (field w 12 5 == 7) .badSource <|
  withTargets w fun t1 t0 => .ok (k (cellTy w) t1 t0 (srcA w))

/-- An opcode of one ty value and two sources. -/
def cellFix2 (w : Nat) (y : Ty) (k : Tgt → Tgt → Src → Src → Instr) : Decoded Instr :=
  require (cellTy w == y) .unassignedCell <|
  withTargets w fun t1 t0 => .ok (k t1 t0 (srcB w) (srcA w))

/-- An opcode of one ty value and one source. -/
def cellFix1 (w : Nat) (y : Ty) (k : Tgt → Tgt → Src → Instr) : Decoded Instr :=
  require (cellTy w == y) .unassignedCell <|
  require (field w 12 5 == 7) .badSource <|
  withTargets w fun t1 t0 => .ok (k t1 t0 (srcA w))

/-- Cell opcodes with x = 0, R49 and R120. -/
def decodeCell0 (w : Nat) : Decoded Instr :=
  match field w 1 5 with
  | 0x00 => cellFix1 w .r .vmov
  | 0x01 => cellTy2 w .vadd
  | 0x02 => cellTy2 w .vsub
  | 0x03 => cellTy2 w .vmul
  | 0x04 => cellTy2 w .vmulh
  | 0x05 => cellTy2 w .vfma
  | 0x06 => cellTy2 w .vmin
  | 0x07 => cellTy2 w .vmax
  | 0x08 => cellTy1 w .vabs
  | 0x09 => cellTy1 w .vneg
  | 0x0A => cellFix2 w .r .vand
  | 0x0B => cellFix2 w .r .vor
  | 0x0C => cellFix2 w .r .vxor
  | 0x0D => cellFix2 w .r .vshl
  | 0x0E => cellFix2 w .r .vshr
  | 0x0F => cellFix2 w .r .vsra
  | 0x10 => cellTy2 w .vcmpeq
  | 0x11 => cellTy2 w .vcmplt
  | 0x12 => cellTy2 w .vcmple
  | 0x13 => cellFix2 w .r .vsel
  | 0x14 => cellTy1 w .vcvt
  | 0x15 => cellTy2 w .vpack
  | 0x16 => cellTy2 w .vunpk
  | 0x17 => cellTy2 w .vscale
  | 0x18 => cellFix1 w .f .vrcp
  | 0x19 => cellFix1 w .f .vrsq
  | 0x1A => cellFix1 w .f .vsqrt
  | 0x1B => cellFix1 w .f .vexp2
  | 0x1C => cellFix1 w .f .vlog2
  | 0x1D => cellTy2 w .vacc
  | 0x1E => cellTy1 w .vred
  | _ => cellTy1 w .vscan

/-- Cell opcodes with x = 1, R49 and R120. -/
def decodeCell1 (w : Nat) : Decoded Instr :=
  match field w 1 5 with
  | 0x00 => cellFix2 w .r .vsteer
  | 0x01 => cellTy2 w .vmerge
  | 0x02 => cellFix2 w .r .vgate
  | 0x03 => cellFix2 w .r .vshuf
  | 0x04 => cellFix2 w .r .vbcast
  | 0x05 => cellFix2 w .n .vidx
  | 0x06 => cellFix1 w .r .vdrop
  | 0x07 =>
    require (field w 12 5 == 7) .badSource <|
    withTargets w fun t1 t0 => .ok (.esc (Fin.ofNat 4 (field w 29 2)) t1 t0 (srcA w))
  | 0x08 => cellTy1 w .vcfgt
  | _ => .error .unassignedCell

/-- A word of majors 0x20 to 0x3F, R48. -/
def decodeCell (w : Nat) : Decoded Instr :=
  match field w 31 1 with
  | 0 => decodeCell0 w
  | _ => decodeCell1 w

/-- A 32-bit W-form, by its major (R46). -/
def decodeW (w : Nat) : Decoded Instr :=
  match field w 6 1 with
  | 0 =>
    match field w 1 5 with
    | 0x00 => decodeAlu w
    | 0x01 => .ok (.addi (fd w) (fa w) (fimm w))
    | 0x02 => .ok (.andi (fd w) (fa w) (fimm w))
    | 0x03 => .ok (.ori (fd w) (fa w) (fimm w))
    | 0x04 => .ok (.xori (fd w) (fa w) (fimm w))
    | 0x05 => decodeShift w
    | 0x06 => clear w [(12, 5)] (.ldi (fd w) (fimm w))
    | 0x07 => .ok (.ldhi (fd w) (fa w) (fimm w))
    | 0x08 => decodeBranch w
    | 0x09 => .ok (.jmp (BitVec.ofNat 25 (field w 7 25)))
    | 0x0A => .ok (.jal (BitVec.ofNat 25 (field w 7 25)))
    | 0x0B => decodeJalr w
    | 0x0C => decodeMem w .ld
    | 0x0D => decodeMem w .lds
    | 0x0E => decodeMem w .st
    | 0x0F => decodeIndexed w
    | 0x10 => decodeAmo w
    | 0x11 => decodeCas w
    | 0x12 => decodeFence w
    | 0x13 => decodeWeir w
    | 0x14 => decodeCodelet w
    | 0x15 => decodeTrackway w
    | 0x16 => decodeTime w
    | 0x17 => decodeSystem w
    | 0x18 => decodeCopy w
    | 0x19 => decodeStream w
    | 0x1A => decodeMatrix w
    | 0x1B => decodeFork w
    | 0x1C => decodeConfig w
    | 0x1D => decodeOx w
    | 0x1E => decodePfx w
    | _ => decodeFloat w
  | _ => decodeCell w

/-! ## H-forms (R44) -/

/-- A 16-bit H-form. -/
def decodeH (w : Nat) : Decoded Instr :=
  let d := hd w; let a := ha w
  match field w 1 4 with
  | 0x0 => .error .zeroForm
  | 0x1 =>
    match field w 13 3 with
    | 0 => .ok (.hAdd d a) | 1 => .ok (.hSub d a) | 2 => .ok (.hAnd d a) | 3 => .ok (.hOr d a)
    | 4 => .ok (.hXor d a) | 5 => .ok (.hShl d a) | 6 => .ok (.hShr d a) | _ => .ok (.hSra d a)
  | 0x2 =>
    match field w 13 3 with
    | 0 => .ok (.hMv d a) | 1 => .ok (.hMin d a) | 2 => .ok (.hMax d a) | 3 => .ok (.hMinn d a)
    | 4 => .ok (.hMaxn d a) | 5 => .ok (.hSlt d a) | 6 => .ok (.hSltn d a) | _ => .ok (.hAndn d a)
  | 0x3 => .ok (.hAddi d a (BitVec.ofNat 3 (field w 13 3)))
  | 0x4 => .ok (.hLdi d (BitVec.ofNat 7 (field w 9 7)))
  | 0x5 => .ok (.hLdD d a (BitVec.ofNat 3 (field w 13 3)))
  | 0x6 => .ok (.hStD d a (BitVec.ofNat 3 (field w 13 3)))
  | 0x7 => .ok (.hLdW d a (BitVec.ofNat 3 (field w 13 3)))
  | 0x8 => .ok (.hStW d a (BitVec.ofNat 3 (field w 13 3)))
  | 0x9 => .ok (.hBz d (BitVec.ofNat 7 (field w 9 7)))
  | 0xA => .ok (.hBnz d (BitVec.ofNat 7 (field w 9 7)))
  | 0xB => .ok (.hJmp (BitVec.ofNat 11 (field w 5 11)))
  | 0xC => require (field w 13 3 == 0) .unassignedH (.ok (.hJalr d a))
  | 0xD =>
    require (field w 5 8 == 0) .unassignedH <|
    match field w 13 3 with
    | 0 => .ok .hNop | 1 => .ok .hHalt | 2 => .ok .hYield | 3 => .ok .hBrk
    | _ => .error .unassignedH
  | _ => .error .unassignedH

/-- The instruction that starts with parcel `lo`; a W-form's second parcel is `hi` (R40). -/
def decodeParcels (lo hi : Nat) : Decoded Instr :=
  match field lo 0 1 with
  | 0 => decodeH lo
  | _ => decodeW (lo + 2 ^ 16 * hi)

/-- Two bytes as a little-endian parcel, R3 and R40. -/
def parcel (b0 b1 : Byte) : Nat := b0.toNat + 2 ^ 8 * b1.toNat

/-- Decoding of bytes at ascending addresses, with the bytes that follow. -/
def decode : List Byte → Decoded (Instr × List Byte)
  | b0 :: b1 :: rest =>
    match field b0.toNat 0 1, rest with
    | 0, _ => (decodeH (parcel b0 b1)).map fun i => (i, rest)
    | _, b2 :: b3 :: rest' => (decodeW (parcel b0 b1 + 2 ^ 16 * parcel b2 b3)).map fun i => (i, rest')
    | _, _ => .error .truncated
  | _ => .error .truncated

/-- The `n` low bytes of a number, lowest first. -/
def bytesOf : Nat → Nat → List Byte
  | 0, _ => []
  | n + 1, w => BitVec.ofNat 8 w :: bytesOf n (w / 2 ^ 8)

/-- The instruction read from the bits `w` of a row of the table that gives it `nbits` bits.
Bits above `nbits` are 0, up to the 64 bits of the longest form. -/
def decodeTableWord (nbits w : Nat) : Option Instr :=
  match decode (bytesOf 8 (w % 2 ^ nbits)) with
  | .ok (i, _) => some i
  | .error _ => none

/-! ## The encoder -/

/-- WR, R42. -/
def wr (op : Nat) (d a b : Reg) (fn : Nat) : Nat :=
  1 + 2 * op + 2 ^ 7 * d.val + 2 ^ 12 * a.val + 2 ^ 17 * b.val + 2 ^ 22 * fn

/-- WI, R42. -/
def wi (op : Nat) (d a : Reg) (imm : Nat) : Nat :=
  1 + 2 * op + 2 ^ 7 * d.val + 2 ^ 12 * a.val + 2 ^ 17 * imm

/-- WB, R42: a at [11:7] and b at [16:12]. -/
def wb (cnd : Nat) (a b : Reg) (off : BitVec 12) : Nat :=
  1 + 2 * 0x08 + 2 ^ 7 * a.val + 2 ^ 12 * b.val + 2 ^ 17 * cnd + 2 ^ 20 * off.toNat

/-- WJ, R42. -/
def wj (op : Nat) (off : BitVec 25) : Nat := 1 + 2 * op + 2 ^ 7 * off.toNat

/-- WM, R42. -/
def wm (op : Nat) (z : Size) (o : Order) (sc : Scope) (d a : Reg) (off : BitVec 8) : Nat :=
  1 + 2 * op + 2 ^ 7 * d.val + 2 ^ 12 * a.val + 2 ^ 17 * z.code + 2 ^ 19 * o.code + 2 ^ 21 * sc.code + 2 ^ 24 * off.toNat

/-- WA, R42. -/
def wa (op aop : Nat) (z : Width) (o : Order) (sc : Scope) (d a b : Reg) : Nat :=
  1 + 2 * op + 2 ^ 7 * d.val + 2 ^ 12 * a.val + 2 ^ 17 * b.val + 2 ^ 22 * aop + 2 ^ 26 * z.sizeCode + 2 ^ 27 * o.code + 2 ^ 29 * sc.code

/-- WE, R42. -/
def we (op sub : Nat) (d a b : Nat) (flags : Nat) : Nat :=
  1 + 2 * op + 2 ^ 7 * d + 2 ^ 12 * a + 2 ^ 17 * b + 2 ^ 22 * sub + 2 ^ 27 * flags

/-- WC, R48; `op` is x × 32 + ooooo. -/
def wc (op y : Nat) (t1 t0 : Tgt) (b a : Src) : Nat :=
  1 + 2 * (op % 32) + 2 ^ 6 + 2 ^ 7 * a.code + 2 ^ 12 * b.code + 2 ^ 17 * t0.code + 2 ^ 23 * t1.code + 2 ^ 29 * y + 2 ^ 31 * (op / 32)

/-- An H-form with d, a and f3, R44. -/
def hf (op4 : Nat) (d a : HReg) (f3 : Nat) : Nat :=
  2 * op4 + 2 ^ 5 * d.val + 2 ^ 9 * a.val + 2 ^ 13 * f3

/-- An H-form with d and imm7, R44. -/
def hi7 (op4 : Nat) (d : HReg) (imm : BitVec 7) : Nat := 2 * op4 + 2 ^ 5 * d.val + 2 ^ 9 * imm.toNat

def bitOf (b : Bool) : Nat := if b then 1 else 0

/-- The fn field of an ALU operation, R67. -/
def aluFn (x : Width) (code : Nat) : Nat := code + 2 ^ 8 * x.bit

/-- The fn field of an indexed access, R94. -/
def indexFn (kind : Nat) (z : Size) (o : Order) (sc : Scope) (scaled : Bool) : Nat :=
  z.code + 2 ^ 2 * sc.code + 2 ^ 5 * o.code + 2 ^ 7 * bitOf scaled + 2 ^ 8 * kind

/-- The fn field of a floating-point operation, R77. -/
def floatFn (op rnd fmt : Nat) : Nat := fmt + 2 ^ 3 * rnd + 2 ^ 6 * op

/-- The imm15 of an immediate shift, R74. -/
def shiftImm (kind : Nat) (x : Width) (n : BitVec 6) : Nat := n.toNat + 2 ^ 6 * kind + 2 ^ 8 * x.bit

/-- The flags of a WE word with order and scope. -/
def ordFlags (o : Order) (sc : Scope) : Nat := sc.code + 2 ^ 3 * o.code

def encodeAlu (x : Width) (code : Nat) (d a b : Reg) : Nat := wr 0x00 d a b (aluFn x code)

/-- The W-form word or H-form parcel of an instruction; `none` for an event. -/
def encodeWord : Instr → Option Nat
  | .add x d a b => some (encodeAlu x 0x00 d a b)
  | .sub x d a b => some (encodeAlu x 0x01 d a b)
  | .and d a b => some (encodeAlu .d 0x02 d a b)
  | .or d a b => some (encodeAlu .d 0x03 d a b)
  | .xor d a b => some (encodeAlu .d 0x04 d a b)
  | .andn d a b => some (encodeAlu .d 0x05 d a b)
  | .shl x d a b => some (encodeAlu x 0x06 d a b)
  | .shr x d a b => some (encodeAlu x 0x07 d a b)
  | .sra x d a b => some (encodeAlu x 0x08 d a b)
  | .min x d a b => some (encodeAlu x 0x09 d a b)
  | .max x d a b => some (encodeAlu x 0x0A d a b)
  | .minn x d a b => some (encodeAlu x 0x0B d a b)
  | .maxn x d a b => some (encodeAlu x 0x0C d a b)
  | .slt x d a b => some (encodeAlu x 0x0D d a b)
  | .sltn x d a b => some (encodeAlu x 0x0E d a b)
  | .sel d a b => some (encodeAlu .d 0x0F d a b)
  | .mul x d a b => some (encodeAlu x 0x10 d a b)
  | .mulh x d a b => some (encodeAlu x 0x11 d a b)
  | .mulhn x d a b => some (encodeAlu x 0x12 d a b)
  | .div x d a b => some (encodeAlu x 0x14 d a b)
  | .divn x d a b => some (encodeAlu x 0x15 d a b)
  | .rem x d a b => some (encodeAlu x 0x16 d a b)
  | .remn x d a b => some (encodeAlu x 0x17 d a b)
  | .clz x d a => some (encodeAlu x 0x18 d a 0)
  | .ctz x d a => some (encodeAlu x 0x19 d a 0)
  | .popc x d a => some (encodeAlu x 0x1A d a 0)
  | .bext d a b => some (encodeAlu .d 0x1B d a b)
  | .bins d a b => some (encodeAlu .d 0x1C d a b)
  | .cellkey x y z d a b => some (wr 0x00 d a b (x.code + 2 ^ 2 * y.code + 2 ^ 4 * z.code + 2 ^ 9))
  | .addi d a n => some (wi 0x01 d a n.toNat)
  | .andi d a n => some (wi 0x02 d a n.toNat)
  | .ori d a n => some (wi 0x03 d a n.toNat)
  | .xori d a n => some (wi 0x04 d a n.toNat)
  | .shli x d a n => some (wi 0x05 d a (shiftImm 0 x n))
  | .shri x d a n => some (wi 0x05 d a (shiftImm 1 x n))
  | .srai x d a n => some (wi 0x05 d a (shiftImm 2 x n))
  | .ldi d n => some (wi 0x06 d 0 n.toNat)
  | .ldhi d a n => some (wi 0x07 d a n.toNat)
  | .beq a b o => some (wb 0 a b o)
  | .bne a b o => some (wb 1 a b o)
  | .blt a b o => some (wb 2 a b o)
  | .bge a b o => some (wb 3 a b o)
  | .bltn a b o => some (wb 4 a b o)
  | .bgen a b o => some (wb 5 a b o)
  | .bz a o => some (wb 6 a 0 o)
  | .bnz a o => some (wb 7 a 0 o)
  | .jmp o => some (wj 0x09 o)
  | .jal o => some (wj 0x0A o)
  | .jalr d a o => some (wi 0x0B d a o.toNat)
  | .loop d o => some (wi 0x0B d 0 (o.toNat + 2 ^ 14))
  | .ld z o sc d a off => some (wm 0x0C z o sc d a off)
  | .lds z o sc d a off => some (wm 0x0D z o sc d a off)
  | .st z o sc d a off => some (wm 0x0E z o sc d a off)
  | .ldx z o sc x d a b => some (wr 0x0F d a b (indexFn 0 z o sc x))
  | .stx z o sc x d a b => some (wr 0x0F d a b (indexFn 1 z o sc x))
  | .pref h x a b => some (wr 0x0F (Fin.ofNat 32 h.code) a b (indexFn 2 .b .relaxed .thread x))
  | .ldxSx z o sc x d a b => some (wr 0x0F d a b (indexFn 3 z o sc x))
  | .amoAdd z o sc d a b => some (wa 0x10 0 z o sc d a b)
  | .amoAnd z o sc d a b => some (wa 0x10 1 z o sc d a b)
  | .amoOr z o sc d a b => some (wa 0x10 2 z o sc d a b)
  | .amoXor z o sc d a b => some (wa 0x10 3 z o sc d a b)
  | .amoMin z o sc d a b => some (wa 0x10 4 z o sc d a b)
  | .amoMax z o sc d a b => some (wa 0x10 5 z o sc d a b)
  | .amoMinn z o sc d a b => some (wa 0x10 6 z o sc d a b)
  | .amoMaxn z o sc d a b => some (wa 0x10 7 z o sc d a b)
  | .amoSwap z o sc d a b => some (wa 0x10 8 z o sc d a b)
  | .amoFadd z o sc d a b => some (wa 0x10 9 z o sc d a b)
  | .amoFmin z o sc d a b => some (wa 0x10 10 z o sc d a b)
  | .amoFmax z o sc d a b => some (wa 0x10 11 z o sc d a b)
  | .aredAdd z o sc a b => some (wa 0x10 0 z o sc 0 a b)
  | .aredAnd z o sc a b => some (wa 0x10 1 z o sc 0 a b)
  | .aredOr z o sc a b => some (wa 0x10 2 z o sc 0 a b)
  | .aredXor z o sc a b => some (wa 0x10 3 z o sc 0 a b)
  | .aredMin z o sc a b => some (wa 0x10 4 z o sc 0 a b)
  | .aredMax z o sc a b => some (wa 0x10 5 z o sc 0 a b)
  | .aredMinn z o sc a b => some (wa 0x10 6 z o sc 0 a b)
  | .aredMaxn z o sc a b => some (wa 0x10 7 z o sc 0 a b)
  | .aredSwap z o sc a b => some (wa 0x10 8 z o sc 0 a b)
  | .aredFadd z o sc a b => some (wa 0x10 9 z o sc 0 a b)
  | .aredFmin z o sc a b => some (wa 0x10 10 z o sc 0 a b)
  | .aredFmax z o sc a b => some (wa 0x10 11 z o sc 0 a b)
  | .cas z o sc d a b => some (wa 0x11 0 z o sc d a b)
  | .incw z o sc d a b => some (wa 0x11 1 z o sc d a b)
  | .fence o sc d => some (we 0x12 0 d.val 0 0 (ordFlags o sc))
  | .xfence sc m d => some (we 0x12 1 d.val (m.toNat % 32) (m.toNat / 32) sc.code)
  | .waitvEq q z sc d a b => some (we 0x12 2 d.val a.val b.val (sc.code + 2 ^ 3 * z.sizeCode + 2 ^ 4 * bitOf q))
  | .waitvNe q z sc d a b => some (we 0x12 3 d.val a.val b.val (sc.code + 2 ^ 3 * z.sizeCode + 2 ^ 4 * bitOf q))
  | .waitvLt q z sc d a b => some (we 0x12 4 d.val a.val b.val (sc.code + 2 ^ 3 * z.sizeCode + 2 ^ 4 * bitOf q))
  | .waitvGe q z sc d a b => some (we 0x12 5 d.val a.val b.val (sc.code + 2 ^ 3 * z.sizeCode + 2 ^ 4 * bitOf q))
  | .warm d a => some (we 0x13 0 d.val a.val 0 0)
  | .wexp d a b => some (we 0x13 1 d.val a.val b.val 0)
  | .wwait d a b => some (we 0x13 2 d.val a.val b.val 0)
  | .wrd st d a => some (we 0x13 3 d.val a.val 0 (bitOf st))
  | .wdis a => some (we 0x13 4 0 a.val 0 0)
  | .cldec o sc d a b => some (we 0x14 0 d.val a.val b.val (ordFlags o sc))
  | .clpush o sc d a b => some (we 0x14 1 d.val a.val b.val (ordFlags o sc))
  | .clnext o sc => some (we 0x14 2 0 0 0 (ordFlags o sc))
  | .renq k d a b => some (we 0x14 3 d.val a.val b.val (bitOf k))
  | .qbind f d a b => some (we 0x14 4 d.val a.val b.val (bitOf f))
  | .launch d a b => some (we 0x14 5 d.val a.val b.val 0)
  | .trig => some (we 0x14 6 0 0 0 0)
  | .tkrec d a => some (we 0x15 0 d.val a.val 0 0)
  | .tkplay d a => some (we 0x15 1 d.val a.val 0 0)
  | .tkend d a => some (we 0x15 2 d.val a.val 0 0)
  | .tkstat c d a => some (we 0x15 3 d.val a.val 0 (bitOf c))
  | .tkdrop d a => some (we 0x15 4 d.val a.val 0 0)
  | .tmset d a => some (we 0x16 0 d.val a.val 0 0)
  | .tmget d => some (we 0x16 1 d.val 0 0 0)
  | .msend d a b => some (we 0x16 2 d.val a.val b.val 0)
  | .mrecv n d => some (we 0x16 3 d.val 0 0 (bitOf n))
  | .floor d => some (we 0x16 4 d.val 0 0 0)
  | .fljoin a => some (we 0x16 5 0 a.val 0 0)
  | .nop => some (we 0x17 0 0 0 0 0)
  | .halt => some (we 0x17 1 0 0 0 0)
  | .yield => some (we 0x17 2 0 0 0 0)
  | .brk => some (we 0x17 3 0 0 0 0)
  | .trap n => some (we 0x17 4 0 (n.toNat % 32) (n.toNat / 32) 0)
  | .eret => some (we 0x17 5 0 0 0 0)
  | .sysr d n => some (we 0x17 6 d.val (n.toNat % 32) (n.toNat / 32) 0)
  | .sysw d n => some (we 0x17 7 d.val (n.toNat % 32) (n.toNat / 32) 0)
  | .sleepc p a => some (we 0x17 8 0 a.val 0 (bitOf p))
  | .rdcyc d => some (we 0x17 9 d.val 0 0 0)
  | .cpgo d => some (we 0x18 0 d.val 0 0 0)
  | .cpmx d => some (we 0x18 1 d.val 0 0 0)
  | .cpgath d a b => some (we 0x18 2 d.val a.val b.val 0)
  | .cpscat d a b => some (we 0x18 3 d.val a.val b.val 0)
  | .cpseal d => some (we 0x18 4 d.val 0 0 0)
  | .cpwaitb n => some (we 0x18 5 0 0 0 n.toNat)
  | .cpdisc a b => some (we 0x18 6 0 a.val b.val 0)
  | .cppre a b => some (we 0x18 7 0 a.val b.val 0)
  | .cpstr d a => some (we 0x19 0 d.val a.val 0 0)
  | .cpfree a => some (we 0x19 1 0 a.val 0 0)
  | .mxprog k u a => some (we 0x1A 0 0 a.val 0 (bitOf k + 2 * bitOf u))
  | .mxmm q slot acc b => some (we 0x1A 1 acc.val 0 b.val (slot.val + 2 ^ 4 * bitOf q))
  | .mxclr acc b => some (we 0x1A 2 acc.val 0 b.val 0)
  | .mxwait l => some (we 0x1A 3 0 0 0 (bitOf l))
  | .evacc x acc v a => some (we 0x1A 8 v.val a.val 0 (acc.val + 2 ^ 2 * bitOf x))
  | .evld v a b => some (we 0x1A 9 v.val a.val b.val 0)
  | .evst p v a b => some (we 0x1A 10 v.val a.val b.val p.code)
  | .fork d a b => some (we 0x1B 0 d.val a.val b.val 0)
  | .rdz d a => some (we 0x1B 1 d.val a.val 0 0)
  | .escr => some (we 0x1B 2 0 0 0 0)
  | .cfgld d a b => some (we 0x1C 0 d.val a.val b.val 0)
  | .cfgrun a b => some (we 0x1C 1 0 a.val b.val 0)
  | .cfgpatch d a b => some (we 0x1C 2 d.val a.val b.val 0)
  | .cfgseam f a => some (we 0x1C 3 0 a.val 0 (bitOf f))
  | .cfgsync sc => some (we 0x1C 4 0 0 0 sc.code)
  | .cfgest a => some (we 0x1C 5 0 a.val 0 0)
  | .cfgspawn d a => some (we 0x1C 6 d.val a.val 0 0)
  | .cfgjoin d a => some (we 0x1C 7 d.val a.val 0 0)
  | .oxli x n => some (wi 0x1D (Fin.ofNat 32 x.val) 0 n.toNat)
  | .oxmv x a => some (wi 0x1D (Fin.ofNat 32 (x.val + 8)) a 0)
  | .oxld x a n => some (wi 0x1D (Fin.ofNat 32 (x.val + 16)) a n.toNat)
  | .pfx sat t c r z k =>
    some (1 + 2 * 0x1E + 2 ^ 7 * k.val + 2 ^ 10 * bitOf z + 2 ^ 11 * r.code + 2 ^ 14 * c.code + 2 ^ 19 * t.code + 2 ^ 25 * bitOf sat)
  | .fadd r f d a b => some (wr 0x1F d a b (floatFn 0 r.code f.code))
  | .fsub r f d a b => some (wr 0x1F d a b (floatFn 1 r.code f.code))
  | .fmul r f d a b => some (wr 0x1F d a b (floatFn 2 r.code f.code))
  | .ffma r f d a b => some (wr 0x1F d a b (floatFn 3 r.code f.code))
  | .fdiv r f d a b => some (wr 0x1F d a b (floatFn 4 r.code f.code))
  | .fsqrt r f d a => some (wr 0x1F d a 0 (floatFn 5 r.code f.code))
  | .fmin f d a b => some (wr 0x1F d a b (floatFn 6 0 f.code))
  | .fmax f d a b => some (wr 0x1F d a b (floatFn 7 0 f.code))
  | .fcmp p f d a b => some (wr 0x1F d a b (floatFn 8 p.code f.code))
  | .fcvt r src t d a => some (wr 0x1F d a (Fin.ofNat 32 t.code) (floatFn 9 r.code src.code))
  | .fcvtInt r src t d a => some (wr 0x1F d a (Fin.ofNat 32 t.code) (floatFn 10 r.code src.code))
  | .fclass f d a => some (wr 0x1F d a 0 (floatFn 11 0 f.code))
  | .hAdd d a => some (hf 0x1 d a 0)
  | .hSub d a => some (hf 0x1 d a 1)
  | .hAnd d a => some (hf 0x1 d a 2)
  | .hOr d a => some (hf 0x1 d a 3)
  | .hXor d a => some (hf 0x1 d a 4)
  | .hShl d a => some (hf 0x1 d a 5)
  | .hShr d a => some (hf 0x1 d a 6)
  | .hSra d a => some (hf 0x1 d a 7)
  | .hMv d a => some (hf 0x2 d a 0)
  | .hMin d a => some (hf 0x2 d a 1)
  | .hMax d a => some (hf 0x2 d a 2)
  | .hMinn d a => some (hf 0x2 d a 3)
  | .hMaxn d a => some (hf 0x2 d a 4)
  | .hSlt d a => some (hf 0x2 d a 5)
  | .hSltn d a => some (hf 0x2 d a 6)
  | .hAndn d a => some (hf 0x2 d a 7)
  | .hAddi d a n => some (hf 0x3 d a n.toNat)
  | .hLdi d n => some (hi7 0x4 d n)
  | .hLdD d a n => some (hf 0x5 d a n.toNat)
  | .hStD d a n => some (hf 0x6 d a n.toNat)
  | .hLdW d a n => some (hf 0x7 d a n.toNat)
  | .hStW d a n => some (hf 0x8 d a n.toNat)
  | .hBz d n => some (hi7 0x9 d n)
  | .hBnz d n => some (hi7 0xA d n)
  | .hJmp o => some (2 * 0xB + 2 ^ 5 * o.toNat)
  | .hJalr d a => some (hf 0xC d a 0)
  | .hNop => some (hf 0xD 0 0 0)
  | .hHalt => some (hf 0xD 0 0 1)
  | .hYield => some (hf 0xD 0 0 2)
  | .hBrk => some (hf 0xD 0 0 3)
  | .vmov t1 t0 a => some (wc 0x00 3 t1 t0 .zero a)
  | .vadd y t1 t0 b a => some (wc 0x01 y.code t1 t0 b a)
  | .vsub y t1 t0 b a => some (wc 0x02 y.code t1 t0 b a)
  | .vmul y t1 t0 b a => some (wc 0x03 y.code t1 t0 b a)
  | .vmulh y t1 t0 b a => some (wc 0x04 y.code t1 t0 b a)
  | .vfma y t1 t0 b a => some (wc 0x05 y.code t1 t0 b a)
  | .vmin y t1 t0 b a => some (wc 0x06 y.code t1 t0 b a)
  | .vmax y t1 t0 b a => some (wc 0x07 y.code t1 t0 b a)
  | .vabs y t1 t0 a => some (wc 0x08 y.code t1 t0 .zero a)
  | .vneg y t1 t0 a => some (wc 0x09 y.code t1 t0 .zero a)
  | .vand t1 t0 b a => some (wc 0x0A 3 t1 t0 b a)
  | .vor t1 t0 b a => some (wc 0x0B 3 t1 t0 b a)
  | .vxor t1 t0 b a => some (wc 0x0C 3 t1 t0 b a)
  | .vshl t1 t0 b a => some (wc 0x0D 3 t1 t0 b a)
  | .vshr t1 t0 b a => some (wc 0x0E 3 t1 t0 b a)
  | .vsra t1 t0 b a => some (wc 0x0F 3 t1 t0 b a)
  | .vcmpeq y t1 t0 b a => some (wc 0x10 y.code t1 t0 b a)
  | .vcmplt y t1 t0 b a => some (wc 0x11 y.code t1 t0 b a)
  | .vcmple y t1 t0 b a => some (wc 0x12 y.code t1 t0 b a)
  | .vsel t1 t0 b a => some (wc 0x13 3 t1 t0 b a)
  | .vcvt y t1 t0 a => some (wc 0x14 y.code t1 t0 .zero a)
  | .vpack y t1 t0 b a => some (wc 0x15 y.code t1 t0 b a)
  | .vunpk y t1 t0 b a => some (wc 0x16 y.code t1 t0 b a)
  | .vscale y t1 t0 b a => some (wc 0x17 y.code t1 t0 b a)
  | .vrcp t1 t0 a => some (wc 0x18 2 t1 t0 .zero a)
  | .vrsq t1 t0 a => some (wc 0x19 2 t1 t0 .zero a)
  | .vsqrt t1 t0 a => some (wc 0x1A 2 t1 t0 .zero a)
  | .vexp2 t1 t0 a => some (wc 0x1B 2 t1 t0 .zero a)
  | .vlog2 t1 t0 a => some (wc 0x1C 2 t1 t0 .zero a)
  | .vacc y t1 t0 b a => some (wc 0x1D y.code t1 t0 b a)
  | .vred y t1 t0 a => some (wc 0x1E y.code t1 t0 .zero a)
  | .vscan y t1 t0 a => some (wc 0x1F y.code t1 t0 .zero a)
  | .vsteer t1 t0 b a => some (wc 0x20 3 t1 t0 b a)
  | .vmerge y t1 t0 b a => some (wc 0x21 y.code t1 t0 b a)
  | .vgate t1 t0 b a => some (wc 0x22 3 t1 t0 b a)
  | .vshuf t1 t0 b a => some (wc 0x23 3 t1 t0 b a)
  | .vbcast t1 t0 b a => some (wc 0x24 3 t1 t0 b a)
  | .vidx t1 t0 b a => some (wc 0x25 1 t1 t0 b a)
  | .vdrop t1 t0 a => some (wc 0x26 3 t1 t0 .zero a)
  | .esc e t1 t0 a => some (wc 0x27 e.val t1 t0 .zero a)
  | .vcfgt y t1 t0 a => some (wc 0x28 y.code t1 t0 .zero a)
  | .configFiring .. | .tokenDelivery .. | .creditReturn .. | .escapeDispatch .. | .escapeQueueStart .. | .escapeReplyDelivery ..
  | .converge .. | .nodeStart .. | .stallDetect .. | .splitterDeal .. | .mergerTake .. | .stageHigh .. | .stageLow .. | .stageFenceMerge ..
  | .seamStitch .. | .nodeReplace .. | .portAccess .. | .portResponse .. | .wakeToken .. | .copyStart .. | .copyElement .. | .copyComplete ..
  | .streamTileStart .. | .landingNotice .. | .deferredEnter .. | .matrixFetchStart .. | .matrixCommandComplete .. | .bankctlWrite ..
  | .bankSwitchComplete .. | .weirCountNotice .. | .weirCredit .. | .lineEviction .. | .pageMove .. | .threadWake .. | .waitvReread ..
  | .watchdogExpiry .. | .pageFaultResolved .. | .ringRefill .. | .floorPublish | .regroup .. | .kick .. | .resume .. | .packetFetch ..
  | .queuePoll .. | .taskStart .. | .noopComplete .. | .taskComplete .. | .tokenReplenish .. | .scheduleDecision .. | .drainTimeout ..
  | .checkpoint .. | .restore .. | .kill .. | .debugHalt .. | .debugStep .. | .debugResume .. | .hostAccess .. | .hostLinkRecovery ..
  | .hostLinkDown | .ownershipChange .. | .remoteRequest .. | .renqReceive .. | .remoteReadMiss .. | .pageHandover .. | .tombstoneForward ..
  | .tombstoneRemove .. | .portRetrain .. | .portDown .. | .registerWrite .. | .dykeWrite .. | .powerOn .. | .attestChallenge .. | .firmwareRoll ..
  | .unitRetire .. | .scrubUncorrectable .. | .thermalTrip | .illegalInstruction | .faultUnresolvable .. | .queueOpen .. | .hostSnoop ..
  | .readCopyInvalidate .. | .powerLoss .. | .peerComeBack .. => none

/-- The length in bytes of an instruction's own word, R40; the prefix and its cell word are two words. -/
def Instr.length : Instr → Nat
  | .hAdd .. | .hSub .. | .hAnd .. | .hOr .. | .hXor .. | .hShl .. | .hShr .. | .hSra .. => 2
  | .hMv .. | .hMin .. | .hMax .. | .hMinn .. | .hMaxn .. | .hSlt .. | .hSltn .. | .hAndn .. => 2
  | .hAddi .. | .hLdi .. | .hLdD .. | .hStD .. | .hLdW .. | .hStW .. | .hBz .. | .hBnz .. => 2
  | .hJmp .. | .hJalr .. | .hNop | .hHalt | .hYield | .hBrk => 2
  | _ => 4

/-- The bytes of an instruction at ascending addresses; no bytes for an event. -/
def encode (i : Instr) : List Byte :=
  match encodeWord i with
  | some w => bytesOf i.length w
  | none => []

end Sys2Proof
end

