-- ==== Sys2Proof/Machine/Operands.lean ====
section
/-! DEFINITION. The operands of every instruction: which registers it reads and writes, which agents accept it (R46), and how immediates and offsets extend. -/

namespace Sys2Proof.Machine

/-! ## Immediates and offsets (R43, R44) -/

/-- A signed field as a 64-bit value. -/
def sext {n : Nat} (v : BitVec n) : Word := v.signExtend 64
/-- An unsigned field as a 64-bit value. -/
def zext {n : Nat} (v : BitVec n) : Word := v.setWidth 64
/-- A parcel offset in bytes. -/
def parcels {n : Nat} (v : BitVec n) : Word := v.signExtend 64 <<< 1
/-- `lo32` of the pseudocode. -/
def lo32 (v : Word) : BitVec 32 := v.setWidth 32

/-- Epilogue mask n; k0 is all ones whatever is held there (R59, R212). -/
def Epilogue.mask (e : Epilogue) (n : Fin 8) : BitVec 128 := if n = 0 then BitVec.allOnes 128 else e.k.get n

/-- The size of an access in bytes, R43. -/
def sizeBytes : Size → Nat
  | .b => 1 | .h => 2 | .w => 4 | .d => 8

/-- The size of an atomic in bytes, R181. -/
def widthBytes : Width → Nat
  | .w => 4 | .d => 8

/-- An off8 field scaled by the access size, R43. -/
def scaledOff (z : Size) (off : BitVec 8) : Word := sext off * BitVec.ofNat 64 (sizeBytes z)

/-- The register that an H-form names. -/
def hreg (r : HReg) : Reg := Fin.ofNat 32 r.val

/-! ## Registers read and written -/

/-- The scalar registers that an instruction reads. -/
def reads : Instr → List Reg
  | .add _ _ a b | .sub _ _ a b | .shl _ _ a b | .shr _ _ a b | .sra _ _ a b => [a, b]
  | .and _ a b | .or _ a b | .xor _ a b | .andn _ a b | .bext _ a b => [a, b]
  | .min _ _ a b | .max _ _ a b | .minn _ _ a b | .maxn _ _ a b | .slt _ _ a b | .sltn _ _ a b => [a, b]
  | .mul _ _ a b | .mulh _ _ a b | .mulhn _ _ a b | .div _ _ a b | .divn _ _ a b | .rem _ _ a b | .remn _ _ a b => [a, b]
  | .sel d a b | .bins d a b => [d, a, b]
  | .clz _ _ a | .ctz _ _ a | .popc _ _ a => [a]
  | .cellkey _ _ _ _ a b => [a, b]
  | .addi _ a _ | .andi _ a _ | .ori _ a _ | .xori _ a _ | .ldhi _ a _ => [a]
  | .shli _ _ a _ | .shri _ _ a _ | .srai _ _ a _ => [a]
  | .beq a b _ | .bne a b _ | .blt a b _ | .bge a b _ | .bltn a b _ | .bgen a b _ => [a, b]
  | .bz a _ | .bnz a _ => [a]
  | .jalr _ a _ => [a]
  | .loop d _ => [d]
  | .ld _ _ _ _ a _ | .lds _ _ _ _ a _ => [a]
  | .st _ _ _ d a _ => [d, a]
  | .ldx _ _ _ _ _ a b | .ldxSx _ _ _ _ _ a b => [a, b]
  | .stx _ _ _ _ d a b => [d, a, b]
  | .pref _ _ a b => [a, b]
  | .amoAdd _ _ _ _ a b | .amoAnd _ _ _ _ a b | .amoOr _ _ _ _ a b | .amoXor _ _ _ _ a b => [a, b]
  | .amoMin _ _ _ _ a b | .amoMax _ _ _ _ a b | .amoMinn _ _ _ _ a b | .amoMaxn _ _ _ _ a b => [a, b]
  | .amoSwap _ _ _ _ a b | .amoFadd _ _ _ _ a b | .amoFmin _ _ _ _ a b | .amoFmax _ _ _ _ a b => [a, b]
  | .aredAdd _ _ _ a b | .aredAnd _ _ _ a b | .aredOr _ _ _ a b | .aredXor _ _ _ a b => [a, b]
  | .aredMin _ _ _ a b | .aredMax _ _ _ a b | .aredMinn _ _ _ a b | .aredMaxn _ _ _ a b => [a, b]
  | .aredSwap _ _ _ a b | .aredFadd _ _ _ a b | .aredFmin _ _ _ a b | .aredFmax _ _ _ a b => [a, b]
  | .cas _ _ _ d a b | .incw _ _ _ d a b => [d, a, b]
  | .waitvEq _ _ _ _ a b | .waitvNe _ _ _ _ a b | .waitvLt _ _ _ _ a b | .waitvGe _ _ _ _ a b => [a, b]
  | .warm _ a | .wrd _ _ a | .wdis a => [a]
  | .wexp _ a b | .wwait _ a b => [a, b]
  | .cldec _ _ _ a b => [a, b]
  | .clpush _ _ d a b => [d, a, b]
  | .renq _ _ a b | .qbind _ _ a b | .launch _ a b => [a, b]
  | .tkrec _ a | .tkplay _ a | .tkend _ a | .tkstat _ _ a | .tkdrop _ a => [a]
  | .tmset _ a | .fljoin a => [a]
  | .msend _ a b => [a, b, 3, 4, 5]
  | .sysw d _ => [d]
  | .sleepc _ a => [a]
  | .cpgath _ a b | .cpscat _ a b | .cpdisc a b | .cppre a b => [a, b]
  | .cpstr _ a | .cpfree a => [a]
  | .mxprog _ _ a => [a]
  | .mxmm q _ _ b => if q then [b] else []
  | .mxclr _ b => [b]
  | .evacc _ _ _ a => [a]
  | .evld _ a b | .evst _ _ a b => [a, b]
  | .fork _ a b | .cfgld _ a b | .cfgpatch _ a b | .cfgrun a b => [a, b]
  | .rdz _ a | .cfgspawn _ a | .cfgjoin _ a | .cfgseam _ a | .cfgest a => [a]
  | .escr => [3, 4, 5, 6]
  | .oxmv _ a | .oxld _ a _ => [a]
  | .fadd _ _ _ a b | .fsub _ _ _ a b | .fmul _ _ _ a b | .fdiv _ _ _ a b => [a, b]
  | .ffma _ _ d a b => [d, a, b]
  | .fsqrt _ _ _ a | .fclass _ _ a | .fcvt _ _ _ _ a | .fcvtInt _ _ _ _ a => [a]
  | .fmin _ _ a b | .fmax _ _ a b | .fcmp _ _ _ a b => [a, b]
  | .hAdd d a | .hSub d a | .hAnd d a | .hOr d a | .hXor d a | .hShl d a | .hShr d a | .hSra d a => [hreg d, hreg a]
  | .hMin d a | .hMax d a | .hMinn d a | .hMaxn d a | .hSlt d a | .hSltn d a | .hAndn d a => [hreg d, hreg a]
  | .hMv _ a | .hAddi _ a _ | .hLdD _ a _ | .hLdW _ a _ | .hJalr _ a => [hreg a]
  | .hStD d a _ | .hStW d a _ => [hreg d, hreg a]
  | .hBz d _ | .hBnz d _ => [hreg d]
  | _ => []

/-- The scalar registers that an instruction writes. -/
def writes : Instr → List Reg
  | .add _ d _ _ | .sub _ d _ _ | .shl _ d _ _ | .shr _ d _ _ | .sra _ d _ _ => [d]
  | .and d _ _ | .or d _ _ | .xor d _ _ | .andn d _ _ | .bext d _ _ | .sel d _ _ | .bins d _ _ => [d]
  | .min _ d _ _ | .max _ d _ _ | .minn _ d _ _ | .maxn _ d _ _ | .slt _ d _ _ | .sltn _ d _ _ => [d]
  | .mul _ d _ _ | .mulh _ d _ _ | .mulhn _ d _ _ | .div _ d _ _ | .divn _ d _ _ | .rem _ d _ _ | .remn _ d _ _ => [d]
  | .clz _ d _ | .ctz _ d _ | .popc _ d _ => [d]
  | .cellkey _ _ _ d _ _ => [d]
  | .addi d _ _ | .andi d _ _ | .ori d _ _ | .xori d _ _ | .ldhi d _ _ | .ldi d _ => [d]
  | .shli _ d _ _ | .shri _ d _ _ | .srai _ d _ _ => [d]
  | .jal _ => [1]
  | .jalr d _ _ | .loop d _ => [d]
  | .ld _ _ _ d _ _ | .lds _ _ _ d _ _ | .ldx _ _ _ _ d _ _ | .ldxSx _ _ _ _ d _ _ => [d]
  | .amoAdd _ _ _ d _ _ | .amoAnd _ _ _ d _ _ | .amoOr _ _ _ d _ _ | .amoXor _ _ _ d _ _ => [d]
  | .amoMin _ _ _ d _ _ | .amoMax _ _ _ d _ _ | .amoMinn _ _ _ d _ _ | .amoMaxn _ _ _ d _ _ => [d]
  | .amoSwap _ _ _ d _ _ | .amoFadd _ _ _ d _ _ | .amoFmin _ _ _ d _ _ | .amoFmax _ _ _ d _ _ => [d]
  | .cas _ _ _ d _ _ | .incw _ _ _ d _ _ => [d]
  | .fence _ _ d | .xfence _ _ d => [d]
  | .waitvEq _ _ _ d _ _ | .waitvNe _ _ _ d _ _ | .waitvLt _ _ _ d _ _ | .waitvGe _ _ _ d _ _ => [d]
  | .warm d _ | .wexp d _ _ | .wwait d _ _ | .wrd _ d _ => [d]
  | .cldec _ _ d _ _ => [d]
  | .clnext _ _ => [1, 3]
  | .renq _ d _ _ | .qbind _ d _ _ | .launch d _ _ => [d]
  | .tkrec d _ | .tkplay d _ | .tkend d _ | .tkstat _ d _ | .tkdrop d _ => [d]
  | .tmset d _ | .tmget d | .msend d _ _ | .floor d => [d]
  | .mrecv _ d => [d, 3, 4, 5]
  | .sysr d _ | .rdcyc d => [d]
  | .cpgo d | .cpmx d | .cpseal d | .cpgath d _ _ | .cpscat d _ _ | .cpstr d _ => [d]
  | .fork d _ _ | .rdz d _ | .cfgld d _ _ | .cfgpatch d _ _ | .cfgspawn d _ | .cfgjoin d _ => [d]
  | .fadd _ _ d _ _ | .fsub _ _ d _ _ | .fmul _ _ d _ _ | .fdiv _ _ d _ _ | .ffma _ _ d _ _ => [d]
  | .fsqrt _ _ d _ | .fclass _ d _ | .fcvt _ _ _ d _ | .fcvtInt _ _ _ d _ => [d]
  | .fmin _ d _ _ | .fmax _ d _ _ | .fcmp _ _ d _ _ => [d]
  | .hAdd d _ | .hSub d _ | .hAnd d _ | .hOr d _ | .hXor d _ | .hShl d _ | .hShr d _ | .hSra d _ => [hreg d]
  | .hMv d _ | .hMin d _ | .hMax d _ | .hMinn d _ | .hMaxn d _ | .hSlt d _ | .hSltn d _ | .hAndn d _ => [hreg d]
  | .hAddi d _ _ | .hLdi d _ | .hLdD d _ _ | .hLdW d _ _ | .hJalr d _ => [hreg d]
  | _ => []

/-- The registers that an instruction's fields name, which on a sequencer must lie in s0 to s15 (R43). -/
def fields (i : Instr) : List Reg := reads i ++ writes i

/-! ## Agents (R46 and the entries) -/

/-- Whether an agent decodes an instruction; the others take it as unassigned (R46, R47, R65). -/
def accepts (a : AgentId) : Instr → Bool
  | .warm _ _ | .wexp _ _ _ | .wwait _ _ _ | .wrd _ _ _ | .wdis _ =>
    match a with
    | .thread _ _ | .region _ | .copySeq _ _ => true
    | .matrix _ _ | .epilogue _ _ | .tile _ _ _ => false
  | .cldec _ _ _ _ _ | .clpush _ _ _ _ _ | .renq _ _ _ _ | .launch _ _ _ | .trig =>
    match a with
    | .thread _ _ | .region _ => true
    | .matrix _ _ | .epilogue _ _ | .copySeq _ _ | .tile _ _ _ => false
  | .clnext _ _ | .qbind _ _ _ _ | .tkrec _ _ | .tkplay _ _ | .tkend _ _ | .tkstat _ _ _ | .tkdrop _ _
  | .tmset _ _ | .tmget _ | .msend _ _ _ | .mrecv _ _ | .floor _ | .fljoin _ | .eret
  | .fork _ _ _ | .rdz _ _ | .escr => a.isThread
  | .mxprog _ _ _ | .mxmm _ _ _ _ | .mxclr _ _ | .mxwait _ =>
    match a with
    | .thread _ _ | .matrix _ _ => true
    | .region _ | .epilogue _ _ | .copySeq _ _ | .tile _ _ _ => false
  | .evacc _ _ _ _ | .evld _ _ _ | .evst _ _ _ _ | .pfx _ _ _ _ _ _ =>
    match a with
    | .epilogue _ _ => true
    | .thread _ _ | .region _ | .matrix _ _ | .copySeq _ _ | .tile _ _ _ => false
  | .cfgld _ _ _ | .cfgrun _ _ | .cfgpatch _ _ _ | .cfgseam _ _ | .cfgsync _ | .cfgest _ | .cfgspawn _ _ | .cfgjoin _ _ =>
    match a with
    | .region _ => true
    | .thread _ _ | .matrix _ _ | .epilogue _ _ | .copySeq _ _ | .tile _ _ _ => false
  | _ =>
    match a with
    | .tile _ _ _ => false
    | .thread _ _ | .region _ | .matrix _ _ | .epilogue _ _ | .copySeq _ _ => true

/-- Every register field of the instruction is one that the agent has (R43). -/
def fieldsOk (a : AgentId) (i : Instr) : Bool := a.isThread || (fields i).all fun r => r.val < 16

/-- The word of an instruction as its low parcels hold it; an event has none. -/
def wordOf (i : Instr) : Nat :=
  match encodeWord i with
  | some w => w
  | none => 0

end Sys2Proof.Machine
end

