-- ==== Sys2Proof/Machine/Ops.lean ====
section
/-! DEFINITION. What every meaning shares: reading and writing registers, issuing and retiring an instruction, sleeping, taking a trap and returning from one (R60, R65, R98, R206, R207). -/

namespace Sys2Proof.Machine

/-- The outcome of an instruction or a step. -/
abbrev Out := Host.Outcome State Fault Refusal

/-! ## Registers (R59, R60) -/

/-- A scalar register; s0 reads as zero (R60). -/
def Hart.reg (h : Hart) (r : Reg) : Word := if r = 0 then 0 else h.x.get r

/-- A scalar register written; a write to s0 is discarded (R60). -/
def Hart.setReg (h : Hart) (r : Reg) (v : Word) : Hart := if r = 0 then h else { h with x := h.x.set r v }

/-- Several registers written in order. -/
def Hart.setRegs (h : Hart) : List (Reg × Word) → Hart
  | [] => h
  | (r, v) :: ws => (h.setReg r v).setRegs ws

/-- An operand-extension register (R63). -/
def Hart.oxr (h : Hart) (n : Fin 8) : Word := h.ox.get n
def Hart.setOx (h : Hart) (n : Fin 8) (v : Word) : Hart := { h with ox := h.ox.set n v }

/-- Flags raised in FSTAT (R30). -/
def Hart.raise (h : Hart) (f : Flags) : Hart := { h with fstat := raiseFlags h.fstat f }

/-- The chain input and output registers, qi and qo (R60). -/
def qi : Reg := 28
def qo : Reg := 29

def Hart.bound (h : Hart) : Bool := h.chain.isSome

/-! ## Fetching (R40, R41) -/

/-- A parcel of the agent's instruction stream: of a page whose home is a peer, as a load would read it there or in a copy (R394). -/
def fetchParcel (s : State) (pc : Word) : Except AddrFault Nat :=
  match resolve s s.cur s.me.task pc 2 .fetch false with
  | .error f => .error f
  | .ok (.memory pa _ _ shared) =>
    match siteOf s pa shared with
    | .here | .moving | .copy _ => .ok (s.homeBytes pa 2)
    | .absent p => if reach s p = .down then .error .protection else .error .waits
    | .uncached p => match reach s p with
      | .up => .ok ((Config.peerWord (pa / 8 * 8) s.clock).toNat / 2 ^ (8 * (pa % 8)) % 2 ^ 16)
      | .retraining => .error .waits
      | .down => .error .protection
  | .ok _ => .error .protection

/-- The first 32 bits at pc, which the illegal-instruction trap reports; a parcel that cannot be fetched reads 0 (R206). -/
def bitsAtPc (s : State) : Word :=
  let get := fun (r : Except AddrFault Nat) => match r with
    | .ok w => w
    | .error _ => 0
  BitVec.ofNat 64 (get (fetchParcel s s.me.pc) + 2 ^ 16 * get (fetchParcel s (s.me.pc + 2)))

/-! ## Stopping an agent (R97, R168, R207) -/

/-- A matrix block after one of its sequencers stopped or halted: the commands and armed slots that agent queued and that have not started are discarded (R168).
A released command that still waits in its slot is neither armed nor queued: it stays and runs (DESIGN CHOICE, log entry 52). -/
def dropCommands (k : Block) (a : AgentId) (queued : Bool) : Block :=
  let kept := k.slots.map fun d =>
    match d.cmd with
    | some c => if c.owner = a && !d.released then { d with cmd := none } else d
    | none => d
  let some? := (List.range 8).any fun n =>
    match (vget ⟨none, 0, 0, false⟩ k.slots n).cmd with
    | some c => c.owner = a && !(vget ⟨none, 0, 0, false⟩ k.slots n).released
    | none => false
  { k with
    slots := kept
    discarded := k.discarded || some?
    queue := if queued then k.queue.filter fun c => c.owner ≠ a || c.fetching else k.queue }

/-- An escape thread that ends without `escr` never returns its ticket: the region's run is marked to end with cause 3 (R270). -/
def escapeLost (s : State) : Origin → State
  | .escape cl _ _ _ =>
    let lead := (s.region cl).lead.getD cl
    (s.setRegion lead { s.region lead with failed := some (3, false) }).report (.escapeLost cl)
  | .none | .persistent _ => s

/-- An agent stopped by Krany's fault service, with its record (R97, R207). -/
def stopAgent (s : State) (a : AgentId) (r : TrapRecord) : State :=
  let s := s.setHart a { s.hart a with status := .stopped, stop := some r }
  let s := s.report (.threadStopped a r)
  match a with
  | .thread _ _ => escapeLost s (s.hart a).origin
  | .tile _ _ _ => s
  | .region cl => s.setRegion cl { s.region cl with failed := some (3, false) }
  | .matrix cl b =>
    let k := dropCommands (s.block (blockNo cl b)) a true
    s.setBlock (blockNo cl b) { k with stopped := true }
  | .epilogue cl b | .copySeq cl b =>
    s.setBlock (blockNo cl b) { s.block (blockNo cl b) with stopped := true }

/-! ## Traps (R206, R207) -/

/-- The classes of R206. -/
inductive TrapClass where
  | illegal | misalignment | pageFault | protection | promise | departure | breakpoint | trap | watchdog
deriving DecidableEq, Repr

def TrapClass.code : TrapClass → Nat
  | .illegal => 1 | .misalignment => 2 | .pageFault => 3 | .protection => 4 | .promise => 5
  | .departure => 6 | .breakpoint => 7 | .trap => 8 | .watchdog => 9

/-- Where a program counter stands that takes its value from a register or from memory: it always holds an even address, and bit 0 of an odd value is lost (R41, log entry 45). -/
def evenPc (v : Word) : Word := v &&& 0xFFFFFFFFFFFFFFFE#64

/-- Trap entry of an agent (R207): a thread with a handler and outside one enters it; any other agent stops.
`len` is the length of the trapping instruction and `epc` the address to return to. -/
def enterTrap (s : State) (a : AgentId) (c : TrapClass) (len : Nat) (epc eval : Word) : State :=
  let h := s.hart a
  if !a.isThread || h.tmode || h.tvec = 0 then stopAgent s a ⟨c.code, epc, eval⟩
  else
    s.setHart a { h with
      status := .ready
      epc := epc
      ecause := BitVec.ofNat 16 (c.code + 2 ^ 8 * len)
      eval := eval
      tmode := true
      pc := evenPc h.tvec }

/-- A trap of the running instruction that returns to it. -/
def trapHere (i : Instr) (c : TrapClass) (eval : Word) (s : State) : Out :=
  .next (enterTrap s s.cur c i.length s.me.pc eval)

/-- A trap of the running instruction that returns to the next one. -/
def trapNext (i : Instr) (c : TrapClass) (eval : Word) (s : State) : Out :=
  .next (enterTrap s s.cur c i.length (s.me.pc + BitVec.ofNat 64 i.length) eval)

/-- The illegal-instruction trap (R65). -/
def illegal (i : Instr) (s : State) : Out := trapHere i .illegal (bitsAtPc s) s

/-- An agent whose handler returned past a `renq.ack` that slept for its answer takes the status of that packet no more (R199, R213). -/
def State.passOver (s : State) (a : AgentId) : State :=
  let h := s.hart a
  let past : Renq → Bool := fun r => r.sender = a && r.ack && r.task = h.task && r.pc ≠ h.pc
  { s with renqs := (s.renqs.filter fun r => !(past r && r.answer.isSome)).map fun r => if past r then { r with gone := true } else r }

/-- The return from a trap (R207): outside a handler it is an illegal instruction; a return to the address that `clnext` linked leaves codelet mode (R198). -/
def returnFromTrap (i : Instr) (s : State) : Out :=
  let pc := evenPc s.me.epc
  if s.me.tmode then .next ((s.setMe { s.me with tmode := false, pc := pc, codelet := s.me.codelet && pc ≠ s.me.codeRet }).passOver s.cur)
  else illegal i s

/-! ## Sleeping (R178, R213, R262) -/

/-- The agent sleeps in this instruction; its pc still names it. -/
def sleepOn (w : Wait) (s : State) : Out :=
  .next (s.setMe { s.me with status := .sleeping w s.clock })

/-- Every agent of a task stopped where it stands, and the task's completion cause (R297, R409). -/
def stopTask (s : State) (t cause : Nat) : State :=
  match s.task t with
  | none => s
  | some k =>
    s.setTask t { k with cause := cause, stopped := true }

/-- An address that cannot be accessed (R90): a page fault waits for Krany's fault service (R206). -/
def addressFault (i : Instr) (va : Word) (f : AddrFault) (s : State) : Out :=
  match f with
  | .misaligned => trapHere i .misalignment va s
  | .protection => trapHere i .protection va s
  | .page => sleepOn (.page va) s
  | .waits => sleepOn (.bank va.toNat) s
  | .poisoned =>
    match s.me.task with
    | some t => .next (stopTask (stopAgent s s.cur ⟨0, s.me.pc, va⟩) t 6)
    | none => .next (stopAgent s s.cur ⟨0, s.me.pc, va⟩)

/-! ## Chains (R60, R200, R273) -/

/-- The oldest entry of the core's chain queue, once it can be popped.
A chain bound without an upstream neighbour never has one, and one without a downstream neighbour never has room: the thread sleeps (DESIGN CHOICE, log entry 52). -/
def chainHead (s : State) : Option Word :=
  match s.cur, s.me.chain with
  | .thread c _, some (some _, _) =>
    match (s.core c).chain with
    | (v, due) :: _ => if due ≤ s.clock then some v else none
    | [] => none
  | .thread _ _, some (none, _) | .thread _ _, none => none
  | .region _, _ | .matrix _ _, _ | .epilogue _ _, _ | .copySeq _ _, _ | .tile _ _ _, _ => none

/-- The downstream queue has a free entry. -/
def chainRoom (s : State) : Bool :=
  match s.me.chain with
  | some (_, some d) => (s.core d).chain.length < 8
  | some (_, none) | none => false

/-- The entry that the instruction read leaves the queue. -/
def chainPop (s : State) : State :=
  match s.cur with
  | .thread c _ => s.setCore c { s.core c with chain := (s.core c).chain.drop 1 }
  | .region _ | .matrix _ _ | .epilogue _ _ | .copySeq _ _ | .tile _ _ _ => s

/-- A core number of the same stripe that differs by 1 (R265). -/
def neighbours (c n : Nat) : Bool := c / 256 = n / 256 && (n = c + 1 || c = n + 1)

/-- The physical core that stands for a number (R279). -/
def State.physicalCore (s : State) (c : Nat) : Nat := (s.core c).physical.getD c

/-- The least latency of an entry of a core's chain: 4 cycles, and up to 12, as a free value says, between cores that a regroup has parted (R273, R279; log entry 4). -/
def chainLatency (s : State) (d : Nat) : Nat × State :=
  let parted := match s.cur with
    | .thread c _ => !neighbours (s.physicalCore c) (s.physicalCore d)
    | .region _ | .matrix _ _ | .epilogue _ _ | .copySeq _ _ | .tile _ _ _ => false
  if parted then (4 + (Config.free s.freeCtr).toNat % 9, s.bumpFree) else (4, s)

/-- A value pushed downstream. -/
def chainPush (s : State) (v : Word) : State :=
  match s.me.chain with
  | some (_, some d) =>
    let (n, s) := chainLatency s d
    s.setCore d { s.core d with chain := (s.core d).chain ++ [(v, s.clock + n)] }
  | some (_, none) | none => s

/-- The value an instruction writes to a register, if it writes it. -/
def written (r : Reg) : List (Reg × Word) → Option Word
  | [] => none
  | (r', v) :: ws => if r' = r then some v else written r ws

/-- The pops and pushes of a completed instruction (R60). -/
def chainMoves (i : Instr) (ws : List (Reg × Word)) (s : State) : State :=
  if s.me.bound then
    let s := if (reads i).contains qi then chainPop s else s
    match written qo ws with
    | some v => chainPush s v
    | none => s
  else s

/-! ## Issuing and retiring -/

/-- The registers as an instruction's sources see them: under a bound chain, s28 is the popped entry. -/
def sourceView (i : Instr) (s : State) : Hart :=
  if s.me.bound && (reads i).contains qi then
    match chainHead s with
    | some v => s.me.setReg qi v
    | none => s.me
  else s.me

/-- The checks before any effect (R43, R60, R65), then the instruction with its source registers. -/
def issue (i : Instr) (s : State) (k : Hart → Out) : Out :=
  if !(accepts s.cur i && i.wellFormed && fieldsOk s.cur i) then illegal i s
  else if s.me.bound && ((writes i).contains qi || (reads i).contains qo) then illegal i s
  else if s.me.bound && (reads i).contains qi && (chainHead s).isNone then sleepOn .chainInput s
  else if s.me.bound && (writes i).contains qo && !chainRoom s then sleepOn .chainOutput s
  else k (sourceView i s)

/-- The registers a completed instruction leaves: the chain output register is a queue while a chain is bound. -/
def keptWrites (h : Hart) (ws : List (Reg × Word)) : List (Reg × Word) :=
  if h.bound then ws.filter fun w => w.1 ≠ qo else ws

/-- The instruction completes: its chain moves, its register writes, and the pc at the next instruction. -/
def retire (i : Instr) (ws : List (Reg × Word)) (s : State) : Out :=
  let s := chainMoves i ws s
  let h := s.me
  .next (s.setMe { h.setRegs (keptWrites h ws) with pc := h.pc + BitVec.ofNat 64 i.length })

/-- A control transfer completes: the first one to the address that `clnext` linked leaves codelet mode (R198). -/
def retireTo (i : Instr) (ws : List (Reg × Word)) (target : Word) (s : State) : Out :=
  let s := chainMoves i ws s
  let h := s.me
  .next (s.setMe { h.setRegs (keptWrites h ws) with
    pc := target
    codelet := h.codelet && target ≠ h.codeRet })

/-- An instruction of another agent, or of one that slept, completes with its writes; the running agent stays. -/
def completeFor (a : AgentId) (i : Instr) (ws : List (Reg × Word)) (s : State) : State :=
  let h := s.hart a
  match retire i ws { s.setHart a { h with status := .ready, wokenAt := some s.clock } with cur := a } with
  | .next s' => { s' with cur := s.cur }
  | .fault _ | .refused _ => s

/-- The outcome of a meaning as a state. -/
def outState (s : State) : Out → State
  | .next s' => s'
  | .fault _ | .refused _ => s

/-- An instruction that computes a value from its sources into `d`. -/
def compute (i : Instr) (s : State) (d : Reg) (f : Hart → Word) : Out :=
  issue i s fun h => retire i [(d, f h)] s

/-- An instruction that computes a value and raises flags. -/
def computeFlags (i : Instr) (s : State) (d : Reg) (f : Hart → Nat × Flags) : Out :=
  issue i s fun h =>
    let r := f h
    retire i [(d, BitVec.ofNat 64 r.1)] (s.setMe (s.me.raise r.2))

/-- In codelet mode an instruction that would wait is illegal (R198). -/
def notInCodelet (i : Instr) (s : State) (k : Out) : Out := if s.me.codelet then illegal i s else k

end Sys2Proof.Machine
end

