-- ==== Sys2Proof/Machine/Peers.lean ====
section
/-! DEFINITION. Peer devices: which ports reach them, where a shared page is performed, and the link error ring (R392 to R400). -/

namespace Sys2Proof.Machine

/-! ## Names (R211) -/

/-- The TID of an agent: slot and core of a thread, or the mark, block and role of a sequencer. -/
def tidOf : AgentId → Nat
  | .thread c sl => sl + 16 * c
  | .region _ => 2 ^ 15
  | .matrix _ b => 2 ^ 15 + 2 ^ 12 * b + 2 ^ 10
  | .epilogue _ b => 2 ^ 15 + 2 ^ 12 * b + 2 ^ 10 * 2
  | .copySeq _ b => 2 ^ 15 + 2 ^ 12 * b + 2 ^ 10 * 3
  | .tile _ _ _ => 0

/-- The little-endian value of some words. -/
def wordsValue : List Word → Nat
  | [] => 0
  | w :: r => w.toNat + 2 ^ 64 * wordsValue r

namespace State

/-- The last write of a line was made by no thread of a recording (R376). -/
def forgetWriter (s : State) (no : Nat) : State :=
  { s with tracks := s.tracks.map fun p => (p.1, { p.2 with writers := tdrop no p.2.writers }) }

/-- A line written by others where no cache of the die saw it: held copies and lines do not carry the write, and no thread of a recording made it (R324, R376). -/
def overwritten (s : State) (no : Nat) (mask : BitVec 64) : State := (s.spoil none no .agent mask).forgetWriter no

/-- A value of up to 64 bytes inside one line, written at its home on behalf of no thread. -/
def writeHome (s : State) (pa v n : Nat) : State :=
  (s.performHome (pa / 64) (placeBytes (pa % 64) v) (maskOf (pa % 64) n)).forgetWriter (pa / 64)

/-- Words of one line written at their home, ascending. -/
def writeHomeWords (s : State) (pa : Nat) (ws : List Word) : State := s.writeHome pa (wordsValue ws) (8 * ws.length)

/-! ## The link error ring (R400) -/

/-- A write of the front end has been made, or dropped: a record of the ring counts in LEWIDX, and the notice that follows the write goes out (R355, R356, R400). -/
def frontDone (s : State) (w : FrontWrite) : State :=
  let s := if w.ring then { s with links := { s.links with lewidx := s.links.lewidx + 1 } } else s
  match w.notice with
  | some v => s.report (.msix v)
  | none => s

/-- A host line in the mere that the host link, in recovery, does not take yet (R390). -/
def hostPending (s : State) : Bool := s.service.host = .recovery && s.mere.any fun l => hostLine l.no && l.dirty ≠ 0

/-- The release of an ended task is not done: a write of it to a peer whose port retrains is not acknowledged, or the host link has not taken a host line yet (R359, R390, R398). -/
def releasing (s : State) (n : Nat) : Bool :=
  hostPending s || s.posted.any fun p => p.task = some n && p.agent.isSome && !p.lost && reach s p.peer = .retraining

/-- A write of the front end or of the ring, of words in one line, reaches its home: the read copies of other devices go first (R395), and a host line goes on to the host.
It waits while the page is on the move, the host link recovers or every port to its home retrains, and until the release that it follows is done; it is dropped where that link or peer is down (R355, R359, R390, R396, R398).
Toward a peer's page it is posted like a store, for the task that it is for, but for a record of the ring and one that a notice follows: these are acknowledged before the notice goes out (R356, R400).
A record bears the time at which it is written (R400). -/
def frontWrite (s : State) (w : FrontWrite) : State :=
  let wait := { s with frontWrites := s.frontWrites ++ [w] }
  let words := if w.ring then setNth w.words 1 (BitVec.ofNat 64 s.clock) else w.words
  let put := fun (s : State) => (s.recallLine (w.addr / 64)).writeHomeWords w.addr words
  let e := if w.shared then tfind (w.addr / 4096) s.homes else none
  if w.after.any s.releasing then wait
  else if w.words.isEmpty then s.frontDone w
  else if hostLine (w.addr / 64) then
    match s.service.host with
    | .up => ((put s).evictMere (w.addr / 64)).frontDone w
    | .recovery => wait
    | .down => (s.report .writeDropped).frontDone w
  else match e with
    | none => (put s).frontDone w
    | some e =>
      if e.moving || e.next.isSome then wait
      else if e.home = s.ownDevice then
        (put { s with homes := tset (w.addr / 4096) { e with copies := [] } s.homes }).frontDone w
      else match reach s e.home with
        | .retraining => wait
        | .down => (s.report .writeDropped).frontDone w
        | .up =>
          let s := if e.copy then put s else s
          let p : Posted := ⟨e.home, none, w.task, w.va, 8 * w.words.length, w.addr / 4096, false, false, false, []⟩
          frontDone (if w.ring || w.notice.isSome then s else { s with posted := s.posted ++ [p] }) w

/-- Records of the ring that are not written yet: no status that refers to one is delivered (R400). -/
def recordsWait (s : State) : Bool := s.frontWrites.any FrontWrite.ring

/-- A record of the ring, or a dropped one; no ring takes no record. Records that wait have their places already. -/
def linkRecord (s : State) (kind port peer : Nat) (va : Word) (agent : Option AgentId) (task : Option Nat) (len : Nat) : State :=
  let r := s.links
  let size := 2 ^ (r.lectl.toNat % 16)
  let next := r.lewidx + BitVec.ofNat 64 (s.frontWrites.filter FrontWrite.ring).length
  if r.lebase = 0 then s
  else if (next - r.leridx).toNat = size then
    { s with links := { r with ledrop := if r.ledrop = BitVec.allOnes 64 then r.ledrop else r.ledrop + 1 } }
  else
    let w := next.toNat
    let tid := match agent with
      | some a => tidOf a
      | none => 0
    let (q, idx) := match task.bind s.task with
      | some t => (t.queue, t.index)
      | none => (0, 0)
    let words : List Word :=
      [BitVec.ofNat 64 (peer % 2 ^ 18 + 2 ^ 34 * port + 2 ^ 40 * kind + 2 ^ 48 * (w % 2 ^ 16)),
       BitVec.ofNat 64 s.clock, va,
       BitVec.ofNat 64 (len % 2 ^ 32 + 2 ^ 32 * q + 2 ^ 48 * tid), BitVec.ofNat 64 idx, 0, 0, 0]
    s.frontWrite ⟨r.lebase.toNat + 64 * (w % size), true, words, none, 0, true, some (r.lectl.toNat / 2 ^ 16 % 2 ^ 11), none, none⟩

end State

/-! ## Peers that are not reached (R399, R400) -/

/-- The port of a record about a peer that is not reached: the one that went down with it, else the first that its route names (R400). -/
def portOf (s : State) (dev : Nat) : Nat :=
  match tfind dev s.peersDown, routeOf s dev with
  | some p, _ => p
  | none, p :: _ => p
  | none, [] => 0

/-! ## Writes to shared pages (R394, R395) -/

/-- A write performed at the home invalidates the read copies of other devices first (R395). -/
def dropCopies (s : State) (pa : Nat) (shared : Bool) : State :=
  match shared, tfind (pa / 4096) s.homes with
  | true, some e => { s with homes := tset (pa / 4096) { e with copies := [] } s.homes }
  | _, _ => s

/-- A write sent to a peer: it is outstanding until it is acknowledged, the port holds it while it retrains (R398), and after the peer was declared down it is only recorded (R186, R399). -/
def postWrite (s : State) (peer : Nat) (a : AgentId) (task : Option Nat) (va : Word) (n frame : Nat) : State :=
  match reach s peer with
  | .up => { s with posted := s.posted ++ [⟨peer, some a, task, va, n, frame, false, false, false, []⟩] }
  | .retraining => { s with posted := s.posted ++ [⟨peer, some a, task, va, n, frame, false, true, false, []⟩] }
  | .down =>
    let s := s.linkRecord 1 (portOf s peer) peer va (some a) task n
    { s with posted := s.posted ++ [⟨peer, some a, task, va, n, frame, true, false, false, []⟩] }

/-- An agent, or every agent of a task, is done with what it sent to peers: no fence reports its writes and nobody takes the status of its packets any more (R186, R199). -/
def disown (s : State) (mine : Option AgentId → Option Nat → Bool) : State :=
  { s with
    posted := (s.posted.filter fun p => !(mine p.agent p.task && p.lost)).map fun p => if mine p.agent p.task then { p with gone := true } else p
    renqs := (s.renqs.filter fun r => !(mine (some r.sender) r.task && r.answer.isSome)).map fun r => if mine (some r.sender) r.task then { r with gone := true } else r }

/-- What the ports held while they retrained has left them (R398). -/
def settleSending (s : State) : State :=
  { s with
    posted := s.posted.map fun p => { p with waiting := p.waiting && reach s p.peer ≠ .up }
    renqs := s.renqs.map fun r => { r with waiting := r.waiting && reach s r.dest ≠ .up } }

/-- An atomic that a peer cannot be asked for: its record of kind 4 (R399). -/
def atomicLost (s : State) (peer : Nat) (a : AgentId) (task : Option Nat) (va : Word) (n : Nat) : State :=
  s.linkRecord 4 (portOf s peer) peer va (some a) task n

/-- `n` bytes of free values, eight to a reading of the free counter (log entry 4). -/
def freeBytes (s : State) (n : Nat) : Nat × State :=
  let m := (n + 7) / 8
  (((List.range m).foldl (fun v k => v + 2 ^ (64 * k) * (Config.free (s.freeCtr + k)).toNat) 0) % 2 ^ (8 * n),
   { s with freeCtr := s.freeCtr + m })

end Sys2Proof.Machine
end

