-- ==== Sys2Proof/Machine/Track.lean ====
section
/-! DEFINITION. How Trackway watches reads and writes: store sequences, transfers, pushes and departures (R375 to R382). -/

namespace Sys2Proof.Machine

/-- The recording covers an address. -/
def Track.covers (t : Track) (va : Nat) : Bool := t.base ≤ va && va < t.base + t.len

/-- The recordings of a task that are in a state and cover an address. -/
def tracksAt (s : State) (task : Nat) (st : TrackState) (va : Nat) : List Nat :=
  (s.tracks.filter fun p => p.1.1 = task && p.2.state = st && p.2.covers va).map fun p => p.1.2

/-- An access runs in the coherent regime: its page does, or a recording of its range is being made (R321, R375). -/
def coherentAt (s : State) (task : Option Nat) (va : Word) (coh : Bool) : Bool :=
  coh || match task with
    | some t => !(tracksAt s t .recording va.toNat).isEmpty
    | none => false

/-! ## Writes (R376, R379) -/

/-- A write of an agent to a line of a recording: the thread with an open part counts it, and the line's last writer is known.
A writer of sequence 0 has no open part. -/
def Track.noteWrite (t : Track) (a : AgentId) (no : Nat) : Track :=
  match a with
  | .thread c sl =>
    match tfind (c, sl) t.parts with
    | some n => { t with parts := tset (c, sl) (n + 1) t.parts, writers := tset no ((c, sl), n + 1) t.writers }
    | none => { t with writers := tset no ((c, sl), 0) t.writers }
  | .region _ | .matrix _ _ | .epilogue _ _ | .copySeq _ _ | .tile _ _ _ => { t with writers := tdrop no t.writers }

def noteWrite (s : State) (a : AgentId) (task : Option Nat) (va : Word) (no : Nat) : State :=
  match task with
  | none => s
  | some n =>
    { s with tracks := s.tracks.map fun p =>
        if p.1.1 = n && p.2.covers va.toNat && (p.2.state = .recording || p.2.state = .playing) then (p.1, p.2.noteWrite a no)
        else if p.1.1 = n then p
        else (p.1, { p.2 with writers := tdrop no p.2.writers }) }

/-- The line as a push takes it after the producer's store: the bytes that its L1 serves, those dirty in its segment cache, and the rest from the home (R379). -/
def pushedLine (s : State) (c no : Nat) : LineData :=
  let g := s.seg (coreCluster c)
  lineOf fun k =>
    match (s.l1 c).byte? (64 * no + k) with
    | some b => b
    | none =>
      if (g.dirtyOf no).getLsbD k then (g.byte? (64 * no + k)).getD 0 else s.homeByte (64 * no + k)

/-- The line as a consumer's core holds it, with the writes performed before the push that the push does not carry (R324). -/
def heldCopy (s : State) (task id : Nat) (e : TrackEntry) (no : Nat) : Held :=
  let k := s.l1 e.prodCore
  let g := s.seg (coreCluster e.prodCore)
  let own := k.served no
  let segMissed := match findLine no k.lines with
    | some l => l.missedSegment &&& own
    | none => 0
  let homeMissed := (k.missedOf no &&& own) ||| (g.missedOf no &&& g.dirtyOf no &&& ~~~own)
  let near := if coreCluster e.consCore = coreCluster e.prodCore then segMissed else (s.seg (coreCluster e.consCore)).dirtyOf no
  { no := no
    data := pushedLine s e.prodCore no
    task := task
    id := id
    prodCore := e.prodCore
    prodSlot := e.prodSlot
    consSlot := e.consSlot
    freshL1 := 0
    freshSegment := segMissed &&& g.dirtyOf no
    staleSegment := near ≠ 0
    staleHome := homeMissed ≠ 0 }

/-- One push (R379): the line is held in the consumer's L1. Of a page that is neither at home nor held as a copy here the device has no line to push (R394),
and one of a page on the move waits as a write would, until the page has left and there is none either (R384, R396). -/
def pushLine (s : State) (task id root : Nat) (e : TrackEntry) : State :=
  match translate s task root (64 * e.line) with
  | .error _ => s
  | .ok (pa, pte) =>
    let here : Bool := match siteOf s pa (Pte.bit pte 61) with
      | .here | .copy _ => true
      | .moving | .absent _ | .uncached _ => false
    if Pte.bit pte 60 || !here then s
    else
      let no := pa / 64
      let t := s.track task id
      let s := s.setTrack task id { t with pushed := if t.pushed < 0xFFFFFFFF then t.pushed + 1 else t.pushed }
      let k := s.core e.consCore
      let same : Held → Bool := fun h => h.no = no && h.consSlot = e.consSlot && h.task = task && h.id = id
      s.setCore e.consCore { k with held := k.held.filter (fun h => !same h) ++ [heldCopy s task id e no] }

/-- The pushes that a performed store of a thread starts in one recording. -/
def pushesOf (s : State) (task id : Nat) (c sl : Nat) : State :=
  let t := s.track task id
  match tfind (c, sl) t.parts, s.task task with
  | some n, some k =>
    if t.fell then s
    else
      (t.entries.filter fun e =>
        e.prodCore = c && e.prodSlot = sl && e.seq = BitVec.ofNat 32 n && (tfind (e.consCore, e.consSlot) t.parts).isSome).foldl
        (fun s e => pushLine s task id k.root e) s
  | _, _ => s

/-- After a store of an agent was performed. -/
def pushes (s : State) (a : AgentId) (task : Option Nat) (va : Word) : State :=
  match a, task with
  | .thread c sl, some n => (tracksAt s n .playing va.toNat).foldl (fun s id => pushesOf s n id c sl) s
  | _, _ => s

/-! ## Reads (R373, R376, R381) -/

/-- How many entries a core's recorder, or a segment's, holds for a task (R378). -/
def recorderFill (s : State) (task : Nat) (inSegment : Bool) (core : Nat) : Nat :=
  (s.tracks.filter fun p => p.1.1 = task).foldl
    (fun n p => n + (p.2.entries.filter fun e =>
      e.inSegment = inSegment && (if inSegment then coreCluster e.prodCore = coreCluster core else e.prodCore = core)).length) 0

/-- The entry of a transfer (R376, R378). -/
def recordTransfer (s : State) (task id : Nat) (e : TrackEntry) : State :=
  let t := s.track task id
  let same : TrackEntry → Bool := fun f => { f with inSegment := false } = { e with inSegment := false }
  if t.entries.any same then s
  else if recorderFill s task false e.prodCore < 2048 then
    s.setTrack task id { t with entries := t.entries ++ [{ e with inSegment := false }] }
  else if recorderFill s task true e.prodCore < 32768 then
    s.setTrack task id { t with entries := t.entries ++ [{ e with inSegment := true }], spill := true }
  else s.setTrack task id { t with lost := true }

/-- A demand fill of a coherent line into the L1 of a thread while its range is recorded (R376). -/
def noteTransfer (s : State) (task id c sl : Nat) (va : Word) (no : Nat) : State :=
  let t := s.track task id
  match tfind no t.writers with
  | some ((p, psl), n) =>
    if n = 0 || p = c || (tfind (p, psl) t.parts).isNone then s
    else recordTransfer s task id ⟨id, va.toNat / 64 % 2 ^ 51, p, psl, c, sl, BitVec.ofNat 32 n, false⟩
  | none => s

/-- A demand fill of a line while its recording is replayed, served with the tag of the point that serves it (R381). -/
def noteDeparture (s : State) (task id c sl : Nat) (va : Word) (no : Nat) (point len : Nat) : State :=
  let t := s.track task id
  let predicted := t.entries.any fun e =>
    e.line = va.toNat / 64 % 2 ^ 51 && e.consCore = c && e.consSlot = sl
  match tfind (point, no) t.tags with
  | some p =>
    if p = (c, sl) || (tfind (c, sl) t.parts).isNone || predicted then s
    else s.depart task id c sl len
  | none => s

/-- A demand fill of a line into a thread's L1. -/
def noteFill (s : State) (c sl : Nat) (task : Option Nat) (va : Word) (no : Nat) (coh : Bool) (len : Nat) : State :=
  match task with
  | none => s
  | some n =>
    let s := if coh then (tracksAt s n .recording va.toNat).foldl (fun s id => noteTransfer s n id c sl va no) s else s
    let point := if !coh && (s.seg (coreCluster c)).hits no then coreCluster c else 32
    (tracksAt s n .playing va.toNat).foldl (fun s id => noteDeparture s n id c sl va no point len) s

/-- A read served by a line that a push brought counts it as used, once (R373). -/
def noteUse (s : State) (c no : Nat) : State :=
  match findLine no (s.l1 c).lines with
  | none => s
  | some l =>
    match l.pushed with
    | none => s
    | some (task, id) =>
      let t := s.track task id
      let s := s.setTrack task id { t with usedp := if t.usedp < 0xFFFF then t.usedp + 1 else t.usedp }
      s.setL1 c { s.l1 c with lines := putLine { l with pushed := none } (s.l1 c).lines }

end Sys2Proof.Machine
end

