-- ==== Sys2Proof/Machine/Access.lean ====
section
/-! DEFINITION. Loads, stores and atomics on path t: the point of their scope, the coherent regime, the device window and shared pages (R89 to R94, R180 to R182, R284, R321, R394). -/

namespace Sys2Proof.Machine

/-- Scope of a code of R8; 6 and 7 name none. -/
def scopeOf : Nat → Option Scope
  | 0 => some .thread | 1 => some .core | 2 => some .cluster | 3 => some .group | 4 => some .device | 5 => some .system
  | _ => none

/-! ## Bank control (R285, R286) -/

/-- BANKCTL as it reads. -/
def bankControlWord (k : Bank) : Word :=
  let mode : BankMode → Nat := fun m => match m with
    | .scratch => 0 | .cacheWay => 1 | .fifo => 2
  BitVec.ofNat 64 (mode k.mode + (if k.busy.isSome then 4 else 0) + 2 ^ 32 * k.entries.length + 2 ^ 48 * k.disc)

/-- The mode that a write of BANKCTL asks for; a write of 3 is ignored. -/
def modeOf (v : Word) : Option BankMode :=
  match v.toNat % 4 with
  | 0 => some .scratch
  | 1 => some .cacheWay
  | 2 => some .fifo
  | _ => none

def bankOf (s : State) (blk bank : Nat) : Bank := vget Bank.fresh (s.block blk).banks bank
def setBank (s : State) (blk bank : Nat) (k : Bank) : State :=
  s.setBlock blk { s.block blk with banks := vset (s.block blk).banks bank k }

/-- The commands of every engine that name a bank are the ones that its switch waits for (R286). -/
def markNamers (s : State) (key : Nat) : State :=
  let copies : List Copy → List Copy := fun l => l.map fun c => if c.names key then { c with early := key :: c.early } else c
  let cmds : List MatrixCmd → List MatrixCmd := fun l => l.map fun c => if c.names key then { c with early := key :: c.early } else c
  { s with
    engines := s.engines.map fun p => (p.1, { p.2 with queue := copies p.2.queue, running := copies p.2.running })
    blocks := s.blocks.map fun p => (p.1, { p.2 with queue := cmds p.2.queue }) }

/-- A write of BANKCTL: another mode starts a switch (R286). -/
def startSwitch (s : State) (blk bank : Nat) (v : Word) : State :=
  let k := bankOf s blk bank
  match modeOf v with
  | none => s
  | some m =>
    if k.mode = m || k.busy.isSome then s
    else setBank (markNamers s (32 * blk + bank)) blk bank { k with busy := some m }

/-! ## The point of a scope (R92) -/

/-- The level at which an access is performed. -/
inductive Level where
  | l1 (core slot : Nat)
  | seg (cl : Nat)
  | home
  | system
deriving DecidableEq, Repr

def levelOf (a : AgentId) : Scope → Level
  | .thread | .core => match a with
    | .thread c sl => .l1 c sl
    | .region _ | .matrix _ _ | .epilogue _ _ | .copySeq _ _ | .tile _ _ _ => .seg a.cluster
  | .cluster => .seg a.cluster
  | .group | .device => .home
  | .system => .system

/-- An agent's own copies of a line leave the caches below a level, so that its accesses to one address keep their order (R91). -/
def leaveBelow (s : State) (a : AgentId) (lv : Level) (no : Nat) : State :=
  let fromL1 := fun (s : State) => match a with
    | .thread c _ => s.leaveL1 c no
    | .region _ | .matrix _ _ | .epilogue _ _ | .copySeq _ _ | .tile _ _ _ => s
  match lv with
  | .l1 _ _ => s
  | .seg _ => fromL1 s
  | .home => (fromL1 s).leaveSeg a.cluster no
  | .system =>
    let s := (fromL1 s).leaveSeg a.cluster no
    if State.hostLine no then s.evictMere no else s

/-! ## The coherent regime (R182, R321, R375) -/

/-- A line of an L1 filled from its home; the L1's own dirty bytes stay. -/
def fillFromHome (s : State) (c no : Nat) : State :=
  s.setL1 c ((s.l1 c).fill no (fun k => ((s.l1 c).byte? (64 * no + k)).getD (s.homeByte (64 * no + k))) 0)

/-- A coherent read in a thread's L1: a current line serves it, and any other is filled with every write performed on the die, each with its tag (R321, R326, R381).
A line that is there but not current holds what line coherence served before, since a later write would have taken it away: filling it again is no transfer (R376, log entry 44). -/
def coherentFill (s : State) (c sl : Nat) (task : Option Nat) (va : Word) (no len : Nat) : State :=
  if (s.l1 c).hits no then noteUse s c no
  else
    let s := s.cleanBut (some c) no
    let s := if (findLine no (s.l1 c).lines).isSome then s else noteFill s c sl task va no true len
    fillFromHome s c no

/-- The thread of an agent, if it is one. -/
def threadOf : AgentId → Option (Nat × Nat)
  | .thread c sl => some (c, sl)
  | .region _ | .matrix _ _ | .epilogue _ _ | .copySeq _ _ | .tile _ _ _ => none

/-- A coherent write at a level: every other copy of the line goes, and the line is written where the level has it (R92, R304, R321). -/
def coherentWrite (s : State) (a : AgentId) (lv : Level) (no : Nat) (new : LineData) (mask : BitVec 64) : State :=
  match lv with
  | .l1 c sl => (fillFromHome (s.recallBut (some c) none no) c no).writeL1 c sl no new mask
  | .seg cl => (s.recallBut none (some cl) no).performSeg cl no new mask (threadOf a)
  | .home | .system => (s.recallLine no).performHome no new mask (threadOf a)

/-- Where a coherent atomic is performed: on the line held exclusively by the thread's L1 or the sequencer's segment cache, and at system scope at the home device (R182). -/
def exclusiveLevel (a : AgentId) (lv : Level) : Level :=
  match lv, a with
  | .system, _ => .system
  | _, .thread c sl => .l1 c sl
  | _, _ => .seg a.cluster

/-- A host line leaves the mere after an access at system scope, which is performed at the host (R92). -/
def pastMere (s : State) (lv : Level) (no : Nat) : State :=
  match lv with
  | .system => if State.hostLine no then s.evictMere no else s
  | .l1 _ _ | .seg _ | .home => s

/-! ## Reads and writes of memory -/

/-- `n` bytes of a line that a cache holds. -/
def heldBytes (c : Cache) (pa n : Nat) : Nat :=
  match findLine (pa / 64) c.lines with
  | some l => takeBytes l.data (pa % 64) n
  | none => 0

/-- The bytes of a read of memory at a level, and the state after it. -/
def readMemory (s : State) (a : AgentId) (task : Option Nat) (va : Word) (lv : Level) (coh : Bool) (pa n len : Nat) : Nat × State :=
  let no := pa / 64
  if coh then
    match lv with
    | .l1 c sl =>
      let s := coherentFill s c sl task va no len
      (heldBytes (s.l1 c) pa n, s)
    | .seg cl =>
      let s := ((leaveBelow s a lv no).cleanLine no).fillSeg cl no
      (heldBytes (s.seg cl) pa n, s)
    | .home | .system =>
      let s := pastMere (s.cleanLine no) lv no
      (s.homeBytes pa n, s)
  else
    let s := leaveBelow s a lv no
    match lv with
    | .l1 c sl =>
      let s := if (s.l1 c).hits no then noteUse s c no else noteFill s c sl task va no false len
      let s := s.fillL1 c no
      (heldBytes (s.l1 c) pa n, s)
    | .seg cl =>
      let s := s.fillSeg cl no
      (heldBytes (s.seg cl) pa n, s)
    | .home | .system => (s.homeBytes pa n, s)

/-- A write of memory performed at a level. -/
def writeMemory (s : State) (a : AgentId) (lv : Level) (coh : Bool) (pa v n : Nat) : State :=
  let no := pa / 64
  let new := placeBytes (pa % 64) v
  let mask := maskOf (pa % 64) n
  if coh then pastMere (coherentWrite s a lv no new mask) lv no
  else
    let s := leaveBelow s a lv no
    match lv with
    | .l1 c sl => s.performL1 c sl no new mask
    | .seg cl => s.performSeg cl no new mask (threadOf a)
    | .home | .system => pastMere (s.performHome no new mask (threadOf a)) lv no

/-- A read copy of a peer's page kept up to date with a write that the peer performs (R395); no weir here counts it. -/
def updateCopy (s : State) (a : AgentId) (coh : Bool) (pa v n : Nat) : State :=
  { writeMemory s a .home coh pa v n with notices := s.notices }

/-! ## One access of an instruction -/

/-- A read goes on with its value, or ends in the fault or wait of its address.
`plainD` says that the instruction is an `ld.d`. -/
def readAt (i : Instr) (s : State) (sc : Scope) (va : Word) (n : Nat) (plainD : Bool) (k : Nat → State → Out) : Out :=
  let a := s.cur
  let task := s.me.task
  match resolve s a task va n .read plainD with
  | .error f => addressFault i va f s
  | .ok (.bank _ _ addr) => k (s.backingBytes addr n) s
  | .ok (.localMem _ addr) => k (s.backingBytes addr n) s
  | .ok (.fifo _ _) => addressFault i va .protection s
  | .ok (.bankControl blk bank) => k (bankControlWord (vget Bank.fresh (s.block blk).banks bank)).toNat s
  | .ok (.memory pa coh _ shared) =>
    let go := fun (_ : Unit) =>
      let r := readMemory s a task va (levelOf a sc) (coherentAt s task va coh) pa n i.length
      k r.1 r.2
    match siteOf s pa shared with
    | .here | .moving | .copy _ => go ()
    | .absent p => match reach s p with
      | .up | .retraining => sleepOn (.remote (pa / 4096)) s
      | .down => trapHere i .protection va s
    | .uncached p => match reach s p with
      | .up => let r := freeBytes s n; k r.1 r.2
      | .retraining => sleepOn (.remote (pa / 4096)) s
      | .down => trapHere i .protection va s

/-- A write at the place of its address goes on after it was performed, or ends in a fault or wait.
One that starts a bank switch is performed when BUSY clears, and one that meets a switch waits and is issued again (R286). -/
def writeAt (i : Instr) (s : State) (place : Place) (sc : Scope) (va : Word) (n : Nat) (v : Nat) (k : State → Out) : Out :=
  let a := s.cur
  let task := s.me.task
  match place with
  | .bank _ _ addr => k (s.bankWrite addr (bytesLE n v))
  | .localMem _ addr => k (s.setBytes addr (bytesLE n v))
  | .fifo _ _ => addressFault i va .protection s
  | .bankControl blk bank =>
    if (bankOf s blk bank).busy.isSome then sleepOn (.bank va.toNat) s
    else
      let s := startSwitch s blk bank (BitVec.ofNat 64 v)
      if (bankOf s blk bank).busy.isSome then sleepOn (.bankSwitch (32 * blk + bank) i) s else k s
  | .memory pa coh _ shared =>
    let s' := noteWrite s a task va (pa / 64)
    let go := fun (_ : Unit) =>
      k (pushes (writeMemory (dropCopies s' pa shared) a (levelOf a sc) (coherentAt s task va coh) pa v n) a task va)
    match siteOf s pa shared with
    | .here => go ()
    | .moving => sleepOn (.remote (pa / 4096)) s
    | .copy p => k (pushes (postWrite (updateCopy s' a (coherentAt s task va coh) pa v n) p a task va n (pa / 4096)) a task va)
    | .absent p | .uncached p => k (pushes (postWrite s' p a task va n (pa / 4096)) a task va)

/-- An atomic at the place of its address goes on with the old value after its update was performed (R181); `f` gives the new value, if it writes. -/
def updateAt (i : Instr) (s : State) (place : Place) (sc : Scope) (va : Word) (n : Nat) (f : Nat → Option Nat) (k : Nat → State → Out) : Out :=
  let a := s.cur
  let task := s.me.task
  match place with
  | .bank _ _ addr =>
    let m := s.backingBytes addr n
    match f m with
    | some v => k m (s.bankWrite addr (bytesLE n v))
    | none => k m s
  | .localMem _ addr =>
    let m := s.backingBytes addr n
    match f m with
    | some v => k m (s.setBytes addr (bytesLE n v))
    | none => k m s
  | .fifo _ _ | .bankControl _ _ => addressFault i va .protection s
  | .memory pa coh _ shared =>
    let c := coherentAt s task va coh
    let lv := if c then exclusiveLevel a (levelOf a sc) else levelOf a sc
    let go := fun (_ : Unit) =>
      let r := readMemory s a task va lv c pa n i.length
      match f r.1 with
      | some v =>
        let s := noteWrite r.2 a task va (pa / 64)
        k r.1 (pushes (writeMemory (dropCopies s pa shared) a lv c pa v n) a task va)
      | none => k r.1 r.2
    match siteOf s pa shared with
    | .here => go ()
    | .moving => sleepOn (.remote (pa / 4096)) s
    | .copy p => match reach s p with
      | .up =>
        let m := s.homeBytes pa n
        match f m with
        | some v => k m (pushes (updateCopy (noteWrite s a task va (pa / 64)) a c pa v n) a task va)
        | none => k m s
      | .retraining => sleepOn (.remote (pa / 4096)) s
      | .down => trapHere i .protection va (atomicLost s p a task va n)
    | .absent p | .uncached p => match reach s p with
      | .up =>
        let r := freeBytes s n
        k r.1 (if (f r.1).isSome then pushes (noteWrite r.2 a task va (pa / 64)) a task va else r.2)
      | .retraining => sleepOn (.remote (pa / 4096)) s
      | .down => trapHere i .protection va (atomicLost s p a task va n)

/-! ## Orders (R93) -/

def Order.acquires : Order → Bool
  | .acquire | .acqRel => true
  | .relaxed | .release => false

def Order.releases : Order → Bool
  | .release | .acqRel => true
  | .relaxed | .acquire => false

/-- The acquire side of an order, after the access. -/
def acquireFor (s : State) (o : Order) (sc : Scope) : State :=
  if Order.acquires o then s.acquire s.cur sc else s

/-- The release side of an order, before the access. -/
def releaseFor (s : State) (o : Order) (sc : Scope) : State :=
  if Order.releases o then s.release s.cur sc else s

/-- The value of a load of a size: zero- or sign-extended. -/
def extendLoad (z : Size) (signed : Bool) (m : Nat) : Word :=
  match z, signed with
  | .b, true => (BitVec.ofNat 8 m).signExtend 64
  | .h, true => (BitVec.ofNat 16 m).signExtend 64
  | .w, true => (BitVec.ofNat 32 m).signExtend 64
  | _, _ => BitVec.ofNat 64 m

/-- A load (R89): the value is read at its scope's point, then an acquire takes effect. -/
def loadOp (i : Instr) (s : State) (z : Size) (o : Order) (sc : Scope) (signed plainD : Bool) (d : Reg) (ea : Hart → Word) : Out :=
  issue i s fun h => readAt i s sc (ea h) (sizeBytes z) plainD fun m s =>
    retire i [(d, extendLoad z signed m)] (acquireFor s o sc)

/-- A store (R89): a release takes effect, then the value is written at its scope's point.
A store that cannot be performed releases nothing. -/
def storeOp (i : Instr) (s : State) (z : Size) (o : Order) (sc : Scope) (plainD : Bool) (ea value : Hart → Word) : Out :=
  issue i s fun h =>
    match resolve s s.cur s.me.task (ea h) (sizeBytes z) .write plainD with
    | .error f => addressFault i (ea h) f s
    | .ok place =>
      writeAt i (releaseFor s o sc) place sc (ea h) (sizeBytes z) ((value h).toNat % 2 ^ (8 * sizeBytes z)) fun s =>
        retire i [] s

/-- An atomic (R181). -/
def atomicOp (i : Instr) (s : State) (n : Nat) (o : Order) (sc : Scope) (d : Option Reg) (ea : Hart → Word) (f : Hart → Nat → Option Nat) : Out :=
  issue i s fun h =>
    match resolve s s.cur s.me.task (ea h) n .update false with
    | .error e => addressFault i (ea h) e s
    | .ok place =>
      updateAt i (releaseFor s o sc) place sc (ea h) n (f h) fun m s =>
        let ws := match d with
          | some d => [(d, BitVec.ofNat 64 m)]
          | none => []
        retire i ws (acquireFor s o sc)

end Sys2Proof.Machine
end

