-- ==== Sys2Proof/Machine/Fence.lean ====
section
/-! DEFINITION. Fences and value waits (R184 to R187). -/

namespace Sys2Proof.Machine

/-- A posted write of an agent, its own or that of a copy which it issued, for the task that it runs. -/
def postedBy (s : State) (a : AgentId) (p : Posted) : Bool := p.agent = some a && p.task = (s.hart a).task && !p.gone

/-- The peers whose posted writes of an agent were lost, each once. -/
def lostPeers (s : State) (a : AgentId) : List Posted → List Nat → List Nat
  | [], seen => seen
  | p :: r, seen =>
    if postedBy s a p && p.lost && !seen.contains p.peer then lostPeers s a r (p.peer :: seen) else lostPeers s a r seen

/-- What the posted writes of an agent let a system-scope fence do (R186): wait for a link that retrains or recovers, or for the records that its status refers to (R390, R400), or complete with a status.
A write to a peer that an up port reaches is acknowledged while the fence waits. -/
def postedStatus (s : State) (a : AgentId) : Option Nat :=
  if s.posted.any (fun p => postedBy s a p && !p.lost && reach s p.peer = .retraining) || s.hostPending then none
  else
    let n := (lostPeers s a s.posted []).length
    if n ≠ 0 && s.recordsWait then none else some (if n < 2 then n else 2)

/-- A fence completes: below system scope it writes 0; at system scope the agent's posted writes are settled. -/
def settleFence (i : Instr) (sc : Scope) (d : Reg) (effect : State → State) (s : State) : Out :=
  match sc with
  | .system =>
    match postedStatus s s.cur with
    | none => sleepOn .sync s
    | some n => retire i [(d, BitVec.ofNat 64 n)] (effect { s with posted := s.posted.filter fun p => !postedBy s s.cur p })
  | .thread | .core | .cluster | .group | .device => retire i [(d, 0)] (effect s)

/-- `fence`, R185. -/
def execFence (o : Order) (sc : Scope) (d : Reg) (s : State) : Out :=
  issue (.fence o sc d) s fun _ =>
    settleFence (.fence o sc d) sc d (fun s => acquireFor (releaseFor s o sc) o sc) s

/-- The lines of the block's cache ways written to their homes and dropped (R285). -/
def flushWays (s : State) (blk : Nat) : State :=
  (s.block blk).ways.foldl (fun (s : State) l => s.leaveWay blk l.no) s

/-- How an `xfence` acts on the caches: path t alone as a fence, path t with others down to the homes where every other path is performed,
and path m of an epilogue sequencer on the cache ways of its block (R185, R285). -/
def crossPaths (sc : Scope) (paths : BitVec 6) (s : State) : State :=
  let s := match s.cur with
    | .epilogue cl b => if paths.getLsbD 3 then flushWays s (blockNo cl b) else s
    | .thread _ _ | .region _ | .matrix _ _ | .copySeq _ _ | .tile _ _ _ => s
  if !paths.getLsbD 0 then s
  else
    if paths = 1 then (s.release s.cur sc).acquire s.cur sc else s.syncPaths s.cur sc

/-- The agents of a completion that an agent acquires: its `xfence` waits for their posted writes as for its own (R185). -/
def acquirePosted (s : State) (a : AgentId) (from_ : List AgentId) : State :=
  { s with posted := s.posted.map fun p => match p.agent with
      | some x => if from_.contains x && !p.lost && !p.acquired.contains a then { p with acquired := a :: p.acquired } else p
      | none => p }

/-- A posted write of a completion that the agent has acquired is not acknowledged yet. -/
def acquiredPending (s : State) (a : AgentId) : Bool :=
  s.posted.any fun p => p.acquired.contains a && !p.lost && reach s p.peer = .retraining

/-- `xfence`, R185. -/
def execXfence (sc : Scope) (paths : BitVec 6) (d : Reg) (s : State) : Out :=
  issue (.xfence sc paths d) s fun _ =>
    if sc = .system && acquiredPending s s.cur then sleepOn .sync s
    else settleFence (.xfence sc paths d) sc d (crossPaths sc paths) s

/-! ## `waitv` (R187) -/

/-- The line that a `waitv` watches. -/
def watchedLine (s : State) (va : Word) : Nat :=
  match resolve s s.cur s.me.task va 1 .read false with
  | .ok (.memory pa _ _ _) => pa / 64
  | .ok (.bank _ _ _) | .ok (.localMem _ _) | .ok (.fifo _ _) | .ok (.bankControl _ _) | .error _ => va.toNat / 64

/-- The value at the address is compared with the operand at the access size; the instruction completes or sleeps.
A 32-bit value is zero-extended into `d`, as the spec does not state (DESIGN CHOICE, log entry 52). -/
def waitValue (i : Instr) (acq : Bool) (z : Width) (sc : Scope) (d a b : Reg) (holds : (n : Nat) → BitVec n → BitVec n → Bool) (s : State) : Out :=
  issue i s fun h =>
    notInCodelet i s <|
    readAt i s sc (h.reg a) (widthBytes z) false fun m s =>
      let ok := match z with
        | .w => holds 32 (BitVec.ofNat 32 m) ((h.reg b).setWidth 32)
        | .d => holds 64 (BitVec.ofNat 64 m) (h.reg b)
      if ok then retire i [(d, BitVec.ofNat 64 m)] (if acq then s.acquire s.cur sc else s)
      else sleepOn (.value (watchedLine s (h.reg a))) s

/-- `waitv.eq`, R187. -/
def execWaitvEq (acq : Bool) (z : Width) (sc : Scope) (d a b : Reg) (s : State) : Out :=
  waitValue (.waitvEq acq z sc d a b) acq z sc d a b (fun _ x y => x = y) s
/-- `waitv.ne`, R187. -/
def execWaitvNe (acq : Bool) (z : Width) (sc : Scope) (d a b : Reg) (s : State) : Out :=
  waitValue (.waitvNe acq z sc d a b) acq z sc d a b (fun _ x y => x ≠ y) s
/-- `waitv.lt`, R187. -/
def execWaitvLt (acq : Bool) (z : Width) (sc : Scope) (d a b : Reg) (s : State) : Out :=
  waitValue (.waitvLt acq z sc d a b) acq z sc d a b (fun _ x y => x.slt y) s
/-- `waitv.ge`, R187. -/
def execWaitvGe (acq : Bool) (z : Width) (sc : Scope) (d a b : Reg) (s : State) : Out :=
  waitValue (.waitvGe acq z sc d a b) acq z sc d a b (fun _ x y => !x.slt y) s

end Sys2Proof.Machine
end

