-- ==== Sys2Proof/Machine/Generator.lean ====
section
/-! DEFINITION. Address generators: the accesses of copy engines and memory-port tiles, their checks and their faults (R145, R285, R289, R292, R297). -/

namespace Sys2Proof.Machine

/-- How an access of an address generator ends. -/
inductive GenOut where
  | done (v : Nat) (s : State)
  /-- The CAUSE and FCODE of R298. -/
  | fault (cause fcode : Nat)
  /-- The access waits: for a bank, for a FIFO entry, or for another device. -/
  | wait
deriving DecidableEq, Repr

/-- The CAUSE of a failed check (R298). -/
def genFault : AddrFault → GenOut
  | .page => .fault 1 0
  | .protection => .fault 2 0
  | .misaligned => .fault 3 0
  | .poisoned => .fault 5 0
  | .waits => .wait

/-! ## Banks in FIFO mode (R285) -/

/-- The most entries that a FIFO bank holds. -/
def fifoLimit : Nat := 2048

/-- The 64 bytes of a value. -/
def lineBytes (v : Nat) : LineData := placeBytes 0 v

/-- The value of 64 bytes. -/
def lineValue (d : LineData) : Nat := takeBytes d 0 64

/-- An entry pushed into a FIFO bank; weirs count 64 bytes (R302). -/
def fifoPush (s : State) (blk bank : Nat) (va : Nat) (v : Nat) : State :=
  let k := bankOf s blk bank
  let s := setBank s blk bank { k with entries := k.entries ++ [lineBytes v] }
  { s with notices := s.notices ++ countNotices (512 + va / 2 ^ 17 % 8192) (va / 64) (maskOf 0 64) s.weirs }

/-- The oldest entry of a FIFO bank taken. -/
def fifoPop (s : State) (blk bank : Nat) : State :=
  let k := bankOf s blk bank
  setBank s blk bank { k with entries := k.entries.drop 1 }

/-! ## Accesses (R297) -/

/-- A format code that R21 lists. -/
def goodCode (v : Nat) : Bool := (BlockFmt.ofCode (v % 256)).isSome

/-- A value read, or the format fault of its byte 0 (R24); `after` is the state with the read performed. -/
def checkBlock (block : Bool) (v : Nat) (after : State) : GenOut :=
  if block && !goodCode v then .fault 4 (v % 256) else .done v after

/-- A read of `n` bytes for a task by an address generator of a cluster; a `block` has its format code checked. -/
def genRead (s : State) (cl : Nat) (task : Option Nat) (va : Word) (n : Nat) (block : Bool) : GenOut :=
  match resolve s (.region cl) task va n .read false with
  | .error f => genFault f
  | .ok (.bank _ _ addr) | .ok (.localMem _ addr) => checkBlock block (s.backingBytes addr n) s
  | .ok (.bankControl _ _) => .fault 2 0
  | .ok (.fifo blk bank) =>
    match (bankOf s blk bank).entries with
    | [] => .wait
    | e :: _ => checkBlock block (lineValue e) (fifoPop s blk bank)
  | .ok (.memory pa coh _ shared) =>
    let here := fun (_ : Unit) =>
      let s := if coherentAt s task va coh then s.cleanLine (pa / 64) else s
      checkBlock block (s.homeBytes pa n) s
    match siteOf s pa shared with
    | .here | .moving | .copy _ => here ()
    | .absent p => match reach s p with
      | .up | .retraining => .wait
      | .down => .fault 2 0
    | .uncached p => match reach s p with
      | .up => let r := freeBytes s n; checkBlock block r.1 r.2
      | .retraining => .wait
      | .down => .fault 2 0

/-- Whether a write of `n` bytes passes its checks and can be performed now. -/
def genWriteCheck (s : State) (cl : Nat) (task : Option Nat) (va : Word) (n : Nat) : GenOut :=
  match resolve s (.region cl) task va n .write false with
  | .error f => genFault f
  | .ok (.bankControl _ _) => .fault 2 0
  | .ok (.bank _ _ _) | .ok (.localMem _ _) => .done 0 s
  | .ok (.fifo blk bank) => if (bankOf s blk bank).entries.length < fifoLimit then .done 0 s else .wait
  | .ok (.memory pa _ _ shared) =>
    match siteOf s pa shared with
    | .moving => .wait
    | .here | .copy _ | .absent _ | .uncached _ => .done 0 s

/-- A write that has passed its checks, performed for the agent that issued it: at the home for memory. Its `n` bytes lie in one line; only a FIFO bank asks for the 64 of an entry. -/
def genWriteBy (s : State) (a issuer : AgentId) (task : Option Nat) (va : Word) (n v : Nat) : State :=
  match resolve s a task va (if n = 64 then 64 else 1) .write false with
  | .error _ | .ok (.bankControl _ _) => s
  | .ok (.bank _ _ addr) => s.bankWrite addr (bytesLE n v)
  | .ok (.localMem _ addr) => s.setBytes addr (bytesLE n v)
  | .ok (.fifo blk bank) => fifoPush s blk bank va.toNat v
  | .ok (.memory pa coh _ shared) =>
    let c := coherentAt s task va coh
    match siteOf s pa shared with
    | .here | .moving =>
      let s := dropCopies (noteWrite s a task va (pa / 64)) pa shared
      if c then coherentWrite s a .home (pa / 64) (placeBytes (pa % 64) v) (maskOf (pa % 64) n)
      else s.performHome (pa / 64) (placeBytes (pa % 64) v) (maskOf (pa % 64) n)
    | .copy p => postWrite (updateCopy (noteWrite s a task va (pa / 64)) a c pa v n) p issuer task va n (pa / 4096)
    | .absent p | .uncached p => postWrite (noteWrite s a task va (pa / 64)) p issuer task va n (pa / 4096)

/-- The write of an address generator of a cluster. -/
def genWrite (s : State) (cl : Nat) (task : Option Nat) (va : Word) (n v : Nat) : State :=
  genWriteBy s (.region cl) (.region cl) task va n v

/-- An access that has passed its checks to both read and write, for an atomic of a port (R182, R290). -/
def genUpdateCheck (s : State) (cl : Nat) (task : Option Nat) (va : Word) (n : Nat) : GenOut :=
  match resolve s (.region cl) task va n .update false with
  | .error f => genFault f
  | .ok (.bankControl _ _) | .ok (.fifo _ _) => .fault 2 0
  | .ok (.bank _ _ _) | .ok (.localMem _ _) => .done 0 s
  | .ok (.memory pa _ _ shared) =>
    match siteOf s pa shared with
    | .here => .done 0 s
    | .moving => .wait
    | .copy p | .absent p | .uncached p => match reach s p with
      | .up => .done 0 s
      | .retraining => .wait
      | .down => .fault 2 0

/-- The update performed: the new value of `n` bytes is `f` of the old. A peer performs and answers one of its page while a port is up, so that nothing of it is outstanding (R297, R399). -/
def genUpdate (s : State) (cl : Nat) (task : Option Nat) (va : Word) (n : Nat) (f : Nat → Nat) : State :=
  match resolve s (.region cl) task va n .update false with
  | .ok (.bank _ _ addr) => s.bankWrite addr (bytesLE n (f (s.backingBytes addr n)))
  | .ok (.localMem _ addr) => s.setBytes addr (bytesLE n (f (s.backingBytes addr n)))
  | .ok (.memory pa coh _ shared) =>
    let c := coherentAt s task va coh
    let s := if c then s.cleanLine (pa / 64) else s
    let v := f (s.homeBytes pa n)
    let a := AgentId.region cl
    match siteOf s pa shared with
    | .here | .moving => genWrite s cl task va n v
    | .copy _ => updateCopy (noteWrite s a task va (pa / 64)) a c pa v n
    | .absent _ | .uncached _ => noteWrite s a task va (pa / 64)
  | .ok (.bankControl _ _) | .ok (.fifo _ _) | .error _ => s

/-- The page of an address is self-describing (R292). -/
def selfDescribing (s : State) (cl : Nat) (task : Option Nat) (va : Word) : Bool :=
  match resolve s (.region cl) task va 1 .read false, resolve s (.region cl) task va 1 .write false with
  | .ok (.memory _ _ sd _), _ | _, .ok (.memory _ _ sd _) => sd
  | _, _ => false

/-- The words of the fault record, R298. -/
def recordWords (r : FaultRecord) : List Word :=
  let c := fun k => nth 0 r.counters k % 2 ^ 16
  [r.va,
   BitVec.ofNat 64 (c 0 + 2 ^ 16 * c 1 + 2 ^ 32 * c 2 + 2 ^ 48 * c 3),
   BitVec.ofNat 64 (c 4 + 2 ^ 16 * c 5 + 2 ^ 32 * r.node + 2 ^ 40 * r.fcode + 2 ^ 48 * r.tag),
   BitVec.ofNat 64 (r.cause + 2 ^ 8 * r.state + 2 ^ 16 * r.engine + 2 ^ 25 * r.kind)]

/-- No host line stays in the mere across a release at system scope of writes that were performed at their homes (R92). -/
def releaseHomes (s : State) (sc : Scope) : State :=
  match sc with
  | .system => (s.mere.filter fun l => State.hostLine l.no).foldl (fun (s : State) l => s.evictMere l.no) s
  | .thread | .core | .cluster | .group | .device => s

end Sys2Proof.Machine
end

