-- ==== Sys2Proof/Machine/Hold.lean ====
section
/-! DEFINITION. Holding a matrix block: when its sequencers and their work are done, and what a rendezvous leaves (R167 to R169). -/

namespace Sys2Proof.Machine

/-- The three sequencers of a block. -/
def blockSequencers (blk : Nat) : List AgentId :=
  [.matrix (blk / 8) (blk % 8), .epilogue (blk / 8) (blk % 8), .copySeq (blk / 8) (blk % 8)]

/-- A sequencer that runs no program: it never started one, has halted, or was stopped. -/
def seqDone (h : Hart) : Bool :=
  match h.status with
  | .empty | .halted | .stopped => true
  | .ready | .sleeping _ _ => false

/-- Every copy of an agent has left its engine. -/
def copiesDone (s : State) (a : AgentId) : Bool :=
  let e := s.engine a.engine
  !(e.queue ++ e.running).any fun c => c.owner = a

/-- A deferred slot. -/
def deferredSlot (k : Block) (n : Nat) : Deferred := vget ⟨none, 0, 0, false⟩ k.slots n

/-- A released command of one of these agents still waits for an entry of the queue (R160). -/
def releasedLeft (k : Block) (as : List AgentId) : Bool :=
  (List.range 8).any fun n =>
    let d := deferredSlot k n
    d.released && match d.cmd with
      | some c => as.contains c.owner
      | none => false

/-- The conditions of `rdz` on a block (R168). -/
def blockQuiet (s : State) (blk : Nat) : Bool :=
  let as := blockSequencers blk
  let k := s.block blk
  as.all (fun a => seqDone (s.hart a) && copiesDone s a) && k.queue.isEmpty && !releasedLeft k as

/-- A debugger steps the running agent, and a sequencer of the block has been stopped: an instruction that waits on the block ends the step with the fault and does not complete (R371). -/
def stepStopped (s : State) (blk : Nat) : Bool :=
  (match s.myTask with
    | some t => t.debugHalted && t.stepping = some s.cur
    | none => false) && (blockSequencers blk).any fun a => (s.hart a).status = .stopped

/-- The status of a rendezvous (R168). -/
def rendezvousStatus (s : State) (blk : Nat) : Word :=
  let k := s.block blk
  let flags := (blockSequencers blk).foldl (fun f a => f ||| (s.hart a).fstat) noFlags
  BitVec.ofNat 64 (flags.toNat + (if k.discarded then 2 ^ 5 else 0) + (if k.stopped then 2 ^ 6 else 0))

/-- A block is no longer held by a thread. -/
def releaseBlock (s : State) (a : AgentId) (blk : Nat) : State :=
  let k := s.block blk
  let s := s.setBlock blk { k with holder := none, forked := false }
  s.setHart a { s.hart a with held := (s.hart a).held.filter fun n => n ≠ blk }

/-- The held block of a thread with the lowest handle. -/
def lowestHeld : List Nat → Option Nat
  | [] => none
  | b :: r => match lowestHeld r with
    | some c => if c < b then some c else some b
    | none => some b

/-- The blocks of an ending thread rendezvoused in ascending order, each as `rdz` would, with what its cache ways hold, as far as they are quiet; `n` bounds their number (R169). -/
def releaseHeld (s : State) (a : AgentId) : Nat → State
  | 0 => s
  | n + 1 =>
    match lowestHeld (s.hart a).held with
    | none => s
    | some b => if blockQuiet s b then releaseHeld (releaseBlock ((flushWays s b).syncPaths a .cluster) a b) a n else s

/-- An ending thread waits on the blocks it holds, then goes on (R169). -/
def afterHeld (s : State) (k : State → Out) : Out :=
  let s := releaseHeld s s.cur s.me.held.length
  if s.me.held.isEmpty then k s else sleepOn .heldBlocks s

end Sys2Proof.Machine
end

