-- ==== Sys2Proof/Machine/CellWord.lean ====
section
/-! DEFINITION. The shape of a cell word: its sources, targets, latency and the prefix options it accepts (R51 to R56, R115, R120). -/

namespace Sys2Proof.Machine

/-- The fields of a prefix, R53. -/
structure Prefix where
  sat : Bool
  tgt2 : Tgt
  srcC : Src
  rnd : Rnd
  z : Bool
  k : Fin 8
deriving DecidableEq, Repr

/-- The implied prefix: k0, merge, RNE, no third source or target, no saturation (R53). -/
def Prefix.implied : Prefix := ⟨false, .none, .zero, .rne, false, 0⟩

/-- The prefix options of R120. -/
structure Options where
  mask : Bool
  maskOnly : Bool
  round : Bool
  sat : Bool
  third : Bool
  target : Bool
deriving DecidableEq, Repr

/-- The prefix asks for nothing that the opcode does not accept (R55). -/
def Options.accept (o : Options) (p : Prefix) : Bool :=
  (o.mask || o.maskOnly || p.k = 0) && (o.mask || !p.z) && (o.round || p.rnd = .rne) && (o.sat || !p.sat) &&
  (o.third || p.srcC = .zero) && (o.target || p.tgt2 = .none)

/-- A cell word without its opcode. -/
structure CellShape where
  t1 : Tgt
  t0 : Tgt
  a : Src
  /-- The second source, where the opcode reads one. -/
  b : Option Src
  /-- The opcode reads srcC. -/
  c : Bool
  options : Options
  latency : Nat
deriving DecidableEq, Repr

/-- A field that the opcode leaves unused holds 7 (R51). -/
def unusedOk (b : Src) (used : Bool) : Bool := used || b = .zero

/-- The shape of every cell opcode of R120. -/
def cellShape : Instr → Option CellShape
  | .vmov t1 t0 a => some ⟨t1, t0, a, none, false, ⟨false, false, false, false, false, true⟩, 1⟩
  | .vadd y t1 t0 b a => some ⟨t1, t0, a, some b, false, ⟨true, false, true, true, false, true⟩, if y = .f then 2 else 1⟩
  | .vsub y t1 t0 b a => some ⟨t1, t0, a, some b, false, ⟨true, false, true, true, false, true⟩, if y = .f then 2 else 1⟩
  | .vmul _ t1 t0 b a => some ⟨t1, t0, a, some b, false, ⟨true, false, true, true, false, true⟩, 3⟩
  | .vmulh _ t1 t0 b a => some ⟨t1, t0, a, some b, false, ⟨true, false, false, false, false, true⟩, 3⟩
  | .vfma _ t1 t0 b a => some ⟨t1, t0, a, some b, true, ⟨true, false, true, true, true, true⟩, 3⟩
  | .vmin y t1 t0 b a => some ⟨t1, t0, a, some b, false, ⟨true, false, false, false, false, true⟩, if y = .f then 2 else 1⟩
  | .vmax y t1 t0 b a => some ⟨t1, t0, a, some b, false, ⟨true, false, false, false, false, true⟩, if y = .f then 2 else 1⟩
  | .vabs _ t1 t0 a => some ⟨t1, t0, a, none, false, ⟨true, false, false, true, false, true⟩, 1⟩
  | .vneg _ t1 t0 a => some ⟨t1, t0, a, none, false, ⟨true, false, false, true, false, true⟩, 1⟩
  | .vand t1 t0 b a => some ⟨t1, t0, a, some b, false, ⟨true, false, false, false, false, true⟩, 1⟩
  | .vor t1 t0 b a => some ⟨t1, t0, a, some b, false, ⟨true, false, false, false, false, true⟩, 1⟩
  | .vxor t1 t0 b a => some ⟨t1, t0, a, some b, false, ⟨true, false, false, false, false, true⟩, 1⟩
  | .vshl t1 t0 b a => some ⟨t1, t0, a, some b, false, ⟨true, false, false, false, false, true⟩, 1⟩
  | .vshr t1 t0 b a => some ⟨t1, t0, a, some b, false, ⟨true, false, false, false, false, true⟩, 1⟩
  | .vsra t1 t0 b a => some ⟨t1, t0, a, some b, false, ⟨true, false, false, false, false, true⟩, 1⟩
  | .vcmpeq _ t1 t0 b a => some ⟨t1, t0, a, some b, false, ⟨true, false, false, false, false, true⟩, 1⟩
  | .vcmplt _ t1 t0 b a => some ⟨t1, t0, a, some b, false, ⟨true, false, false, false, false, true⟩, 1⟩
  | .vcmple _ t1 t0 b a => some ⟨t1, t0, a, some b, false, ⟨true, false, false, false, false, true⟩, 1⟩
  | .vsel t1 t0 b a => some ⟨t1, t0, a, some b, true, ⟨true, false, false, false, true, true⟩, 1⟩
  | .vcvt _ t1 t0 a => some ⟨t1, t0, a, none, false, ⟨true, false, true, true, false, true⟩, 2⟩
  | .vpack y t1 t0 b a => some ⟨t1, t0, a, some b, (y = .r), ⟨false, false, true, true, (y = .r), true⟩, 2⟩
  | .vunpk y t1 t0 b a => some ⟨t1, t0, a, if y = .r then some b else none, false, ⟨false, false, true, false, false, (y = .r)⟩, 2⟩
  | .vscale _ t1 t0 b a => some ⟨t1, t0, a, some b, false, ⟨true, false, true, true, false, true⟩, 2⟩
  | .vrcp t1 t0 a => some ⟨t1, t0, a, none, false, ⟨true, false, true, true, false, true⟩, 6⟩
  | .vrsq t1 t0 a => some ⟨t1, t0, a, none, false, ⟨true, false, true, true, false, true⟩, 6⟩
  | .vsqrt t1 t0 a => some ⟨t1, t0, a, none, false, ⟨true, false, true, true, false, true⟩, 6⟩
  | .vexp2 t1 t0 a => some ⟨t1, t0, a, none, false, ⟨true, false, true, true, false, true⟩, 6⟩
  | .vlog2 t1 t0 a => some ⟨t1, t0, a, none, false, ⟨true, false, true, true, false, true⟩, 6⟩
  | .vacc _ t1 t0 b a => some ⟨t1, t0, a, some b, false, ⟨true, false, true, true, false, true⟩, 2⟩
  | .vred _ t1 t0 a => some ⟨t1, t0, a, none, false, ⟨false, true, true, true, false, true⟩, 4⟩
  | .vscan _ t1 t0 a => some ⟨t1, t0, a, none, false, ⟨true, false, true, true, false, true⟩, 4⟩
  | .vsteer t1 t0 b a => some ⟨t1, t0, a, some b, false, ⟨false, false, false, false, false, false⟩, 1⟩
  | .vmerge y t1 t0 b a => some ⟨t1, t0, a, some b, (y = .r), ⟨false, false, false, false, (y = .r), true⟩, 1⟩
  | .vgate t1 t0 b a => some ⟨t1, t0, a, some b, false, ⟨false, false, false, false, false, true⟩, 1⟩
  | .vshuf t1 t0 b a => some ⟨t1, t0, a, some b, false, ⟨true, false, false, false, false, true⟩, 1⟩
  | .vbcast t1 t0 b a => some ⟨t1, t0, a, some b, false, ⟨true, false, false, false, false, true⟩, 1⟩
  | .vidx t1 t0 b a => some ⟨t1, t0, a, some b, false, ⟨true, false, false, false, false, true⟩, 1⟩
  | .vdrop t1 t0 a => some ⟨t1, t0, a, none, false, ⟨false, false, false, false, false, true⟩, 1⟩
  | .esc _ t1 t0 a => some ⟨t1, t0, a, none, false, ⟨false, false, false, false, false, true⟩, 1⟩
  | .vcfgt y t1 t0 a => some ⟨t1, t0, a, none, false, ⟨(y = .n), false, false, false, false, true⟩, 1⟩
  | _ => none

/-- The unused source field of the one opcode whose use of it depends on its ty (R122). -/
def unusedFieldOk : Instr → Bool
  | .vunpk y _ _ b _ => unusedOk b (y = .r)
  | _ => true

/-- The three targets of a cell word under its prefix. -/
def targetsOf (c : CellShape) (p : Prefix) : List Tgt := [c.t0, c.t1, p.tgt2]

/-- No slot, link, register or `done` is named twice (R52). -/
def distinctTargets : List Tgt → Bool
  | [] => true
  | t :: r => (t = .none || !r.contains t) && distinctTargets r

/-- The sources that the opcode reads, in the order A, B, C. -/
def sourcesOf (c : CellShape) (p : Prefix) : List Src :=
  [c.a] ++ (match c.b with
    | some b => [b]
    | none => []) ++ (if c.c then [p.srcC] else [])

/-- A source that waits for a token (R102). -/
def isTokenSource : Src → Bool
  | .tok | .link _ => true
  | .iter | .lane | .zero | .c _ | .v _ => false

/-- A 32-bit word is a W-form of major 0x1E: bit 0 and the major, [6:1] (R42, R53). -/
def isPrefixWord (w : Nat) : Bool := w % 2 ^ 7 = 0x3D

/-- A 32-bit word is a W-form of one of the cell majors, 0x20 to 0x3F (R49, R55). -/
def isCellWord (w : Nat) : Bool := w % 2 = 1 && 0x20 ≤ w / 2 % 2 ^ 6

/-- The prefix that a slot's low word holds, or the implied one for zero (R54). -/
def prefixOf (w : Nat) : Option Prefix :=
  if w = 0 then some .implied
  else if !isPrefixWord w then none
  else match decodeW w with
    | .ok (.pfx sat t c r z k) => some ⟨sat, t, c, r, z, k⟩
    | _ => none

/-- The prefix of an instruction that is one. -/
def asPrefix : Instr → Option Prefix
  | .pfx sat t c r z k => some ⟨sat, t, c, r, z, k⟩
  | _ => none

end Sys2Proof.Machine
end

