-- ==== Sys2Proof/Machine/Mesh.lean ====
section
/-! DEFINITION. The mesh: positions, footprints and ports, the running context of a region, and where each link leads (R103, R237 to R243, R252 to R256). -/

namespace Sys2Proof.Machine

/-! ## Positions (R237 to R240) -/

def posRow (pos : Nat) : Nat := pos / 16
def posCol (pos : Nat) : Nat := pos % 16

/-- The north-west position of each block's footprint (R238). -/
def footprint : Nat → Nat × Nat
  | 0 => (4, 2) | 1 => (4, 6) | 2 => (4, 8) | 3 => (4, 12)
  | 4 => (10, 2) | 5 => (10, 6) | 6 => (10, 8) | _ => (10, 12)

/-- A position holds a part of a matrix block. -/
def inFootprint (pos : Nat) : Bool :=
  (List.range 8).any fun b =>
    let (r, c) := footprint b
    r ≤ posRow pos && posRow pos < r + 2 && c ≤ posCol pos && posCol pos < c + 2

/-- A position of the mesh that holds a cell tile. -/
def isTile (pos : Nat) : Bool := pos < 256 && !inFootprint pos

/-- The tile that faces an input port of a block, and its link; none where another footprint does (R239). -/
def portFace (b p : Nat) : Option (Nat × Link) :=
  let (r, c) := footprint b
  let k := p % 2
  let (pos, l) := match p / 2 with
    | 0 => (16 * (r - 1) + (c + k), Link.south)
    | 1 => (16 * (r + k) + (c + 2), Link.west)
    | 2 => (16 * (r + 2) + (c + k), Link.north)
    | _ => (16 * (r + k) + (c - 1), Link.east)
  if inFootprint pos then none else some (pos, l)

/-- The block and port that a tile's output link enters, if it faces a footprint. -/
def portBehind (pos : Nat) (l : Link) : Option (Nat × Nat) :=
  (List.range 64).findSome? fun n => if portFace (n / 8) (n % 8) = some (pos, l) then some (n / 8, n % 8) else none

def opposite : Link → Link
  | .north => .south | .south => .north | .east => .west | .west => .east

/-- The sluice port of a row on a side, as a bit of `cfgseam`'s mask (R240). -/
def sluiceBit (l : Link) (row : Nat) : Nat := if l = .west then row else 16 + row

/-- What lies past a link, by the mesh alone. -/
inductive Far where
  | tile (cl pos : Nat) (hop : Nat)
  | block (b p : Nat)
  | port (p : Nat)
  | edge
deriving DecidableEq, Repr

/-- The cluster across a sluice; none on the die's edge. -/
def acrossSluice (cl : Nat) (l : Link) : Option Nat :=
  match l with
  | .west => if cl % 4 = 0 then none else some (cl - 1)
  | .east => if cl % 4 = 3 then none else some (cl + 1)
  | .north | .south => none

/-- The far side of a tile's link (R239 to R241). -/
def farSide (s : State) (cl pos : Nat) (l : Link) : Far :=
  let r := posRow pos
  let c := posCol pos
  let inside := fun (pos' : Nat) =>
    match portBehind pos l with
    | some (b, p) => Far.block b p
    | none => if inFootprint pos' then .edge else .tile cl pos' 1
  match l with
  | .north => if r = 0 then .port (portNo cl 0 c) else inside (pos - 16)
  | .south => if r = 15 then .port (portNo cl 1 c) else inside (pos + 16)
  | .west =>
    if c = 0 then
      match acrossSluice cl .west with
      | some n => if (s.region cl).stitched.getLsbD (sluiceBit .west r) then .tile n (16 * r + 15) 2 else .edge
      | none => .edge
    else inside (pos - 1)
  | .east =>
    if c = 15 then
      match acrossSluice cl .east with
      | some n => if (s.region cl).stitched.getLsbD (sluiceBit .east r) then .tile n (16 * r) 2 else .edge
      | none => .edge
    else inside (pos + 1)

/-! ## The running context (R242 to R247, R256) -/

/-- The region whose run a cluster's tiles take part in. -/
def leadOf (s : State) (cl : Nat) : Nat := (s.region cl).lead.getD cl

/-- The run of a cluster's tiles. -/
def runOf (s : State) (cl : Nat) : Option Run := (s.region (leadOf s cl)).run

/-- The tables of the running context. -/
def loadedOf (s : State) (cl : Nat) : Option Loaded :=
  match runOf s cl with
  | some r => vget none (s.region (leadOf s cl)).loaded r.slot
  | none => none

/-- The context of a tile that runs. -/
def contextOf (s : State) (cl pos : Nat) : Option TileContext :=
  match runOf s cl with
  | some r =>
    let c := vget TileContext.fresh (s.tile cl pos).contexts r.slot
    if c.loaded then some c else none
  | none => none

/-- The iterations of a run. -/
def runTotal (r : Run) : Nat := vget 0 r.n 0 * vget 0 r.n 1 * vget 0 r.n 2 * vget 0 r.n 3

/-- The clusters of a lead's stitched group. -/
def groupOf (s : State) (lead : Nat) : List Nat :=
  match (s.region lead).run with
  | some r => r.group
  | none => [lead]

namespace TileContext

def word (c : TileContext) : Nat := c.control.toNat
/-- The element width (R243). -/
def w (c : TileContext) : Nat := if c.word % 4 = 0 then 8 else if c.word % 4 = 1 then 16 else 32
def f8 (c : TileContext) : Bool := c.control.getLsbD 2
def f16 (c : TileContext) : Bool := c.control.getLsbD 3
def gfmt (c : TileContext) : Nat := c.word / 2 ^ 4 % 4
def stage (c : TileContext) : Nat := c.word / 2 ^ 18 % 16
def inStage (c : TileContext) : Bool := c.control.getLsbD 22
def replica (c : TileContext) : Nat := c.word / 2 ^ 23 % 8
def entry (c : TileContext) : Bool := c.control.getLsbD 26
def exits (c : TileContext) : Bool := c.control.getLsbD 27
def entryLink (c : TileContext) : Link := Link.ofCode (c.word / 2 ^ 28 % 4)
def exitLink (c : TileContext) : Link := Link.ofCode (c.word / 2 ^ 30 % 4)

/-- The instruction of a slot with its prefix (R54). -/
def instr (c : TileContext) (idx : Nat) : Option (Instr × Prefix) :=
  let w := (vget 0 c.slots idx).toNat
  if w = 0 then none
  else match prefixOf (w % 2 ^ 32), decodeW (w / 2 ^ 32) with
    | some p, .ok i => some (i, p)
    | _, _ => none

end TileContext

/-! ## Stages (R252) -/

namespace StageEntry

def field (w : Word) (lo n : Nat) : Nat := w.toNat / 2 ^ lo % 2 ^ n
def high (w : Word) : Nat := field w 0 8
def low (w : Word) : Nat := field w 8 8
/-- Placed replicas. -/
def placed (w : Word) : Nat := field w 16 3 + 1
def act0 (w : Word) : Nat := field w 19 3 + 1
/-- The column, position and link of FEED. -/
def feed (w : Word) : Nat × Nat × Link := (field w 34 2, field w 24 8, Link.ofCode (field w 32 2))
def drain (w : Word) : Nat × Nat × Link := (field w 46 2, field w 36 8, Link.ofCode (field w 44 2))

end StageEntry

/-- The cluster of a column in a lead's cluster row (R243). -/
def columnCluster (lead col : Nat) : Nat := lead / 4 * 4 + col

/-- The stage of the running context whose FEED, or DRAIN, is a link of a tile. -/
def stageAt (s : State) (cl pos : Nat) (l : Link) (end_ : Word → Nat × Nat × Link) : Option Nat :=
  let lead := leadOf s cl
  (s.region lead).stages.findIdx? fun g =>
    let (col, p, d) := end_ g.entry
    columnCluster lead col = cl && p = pos && d = l

/-! ## Where a link's tokens go, and where its credits come from -/

/-- The place that a token sent over an output link reaches. -/
inductive LinkEnd where
  | fifo (cl pos : Nat) (l : Link) (hop : Nat)
  | block (blk p : Nat)
  | port (p : Nat)
  /-- The input queue of a stage, or the exit link of one of its replicas (R253). -/
  | stageIn (lead k : Nat)
  | stageExit (lead k r : Nat)
  | nothing
deriving DecidableEq, Repr

/-- A memory-port tile that the running context configures. -/
def portConfigured (s : State) (cl p : Nat) : Bool :=
  match loadedOf s cl with
  | some l => l.ports.any fun q => q.1 = p
  | none => false

/-- Where an output link leads while its region runs. -/
def linkEnd (s : State) (cl pos : Nat) (l : Link) : LinkEnd :=
  let exit := match contextOf s cl pos with
    | some c => if c.inStage && c.exits && c.exitLink = l then some (c.stage, c.replica) else none
    | none => none
  match exit with
  | some (k, r) => .stageExit (leadOf s cl) k r
  | none =>
    match stageAt s cl pos l StageEntry.feed with
    | some k => .stageIn (leadOf s cl) k
    | none =>
      match farSide s cl pos l with
      | .tile cl' pos' hop => .fifo cl' pos' (opposite l) hop
      | .block b p => .block (blockNo cl b) p
      | .port p => if portConfigured s cl p then .port p else .nothing
      | .edge => .nothing

/-- The producer on the far side of an input link. -/
inductive LinkSource where
  | tile (cl pos : Nat) (l : Link) (hop : Nat)
  | port (p : Nat)
  | stageEntry (lead k r : Nat)
  | stageDrain (lead k : Nat)
  | nothing
deriving DecidableEq, Repr

def linkSource (s : State) (cl pos : Nat) (l : Link) : LinkSource :=
  let entry := match contextOf s cl pos with
    | some c => if c.inStage && c.entry && c.entryLink = l then some (c.stage, c.replica) else none
    | none => none
  match entry with
  | some (k, r) => .stageEntry (leadOf s cl) k r
  | none =>
    match stageAt s cl pos l StageEntry.drain with
    | some k => .stageDrain (leadOf s cl) k
    | none =>
      match farSide s cl pos l with
      | .tile cl' pos' hop => .tile cl' pos' (opposite l) hop
      | .port p => if portConfigured s cl p then .port p else .nothing
      | .block _ _ | .edge => .nothing

/-- The credits that an output link has at the start of a run (R103, R241, R253). -/
def startCredits (s : State) (cl pos : Nat) (l : Link) : Nat :=
  match linkEnd s cl pos l with
  | .fifo _ _ _ _ | .block _ _ | .port _ | .stageExit _ _ _ => 4
  | .stageIn _ _ => 64
  | .nothing => 0

/-- A credit on its way back to a tile's output link (R103). -/
def owedCredit (s : State) (cl pos : Nat) (l : Link) (hop : Nat) : State :=
  let t := s.tile cl pos
  s.setTile cl pos { t with creditsDue := t.creditsDue ++ [(l.code, s.clock + hop)] }

def stageOf (s : State) (lead k : Nat) : Option Stage := nth? (s.region lead).stages k
def setStage (s : State) (lead k : Nat) (g : Stage) : State :=
  s.setRegion lead { s.region lead with stages := setNth (s.region lead).stages k g }

/-- The dwell marks of a stage after a change of its queues (R255). -/
def restamp (clock : Nat) (g : Stage) : Stage :=
  let high := StageEntry.high g.entry ≤ g.input.length && g.output.length < StageEntry.high g.entry
  let low := g.input.length ≤ StageEntry.low g.entry
  { g with
    highSince := if high then some (g.highSince.getD clock) else none
    lowSince := if low then some (g.lowSince.getD clock) else none }

/-- A token put into a tile's input FIFO, usable from a cycle on. -/
def pushFifo (s : State) (cl pos : Nat) (l : Link) (k : Token) (at_ : Nat) : State :=
  let t := s.tile cl pos
  s.setTile cl pos { t with fifo := vset t.fifo l.code (vget [] t.fifo l.code ++ [⟨k, at_⟩]) }

/-- The credits of a stage that have come back count (R103). -/
def Stage.settled (g : Stage) (clock : Nat) : Stage :=
  let (now, later) := g.creditsDue.partition fun d => d.2 ≤ clock
  { g with
    creditsDue := later
    drainCredits := g.drainCredits + (now.filter fun d => d.1 = 8).length
    entryCredits := Vector.ofFn fun r => vget 0 g.entryCredits r.val + (now.filter fun d => d.1 = r.val).length }

/-- A credit on its way back to a stage, one cycle after the pop: of a replica's entry link, or with 8 of the drain link (R103). -/
def owedStageCredit (s : State) (lead k link : Nat) : State :=
  match stageOf s lead k with
  | some g => setStage s lead k { g with creditsDue := g.creditsDue ++ [(link, s.clock + 1)] }
  | none => s

/-- The output queue of a stage supplies DRAIN's FIFO as far as its credits reach; the pass adds 2 cycles (R253). -/
def feedDrain (s : State) (lead k : Nat) : Nat → State
  | 0 => s
  | n + 1 =>
    match stageOf s lead k with
    | none => s
    | some g =>
      let g := g.settled s.clock
      match g.output with
      | [] => s
      | x :: r =>
        if g.drainCredits = 0 then s
        else
          let (col, pos, l) := StageEntry.drain g.entry
          let s := setStage s lead k (restamp s.clock { g with output := r, drainCredits := g.drainCredits - 1 })
          feedDrain (pushFifo s (columnCluster lead col) pos l x.token (s.clock + 2)) lead k n

/-! ## Fields of a port record (R288) -/

namespace PortRec

def word (r : Vector Word 8) (n : Nat) : Nat := (vget 0 r n).toNat
def field (r : Vector Word 8) (q lo n : Nat) : Nat := word r q / 2 ^ lo % 2 ^ n
def base (r : Vector Word 8) : Word := vget 0 r 0
/-- The extent of a level, N0 to N5; 0 means 1. -/
def ext (r : Vector Word 8) (k : Nat) : Nat :=
  let n := if k < 4 then field r 1 (16 * k) 16 else field r 2 (16 * (k - 4)) 16
  if n = 0 then 1 else n
/-- The stride of a level, S0 to S5. -/
def stride (r : Vector Word 8) (k : Nat) : Int :=
  signedOf 32 (match k with
    | 0 => field r 2 32 32
    | 1 => field r 3 0 32
    | 2 => field r 3 32 32
    | 3 => field r 4 0 32
    | 4 => field r 4 32 32
    | _ => field r 5 0 32)
def cls (r : Vector Word 8) : Nat := field r 6 0 2
def wr (r : Vector Word 8) : Bool := (vget 0 r 6).getLsbD 2
def arg (r : Vector Word 8) : Bool := (vget 0 r 6).getLsbD 3
def note (r : Vector Word 8) : Bool := (vget 0 r 6).getLsbD 4
def amode (r : Vector Word 8) : Bool := (vget 0 r 6).getLsbD 5
def aop (r : Vector Word 8) : Nat := field r 6 6 2
def et (r : Vector Word 8) : Nat := field r 6 8 2
def edge (r : Vector Word 8) : Nat := field r 6 16 1
def index (r : Vector Word 8) : Nat := field r 6 17 4
def sdcode (r : Vector Word 8) : Nat := field r 6 40 8
/-- Tokens per freed slot; 0 means 1. -/
def slott (r : Vector Word 8) : Nat := if field r 6 48 16 = 0 then 1 else field r 6 48 16
def offset (r : Vector Word 8) : Int := signedOf 32 (field r 7 0 32)
def argslot (r : Vector Word 8) : Nat := field r 7 32 8
def handle (r : Vector Word 8) : Nat := field r 7 40 13

end PortRec

/-- A token taken from the FIFO that a port feeds: its credit, and the freed-slot notice of every SLOTT tokens (R291). -/
def takenFrom (s : State) (p : Nat) : State :=
  let x := s.port p
  let taken := x.taken + 1
  let owed := match x.owed with
    | n :: r => if n ≤ 1 then r else (n - 1) :: r
    | [] => []
  let s := s.setPort p { x with taken := taken, owed := owed, creditsDue := x.creditsDue ++ [s.clock + 1] }
  match x.record with
  | some r => if PortRec.note r && taken % PortRec.slott r = 0 then { s with freed := s.freed ++ [PortRec.handle r] } else s
  | none => s

/-- The credit of a token popped from a tile's input FIFO returns to its producer (R103). -/
def returnCredit (s : State) (cl pos : Nat) (l : Link) : State :=
  match linkSource s cl pos l with
  | .tile cl' pos' l' hop => owedCredit s cl' pos' l' hop
  | .port p => takenFrom s p
  | .stageEntry lead k r => owedStageCredit s lead k r
  | .stageDrain lead k => owedStageCredit s lead k 8
  | .nothing => s

end Sys2Proof.Machine
end

