-- ==== Sys2Proof/Machine/Product.lean ====
section
/-! DEFINITION. What a matrix array computes: products, recurrences under a microprogram, and fills (R35, R36, R157 to R159, R312). -/

namespace Sys2Proof.Machine

/-! ## Elements of a fetched row (R155) -/

/-- The float type of a plain or grouped FMT. -/
def fmtFloat : Nat → FloatType
  | 0 => .f32 | 1 => .bf16 | 2 => .f16 | 3 | 7 => .e4m3 | 4 | 8 => .e5m2 | _ => .fp4

/-- The block format of a grouped FMT. -/
def fmtBlock : Nat → BlockFmt
  | 6 => .fp4 | 7 => .e4m3 | 8 => .e5m2 | _ => .int8

namespace MatrixDesc

/-- FMT 5 holds plain integers (R36). -/
def plainInt (d : MatrixDesc) : Bool := d.fmt = 5

/-- The 64-byte block of a grouped row that holds element k. -/
def blockOf (d : MatrixDesc) (row k : Nat) : Nat := bitsAt row (512 * (k / d.perBlock)) 512

/-- Element k of a row without its scale. -/
def raw (d : MatrixDesc) (row k : Nat) : FVal :=
  if d.grouped then groupElement (fmtBlock d.fmt) (d.blockOf row k) (fmtBlock d.fmt).layout.1 (k % d.perBlock)
  else if d.plainInt then
    let x := signedOf 8 (bitsAt row (8 * k) 8)
    .fin (x < 0) x.natAbs 0
  else (floatFmt (fmtFloat d.fmt)).unpack (bitsAt row (8 * d.elemBytes * k) (8 * d.elemBytes))

/-- The integer of element k of a plain INT8 row. -/
def rawInt (row k : Nat) : Int := signedOf 8 (bitsAt row (8 * k) 8)

/-- The scale of group g with the exponent of its block; 1 for a plain row. -/
def scale (d : MatrixDesc) (row g : Nat) : FVal :=
  if d.grouped then
    let b := d.blockOf row (8 * g)
    scaleElement (.fin false 1 0) (byteAt b (2 + 8 * g % d.perBlock / 8)) (signedOf 8 (byteAt b 1))
  else .fin false 1 0

/-- The value of element k (R22). -/
def value (d : MatrixDesc) (row k : Nat) : FVal :=
  if d.grouped then blockElement (fmtBlock d.fmt) (d.blockOf row k) (k % d.perBlock) else d.raw row k

/-- Groups of 8 consecutive k. -/
def groups (d : MatrixDesc) : Nat := (d.k + 7) / 8

end MatrixDesc

/-- Values with the flags of the operations that made them. -/
abbrev Flagged (α : Type) := α × Flags

/-- Products and sums of a group, exactly: a zero is −0 only when every product is (R35). -/
def groupSum : List (Flagged FVal) → Flagged FVal
  | [] => (.fin false 0 0, noFlags)
  | x :: r => r.foldl (fun (y : Flagged FVal) p =>
    let z := addVal .rne y.1 p.1
    (z.1, y.2 ||| p.2 ||| z.2)) x

/-- One group's value rounded to FP32; a scale that is NaN makes it NaN (R35). -/
def groupValue (d : MatrixDesc) (ra rb g : Nat) : Nat × Flags :=
  if d.scale ra g = .nan || d.scale rb g = .nan then (floatFmt .f32).deliver roundRNE false .nan
  else
  let p := groupSum ((List.range 8).map fun t =>
    let k := 8 * g + t
    if k < d.k then mulVal (d.raw ra k) (d.raw rb k) else (.fin false 0 0, noFlags))
  let x := mulVal p.1 (d.scale ra g)
  let y := mulVal x.1 (d.scale rb g)
  let z := (floatFmt .f32).deliver roundRNE false y.1
  (z.1, p.2 ||| x.2 ||| y.2 ||| z.2)

/-- The numbers from `lo` up to `hi`. -/
def between (lo hi : Nat) : List Nat := (List.range (hi - lo)).map fun n => lo + n

/-- One accumulator element over the groups from `lo` up to `hi`, in ascending order (R157). -/
def productCell (d : MatrixDesc) (lo hi ra rb acc : Nat) : Nat × Flags :=
  (between lo hi).foldl (fun (x : Nat × Flags) g =>
    let v := groupValue d ra rb g
    let y := (floatFmt .f32).add roundRNE false x.1 v.1
    (y.1, x.2 ||| v.2 ||| y.2)) (acc, noFlags)

/-- One element of an INT32 accumulator: exact group sums, saturating (R36). -/
def intCell (d : MatrixDesc) (lo hi ra rb acc : Nat) : Nat × Flags :=
  let t := intFmt .i32
  (between lo hi).foldl (fun (x : Nat × Flags) g =>
    let p := ((List.range 8).map fun n =>
      let k := 8 * g + n
      if k < d.k then MatrixDesc.rawInt ra k * MatrixDesc.rawInt rb k else 0).foldl (· + ·) 0
    let y := t.clamp (t.read x.1 + p)
    (y.1, x.2 ||| y.2)) (acc, noFlags)

/-! ## Microprograms (R158) -/

/-- A microoperation in its fields. -/
structure MicroOp where
  op : Nat
  dst : Nat
  x : Nat
  y : Nat
deriving DecidableEq, Repr

def microOp (ops : Word) (n : Nat) : MicroOp :=
  let w := ops.toNat / 2 ^ (16 * n) % 2 ^ 16
  ⟨w / 2 ^ 12, w / 2 ^ 9 % 8, w / 2 ^ 6 % 8, w / 2 ^ 3 % 8⟩

/-- The operations that R158 allows: nothing after an end, assigned ops, operands and destinations. -/
def microLegal (ops : Word) : Bool :=
  let word := fun n => ops.toNat / 2 ^ (16 * n) % 2 ^ 16
  (List.range 4).all fun n =>
    let o := microOp ops n
    o.op < 11 && (o.dst = 0 || o.dst = 3 || o.dst = 4) && o.x ≠ 7 && o.y ≠ 7 && word n % 8 = 0 &&
    (word n = 0 || (List.range n).all fun m => (microOp ops m).op ≠ 0)

/-- The cell's values under a microprogram: s, t0 and t1, with the flags raised. -/
structure MicroState where
  s : Nat
  t0 : Nat
  t1 : Nat
  flags : Flags
deriving DecidableEq, Repr

/-- An operand code of R158. -/
def microOperand (i32 : Bool) (m : MicroState) (a b : Nat) : Nat → Nat
  | 0 => m.s | 1 => a | 2 => b | 3 => m.t0 | 4 => m.t1 | 5 => 0
  | _ => if i32 then 1 else 0x3F800000

/-- One operation's value; comparisons give one or zero. -/
def microValue (i32 : Bool) (op x y : Nat) : Nat × Flags :=
  let f := floatFmt .f32
  let t := intFmt .i32
  let truth : Bool → Nat × Flags := fun c => (if c then (if i32 then 1 else 0x3F800000) else 0, noFlags)
  let int : Int → Nat × Flags := fun v => (wrapTo 32 v, noFlags)
  match op with
  | 1 => if i32 then int (t.read x + t.read y) else f.add roundRNE false x y
  | 2 => if i32 then int (t.read x - t.read y) else f.sub roundRNE false x y
  | 3 => if i32 then int (t.read x * t.read y) else f.mul roundRNE false x y
  | 4 => if i32 then (if t.read y < t.read x then y else x, noFlags) else (f.min x y, noFlags)
  | 5 => if i32 then (if t.read x < t.read y then y else x, noFlags) else (f.max x y, noFlags)
  | 6 => ((BitVec.ofNat 32 x &&& BitVec.ofNat 32 y).toNat, noFlags)
  | 7 => ((BitVec.ofNat 32 x ||| BitVec.ofNat 32 y).toNat, noFlags)
  | 8 => truth (if i32 then x ≠ y else !eqVal (f.unpack x) (f.unpack y))
  | 9 => truth (if i32 then t.read x < t.read y else ltNum (f.unpack x) (f.unpack y))
  | _ => (x, noFlags)

/-- The operations of one step from the n-th on. -/
def microRun (i32 : Bool) (ops : Word) (a b : Nat) (m : MicroState) (n : Nat) : Nat → MicroState
  | 0 => m
  | left + 1 =>
    let o := microOp ops n
    if o.op = 0 then m
    else
      let v := microValue i32 o.op (microOperand i32 m a b o.x) (microOperand i32 m a b o.y)
      let m := { m with flags := m.flags ||| v.2 }
      let m := match o.dst with
        | 0 => { m with s := v.1 }
        | 3 => { m with t0 := v.1 }
        | _ => { m with t1 := v.1 }
      microRun i32 ops a b m (n + 1) left

/-- An element as it enters a microprogram: an integer, or its value rounded to FP32 (R158). -/
def microElement (d : MatrixDesc) (i32 : Bool) (row k : Nat) : Nat × Flags :=
  if i32 then (wrapTo 32 (MatrixDesc.rawInt row k), noFlags)
  else (floatFmt .f32).convert roundRNE false (d.value row k)

/-- One accumulator element after a step for each k of the groups (R158, R312). -/
def microCell (d : MatrixDesc) (i32 : Bool) (ops : Word) (lo hi ra rb acc : Nat) : Nat × Flags :=
  ((between (8 * lo) (8 * hi)).filter fun k => k < d.k).foldl (fun (x : Nat × Flags) k =>
    let a := microElement d i32 ra k
    let b := microElement d i32 rb k
    let m := microRun i32 ops a.1 b.1 ⟨x.1, 0, 0, noFlags⟩ 0 4
    (m.s, x.2 ||| a.2 ||| b.2 ||| m.flags)) (acc, noFlags)

/-! ## Rows of an accumulator -/

/-- Lane j of a row. -/
def rowLane (r : Row) (j : Nat) : Nat := bitsAt r.toNat (32 * j) 32

/-- The first `n` lanes computed anew; the others stay. -/
def mapLanes (r : Row) (n : Nat) (f : Nat → Nat → Nat × Flags) : Row × Flags :=
  let xs := (List.range 128).map fun j => if j < n then f j (rowLane r j) else (rowLane r j, noFlags)
  let v := xs.foldr (fun x (acc : Nat × Flags) => (x.1 % 2 ^ 32 + 2 ^ 32 * acc.1, x.2 ||| acc.2)) (0, noFlags)
  (BitVec.ofNat 4096 v.1, v.2)

/-- How a command forms its cells. -/
inductive CellRule where
  | product
  | integer
  | micro (i32 : Bool) (ops : Word)
  /-- An INT32 microprogram met a format other than plain INT8, where the spec gives no result (R156; log entry 4). -/
  | open_ (ctr : Nat)
deriving DecidableEq, Repr

/-- The rule of a product under the program that governs it. -/
def cellRule (d : MatrixDesc) (prog : Option (Bool × Word)) (ctr : Nat) : CellRule :=
  match prog with
  | some (true, ops) => if d.plainInt then .micro true ops else .open_ ctr
  | some (false, ops) => .micro false ops
  | none => if d.plainInt then .integer else .product

def cellOf (d : MatrixDesc) (rule : CellRule) (lo hi i j ra rb acc : Nat) : Nat × Flags :=
  match rule with
  | .product => productCell d lo hi ra rb acc
  | .integer => intCell d lo hi ra rb acc
  | .micro i32 ops => microCell d i32 ops lo hi ra rb acc
  | .open_ ctr => ((Config.free (ctr + 128 * i + j)).toNat % 2 ^ 32, noFlags)

/-- The accumulator after the groups of a product from `lo` up to `hi`: elements outside M × N are unchanged (R157). -/
def productRows (d : MatrixDesc) (rule : CellRule) (lo hi : Nat) (as bs : List Nat) (rows : List (Nat × Row)) : List (Nat × Row) × Flags :=
  (List.range d.m).foldl (fun (x : List (Nat × Row) × Flags) i =>
    let r := mapLanes (tget 0 i x.1) d.n fun j acc => cellOf d rule lo hi i j (nth 0 as i) (nth 0 bs j) acc
    (tset i r.1 x.1, x.2 ||| r.2)) (rows, noFlags)

/-- Every element of an accumulator at one pattern (R159). -/
def filledRows (pattern : BitVec 32) : List (Nat × Row) :=
  (List.range 128).map fun i => (i, (mapLanes 0 128 fun _ _ => (pattern.toNat, noFlags)).1)

end Sys2Proof.Machine
end

