-- ==== Sys2Proof/Machine/Matrix.lean ====
section
/-! DEFINITION. Matrix instructions and the matrix queue: issue, deferred slots, operand fetch and completion; bank switches (R153 to R162, R285, R286, R308 to R312). -/

namespace Sys2Proof.Machine

/-! ## Issuing (R153 to R156) -/

/-- The block whose queue an agent's matrix instruction enters (R153, R154). -/
def matrixBlock (s : State) : Option Nat :=
  match s.cur with
  | .matrix cl b => some (blockNo cl b)
  | .thread _ _ => if s.me.held.contains s.me.mxblk.toNat then some s.me.mxblk.toNat else none
  | .region _ | .epilogue _ _ | .copySeq _ _ | .tile _ _ _ => none

/-- A matrix instruction with its block and task. -/
def matrixOp (i : Instr) (s : State) (k : Nat → Nat → Hart → Out) : Out :=
  issue i s fun h =>
    match matrixBlock s, s.me.task with
    | some blk, some t => k blk t h
    | _, _ => illegal i s

/-- The queue has an entry for an issuer: released commands come first (R153, R160). -/
def matrixRoom (k : Block) : Bool := k.queue.length < 4 && k.releases.isEmpty

/-- A command as it enters a queue or a slot. -/
def newCmd (op : MatrixOp) (owner : AgentId) (task : Nat) : MatrixCmd := ⟨op, owner, task, false, false, [], [], none, none, none, [], [], []⟩

/-- A command at the end of a block's queue. -/
def enterQueue (s : State) (blk : Nat) (c : MatrixCmd) : State :=
  s.setBlock blk { s.block blk with queue := (s.block blk).queue ++ [c] }

/-- A command queued once there is room. -/
def queueCmd (i : Instr) (blk task : Nat) (op : MatrixOp) (s : State) : Out :=
  if matrixRoom (s.block blk) then retire i [] (enterQueue s blk (newCmd op s.cur task))
  else sleepOn .matrixQueue s

/-- `mxprog`, R158: it governs the commands queued after it. -/
def execMxprog (i32 unload : Bool) (a : Reg) (s : State) : Out :=
  let i := Instr.mxprog i32 unload a
  matrixOp i s fun blk t h =>
    if unload then queueCmd i blk t .unload s
    else if !microLegal (h.reg a) then illegal i s
    else queueCmd i blk t (.program i32 (h.reg a)) s

/-- `mxclr`, R159. -/
def execMxclr (acc : Fin 4) (b : Reg) (s : State) : Out :=
  matrixOp (.mxclr acc b) s fun blk t h => queueCmd (.mxclr acc b) blk t (.fill acc.val (lo32 (h.reg b))) s

/-- The program that will govern a command queued now: the last one queued, or the one loaded. -/
def programAhead (k : Block) : Option (Bool × Word) :=
  k.queue.foldl (fun p c => match c.op with
    | .program i32 ops => some (i32, ops)
    | .unload => none
    | .multiply _ _ | .fill _ _ => p) k.program

/-- The operand descriptor captured from ox0 to ox5 (R155). -/
def capturedProduct (h : Hart) : MatrixDesc := Vector.ofFn fun n => h.oxr (Fin.ofNat 8 n.val)

/-- With an INT32 microprogram only plain INT8 is allowed (R156). -/
def programFits (p : Option (Bool × Word)) (d : MatrixDesc) : Bool :=
  match p with
  | some (true, _) => d.plainInt
  | some (false, _) | none => true

/-! ## Deferred slots (R160) -/

def emptySlot : Deferred := ⟨none, 0, 0, false⟩

def setSlot (s : State) (blk n : Nat) (d : Deferred) : State :=
  s.setBlock blk { s.block blk with slots := vset (s.block blk).slots n d }

/-- The command of a released slot enters the queue, and the slot is empty. -/
def enterReleased (s : State) (blk n : Nat) : State :=
  let d := deferredSlot (s.block blk) n
  match d.cmd with
  | none => s
  | some c =>
    let s := setSlot s blk n { d with cmd := none, released := false }
    enterQueue (s.setBlock blk { s.block blk with releases := (s.block blk).releases.filter fun m => m ≠ n }) blk c

/-- A slot's command is released: it enters the queue at once where there is room, else it waits its turn in the slot. -/
def releaseSlot (s : State) (blk n : Nat) (d : Deferred) : State :=
  let room := matrixRoom (s.block blk)
  let s := setSlot s blk n { d with released := true }
  let s := s.setBlock blk { s.block blk with releases := (s.block blk).releases ++ [n] }
  if room then enterReleased s blk n else s

/-- A command armed in an empty slot, or released at once when enough landings have come. -/
def armSlot (s : State) (blk n q : Nat) (c : MatrixCmd) : State :=
  let d := deferredSlot (s.block blk) n
  if d.landed < q then setSlot s blk n { d with cmd := some c, need := q, released := false }
  else releaseSlot s blk n { d with cmd := some c, need := q, landed := d.landed - q }

/-- `mxmm` and `mxmm.def`, R155 to R157 and R160. -/
def execMxmm (deferred : Bool) (slot : Fin 8) (acc : Fin 4) (b : Reg) (s : State) : Out :=
  let i := Instr.mxmm deferred slot acc b
  matrixOp i s fun blk t h =>
    let d := capturedProduct s.me
    if !d.legal || !programFits (programAhead (s.block blk)) d then illegal i s
    else if deferred then
      if (deferredSlot (s.block blk) slot.val).cmd.isSome then sleepOn (.deferredSlot slot.val) s
      else retire i [] (armSlot s blk slot.val ((h.reg b).toNat % 16) (newCmd (.multiply acc.val d) s.cur t))
    else queueCmd i blk t (.multiply acc.val d) s

/-- No command is left that `mxwait` waits for (R159). -/
def matrixIdle (k : Block) (all : Bool) : Bool :=
  k.queue.isEmpty && k.releases.isEmpty && (!all || (List.range 8).all fun n => (deferredSlot k n).cmd.isNone)

/-- `mxwait`, R159; a step of it that finds a stopped sequencer does not complete it (R371). -/
def execMxwait (all : Bool) (s : State) : Out :=
  matrixOp (.mxwait all) s fun blk _ _ =>
    notInCodelet (.mxwait all) s <|
    if matrixIdle (s.block blk) all && !stepStopped s blk then retire (.mxwait all) [] s else sleepOn (.matrixIdle all) s

/-- LANDING_NOTICE: a notice on its way raises the slot's count and may release its command (R160). -/
def execLandingNotice (blk slot : Nat) (s : State) : Out :=
  if 256 ≤ blk || 8 ≤ slot then .fault .noSuchUnit
  else if s.landings.contains (blk, slot) && !clusterHeld s (blk / 8) then
    let s := { s with landings := s.landings.erase (blk, slot) }
    let d := deferredSlot (s.block blk) slot
    let l := d.landed + 1
    if d.cmd.isSome && !d.released && d.need ≤ l then .next (releaseSlot s blk slot { d with landed := l - d.need })
    else .next (setSlot s blk slot { d with landed := l })
  else .next s

/-- DEFERRED_ENTER: the earliest released command enters the queue when an entry is free (R160). -/
def execDeferredEnter (blk slot : Nat) (s : State) : Out :=
  let k := s.block blk
  match k.releases with
  | n :: _ => if n = slot && k.queue.length < 4 && !clusterHeld s (blk / 8) then .next (enterReleased s blk slot) else .next s
  | [] => .next s

/-! ## Operand fetch (R155, R161, R308 to R310) -/

/-- The block whose SRAM an operand names: kind 0 is the command's own (R309). -/
def operandBlock (blk : Nat) (d : MatrixDesc) (b : Bool) : Nat :=
  if d.kind b = 0 then blk else blockNo (blk / 8) (d.blk b)

/-- The range lies in a block's scratch range, in banks that serve it (R310). -/
def rangeServed (s : State) (blk : Nat) (early : List Nat) (lo len : Nat) : Bool :=
  let base := bankBase (32 * blk)
  base ≤ lo && lo + len ≤ base + 0x400000 &&
  (List.range 32).all fun k =>
    let first := base + k * 0x20000
    lo + len ≤ first || first + 0x20000 ≤ lo ||
    (let x := bankOf s blk k
     x.mode = .scratch && (x.busy.isNone || early.contains (32 * blk + k)))

/-- The address of row i of an operand. -/
def rowAddr (d : MatrixDesc) (b : Bool) (i : Nat) : Nat := (d.addr b + i * d.stride b) % 2 ^ 64

/-- A byte of a range is uncorrectable (R409). -/
def poisonIn (s : State) (lo len : Nat) : Bool := s.service.poison.any fun l => 64 * l < lo + len && lo < 64 * l + 64

/-- The rows of an operand, or the address of the first that R310 refuses or that holds uncorrectable data. -/
def fetchRows (s : State) (blk : Nat) (c : MatrixCmd) (d : MatrixDesc) (b : Bool) : Except Nat (List Nat) :=
  let target := operandBlock blk d b
  let declared := match s.task c.task with
    | some t => t.hasBlock (target / 8) (target % 8)
    | none => false
  match (List.range (d.rows b)).find? fun i => !declared || !rangeServed s target c.early (rowAddr d b i) d.rowBytes || poisonIn s (rowAddr d b i) d.rowBytes with
  | some i => .error (rowAddr d b i)
  | none => .ok ((List.range (d.rows b)).map fun i => s.backingBytes (rowAddr d b i) d.rowBytes)

/-- The product at the head of a block's queue. -/
def headProduct (s : State) (blk : Nat) : Option (MatrixCmd × Nat × MatrixDesc) :=
  match (s.block blk).queue with
  | c :: _ => match c.op with
    | .multiply acc d => some (c, acc, d)
    | .program _ _ | .unload | .fill _ _ => none
  | [] => none

/-- The blocks of a cluster in a mask. -/
def maskBlocks (cl mask : Nat) : List Nat := ((List.range 8).filter fun b => mask.testBit b).map fun b => blockNo cl b

/-- Every block of MCAST has a product at the head of its queue, so that operands can be compared (R161, R309, R339). -/
def mcastReady (s : State) (blk : Nat) (d : MatrixDesc) : Bool :=
  (maskBlocks (blk / 8) d.mcast).all fun n => (headProduct s n).isSome

/-- Two commands name the same operand, so that one fetch serves both (R161); its rows lie where the stride puts them, which counts among its extents (log entry 49). -/
def sameOperand (blk blk' : Nat) (d d' : MatrixDesc) (b : Bool) : Bool :=
  d.kind b ≠ 2 && d'.kind b ≠ 2 && operandBlock blk d b = operandBlock blk' d' b &&
  d.addr b = d'.addr b && d.fmt = d'.fmt && d.k = d'.k && d.rows b = d'.rows b && d.stride b = d'.stride b

/-- Every head command of a block's MCAST names the same operand and carries the same MCAST, as blocks that are to share must (R161, R339). -/
def mcastSame (s : State) (blk : Nat) (d : MatrixDesc) (b : Bool) : Bool :=
  d.mcast ≠ 0 && (maskBlocks (blk / 8) d.mcast).all fun n => match headProduct s n with
    | some (_, _, d') => d'.mcast = d.mcast && sameOperand blk n d d' b
    | none => false

/-- The head command of a block changed. -/
def mapHead (s : State) (blk : Nat) (f : MatrixCmd → MatrixCmd) : State :=
  let k := s.block blk
  match k.queue with
  | c :: r => s.setBlock blk { k with queue := f c :: r }
  | [] => s

/-- Every block of MCAST has a product at its head that has met no other before. -/
def mcastFresh (s : State) (blk : Nat) (d : MatrixDesc) : Bool :=
  (maskBlocks (blk / 8) d.mcast).all fun n => match headProduct s n with
    | some (c, _, _) => !c.met
    | none => false

/-- The blocks that a fetch of an operand is to feed, when the heads of MCAST meet: all of them where every head names the operand, else the block alone. -/
def sharers (s : State) (blk : Nat) (d : MatrixDesc) (b : Bool) : List Nat :=
  if mcastFresh s blk d && mcastSame s blk d b then maskBlocks (blk / 8) d.mcast else [blk]

/-- A block's head command as the heads of the cluster stand: where every block of its MCAST has one, it meets them, its operands are compared, and it waits for no other from now on (R161). -/
def meetHead (now : State) (s : State) (n : Nat) : State :=
  match headProduct now n with
  | some (c, _, d) =>
    if !c.met && mcastReady now n d then
      mapHead s n fun c => { c with met := true, sharedA := sharers now n d false, sharedB := sharers now n d true }
    else s
  | none => s

/-- Every head of a cluster that can meet the others does. A head leaves its queue only after a fetch of its own has started, so none meets too late (R161, R339). -/
def meetHeads (s : State) (cl : Nat) : State := (maskBlocks cl 0xFF).foldl (meetHead s) s

def MatrixCmd.shared (c : MatrixCmd) (b : Bool) : List Nat := if b then c.sharedB else c.sharedA

/-- The blocks that a fetch feeds now: the command's own, and those that share the operand with it and have not left. -/
def fedBlocks (s : State) (blk : Nat) (c : MatrixCmd) (b : Bool) : List Nat :=
  blk :: (c.shared b).filter fun n => n ≠ blk && match headProduct s n with
    | some (c', _, _) => (c'.shared b).contains blk
    | none => false

def operandRows (c : MatrixCmd) (b : Bool) : Option (List Nat) := if b then c.rowsB else c.rowsA

def setRows (b : Bool) (rows : List Nat) (c : MatrixCmd) : MatrixCmd :=
  match operandRows c b with
  | some _ => c
  | none => if b then { c with rowsB := some rows } else { c with rowsA := some rows }

/-- An operand of the head product fetched, for every block that shares it; one over a link is taken token by token. -/
def fetchOperand (s : State) (blk : Nat) (b : Bool) : Except Nat State :=
  match headProduct s blk with
  | none => .ok s
  | some (c, _, d) =>
    if d.kind b = 2 || (operandRows c b).isSome then .ok s
    else match fetchRows s blk c d b with
      | .error va => .error va
      | .ok rows => .ok ((fedBlocks s blk c b).foldl (fun (s : State) n => mapHead s n (setRows b rows)) s)

/-- The task of a sequencer that met uncorrectable data in an operand row is stopped (R409). -/
def stopPoisoned (s : State) (task : Option Nat) (va len : Nat) : State :=
  match task with
  | some t => if poisonIn s va len then stopTask s t 6 else s
  | none => s

/-- A command with an operand row of `len` bytes that R310 refuses or that is uncorrectable: the matrix sequencer stops, and the commands behind it are discarded. -/
def operandFault (s : State) (blk va len : Nat) : State :=
  let a := AgentId.matrix (blk / 8) (blk % 8)
  let s := stopAgent s a ⟨TrapClass.protection.code, (s.hart a).pc, BitVec.ofNat 64 va⟩
  stopPoisoned (s.setBlock blk { s.block blk with queue := [] }) (s.hart a).task va len

/-! ## Operands over links (R155, R239) -/

/-- Tokens of 32 bytes that hold an operand, its rows in order. -/
def linkTokens (d : MatrixDesc) (b : Bool) : Nat := (d.rows b * d.rowBytes + 31) / 32

def takenTokens (c : MatrixCmd) (b : Bool) : List Payload := if b then c.tokensB else c.tokensA

/-- The bytes of the tokens taken, and the rows cut from them. -/
def rowsOfTokens (d : MatrixDesc) (b : Bool) (ts : List Payload) : List Nat :=
  let all := ts.foldr (fun (t : Payload) n => t.toNat + 2 ^ 256 * n) 0
  (List.range (d.rows b)).map fun i => bitsAt all (8 * (i * d.rowBytes)) (8 * d.rowBytes)

/-- One token taken from an input port for an operand that still wants one; its credit returns to the tile behind the port.
Of a PORT field, whose values past 7 name no port, the low three bits count (DESIGN CHOICE, log entry 52). -/
def takeToken (s : State) (blk : Nat) (b : Bool) : Option State :=
  match headProduct s blk with
  | none => none
  | some (c, _, d) =>
    if !c.fetching || d.kind b ≠ 2 || linkTokens d b ≤ (takenTokens c b).length then none
    else
      let p := d.port b % 8
      match vget [] (s.block blk).ports p with
      | [] => none
      | x :: r =>
        let s := s.setBlock blk { s.block blk with ports := vset (s.block blk).ports p r }
        let s := mapHead s blk fun c =>
          if b then { c with tokensB := c.tokensB ++ [x.token.payload] } else { c with tokensA := c.tokensA ++ [x.token.payload] }
        match portFace (blk % 8) p with
        | some (pos, l) => some (owedCredit s (blk / 8) pos l 1)
        | none => some s

/-- Every waiting token that the head product wants, A's before B's; `n` bounds the number. -/
def takeTokens (s : State) (blk : Nat) : Nat → State
  | 0 => s
  | n + 1 =>
    match takeToken s blk false with
    | some s => takeTokens s blk n
    | none => match takeToken s blk true with
      | some s => takeTokens s blk n
      | none => s

/-- MATRIX_FETCH_START: the head product's operands are fetched once every block of MCAST has had a command at the head together with it (R161, R310).
The commands that have met others wait for them no longer, also when one is refused. -/
def execMatrixFetchStart (blk : Nat) (s : State) : Out :=
  match headProduct s blk with
  | none => .next s
  | some (c, _, d) =>
    if c.fetching || !taskRuns s c.task || !(c.met || mcastReady s blk d) then .next s
    else
      let s := meetHeads s (blk / 8)
      match fetchOperand s blk false with
      | .error va => .next (operandFault s blk va d.rowBytes)
      | .ok s => match fetchOperand s blk true with
        | .error va => .next (operandFault s blk va d.rowBytes)
        | .ok s => .next (takeTokens (mapHead s blk fun c => { c with fetching := true }) blk 64)

/-- The rows of an operand once all of it has come. -/
def operandReady (c : MatrixCmd) (d : MatrixDesc) (b : Bool) : Option (List Nat) :=
  if d.kind b = 2 then
    if linkTokens d b ≤ (takenTokens c b).length then some (rowsOfTokens d b (takenTokens c b)) else none
  else operandRows c b

/-! ## Completion (R157 to R159) -/

/-- An accumulator with its rows and kind. -/
def setAcc (k : Block) (acc : Nat) (rows : Tbl Nat Row) (int : Bool) : Block :=
  { k with acc := vset k.acc acc rows, accInt := vset k.accInt acc int }

/-- The groups of a product from `lo` up to `hi` are performed: the flags go to the matrix sequencer of the block (R30). -/
def performGroups (s : State) (blk acc : Nat) (d : MatrixDesc) (as bs : List Nat) (lo hi : Nat) : State :=
  let k := s.block blk
  let rule := cellRule d k.program s.freeCtr
  let r := productRows d rule lo hi as bs (vget [] k.acc acc)
  let int := match rule with
    | .integer | .micro true _ | .open_ _ => true
    | .product | .micro false _ => false
  let s := s.setBlock blk (setAcc k acc r.1 int)
  let a := AgentId.matrix (blk / 8) (blk % 8)
  let s := s.setHart a ((s.hart a).raise r.2)
  match rule with
  | .open_ _ => { s with freeCtr := s.freeCtr + 16384 }
  | .product | .integer | .micro _ _ => s

/-- The head command of a block takes effect and leaves the queue, once its operands have come (R157). -/
def completeHead (s : State) (blk : Nat) : State :=
  let k := s.block blk
  match k.queue with
  | [] => s
  | c :: r =>
    let pop := fun (s : State) => s.setBlock blk { s.block blk with queue := r }
    match c.op with
    | .program i32 ops => pop (s.setBlock blk { k with program := some (i32, ops) })
    | .unload => pop (s.setBlock blk { k with program := none })
    | .fill acc pattern => pop (s.setBlock blk (setAcc k acc (filledRows pattern) (vget false k.accInt acc)))
    | .multiply acc d =>
      if !c.fetching then s
      else match operandReady c d false, operandReady c d true with
        | some as, some bs => pop (performGroups s blk acc d as bs (c.inflight.getD 0) (MatrixDesc.groups d))
        | _, _ => s

/-- MATRIX_COMMAND_COMPLETE: the head command of a task that runs completes (R157). -/
def execMatrixCommandComplete (blk : Nat) (s : State) : Out :=
  match (s.block blk).queue with
  | [] => .next s
  | c :: _ => .next (if taskRuns s c.task then completeHead s blk else s)

/-- A running command stops at a group boundary for the debugger: which one, a free value says (R370, log entry 4). -/
def stopCommand (s : State) (blk : Nat) : State :=
  match headProduct s blk with
  | none => s
  | some (c, acc, d) =>
    match c.fetching, operandReady c d false, operandReady c d true with
    | true, some as, some bs =>
      let lo := c.inflight.getD 0
      let hi := lo + (Config.free s.freeCtr).toNat % (MatrixDesc.groups d - lo)
      mapHead (performGroups s.bumpFree blk acc d as bs lo hi) blk fun c => { c with inflight := some hi }
    | _, _, _ => s

/-! ## Bank switches (R285, R286) -/

/-- A bank's bytes cleared. -/
def clearBank (s : State) (key : Nat) : State :=
  let lo := bankBase key
  { s with mem := s.mem.filter fun c => !(lo ≤ c.1 && c.1 < lo + 0x20000) }

/-- BANKCTL_WRITE: a write of MODE to bank `bank` mod 32 of block `bank` / 32 of a cluster starts a switch (R286); nobody writes while the task that holds the bank stands still (R366, R370). -/
def execBankctlWrite (cl bank : Nat) (v : Word) (s : State) : Out :=
  if 32 ≤ cl || 256 ≤ bank then .fault .noSuchUnit
  else .next (if clusterHeld s cl then s else startSwitch s (blockNo cl (bank / 32)) (bank % 32) v)

/-- A command that the switch of a bank waits for is still queued or running (R286). -/
def switchHeld (s : State) (key : Nat) : Bool :=
  (s.engines.any fun p => (p.2.queue ++ p.2.running).any fun c => c.early.contains key) ||
  (s.blocks.any fun p => p.2.queue.any fun c => c.early.contains key)

/-- The stores that started the switch of a bank are performed, and their agents go on (R286). -/
def storesDone (s : State) (key : Nat) : State :=
  s.harts.foldl (fun s p => match p.2.status with
    | .sleeping (.bankSwitch k i) _ => if k = key then completeFor p.1 i [] s else s
    | .sleeping _ _ | .empty | .ready | .halted | .stopped => s) s

/-- BANK_SWITCH_COMPLETE: the dirty lines of the ways are written out, or the entries discarded, and the bank is cleared; BUSY clears (R286). A switch of a task that stands still goes on with it (R366, R370). -/
def execBankSwitchComplete (cl bank : Nat) (s : State) : Out :=
  if 32 ≤ cl || 256 ≤ bank then .fault .noSuchUnit
  else
    let blk := blockNo cl (bank / 32)
    let n := bank % 32
    let k := bankOf s blk n
    match k.busy with
    | none => .next s
    | some m =>
      if switchHeld s (32 * blk + n) || clusterHeld s cl then .next s
      else
        let s := if k.mode = .cacheWay then flushWays s blk else s
        let s := if m = .cacheWay then s else clearBank s (32 * blk + n)
        let disc := if k.mode = .fifo then k.entries.length else 0
        .next (storesDone (setBank s blk n ⟨m, none, [], disc⟩) (32 * blk + n))

end Sys2Proof.Machine
end

