-- ==== Sys2Proof/Machine/Queue.lean ====
section
/-! DEFINITION. Command queues: addresses through a page-table root, kicks, the error record, and placing a packet (R351 to R356, R199). -/

namespace Sys2Proof.Machine

/-! ## Accesses of the front end through a root (R351, R355) -/

/-- The physical address of an access of the front end that a walk has found, and whether its page is shared. -/
def frontPlace (s : State) (va : Word) (k : Access) (walked : Except AddrFault (Nat × Word)) : Except AddrFault (Nat × Bool) :=
  if !canonical va || inWindowRange va.toNat || va.toNat % 8 ≠ 0 then .error .protection
  else match walked with
    | .error f => .error f
    | .ok (pa, e) => if Pte.permits e k && dykeAllowsTask s pa k then .ok (pa, Pte.bit e 61) else .error .protection

/-- A word at a place, at its home and past every dirty copy on the die; one of a peer's page comes from that peer (R394), and one behind a link that is not up waits for it (R390, R398).
A read of a line that the front end has still to write waits for that write, so that a packet placed by `launch` or `renq` is never read before it is there (R353). Uncorrectable data is found where it is read (R409). -/
def frontRead (s : State) (pa : Nat) (shared : Bool) : Except AddrFault Word :=
  if s.frontWrites.any fun w => w.root.isNone && !w.words.isEmpty && w.addr / 64 = pa / 64 then .error .waits
  else if 2 ^ 47 ≤ pa && s.service.host = .recovery then .error .waits
  else if 2 ^ 47 ≤ pa && s.service.host = .down then .error .protection
  else match siteOf s pa shared with
    | .here | .moving | .copy _ => if s.service.poison.contains (pa / 64) then .error .poisoned else .ok ((s.cleanLine (pa / 64)).homeWord pa)
    | .absent p | .uncached p => match reach s p with
      | .up => if homeSwitches s pa then .error .waits else .ok (Config.peerWord pa s.clock)
      | .retraining => .error .waits
      | .down => .error .protection

/-- A place found through a page-table root. -/
def rootPlace (s : State) (root : Nat) (va : Word) (k : Access) : Except AddrFault (Nat × Bool) :=
  frontPlace s va k (walk s (va.toNat % 2 ^ 57) 5 root)

/-- A 64-bit word read through a root. -/
def rootRead (s : State) (root : Nat) (va : Word) : Except AddrFault Word :=
  match rootPlace s root va .read with
  | .ok (pa, shared) => frontRead s pa shared
  | .error f => .error f

/-- `n` words from an address on; a word that waits stands for all. -/
def rootWords (s : State) (root : Nat) (va : Word) : Nat → Except AddrFault (List Word)
  | 0 => .ok []
  | n + 1 =>
    match rootRead s root va with
    | .error f => .error f
    | .ok w => match rootWords s root (va + 8) n with
      | .error f => .error f
      | .ok r => .ok (w :: r)

/-- A notice that follows no write, or one that was dropped. -/
def sendNotice (s : State) : Option Nat → State
  | some v => s.report (.msix v)
  | none => s

/-- Words written through a root for a task, and the notice that follows them; a write that faults is dropped and counted by telemetry, and its notice is still sent (R355); both wait for the release that they follow (R359). -/
def rootWrite (s : State) (root : Nat) (va : Word) (ws : List Word) (task : Option Nat := none) (notice : Option Nat := none) (after : Option Nat := none) : State :=
  let later := { s with frontWrites := s.frontWrites ++ [⟨0, false, ws, task, va, false, notice, some root, after⟩] }
  if after.any s.releasing then later
  else match rootPlace s root va .write with
  | .ok (pa, shared) => s.frontWrite ⟨pa, shared, ws, task, va, false, notice, none, after⟩
  | .error .waits => later
  | .error _ => sendNotice (s.report .writeDropped) notice

/-- The writes that waited are tried again, in their order. -/
def State.settleFront (s : State) : State :=
  s.frontWrites.foldl (fun (s : State) w => match w.root with
    | some r => rootWrite s r w.va w.words w.task w.notice w.after
    | none => s.frontWrite w) { s with frontWrites := [] }

/-! ## Fields of a queue (R351) -/

namespace Queue

def ring (q : Queue) : Word := vget 0 q.desc 0
def log2 (q : Queue) : Nat := (vget 0 q.desc 1).toNat % 16
def size (q : Queue) : Nat := 2 ^ q.log2
def class_ (q : Queue) : Nat := (vget 0 q.desc 1).toNat / 2 ^ 4 % 4
def tokens (q : Queue) : Nat := (vget 0 q.desc 1).toNat / 2 ^ 8 % 2 ^ 8
def msix (q : Queue) : Nat := (vget 0 q.desc 1).toNat / 2 ^ 16 % 2 ^ 11
def remote (q : Queue) : Bool := (vget 0 q.desc 1).getLsbD 27
def rdaddr (q : Queue) : Word := vget 0 q.desc 2
def erraddr (q : Queue) : Word := vget 0 q.desc 3
def root (q : Queue) : Nat := (vget 0 q.desc 4).toNat
/-- The address of packet i. -/
def slot (q : Queue) (i : Nat) : Word := q.ring + BitVec.ofNat 64 (64 * (i % q.size))
def full (q : Queue) : Bool := q.wmax = q.rd + q.size

end Queue

/-- The key of the pages that Krany maps for the front end's accesses of a task: the task's own where the queue translates through the same root (R351). -/
def frontSpace (s : State) (n : Nat) (t : Task) : Nat := if (s.queue t.queue).root = t.root then n else 2 ^ 64 + n

/-- A queue open to a task (R351). -/
def openTo (q : Queue) (t : Option Task) : Bool :=
  q.opened && match t with
    | some t => q.root = t.root
    | none => false

/-! ## Errors and kicks (R353, R356) -/

/-- The queue enters its error state: the record, then the notice, which waits with it (R356).
The byte offset, where the spec names no field, and the packet word, where no packet was read, are free values (log entry 4). -/
def queueError (s : State) (q cause : Nat) (offset : Option Nat) (head : Option Word) : State :=
  let k := s.queue q
  let (off, s) : Nat × State := match offset with
    | some o => (o, s)
    | none => freeBytes s 1
  let (w, s) : Word × State := match head with
    | some w => (w, s)
    | none => (Config.free s.freeCtr, s.bumpFree)
  let s := s.setQueue q { k with state := .error }
  rootWrite s k.root k.erraddr [BitVec.ofNat 64 k.rd, BitVec.ofNat 64 (cause + 2 ^ 8 * off), BitVec.ofNat 64 s.clock, w] none (some k.msix)

/-- A kick with a write index (R353, R356); a queue that is not open takes none. -/
def kickQueue (s : State) (q w : Nat) : State :=
  let k := s.queue q
  if !k.opened || w ≤ k.wmax then s
  else match k.state with
    | .error => s.setQueue q { k with wmax := w }
    | .idle | .fetching | .waiting =>
      if k.rd + k.size < w then queueError s q 5 none none
      else s.setQueue q { k with wmax := w, state := .fetching }

/-- A write of RESUME (R356). -/
def resumeQueue (s : State) (q r : Nat) : State :=
  let k := s.queue q
  match k.state with
  | .error =>
    if k.opened && k.rd ≤ r && r ≤ k.wmax then
      s.setQueue q { k with rd := r, state := if r = k.wmax then .idle else .fetching }
    else s
  | .idle | .fetching | .waiting => s

/-! ## Placing a packet (R199) -/

/-- A packet with its stamp, written to slot WMAX, and the kick. -/
def placePacket (s : State) (q : Nat) (words : List Word) : State :=
  let k := s.queue q
  let stamped := match words with
    | w :: r => (w &&& ~~~0xFFFF#64 ||| BitVec.ofNat 64 (k.wmax % 2 ^ 16)) :: r
    | [] => []
  kickQueue (rootWrite s k.root (k.slot k.wmax) stamped) q (k.wmax + 1)

/-- A `renq` packet as the device of the queue answers it: 0 placed, 1 full, 2 in error, 4 not permitted; a full queue in its error state answers 2 (DESIGN CHOICE, log entry 52). -/
def receivePacket (s : State) (q : Nat) (sender : Option Task) (words : List Word) : Nat × State :=
  let k := s.queue q
  if !(k.opened && (k.remote || openTo k sender)) then (4, s)
  else if k.state = .error then (2, s)
  else if k.full then (1, s)
  else (0, placePacket s q words)

end Sys2Proof.Machine
end

