-- ==== Sys2Proof/Machine/Lanes.lean ====
section
/-! DEFINITION. What every cell opcode computes on the elements of its sources (R108, R113, R116 to R129, R136). -/

namespace Sys2Proof.Machine

/-- How the elements of a firing are read: the mode of a context or of EMODE, with the prefix. -/
structure Lanes where
  /-- 256 bits in a token, 4,096 in a row. -/
  bits : Nat
  w : Nat
  f8 : Bool
  f16 : Bool
  gfmt : Nat
  active : Nat → Bool
  z : Bool
  sat : Bool
  rnd : Rnd
  /-- The hash of RHD for each element (R27). -/
  hash : Nat → Nat

namespace Lanes

/-- Elements in a token or row (R108, R136). -/
def n (c : Lanes) : Nat := c.bits / c.w
def elem (c : Lanes) (v e : Nat) : Nat := bitsAt v (c.w * e) c.w
def rounding (c : Lanes) (e : Nat) : Rounding := ⟨c.rnd, c.hash e⟩

/-- The float flavour at a width (R50, R108). -/
def flavourAt (c : Lanes) (w : Nat) : FloatFmt :=
  floatFmt (if w = 8 then (if c.f8 then .e5m2 else .e4m3) else if w = 16 then (if c.f16 then .f16 else .bf16) else .f32)

def flavour (c : Lanes) : FloatFmt := c.flavourAt c.w

/-- The other flavour at 8 or 16 bits (R121). -/
def otherFlavour (c : Lanes) : FloatFmt :=
  floatFmt (if c.w = 8 then (if c.f8 then .e4m3 else .e5m2) else (if c.f16 then .bf16 else .f16))

/-- The value of a float element. -/
def value (c : Lanes) (v e : Nat) : FVal := c.flavour.unpack (c.elem v e)

/-- The integer type of a ty at a width. -/
def intAt (w : Nat) (y : Ty) : IntFmt := ⟨w, y = .i⟩

end Lanes

/-- Elements of `w` bits joined, element 0 lowest, with their flags. -/
def joinElems (w : Nat) : List (Nat × Flags) → Nat × Flags
  | [] => (0, noFlags)
  | (x, f) :: r =>
    let y := joinElems w r
    (x % 2 ^ w + 2 ^ w * y.1, f ||| y.2)

/-- Every active element computed; an inactive one is merged from A or is zero (R113). -/
def lanewise (c : Lanes) (a : Nat) (f : Nat → Nat × Flags) : Nat × Flags :=
  joinElems c.w ((List.range c.n).map fun e =>
    if c.active e then f e else (if c.z then 0 else c.elem a e, noFlags))

/-- A result for every target, and a second one for tgt1 where the opcode splits it (R122). -/
structure LaneOut where
  low : Nat
  high : Option Nat
  flags : Flags
deriving DecidableEq, Repr

def one (x : Nat × Flags) : LaneOut := ⟨x.1, none, x.2⟩

/-! ## Arithmetic (R116) -/

/-- An element operation with an integer and a float side. -/
def arith (y : Ty) (i : Int → Int → Int) (f : FloatFmt → Rounding → Bool → Nat → Nat → Nat × Flags)
    (c : Lanes) (a b _ : Nat) : LaneOut :=
  one (lanewise c a fun e =>
    match y with
    | .f => f c.flavour (c.rounding e) c.sat (c.elem a e) (c.elem b e)
    | .i | .n | .r =>
      let t := Lanes.intAt c.w y
      t.deliver c.sat (i (t.read (c.elem a e)) (t.read (c.elem b e))))

def laneAdd (y : Ty) : Lanes → Nat → Nat → Nat → LaneOut := arith y (· + ·) FloatFmt.add
def laneSub (y : Ty) : Lanes → Nat → Nat → Nat → LaneOut := arith y (· - ·) FloatFmt.sub
def laneMul (y : Ty) : Lanes → Nat → Nat → Nat → LaneOut := arith y (· * ·) FloatFmt.mul

/-- The upper half of the product. -/
def laneMulh (y : Ty) (c : Lanes) (a b _ : Nat) : LaneOut :=
  one (lanewise c a fun e =>
    let t := Lanes.intAt c.w y
    (wrapTo c.w (t.read (c.elem a e) * t.read (c.elem b e) / ((2 ^ c.w : Nat) : Int)), noFlags))

/-- A × B + C; a NaN among them gives the canonical NaN and no flag, also where A × B is 0 × ∞ (R116). -/
def laneFma (y : Ty) (c : Lanes) (a b d : Nat) : LaneOut :=
  one (lanewise c a fun e =>
    match y with
    | .f =>
      if (c.flavour.unpack (c.elem d e)).isNaN then (c.flavour.nanCode, noFlags)
      else c.flavour.fma (c.rounding e) c.sat (c.elem a e) (c.elem b e) (c.elem d e)
    | .i | .n | .r =>
      let t := Lanes.intAt c.w y
      t.deliver c.sat (t.read (c.elem a e) * t.read (c.elem b e) + t.read (c.elem d e)))

/-- The smaller or larger element, R17 for floats. -/
def laneChoose (larger : Bool) (y : Ty) (c : Lanes) (a b _ : Nat) : LaneOut :=
  one (lanewise c a fun e =>
    let p := c.elem a e
    let q := c.elem b e
    match y with
    | .f => (if larger then c.flavour.max p q else c.flavour.min p q, noFlags)
    | .i | .n | .r =>
      let t := Lanes.intAt c.w y
      (if larger then (if t.read p < t.read q then q else p) else (if t.read q < t.read p then q else p), noFlags))

/-- The sign bit of a float cleared or inverted; a NaN gives the canonical one. -/
def signOp (f : FloatFmt) (clear : Bool) (v : Nat) : Nat :=
  if (f.unpack v).isNaN then f.nanCode
  else
    let mag := v % 2 ^ f.magBits
    if clear || v / 2 ^ f.magBits % 2 = 1 then mag else 2 ^ f.magBits + mag

def laneAbs (y : Ty) (c : Lanes) (a _ _ : Nat) : LaneOut :=
  one (lanewise c a fun e =>
    match y with
    | .f => (signOp c.flavour true (c.elem a e), noFlags)
    | .i | .n | .r =>
      let t := Lanes.intAt c.w y
      t.deliver c.sat ((t.read (c.elem a e)).natAbs : Int))

def laneNeg (y : Ty) (c : Lanes) (a _ _ : Nat) : LaneOut :=
  one (lanewise c a fun e =>
    match y with
    | .f => (signOp c.flavour false (c.elem a e), noFlags)
    | .i | .n | .r =>
      let t := Lanes.intAt c.w y
      t.deliver c.sat (-(t.read (c.elem a e))))

/-! ## Logic, shifts, compare and select (R117) -/

/-- An element operation on bit patterns. -/
def bitwise (f : (w : Nat) → BitVec w → BitVec w → BitVec w) (c : Lanes) (a b _ : Nat) : LaneOut :=
  one (lanewise c a fun e =>
    ((f c.w (BitVec.ofNat c.w (c.elem a e)) (BitVec.ofNat c.w (c.elem b e))).toNat, noFlags))

def laneAnd : Lanes → Nat → Nat → Nat → LaneOut := bitwise fun _ x y => x &&& y
def laneOr : Lanes → Nat → Nat → Nat → LaneOut := bitwise fun _ x y => x ||| y
def laneXor : Lanes → Nat → Nat → Nat → LaneOut := bitwise fun _ x y => x ^^^ y
/-- A count of w or more gives 0, or copies of the top bit. -/
def laneShl : Lanes → Nat → Nat → Nat → LaneOut := bitwise fun _ x y => x <<< y.toNat
def laneShr : Lanes → Nat → Nat → Nat → LaneOut := bitwise fun _ x y => x >>> y.toNat
def laneSra : Lanes → Nat → Nat → Nat → LaneOut := bitwise fun _ x y => x.sshiftRight y.toNat

/-- All ones where a comparison holds. -/
def laneCmp (i : Int → Int → Bool) (f : FVal → FVal → Bool) (y : Ty) (c : Lanes) (a b _ : Nat) : LaneOut :=
  one (lanewise c a fun e =>
    let holds := match y with
      | .f => f (c.value a e) (c.value b e)
      | .i | .n | .r =>
        let t := Lanes.intAt c.w y
        i (t.read (c.elem a e)) (t.read (c.elem b e))
    (if holds then 2 ^ c.w - 1 else 0, noFlags))

def laneCmpeq : Ty → Lanes → Nat → Nat → Nat → LaneOut := laneCmp (fun x y => x = y) eqVal
def laneCmplt : Ty → Lanes → Nat → Nat → Nat → LaneOut := laneCmp (fun x y => x < y) ltNum
def laneCmple : Ty → Lanes → Nat → Nat → Nat → LaneOut := laneCmp (fun x y => x ≤ y) fun x y => ltNum x y || eqVal x y

def laneSel (c : Lanes) (a b d : Nat) : LaneOut :=
  one (lanewise c a fun e => (if c.elem d e ≠ 0 then c.elem a e else c.elem b e, noFlags))

/-! ## Conversion, packing and scaling (R121 to R124) -/

def laneCvt (y : Ty) (c : Lanes) (a _ _ : Nat) : LaneOut :=
  one (lanewise c a fun e =>
    let r := c.rounding e
    match y with
    | .i | .n => c.flavour.ofInt r c.sat ((Lanes.intAt c.w y).read (c.elem a e))
    | .f => toInt ⟨c.w, true⟩ r (c.value a e)
    | .r => c.otherFlavour.convert r c.sat (c.value a e))

/-- An element narrowed to half its width (R122). -/
def narrowElem (y : Ty) (c : Lanes) (e : Nat) (v : Nat) : Nat × Flags :=
  let h := c.w / 2
  match y with
  | .f => (c.flavourAt h).convert (c.rounding e) c.sat (c.flavour.unpack v)
  | .i | .n | .r =>
    if c.sat then (Lanes.intAt h y).clamp ((Lanes.intAt c.w y).read v) else (v % 2 ^ h, noFlags)

/-- Both sources narrowed into one token. For RHD an element's index is that of the result, 0 to 2n − 1, where R27 counts the elements of a token to n − 1 (DESIGN CHOICE, log entry 52). -/
def laneNarrow (y : Ty) (c : Lanes) (a b _ : Nat) : LaneOut :=
  one (joinElems (c.w / 2) ((List.range (2 * c.n)).map fun e =>
    narrowElem y c e (if e < c.n then c.elem a e else c.elem b (e - c.n))))

/-- An element widened exactly from half the width (R122). -/
def widenElem (y : Ty) (c : Lanes) (v : Nat) : Nat × Flags :=
  let h := c.w / 2
  match y with
  | .f => c.flavour.convert roundRNE false ((c.flavourAt h).unpack v)
  | .i | .n | .r => (wrapTo c.w ((Lanes.intAt h y).read v), noFlags)

def laneWiden (y : Ty) (c : Lanes) (a _ _ : Nat) : LaneOut :=
  let h := c.w / 2
  let half := fun (first : Nat) => joinElems c.w ((List.range c.n).map fun e => widenElem y c (bitsAt a (h * (first + e)) h))
  let lo := half 0
  let hi := half c.n
  ⟨lo.1, some hi.1, lo.2 ||| hi.2⟩

/-- The element format, first byte of elements and groups of a group token (R123). -/
def groupLayout (gfmt : Nat) : BlockFmt × Nat × Nat :=
  match gfmt with
  | 0 => (.fp4, 6, 6)
  | 1 => (.e4m3, 3, 3)
  | 2 => (.e5m2, 3, 3)
  | _ => (.int8, 3, 3)

/-- The block exponent of a group token. -/
def groupExp (v : Nat) : Int := signedOf 8 (byteAt v 31)

def laneUngroup (c : Lanes) (a b _ : Nat) : LaneOut :=
  let (f, base, groups) := groupLayout c.gfmt
  let g := c.elem b 0 % 2 ^ 8
  one (joinElems c.w ((List.range c.n).map fun e =>
    let k := 8 * g + e
    if groups ≤ k / 8 then (0, noFlags)
    else c.flavour.convert (c.rounding e) false (scaleElement (groupElement f a base k) (byteAt a (k / 8)) (groupExp a))))

/-- The magnitude of a value; NaN stays. -/
def magnitude : FVal → FVal
  | .nan => .nan
  | .inf _ => .inf false
  | .fin _ m e => .fin false m e

/-- The largest magnitude of a list. -/
def largest : List FVal → FVal
  | [] => .fin false 0 0
  | v :: r =>
    let x := largest r
    if ltVal x (magnitude v) then magnitude v else x

/-- The largest finite element of a group format, M of R123. -/
def groupMax (f : BlockFmt) : Nat :=
  match f with
  | .fp4 => 6 | .e4m3 => 448 | .e5m2 => 57344 | _ => 127

/-- The smallest scale whose value times M times 2^x is no less than `a`, from a code on; 0xFE if there is none. -/
def pickScale (a : FVal) (m : Nat) (x : Int) (code : Nat) : Nat → Nat
  | 0 => 0xFE
  | n + 1 =>
    let v := match scaleVal code x with
      | some (k, e) => FVal.fin false (k * m) e
      | none => FVal.nan
    if ltNum a v || eqVal a v then code else pickScale a m x (code + 1) n

/-- A value divided by a scale and 2^x and delivered in the element format, saturating (R123). -/
def groupQuotient (f : BlockFmt) (r : Rounding) (scale : Nat) (x : Int) (v : FVal) : Nat × Flags :=
  let ft := match f with
    | .fp4 => some (floatFmt .fp4) | .e4m3 => some (floatFmt .e4m3) | .e5m2 => some (floatFmt .e5m2)
    | .zero | .int8 | .bf16 | .f16 | .f32 => none
  match v, scaleVal scale x with
  | .inf neg, _ => match ft with
    | some t => t.deliverInf true neg
    | none => (wrapTo 8 (if neg then -127 else 127), flagOF)
  | .fin neg m e, some (k, d) =>
    let q := m * 2 ^ 40 / k
    let rest := m * 2 ^ 40 % k ≠ 0
    match ft with
    | some t => t.round r true neg q (e - d - 40) rest
    | none =>
      let c := roundAt r neg q (e - d - 40) rest 0
      if 127 < c.base then (wrapTo 8 (if neg then -127 else 127), overflowFlags)
      else (wrapTo 8 (if neg then -(c.base : Int) else c.base), flagIf c.inexact flagNX)
  | .nan, _ | .fin _ _ _, none => (0, noFlags)

/-- One group of a group token replaced by eight elements of A from `e` on (R123). -/
def putGroup (c : Lanes) (a e : Nat) (g : Nat) (token : Nat) : Nat × Flags :=
  let (f, base, _) := groupLayout c.gfmt
  let x := groupExp token
  let vs := (List.range 8).map fun k => c.value a (e + k)
  let big := largest vs
  let w := if f = .fp4 then 4 else 8
  let place := fun (t : Nat) (k v : Nat) => putBits t (8 * base + w * (8 * g + k)) w v
  let put := fun (scale : Nat) (els : List (Nat × Flags)) =>
    els.zipIdx.foldl (fun acc p => (place acc.1 p.2 p.1.1, acc.2 ||| p.1.2)) (putBits token (8 * g) 8 scale, noFlags)
  if vs.any FVal.isNaN then
    let r := put 0xFF (List.replicate 8 (0, noFlags))
    (r.1, flagNV)
  else if eqVal big (.fin false 0 0) then put 0 (List.replicate 8 (0, noFlags))
  else
    let scale := pickScale big (groupMax f) x 1 254
    put scale (vs.zipIdx.map fun p => groupQuotient f (c.rounding (e + p.2)) scale x p.1)

def laneGroup (c : Lanes) (a b d : Nat) : LaneOut :=
  let groups := (groupLayout c.gfmt).2.2
  let g := c.elem d 0 % 2 ^ 8
  let r := (List.range (c.n / 8)).foldl (fun (acc : Nat × Flags) j =>
    if groups ≤ g + j then acc
    else
      let x := putGroup c a (8 * j) (g + j) acc.1
      (x.1, acc.2 ||| x.2)) (b, noFlags)
  one r

def lanePack (y : Ty) : Lanes → Nat → Nat → Nat → LaneOut :=
  match y with
  | .r => laneGroup
  | .i | .n | .f => laneNarrow y

def laneUnpk (y : Ty) : Lanes → Nat → Nat → Nat → LaneOut :=
  match y with
  | .r => laneUngroup
  | .i | .n | .f => laneWiden y

/-- The scale byte of an element (R124). -/
def scaleByte (c : Lanes) (b e : Nat) : Nat :=
  let m := 256 / c.w
  byteAt (bitsAt b (32 * (8 * (e / m))) 32) (e % m / 8)

def laneScale (y : Ty) (c : Lanes) (a b _ : Nat) : LaneOut :=
  one (lanewise c a fun e =>
    match y with
    | .r =>
      let k := signedOf 8 (c.elem b 0)
      c.flavour.finish (c.rounding e) c.sat (match c.value a e with
        | .fin neg m x => (.fin neg m (x + k), noFlags)
        | v => (v, noFlags))
    | .f | .i | .n => c.flavour.finish (c.rounding e) c.sat (mulVal (c.value a e) ((floatFmt .e3m5).unpack (scaleByte c b e))))

/-! ## Special functions (R125) -/

def special (f : FloatFmt → Rounding → Bool → Nat → Nat × Flags) (c : Lanes) (a _ _ : Nat) : LaneOut :=
  one (lanewise c a fun e => f c.flavour (c.rounding e) c.sat (c.elem a e))

def laneRcp : Lanes → Nat → Nat → Nat → LaneOut := special FloatFmt.rcp
def laneRsq : Lanes → Nat → Nat → Nat → LaneOut := special FloatFmt.rsq
def laneSqrt : Lanes → Nat → Nat → Nat → LaneOut := special FloatFmt.sqrt
def laneExp2 : Lanes → Nat → Nat → Nat → LaneOut := special FloatFmt.exp2
def laneLog2 : Lanes → Nat → Nat → Nat → LaneOut := special FloatFmt.log2

/-! ## Sums (R32, R33, R127, R128) -/

/-- A float element widened exactly to FP32. -/
def widened (c : Lanes) (v e : Nat) : Nat × Flags :=
  if c.active e then (((floatFmt .f32).convert roundRNE false (c.value v e)).1, noFlags) else (0, noFlags)

/-- One FP32 addition of a sum. -/
def sumFloat (a b : Nat × Flags) : Nat × Flags :=
  let r := (floatFmt .f32).add roundRNE false a.1 b.1
  (r.1, a.2 ||| b.2 ||| r.2)

/-- One addition of an integer sum in the element type. -/
def sumInt (t : IntFmt) (sat : Bool) (a b : Nat × Flags) : Nat × Flags :=
  let r := t.deliver sat (t.read a.1 + t.read b.1)
  (r.1, a.2 ||| b.2 ||| r.2)

/-- An FP32 sum in the flavour. -/
def deliverSum (c : Lanes) (e : Nat) (x : Nat × Flags) : Nat × Flags :=
  let r := c.flavour.convert (c.rounding e) c.sat ((floatFmt .f32).unpack x.1)
  (r.1, x.2 ||| r.2)

/-- The elements that a sum takes; an inactive one contributes zero. -/
def sumTerms (y : Ty) (c : Lanes) (a : Nat) : List (Nat × Flags) :=
  (List.range c.n).map fun e =>
    match y with
    | .f => widened c a e
    | .i | .n | .r => (if c.active e then c.elem a e else 0, noFlags)

def laneRed (y : Ty) (c : Lanes) (a _ _ : Nat) : LaneOut :=
  match y with
  | .f =>
    match treeSum sumFloat (Nat.log2 c.n) (sumTerms y c a) with
    | x :: _ => one (deliverSum c 0 x)
    | [] => one (0, noFlags)
  | .i | .n | .r =>
    match treeSum (sumInt (Lanes.intAt c.w y) c.sat) (Nat.log2 c.n) (sumTerms y c a) with
    | x :: _ => one x
    | [] => one (0, noFlags)

/-- The running sums of R33: element j has the sum of the active elements 0 to j. -/
def scanSums (y : Ty) (c : Lanes) (a : Nat) : List (Nat × Flags) :=
  match y with
  | .f => scanSum sumFloat none (sumTerms y c a)
  | .i | .n | .r => scanSum (sumInt (Lanes.intAt c.w y) c.sat) none (sumTerms y c a)

def laneScan (y : Ty) (c : Lanes) (a _ _ : Nat) : LaneOut :=
  let sums := scanSums y c a
  one (lanewise c a fun e =>
    let x := nth (0, noFlags) sums e
    match y with
    | .f => deliverSum c e x
    | .i | .n | .r => x)

/-! ## Routing (R129) -/

def laneMov (_ : Lanes) (a _ _ : Nat) : LaneOut := one (a, noFlags)

def laneShuf (c : Lanes) (a b _ : Nat) : LaneOut :=
  one (lanewise c a fun e => (if c.elem b e < c.n then c.elem a (c.elem b e) else 0, noFlags))

def laneBcast (c : Lanes) (a b _ : Nat) : LaneOut :=
  one (lanewise c a fun _ => (if c.elem b 0 < c.n then c.elem a (c.elem b 0) else 0, noFlags))

def laneIdx (c : Lanes) (a b _ : Nat) : LaneOut :=
  one (lanewise c a fun e => ((c.elem a 0 + e * c.elem b 0) % 2 ^ c.w, noFlags))

/-- One step of `vacc`: the register with A's active elements added; an inactive one stays or is zero (R126). -/
def laneAcc (y : Ty) (c : Lanes) (reg a : Nat) : Nat × Flags :=
  joinElems c.w ((List.range c.n).map fun e =>
    if c.active e then
      match y with
      | .f => c.flavour.add (c.rounding e) c.sat (c.elem reg e) (c.elem a e)
      | .i | .n | .r =>
        let t := Lanes.intAt c.w y
        t.deliver c.sat (t.read (c.elem reg e) + t.read (c.elem a e))
    else (if c.z then 0 else c.elem reg e, noFlags))

/-- The function of each opcode that computes its result from its sources alone. -/
def laneOf : Instr → Option (Lanes → Nat → Nat → Nat → LaneOut)
  | .vmov _ _ _ => some laneMov
  | .vadd y _ _ _ _ => some (laneAdd y)
  | .vsub y _ _ _ _ => some (laneSub y)
  | .vmul y _ _ _ _ => some (laneMul y)
  | .vmulh y _ _ _ _ => some (laneMulh y)
  | .vfma y _ _ _ _ => some (laneFma y)
  | .vmin y _ _ _ _ => some (laneChoose false y)
  | .vmax y _ _ _ _ => some (laneChoose true y)
  | .vabs y _ _ _ => some (laneAbs y)
  | .vneg y _ _ _ => some (laneNeg y)
  | .vand _ _ _ _ => some laneAnd
  | .vor _ _ _ _ => some laneOr
  | .vxor _ _ _ _ => some laneXor
  | .vshl _ _ _ _ => some laneShl
  | .vshr _ _ _ _ => some laneShr
  | .vsra _ _ _ _ => some laneSra
  | .vcmpeq y _ _ _ _ => some (laneCmpeq y)
  | .vcmplt y _ _ _ _ => some (laneCmplt y)
  | .vcmple y _ _ _ _ => some (laneCmple y)
  | .vsel _ _ _ _ => some laneSel
  | .vcvt y _ _ _ => some (laneCvt y)
  | .vpack y _ _ _ _ => some (lanePack y)
  | .vunpk y _ _ _ _ => some (laneUnpk y)
  | .vscale y _ _ _ _ => some (laneScale y)
  | .vrcp _ _ _ => some laneRcp
  | .vrsq _ _ _ => some laneRsq
  | .vsqrt _ _ _ => some laneSqrt
  | .vexp2 _ _ _ => some laneExp2
  | .vlog2 _ _ _ => some laneLog2
  | .vred y _ _ _ => some (laneRed y)
  | .vscan y _ _ _ => some (laneScan y)
  | .vshuf _ _ _ _ => some laneShuf
  | .vbcast _ _ _ _ => some laneBcast
  | .vidx _ _ _ _ => some laneIdx
  | _ => none

/-- The widths at which an opcode is a configuration-load error (R121, R122). -/
def widthOk (i : Instr) (w : Nat) : Bool :=
  match i with
  | .vcvt .r _ _ _ => w ≠ 32
  | .vpack y _ _ _ _ | .vunpk y _ _ _ _ => y = .r || w ≠ 8
  | _ => true

end Sys2Proof.Machine
end

