-- ==== Sys2Proof/Machine/Tile.lean ====
section
/-! DEFINITION. Cell tiles: when an instruction is ready, what a firing consumes and sends, and arbitration (R100 to R119, R126 to R135). -/

namespace Sys2Proof.Machine

/-! ## Activity (R102, R247) -/

/-- The task whose run a cluster's tiles take part in. -/
def regionTask (s : State) (cl : Nat) : Option Nat := (s.hart (.region (leadOf s cl))).task

/-- The region's task runs. -/
def regionRuns (s : State) (cl : Nat) : Bool :=
  match regionTask s cl with
  | some t => taskRuns s t
  | none => false

/-- The region runs its context, and nothing freezes it (condition 7 of R102). -/
def tileActive (s : State) (cl : Nat) : Bool :=
  match runOf s cl with
  | some r => r.start ≤ s.clock && !(s.region (leadOf s cl)).frozen && regionRuns s cl
  | none => false

/-! ## Sources (R104, R109) -/

/-- The head token of a source that waits for one; letter 0 is A, 1 is B and 2 is C. -/
def headToken (t : Tile) (idx letter : Nat) : Src → Option Landed
  | .tok => match letter with
    | 0 => vget none t.slotA idx
    | 1 => vget none t.slotB idx
    | _ => vget none t.slotC idx
  | .link l =>
    let limit := match t.draining with
      | some d => d.idx ≠ idx || vget 0 d.links l.code ≠ 0
      | none => true
    if limit then (vget [] t.fifo l.code).head? else none
  | .iter | .lane | .zero | .c _ | .v _ => none

/-- The head token, once it has landed. -/
def landedToken (s : State) (t : Tile) (idx letter : Nat) (x : Src) : Option Landed :=
  match headToken t idx letter x with
  | some k => if k.at_ ≤ s.clock then some k else none
  | none => none

/-- A 32-bit constant repeated over a token. -/
def repeatConst (c : BitVec 32) : Nat := (joinElems 32 ((List.range 8).map fun _ => (c.toNat, noFlags))).1

/-- The value of a source that reads no token. -/
def plainValue (k : TileContext) (t : Tile) (idx : Nat) : Src → Nat
  | .tok | .link _ | .zero => 0
  | .iter => (joinElems k.w ((List.range (256 / k.w)).map fun _ => (vget 0 t.counts idx, noFlags))).1
  | .lane => (joinElems k.w ((List.range (256 / k.w)).map fun e => (e, noFlags))).1
  | .c n => repeatConst (k.consts.get n)
  | .v n => (t.v.get n).toNat

/-- The sources that the opcode reads, with their letters. -/
def lettered (c : CellShape) (p : Prefix) : List (Nat × Src) :=
  [(0, c.a)] ++ (match c.b with
    | some b => [(1, b)]
    | none => []) ++ (if c.c then [(2, p.srcC)] else [])

/-- No source of the instruction waits for a token (R110). -/
def isGenerator (c : CellShape) (p : Prefix) : Bool := (lettered c p).all fun x => !isTokenSource x.2

/-- The first source whose head token is a config token (R118). -/
def configSource (s : State) (t : Tile) (idx : Nat) : List (Nat × Src) → Option (Nat × Src × Token)
  | [] => none
  | (n, x) :: r =>
    match landedToken s t idx n x with
    | some k => if k.token.config then some (n, x, k.token) else configSource s t idx r
    | none => configSource s t idx r

/-! ## Firings -/

/-- What a firing will do. -/
structure Firing where
  consumes : List (Nat × Src)
  sends : List (Tgt × Token)
  latency : Nat
  /-- The register that `vacc` writes. -/
  acc : Option (Fin 16 × Payload)
  consts : Option (Vector (BitVec 32) 8)
  /-- The token that `esc` parks. -/
  park : Option (Nat × Token)
  flags : Flags
  /-- A firing on data counts for `it`. -/
  counts : Bool
  nextTag : Bool
deriving DecidableEq, Repr

/-- A turn fence of R254. -/
def isFence (k : Token) : Bool := k.config && k.last && k.payload = 0 && k.tag = 0xFFFF

/-- The slot and link targets, to which config tokens go. -/
def forwardTargets (ts : List Tgt) : List Tgt := ts.filter fun t => match t with
  | .slotA _ | .slotB _ | .slotC _ | .link _ => true
  | .reg _ | .done | .none => false

/-- A config firing: an unchanged copy to every slot and link target (R118), with the latency of the opcode (R105).
R120 gives `esc` no latency; a config token passes through it in one cycle (log entry 46). -/
def configForward (x : Nat × Src) (k : Token) (latency : Nat) (ts : List Tgt) : Firing :=
  ⟨[x], (forwardTargets ts).map fun t => (t, k), latency, none, none, none, noFlags, false, false⟩

/-- A data firing that sends tokens to targets. -/
def dataFiring (consumes : List (Nat × Src)) (sends : List (Tgt × Token)) (latency : Nat) (f : Flags) : Firing :=
  ⟨consumes, sends.filter fun p => p.1 ≠ .none, latency, none, none, none, f, true, false⟩

/-- The element mode of a firing (R27, R108, R113). -/
def tileLanes (s : State) (cl : Nat) (k : TileContext) (t : Tile) (p : Prefix) : Lanes where
  bits := 256
  w := k.w
  f8 := k.f8
  f16 := k.f16
  gfmt := k.gfmt
  active := fun e => p.k = 0 || (k.masks.get p.k).getLsbD (k.w / 8 * e)
  z := p.z
  sat := p.sat
  rnd := p.rnd
  hash := fun e =>
    let n := match runOf s cl with
      | some r => r.n
      | none => Vector.replicate 4 1
    let i := fun j => (vget 0 t.i j).toNat
    let ordinal := ((i 3 * vget 0 n 2 + i 2) * vget 0 n 1 + i 1) * vget 0 n 0 + i 0
    rhdHash (BitVec.ofNat 32 (e + 32 * i 0)) (BitVec.ofNat 32 ordinal)

/-- The tokens consumed, in the order A, B, C. -/
def consumedTokens (s : State) (t : Tile) (idx : Nat) (xs : List (Nat × Src)) : List Token :=
  xs.filterMap fun x => (landedToken s t idx x.1 x.2).map Landed.token

/-- A result token (R110, R112). -/
def resultToken (t : Tile) (idx : Nat) (ks : List Token) (v : Nat) : Token where
  payload := BitVec.ofNat 256 v
  config := false
  last := ks.any Token.last
  tag := match ks with
    | k :: _ => k.tag
    | [] => BitVec.ofNat 16 (vget 0 t.counts idx)

/-- Every token source of a list holds a landed token. -/
def allLanded (s : State) (t : Tile) (idx : Nat) (xs : List (Nat × Src)) : Bool :=
  xs.all fun x => !isTokenSource x.2 || (landedToken s t idx x.1 x.2).isSome

/-- The value of a source of the instruction. -/
def sourceValue (s : State) (k : TileContext) (t : Tile) (idx : Nat) (x : Nat × Src) : Nat :=
  match landedToken s t idx x.1 x.2 with
  | some l => l.token.payload.toNat
  | none => plainValue k t idx x.2

/-- The token sources of a list. -/
def onlyTokens (xs : List (Nat × Src)) : List (Nat × Src) := xs.filter fun x => isTokenSource x.2

/-! ## Escape tickets (R131, R132) -/

/-- The entry of the running context's escape table. -/
def escapeEntry (s : State) (cl : Nat) (n : Fin 4) : EscapeEntry :=
  match loadedOf s cl with
  | some l => l.escapes.get n
  | none => ⟨0, 0, false, false⟩

/-- The tickets of an entry that are outstanding at a tile. -/
def outstanding (t : Tile) (entry : Nat) : List Ticket := t.tickets.filter fun k => k.entry = entry

/-- The first free ticket of a pool in round robin. -/
def freeTicket (k : TileContext) (t : Tile) (entry pool : Nat) : Option Nat :=
  let start := vget 0 k.nextTicket entry
  (((List.range pool).map fun k => (start + k) % pool)).find? fun n => !(outstanding t entry).any fun k => k.ticket = n

/-! ## What each opcode does when it fires -/

/-- The control value of a routing opcode: B's element 0. -/
def control (k : TileContext) (v : Nat) : Nat := v % 2 ^ k.w

/-- An empty end token with the tag of A (R129). -/
def emptyEnd (tag : BitVec 16) : Token := ⟨0, false, true, tag⟩

/-- `vmerge` on data (R130). -/
def mergeFiring (s : State) (k : TileContext) (t : Tile) (idx : Nat) (y : Ty) (c : CellShape) (p : Prefix) : Option Firing :=
  let a : Nat × Src := (0, c.a)
  let b : Nat × Src := (1, c.b.getD .zero)
  let la := landedToken s t idx 0 c.a
  let lb := landedToken s t idx 1 b.2
  let take := fun (xs : List (Nat × Src)) (x : Nat × Src) =>
    let ks := consumedTokens s t idx (onlyTokens xs)
    let r := resultToken t idx ks (sourceValue s k t idx x)
    dataFiring (onlyTokens xs) ((targetsOf c p).map fun g => (g, r)) 1 noFlags
  match y with
  | .r =>
    let sel : Nat × Src := (2, p.srcC)
    if !allLanded s t idx [sel] then none
    else
      let x := if control k (sourceValue s k t idx sel) ≠ 0 then b else a
      if allLanded s t idx [x] then some (take [x, sel] x) else none
  | .n | .f =>
    match la, lb with
    | some u, some v => if v.at_ < u.at_ then some (take [b] b) else some (take [a] a)
    | some _, none => some (take [a] a)
    | none, some _ => some (take [b] b)
    | none, none => none
  | .i =>
    let q := vget 0 t.mergeTag idx
    let hit : Option Landed → Bool := fun l => match l with
      | some u => u.token.tag = q
      | none => false
    if hit la then some { take [a] a with nextTag := true }
    else if hit lb then some { take [b] b with nextTag := true }
    else none

/-- `vacc` on data (R126). -/
def accFiring (s : State) (cl : Nat) (k : TileContext) (t : Tile) (idx : Nat) (y : Ty) (c : CellShape) (p : Prefix) : Option Firing :=
  match landedToken s t idx 0 c.a, c.b with
  | some l, some (.v n) =>
    let r := laneAcc y (tileLanes s cl k t p) (t.v.get n).toNat l.token.payload.toNat
    let x : Token := ⟨BitVec.ofNat 256 r.1, false, true, l.token.tag⟩
    let sends := if l.token.last then (targetsOf c p).map fun g => (g, x) else []
    let left : Payload := if l.token.last then 0 else BitVec.ofNat 256 r.1
    some { dataFiring [(0, c.a)] sends 2 r.2 with acc := some (n, left) }
  | _, _ => none

/-- `vcfgt.n` (R119); constants of a config token are taken where the mask has bit 4j. -/
def applyFiring (s : State) (k : TileContext) (t : Tile) (idx : Nat) (c : CellShape) (p : Prefix) : Option Firing :=
  let x : Nat × Src := (0, c.a)
  if !allLanded s t idx [x] then none
  else
    let tok := match landedToken s t idx 0 c.a with
      | some l => l.token
      | none => resultToken t idx [] (plainValue k t idx c.a)
    if !tok.config then
      some (dataFiring (onlyTokens [x]) [(c.t0, tok), (p.tgt2, tok)] 1 noFlags)
    else if isFence tok then some (configForward x tok c.latency [c.t1])
    else
      let mask := if p.k = 0 then BitVec.allOnes 32 else k.masks.get p.k
      let cs : Vector (BitVec 32) 8 := Vector.ofFn fun j =>
        if mask.getLsbD (4 * j.val) then BitVec.ofNat 32 (bitsAt tok.payload.toNat (32 * j.val) 32) else k.consts.get j
      some { configForward x tok c.latency [c.t1] with consts := some cs }

/-- `esc` (R132, R133). -/
def escFiring (s : State) (cl : Nat) (k : TileContext) (t : Tile) (idx : Nat) (entry : Fin 4) (c : CellShape) (p : Prefix) : Option Firing :=
  match landedToken s t idx 0 c.a with
  | none => none
  | some l =>
    if l.token.config then
      if (outstanding t entry.val).isEmpty then some (configForward (0, c.a) l.token c.latency (targetsOf c p)) else none
    else match freeTicket k t entry.val (escapeEntry s cl entry).pool with
      | some n => some { dataFiring [(0, c.a)] [] 1 noFlags with park := some (n, l.token) }
      | none => none

/-- A routing opcode that sends A by a control, or drops it (R129). -/
def routeFiring (s : State) (k : TileContext) (t : Tile) (idx : Nat) (i : Instr) (c : CellShape) (p : Prefix) : Option Firing :=
  let xs := lettered c p
  if !allLanded s t idx xs then none
  else
    let ks := consumedTokens s t idx (onlyTokens xs)
    let r := resultToken t idx ks (sourceValue s k t idx (0, c.a))
    let aEnd := match landedToken s t idx 0 c.a with
      | some l => l.token.last
      | none => false
    let b := match c.b with
      | some b => control k (sourceValue s k t idx (1, b))
      | none => 0
    let all := fun (x : Token) => (targetsOf c p).map fun g => (g, x)
    let go := fun (sends : List (Tgt × Token)) => some (dataFiring (onlyTokens xs) sends 1 noFlags)
    match i with
    | .vsteer _ _ _ _ => go [(if b ≠ 0 then c.t1 else c.t0, r)]
    | .vgate _ _ _ _ => go (if b ≠ 0 then all r else if aEnd then all (emptyEnd r.tag) else [])
    | .vdrop _ _ _ => go (if aEnd then all (emptyEnd r.tag) else [])
    | _ => go (all { r with config := true, last := false })

/-- An opcode of R120 that computes elements. -/
def laneFiring (s : State) (cl : Nat) (k : TileContext) (t : Tile) (idx : Nat) (f : Lanes → Nat → Nat → Nat → LaneOut)
    (c : CellShape) (p : Prefix) : Option Firing :=
  let xs := lettered c p
  if !allLanded s t idx xs then none
  else
    let ks := consumedTokens s t idx (onlyTokens xs)
    let v := fun (x : Nat × Src) => sourceValue s k t idx x
    let b := match c.b with
      | some b => v (1, b)
      | none => 0
    let r := f (tileLanes s cl k t p) (v (0, c.a)) b (if c.c then v (2, p.srcC) else 0)
    let tok := resultToken t idx ks
    some (dataFiring (onlyTokens xs)
      [(c.t0, tok r.low), (c.t1, tok (r.high.getD r.low)), (p.tgt2, tok r.low)] c.latency r.flags)

/-- The firing of an instruction whose sources let it fire. -/
def firingOf (s : State) (cl : Nat) (k : TileContext) (t : Tile) (idx : Nat) (i : Instr) (c : CellShape) (p : Prefix) : Option Firing :=
  match i with
  | .vcfgt .n _ _ _ => applyFiring s k t idx c p
  | .esc n _ _ _ => escFiring s cl k t idx n c p
  | _ =>
    match configSource s t idx (lettered c p) with
    | some (n, x, tok) => some (configForward (n, x) tok c.latency (targetsOf c p))
    | none =>
      match i with
      | .vmerge y _ _ _ _ => mergeFiring s k t idx y c p
      | .vacc y _ _ _ _ => accFiring s cl k t idx y c p
      | .vsteer _ _ _ _ | .vgate _ _ _ _ | .vdrop _ _ _ | .vcfgt _ _ _ _ => routeFiring s k t idx i c p
      | _ => match laneOf i with
        | some f => laneFiring s cl k t idx f c p
        | none => none

/-! ## Readiness (R102, R103) -/

/-- A write to the register is pending (R105). -/
def regPending (t : Tile) (n : Fin 16) : Bool := t.flights.any fun f => f.dest = .reg n.val

/-- A slot that no token fills and none is on its way to. -/
def slotFree (t : Tile) (i : Nat) (holds : Option Landed) (d : Dest) : Bool :=
  holds.isNone && !(t.flights.any fun f => f.dest = d) && match t.draining with
    | some x => x.idx ≠ i
    | none => true

/-- A target can accept a result (R103). -/
def canAccept (t : Tile) : Tgt → Bool
  | .slotA i => slotFree t i.val (vget none t.slotA i.val) (.slotA i.val)
  | .slotB i => slotFree t i.val (vget none t.slotB i.val) (.slotB i.val)
  | .slotC i => slotFree t i.val (vget none t.slotC i.val) (.slotC i.val)
  | .link l => 0 < vget 0 t.credits l.code
  | .reg _ | .done | .none => true

/-- The registers that an instruction reads or writes. -/
def regsOf (c : CellShape) (p : Prefix) : List (Fin 16) :=
  ((lettered c p).filterMap fun x => match x.2 with
    | .v n => some n
    | .tok | .link _ | .iter | .lane | .zero | .c _ => none) ++
  (targetsOf c p).filterMap fun g => match g with
    | .reg n => some n
    | .slotA _ | .slotB _ | .slotC _ | .link _ | .done | .none => none

/-- The instruction reads a constant. -/
def readsConst (k : TileContext) (n : Nat) : Bool :=
  match k.instr n with
  | some (i, p) => match cellShape i with
    | some c => (lettered c p).any fun x => match x.2 with
      | .c _ => true
      | .tok | .link _ | .iter | .lane | .zero | .v _ => false
    | none => false
  | none => false

/-- No operand slot holds a data token for an instruction that reads a constant or has one on its way to it, and none has a result pending (R39, R119). -/
def constsQuiet (k : TileContext) (t : Tile) : Bool :=
  (List.range 16).all fun n =>
    let data : Option Landed → Bool := fun l => match l with
      | some x => !x.token.config
      | none => false
    !readsConst k n ||
    !(data (vget none t.slotA n) || data (vget none t.slotB n) || data (vget none t.slotC n) || t.flights.any fun f =>
      f.from_ = n || (!f.token.config && (f.dest = .slotA n || f.dest = .slotB n || f.dest = .slotC n)))

/-- The iterations of the cluster's run. -/
def iterations (s : State) (cl : Nat) : Nat := match runOf s cl with
  | some r => runTotal r
  | none => 0

/-- The tile has fired in this cycle: it fires at most one instruction in each (R104). -/
def hasFired (s : State) (cl pos : Nat) : Bool := (s.tile cl pos).lastFired = some s.clock

/-- Instruction `idx` of a tile with what its firing would do, when it is ready in this cycle (R102). -/
def readyInstr (s : State) (cl pos idx : Nat) : Option (Instr × Firing) :=
  if !tileActive s cl then none
  else match contextOf s cl pos with
    | none => none
    | some k =>
      match k.instr idx with
      | none => none
      | some (i, p) => match cellShape i with
        | none => none
        | some c =>
          let t := s.tile cl pos
          if isGenerator c p && iterations s cl ≤ vget 0 t.counts idx then none
          else if (regsOf c p).any (regPending t) then none
          else match firingOf s cl k t idx i c p with
            | none => none
            | some f =>
              if f.sends.all (fun x => canAccept t x.1) && (f.consts.isNone || constsQuiet k t) then some (i, f) else none

/-- What the instruction would do if the tile fires it now. -/
def readyFiring (s : State) (cl pos idx : Nat) : Option (Instr × Firing) :=
  if hasFired s cl pos then none else readyInstr s cl pos idx

/-- The firing is one on a config token that R118 gives. -/
def isConfigFiring (i : Instr) (f : Firing) : Bool :=
  !f.counts && match i with
    | .vcfgt .n _ _ _ | .esc _ _ _ _ => false
    | _ => true

/-! ## The effect of a firing (R104, R105) -/

/-- The token of a source consumed from the tile. -/
def consumeToken (t : Tile) (idx : Nat) (x : Nat × Src) : Tile :=
  match x.2 with
  | .tok => match x.1 with
    | 0 => { t with slotA := vset t.slotA idx none }
    | 1 => { t with slotB := vset t.slotB idx none }
    | _ => { t with slotC := vset t.slotC idx none }
  | .link l => { t with fifo := vset t.fifo l.code ((vget [] t.fifo l.code).drop 1) }
  | .iter | .lane | .zero | .c _ | .v _ => t

/-- A pop of a link's FIFO: its credit returns, or is withheld while the node drains (R103, R174). -/
def popCredit (s : State) (cl pos idx : Nat) (l : Link) : State :=
  let t := s.tile cl pos
  match t.draining with
  | some d =>
    if d.idx = idx then
      let d := { d with
        links := vset d.links l.code (vget 0 d.links l.code - 1)
        withheld := vset d.withheld l.code (vget 0 d.withheld l.code + 1) }
      s.setTile cl pos { t with draining := some d }
    else returnCredit s cl pos l
  | none => returnCredit s cl pos l

/-- The sources of a firing without a link named twice. -/
def onceEach : List (Nat × Src) → List (Nat × Src)
  | [] => []
  | x :: r =>
    let twice := match x.2 with
      | .link _ => r.any fun y => y.2 = x.2
      | .tok | .iter | .lane | .zero | .c _ | .v _ => false
    if twice then onceEach r else x :: onceEach r

/-- Every token of a firing consumed. -/
def consumeAll (s : State) (cl pos idx : Nat) (xs : List (Nat × Src)) : State :=
  (onceEach xs).foldl (fun (s : State) x =>
    let s := s.setTile cl pos (consumeToken (s.tile cl pos) idx x)
    match x.2 with
    | .link l => popCredit s cl pos idx l
    | .tok | .iter | .lane | .zero | .c _ | .v _ => s) s

/-- The cycles that a token takes over an output link. -/
def hopOf (s : State) (cl pos : Nat) (l : Link) : Nat :=
  match linkEnd s cl pos l with
  | .fifo _ _ _ hop => hop
  | .block _ _ | .port _ | .stageIn _ _ | .stageExit _ _ _ | .nothing => 1

/-- The counters after a done firing, i0 innermost (R245). -/
def stepCounters (n : Vector Nat 4) (i : Vector (BitVec 32) 4) : Vector (BitVec 32) 4 :=
  let up := fun (k : Nat) => (vget 0 i k).toNat + 1
  let rec go (k : Nat) (i : Vector (BitVec 32) 4) : Nat → Vector (BitVec 32) 4
    | 0 => i
    | m + 1 => if up k < vget 0 n k then vset i k (BitVec.ofNat 32 (up k)) else go (k + 1) (vset i k 0) m
  go 0 i 4

/-- A token sent to a target: the slot reserved, the credit spent, or the done signal raised (R103 to R105, R134). -/
def sendToken (s : State) (cl pos idx latency : Nat) (x : Tgt × Token) : State :=
  let t := s.tile cl pos
  let fly := fun (d : Dest) (hop : Nat) => { t with flights := t.flights ++ [⟨s.clock + latency + hop, d, x.2, idx⟩] }
  match x.1 with
  | .slotA i => s.setTile cl pos (fly (.slotA i.val) 0)
  | .slotB i => s.setTile cl pos (fly (.slotB i.val) 0)
  | .slotC i => s.setTile cl pos (fly (.slotC i.val) 0)
  | .reg n => s.setTile cl pos (fly (.reg n.val) 0)
  | .link l =>
    let t := fly (.link l) (hopOf s cl pos l)
    s.setTile cl pos { t with credits := vset t.credits l.code (vget 0 t.credits l.code - 1) }
  | .done =>
    let n := match runOf s cl with
      | some r => r.n
      | none => Vector.replicate 4 1
    let t := fly .done 0
    s.setTile cl pos { t with doneCount := t.doneCount + 1, i := stepCounters n t.i }
  | .none => s

/-- The running context of a tile changed. -/
def mapContext (s : State) (cl pos : Nat) (f : TileContext → TileContext) : State :=
  match runOf s cl with
  | some r =>
    let t := s.tile cl pos
    s.setTile cl pos { t with contexts := vset t.contexts r.slot (f (vget TileContext.fresh t.contexts r.slot)) }
  | none => s

/-- A payload parked under its ticket and queued for dispatch (R132). -/
def parkEscape (s : State) (cl pos idx : Nat) (entry : Fin 4) (ticket : Nat) (k : Token) : State :=
  let t := s.tile cl pos
  let pool := (escapeEntry s cl entry).pool
  let s := s.setTile cl pos { t with
    tickets := t.tickets ++ [⟨idx, entry.val, ticket, t.nextOrder, k, none⟩]
    nextOrder := t.nextOrder + 1 }
  let s := mapContext s cl pos fun c => { c with nextTicket := vset c.nextTicket entry.val ((ticket + 1) % pool) }
  match regionTask s cl with
  | none => s
  | some n =>
    let g := s.segment cl
    s.setSegment cl { g with parked := g.parked ++ [⟨n, cl, pos, idx, entry.val, ticket, k.payload, k.tag⟩] }

/-- The slots that a firing consumes. -/
def slotsOf (idx : Nat) (xs : List (Nat × Src)) : List Dest := xs.filterMap fun x => match x.2, x.1 with
  | .tok, 0 => some (.slotA idx)
  | .tok, 1 => some (.slotB idx)
  | .tok, _ => some (.slotC idx)
  | .link _, _ | .iter, _ | .lane, _ | .zero, _ | .c _, _ | .v _, _ => none

/-- The registers and counts of a tile after a firing. -/
def afterFiring (t : Tile) (idx : Nat) (clock : Nat) (f : Firing) : Tile :=
  let flights := match f.acc with
    | some (n, v) => t.flights ++ [⟨clock + f.latency, .reg n.val, ⟨v, false, false, 0⟩, idx⟩]
    | none => t.flights
  { t with
    flights := flights
    counts := if f.counts then vset t.counts idx (vget 0 t.counts idx + 1) else t.counts
    mergeTag := if f.nextTag then vset t.mergeTag idx (vget 0 t.mergeTag idx + 1) else t.mergeTag
    waits := vset t.waits idx 0
    lastFired := some clock
    consumed := slotsOf idx f.consumes
    flags := t.flags ||| f.flags }

/-- New constants of the running context (R119). -/
def setConsts (s : State) (cl pos : Nat) (cs : Option (Vector (BitVec 32) 8)) : State :=
  match cs with
  | some cs => mapContext s cl pos fun k => { k with consts := cs }
  | none => s

/-- The last cycle in which the region made progress (R261). -/
def noteProgress (s : State) (cl : Nat) : State :=
  let lead := leadOf s cl
  s.setRegion lead { s.region lead with progress := s.clock }

/-- Instruction `idx` of a tile fires. -/
def fire (s : State) (cl pos idx : Nat) (i : Instr) (f : Firing) : State :=
  let s := consumeAll s cl pos idx f.consumes
  let s := f.sends.foldl (fun (s : State) x => sendToken s cl pos idx f.latency x) s
  let s := match f.park, i with
    | some (n, k), .esc entry _ _ _ => parkEscape s cl pos idx entry n k
    | _, _ => s
  let s := setConsts s cl pos f.consts
  noteProgress (s.setTile cl pos (afterFiring (s.tile cl pos) idx s.clock f)) cl

/-- A cell instruction on its tile: it fires when its slot holds it and it is ready, and else nothing happens. -/
def fireCell (i : Instr) (cl pos idx : Nat) (s : State) : Out :=
  match readyFiring s cl pos idx with
  | some (j, f) => if j = i && !isConfigFiring j f then .next (fire s cl pos idx j f) else .next s
  | none => .next s

/-- CONFIG_FIRING: the instruction forwards the config token at the head of a source (R118). -/
def execConfigFiring (cl pos idx : Nat) (s : State) : Out :=
  match readyFiring s cl pos idx with
  | some (j, f) => if isConfigFiring j f then .next (fire s cl pos idx j f) else .next s
  | none => .next s

/-- A cell word, by the agent that runs it: a firing of a tile, or an instruction of an epilogue sequencer's stream. -/
def asFiring (i : Instr) (s : State) (row : State → Out) : Out :=
  match s.cur with
  | .tile cl pos idx => fireCell i cl pos idx s
  | .thread _ _ | .region _ | .matrix _ _ | .epilogue _ _ | .copySeq _ _ => row s

/-! ## Arbitration (R106) -/

/-- The ready instructions of a tile. -/
def readyList (s : State) (cl pos : Nat) : List Nat := (List.range 16).filter fun n => (readyFiring s cl pos n).isSome

/-- Readiness ages: the cycle in which each instruction last went from not ready to ready. -/
def ageReady (s : State) (t : Tile) (ready : List Nat) : Tile :=
  { t with readySince := Vector.ofFn fun n =>
      if ready.contains n.val then some ((vget none t.readySince n.val).getD s.clock) else none }

/-- The first of the cycles `first` to `last`, through which nothing but the clock moves, in which an instruction is ready: the run starts, or a token lands that is at most two cycles on its way. -/
def readyFrom (s : State) (cl pos first last idx : Nat) : Option Nat :=
  let start := match runOf s cl with
    | some r => r.start
    | none => first
  (([first, first + 1, first + 2, max first start].filter fun k => k ≤ last)).find? fun k =>
    (readyInstr { s with clock := k } cl pos idx).isSome

/-- A tile over the cycles up to `last` in which it does not fire: the wait count of an instruction rises in each in which it is ready, and its age starts with the first after one in which it is not (R106). -/
def idleTile (s : State) (last : Nat) (p : (Nat × Nat) × Tile) : (Nat × Nat) × Tile :=
  let (cl, pos) := p.1
  let t := p.2
  let first := if t.lastFired = some s.clock then s.clock + 1 else s.clock
  if last < first then p
  else if !tileActive { s with clock := last } cl then (p.1, { t with readySince := Vector.replicate 16 none })
  else
    let from_ := Vector.ofFn fun (n : Fin 16) => readyFrom s cl pos first last n.val
    (p.1, { t with
      waits := Vector.ofFn fun n => match vget none from_ n.val with
        | some k => vget 0 t.waits n.val + (last + 1 - k)
        | none => vget 0 t.waits n.val
      readySince := Vector.ofFn fun n => match vget none from_ n.val with
        | some k => if k = first then some ((vget none t.readySince n.val).getD k) else some k
        | none => none })

/-- The earliest ready instruction, the lowest index among equals. -/
def oldest (t : Tile) : List Nat → Option Nat
  | [] => none
  | n :: r => match oldest t r with
    | some m => if (vget none t.readySince m).getD 0 < (vget none t.readySince n).getD 0 then some m else some n
    | none => some n

/-- The instruction that fires: the lowest starved one, else the earliest ready. -/
def pickReady (t : Tile) (ready : List Nat) : Option Nat :=
  match ready.find? fun n => 16 ≤ vget 0 t.waits n with
  | some n => some n
  | none => oldest t ready

/-- A cycle of a tile: its choice, with the wait counts of the others that are ready raised. -/
def arbitrate (s : State) (cl pos : Nat) : Option Nat × State :=
  let ready := readyList s cl pos
  let t := s.tile cl pos
  let t := ageReady s t ready
  let pick := pickReady t ready
  let waits := Vector.ofFn fun (n : Fin 16) =>
    if ready.contains n.val && pick ≠ some n.val then vget 0 t.waits n.val + 1 else vget 0 t.waits n.val
  (pick, s.setTile cl pos { t with waits := waits })

/-- The operation that a firing of the tile's choice performs: the slot's instruction, or a config firing. -/
def chosenInstr (s : State) (cl pos idx : Nat) : Option Instr :=
  match readyFiring s cl pos idx with
  | some (i, f) => some (if isConfigFiring i f then .configFiring cl pos idx else i)
  | none => none

end Sys2Proof.Machine
end

