-- ==== Sys2Proof/Machine/Flight.lean ====
section
/-! DEFINITION. Tokens and credits on their way, escapes between tiles and the swarm, and stages (R101, R103, R105, R133, R252 to R257, R268, R269, R277). -/

namespace Sys2Proof.Machine

/-! ## Delivery (R101, R105) -/

/-- A token that has come over an output link reaches the far side. -/
def arrive (s : State) (cl pos : Nat) (l : Link) (k : Token) (at_ : Nat) : State :=
  match linkEnd s cl pos l with
  | .fifo cl' pos' l' _ => pushFifo s cl' pos' l' k at_
  | .block blk p =>
    let b := s.block blk
    takeTokens (s.setBlock blk { b with ports := vset b.ports p (vget [] b.ports p ++ [⟨k, at_⟩]) }) blk 64
  | .port p =>
    let x := s.port p
    s.setPort p { x with input := x.input ++ [⟨k, at_⟩] }
  | .stageIn lead n =>
    match stageOf s lead n with
    | some g => setStage s lead n (restamp s.clock { g with input := g.input ++ [⟨k, at_⟩] })
    | none => s
  | .stageExit lead n r =>
    match stageOf s lead n with
    | some g => setStage s lead n { g with exits := vset g.exits r (vget [] g.exits r ++ [⟨k, at_⟩]) }
    | none => s
  | .nothing => s

/-- A result reaches its place. `vmerge.n` compares the cycle in which it was due, also where it was held behind an earlier and slower one on the same link (R130; DESIGN CHOICE, log entry 46). -/
def land (s : State) (cl pos : Nat) (f : Flight) : State :=
  let t := s.tile cl pos
  let x : Landed := ⟨f.token, f.due⟩
  match f.dest with
  | .slotA i => s.setTile cl pos { t with slotA := vset t.slotA i (some x) }
  | .slotB i => s.setTile cl pos { t with slotB := vset t.slotB i (some x) }
  | .slotC i => s.setTile cl pos { t with slotC := vset t.slotC i (some x) }
  | .reg n => s.setTile cl pos { t with v := vset t.v n f.token.payload }
  | .link l => arrive s cl pos l f.token f.due
  | .done => s

/-- TOKEN_DELIVERY: flight `n` of a tile is delivered, once it is due and no earlier one to the same place is left. -/
def execTokenDelivery (cl pos n : Nat) (s : State) : Out :=
  let t := s.tile cl pos
  match nth? t.flights n with
  | none => .next s
  | some f =>
    if s.clock < f.due || (t.flights.take n).any fun g => g.dest = f.dest then .next s
    else .next (land (s.setTile cl pos { t with flights := dropNth t.flights n }) cl pos f)

/-- CREDIT_RETURN: credit `n` on its way to a tile counts (R103), unless the tile's task stands still (R366, R370). -/
def execCreditReturn (cl pos n : Nat) (s : State) : Out :=
  let t := s.tile cl pos
  match nth? t.creditsDue n with
  | none => .next s
  | some (l, due) =>
    if s.clock < due || clusterHeld s cl then .next s
    else .next (s.setTile cl pos { t with
      creditsDue := dropNth t.creditsDue n
      credits := vset t.credits l (vget 0 t.credits l + 1) })

/-! ## Replies (R133) -/

/-- The targets of the `esc` in a slot. -/
def replyTargets (k : TileContext) (idx : Nat) : Option (List Tgt) :=
  match k.instr idx with
  | some (i, p) => match i, cellShape i with
    | .esc _ _ _ _, some c => some ((targetsOf c p).filter fun t => t ≠ .none)
    | _, _ => none
  | none => none

/-- The mode of the entry lets a ticket with a reply deliver now. -/
def replyTurn (t : Tile) (ordered : Bool) (k : Ticket) (back : Nat) : Bool :=
  let others := (outstanding t k.entry).filter fun m => m.ticket ≠ k.ticket
  if ordered then others.all fun m => k.order < m.order
  else if k.token.last then others.isEmpty
  else others.all fun m => match m.reply with
    | some (_, _, n) => back < n || m.token.last
    | none => true

/-- The target is a slot that the tile's last firing consumed. -/
def justConsumed (t : Tile) : Tgt → Bool
  | .slotA i => t.consumed.contains (.slotA i.val)
  | .slotB i => t.consumed.contains (.slotB i.val)
  | .slotC i => t.consumed.contains (.slotC i.val)
  | .link _ | .reg _ | .done | .none => false

/-- ESCAPE_REPLY_DELIVERY: a reply becomes a token, as a firing of latency 1, and its ticket is free.
A slot that the tile has consumed in this cycle is empty from the next one on (R104). It is no instruction, so the tile may fire one in the same cycle (R104, R133; DEDUCED, log entry 52). -/
def execEscapeReplyDelivery (cl pos idx ticket : Nat) (s : State) : Out :=
  let t := s.tile cl pos
  match t.tickets.find? fun k => k.idx = idx && k.ticket = ticket, contextOf s cl pos with
  | some k, some c =>
    match k.reply, replyTargets c idx with
    | some (v, due, back), some ts =>
      let ordered := (escapeEntry s cl (Fin.ofNat 4 k.entry)).ordered
      let regs := ts.all fun g => match g with
        | .reg n => !regPending t n
        | .slotA _ | .slotB _ | .slotC _ | .link _ | .done | .none => true
      if due ≤ s.clock && tileActive s cl && replyTurn t ordered k back && regs && ts.all (canAccept t) && !(hasFired s cl pos && ts.any (justConsumed t)) then
        let tok : Token := ⟨v, false, k.token.last, k.token.tag⟩
        let s := s.setTile cl pos { t with tickets := t.tickets.filter fun m => m ≠ k }
        .next (noteProgress (ts.foldl (fun (s : State) g => sendToken s cl pos idx 1 (g, tok)) s) cl)
      else .next s
    | _, _ => .next s
  | _, _ => .next s

/-! ## Dispatch (R257, R268, R269, R277) -/

/-- The task on the units that reserved a slot for its escapes. -/
def reservedBy (s : State) (core slot : Nat) : Option Nat :=
  (s.tasks.find? fun p => p.2.holds && (tget 0 core p.2.reserved).testBit slot).map Prod.fst

/-- A slot that an escape of a task may take. -/
def slotOpen (s : State) (task core slot : Nat) : Bool :=
  let declared := match s.task task with
    | some t => t.hasCore core
    | none => false
  declared && (s.hart (.thread core slot)).status = .empty && match reservedBy s core slot with
    | some n => n = task
    | none => true

/-- A task of class U, whose reserved slots serve its escapes first. -/
def isClassU (s : State) (task : Nat) : Bool :=
  match s.task task with
  | some t => (s.queue t.queue).class_ = 0
  | none => false

/-- The candidate cores of a tile's column. -/
def candidates (s : State) (e : Escape) : List Nat :=
  ((List.range 4).map fun k => 64 * e.cl + 4 * posCol e.pos + k).filter fun c =>
    match s.task e.task with
    | some t => t.hasCore c
    | none => false

/-- The head of a queue may take a slot: one of a candidate goes first when several are free. -/
def headTakes (s : State) (e : Escape) (core slot : Nat) : Bool :=
  taskRuns s e.task && coreCluster core = e.cl && slotOpen s e.task core slot &&
  ((candidates s e).contains core ||
    !(candidates s e).any fun c => (List.range 16).any fun n => slotOpen s e.task c n)

/-- The payload at the head of a queue that a slot goes to: of the class U queue, which is served first, or of the shared one (R269, R277). -/
def slotHead (s : State) (g : Segment) (core slot : Nat) : Option (Escape × Bool) :=
  let head := fun (l : List Escape) => match l with
    | e :: _ => if headTakes s e core slot then some e else none
    | [] => none
  match head g.reserved with
  | some e => some (e, true)
  | none => (head g.escapes).map fun e => (e, false)

/-- The slots of a core that dispatch may give to a payload: those that no queued payload takes first, of a class U task the reserved ones, else any that it may use. -/
def dispatchSlots (s : State) (task core : Nat) : List Nat :=
  let g := s.segment (coreCluster core)
  (List.range 16).filter fun n =>
    slotOpen s task core n && (slotHead s g core n).isNone && (!isClassU s task || reservedBy s core n = some task)

/-- The candidate with the most slots for the escape, the lowest core among equals. -/
def bestCore (s : State) (e : Escape) : List Nat → Option Nat
  | [] => none
  | c :: r =>
    let n := (dispatchSlots s e.task c).length
    match bestCore s e r with
    | some m => if n < (dispatchSlots s e.task m).length || n = 0 then some m else some c
    | none => if n = 0 then none else some c

/-- A thread starts for an escape (R132, R170, R269). -/
def startEscape (s : State) (e : Escape) (core slot : Nat) : State :=
  let a := AgentId.thread core slot
  let part := fun (k : Nat) => BitVec.ofNat 64 (bitsAt e.payload.toNat (64 * k) 64)
  let (args, tvec) := match s.task e.task with
    | some t => (t.args, t.tvec)
    | none => (0, 0)
  let handler := match loadedOf s e.cl with
    | some l => (vget ⟨0, 0, false, false⟩ l.escapes e.entry).handler
    | none => 0
  let h := { Hart.fresh with
    status := .ready
    origin := .escape e.cl e.pos e.entry e.ticket
    task := some e.task
    pc := evenPc handler
    tvec := tvec
    lastIssue := (s.hart a).lastIssue }
  s.setHart a (h.setRegs [(3, part 0), (4, part 1), (5, part 2), (6, part 3), (7, e.tag.setWidth 64),
    (8, BitVec.ofNat 64 (e.ticket + 2 ^ 4 * e.entry + 2 ^ 8 * e.pos + 2 ^ 16 * e.cl)),
    (30, args), (2, BitVec.ofNat 64 (stackTop core slot))])

/-- ESCAPE_DISPATCH: parked payload `n` of a segment goes to its best candidate, or to the queue of its class (R268, R269, R277). -/
def execEscapeDispatch (cl n core : Nat) (s : State) : Out :=
  let g := s.segment cl
  match nth? g.parked n with
  | none => .next s
  | some e =>
    if !taskRuns s e.task then .next s
    else match bestCore s e (candidates s e) with
      | some c =>
        match dispatchSlots s e.task c with
        | slot :: _ =>
          if c = core then .next (startEscape (s.setSegment cl { g with parked := dropNth g.parked n }) e c slot) else .next s
        | [] => .next s
      | none =>
        let g' := { g with parked := dropNth g.parked n }
        if isClassU s e.task then
          if g.reserved.length < 64 then .next (s.setSegment cl { g' with reserved := g.reserved ++ [e] }) else .next s
        else if g.escapes.length < 256 then .next (s.setSegment cl { g' with escapes := g.escapes ++ [e] })
        else .next s

/-- ESCAPE_QUEUE_START: a free slot takes the head of the class U queue, or else of the shared queue. -/
def execEscapeQueueStart (cl core slot : Nat) (s : State) : Out :=
  if 16 ≤ slot then .fault .noSuchUnit
  else
    let g := s.segment cl
    match slotHead s g core slot with
    | some (e, true) => .next (startEscape (s.setSegment cl { g with reserved := g.reserved.drop 1 }) e core slot)
    | some (e, false) => .next (startEscape (s.setSegment cl { g with escapes := g.escapes.drop 1 }) e core slot)
    | none => .next s

/-! ## Stages (R252 to R255) -/

/-- The tile of a replica of a stage that has a mark: its cluster, position and context. -/
def replicaTile (s : State) (lead k r : Nat) (mark : TileContext → Bool) : Option (Nat × Nat × TileContext) :=
  match loadedOf s lead with
  | none => none
  | some l => l.tiles.findSome? fun p =>
    match contextOf s p.1 p.2 with
    | some c => if c.inStage && c.stage = k && c.replica = r && mark c then some (p.1, p.2, c) else none
    | none => none

/-- The replicas that the splitter deals to. -/
def dealCount (g : Stage) : Nat := match g.changing with
  | some n => if g.fencesLeft = 0 then n else g.active
  | none => g.active

/-- A token leaves the splitter for the entry link of a replica; the pass adds 2 cycles. -/
def dealTo (s : State) (lead k r : Nat) (g : Stage) (x : Token) : Option State :=
  let g := g.settled s.clock
  if vget 0 g.entryCredits r = 0 then none
  else match replicaTile s lead k r TileContext.entry with
    | none => none
    | some (cl, pos, c) =>
      let g := { g with entryCredits := vset g.entryCredits r (vget 0 g.entryCredits r - 1) }
      some (pushFifo (setStage s lead k (restamp s.clock g)) cl pos c.entryLink x (s.clock + 2))

/-- The turn fence. -/
def turnFence : Token := ⟨0, true, true, 0xFFFF⟩

/-- What a stage's controller does first in every turn: credits that have come back count, and the output queue feeds DRAIN. -/
def drainStage (s : State) (lead k : Nat) : State := if tileActive s lead then feedDrain s lead k 64 else s

/-- SPLITTER_DEAL: a fence still owed, or the next token of the input queue, goes to the replica whose turn it is. -/
def execSplitterDeal (cl stage : Nat) (s : State) : Out :=
  let s := drainStage s cl stage
  match stageOf s cl stage with
  | none => .next s
  | some g =>
    if !tileActive s cl then .next s
    else if g.fencesLeft ≠ 0 then
      match dealTo s cl stage (g.active - g.fencesLeft) { g with fencesLeft := g.fencesLeft - 1, splitPos := 0 } turnFence with
      | some s => .next s
      | none => .next s
    else match g.input with
      | [] => .next s
      | x :: r =>
        if s.clock < x.at_ then .next s
        else
          let next := (g.splitPos + 1) % dealCount g
          match dealTo s cl stage g.splitPos { g with input := r, splitPos := next } x.token with
          | some s =>
            let (col, pos, l) := StageEntry.feed g.entry
            .next (owedCredit s (columnCluster cl col) pos l 1)
          | none => .next s

/-- The credit of a token taken from the exit link of a replica returns to its tile. -/
def exitCredit (s : State) (lead k r : Nat) : State :=
  match replicaTile s lead k r TileContext.exits with
  | some (cl, pos, c) => owedCredit s cl pos c.exitLink 1
  | none => s

/-- The landed head of a replica's exit link. -/
def exitHead (s : State) (g : Stage) (r : Nat) : Option Token :=
  match vget [] g.exits r with
  | x :: _ => if x.at_ ≤ s.clock then some x.token else none
  | [] => none

/-- The head of a replica's exit link leaves it. -/
def takeExit (s : State) (lead k r : Nat) : State :=
  match stageOf s lead k with
  | none => s
  | some g => exitCredit (setStage s lead k { g with exits := vset g.exits r ((vget [] g.exits r).drop 1) }) lead k r

/-- MERGER_TAKE: the token of the replica whose turn it is enters the output queue; a fence waits while the stage changes. -/
def execMergerTake (cl stage : Nat) (s : State) : Out :=
  let s := drainStage s cl stage
  match stageOf s cl stage with
  | none => .next s
  | some g =>
    match exitHead s g g.mergePos with
    | none => .next s
    | some x =>
      if !tileActive s cl || 64 ≤ g.output.length || (isFence x && g.changing.isSome) then .next s
      else
        let s := takeExit s cl stage g.mergePos
        match stageOf s cl stage with
        | none => .next s
        | some g' =>
          let g' := restamp s.clock { g' with output := g'.output ++ [⟨x, s.clock⟩], mergePos := (g.mergePos + 1) % g.active }
          .next (feedDrain (setStage s cl stage g') cl stage 64)

/-- A mark has stood for 256 cycles. -/
def dwelt (s : State) (since : Option Nat) : Bool :=
  match since with
  | some n => n + 256 ≤ s.clock
  | none => false

/-- The operand slots of a tile emptied, with what is on its way to them. -/
def emptySlots (t : Tile) : Tile :=
  { t with
    slotA := Vector.replicate 16 none
    slotB := Vector.replicate 16 none
    slotC := Vector.replicate 8 none
    flights := t.flights.filter fun f => match f.dest with
      | .slotA _ | .slotB _ | .slotC _ => false
      | .reg _ | .link _ | .done => true }

/-- A replica that is switched on starts with its slots empty and keeps its registers (R255). -/
def emptyReplica (s : State) (lead k r : Nat) : State :=
  match loadedOf s lead with
  | none => s
  | some l => l.tiles.foldl (fun (s : State) p =>
      match contextOf s p.1 p.2 with
      | some c => if c.inStage && c.stage = k && c.replica = r then s.setTile p.1 p.2 (emptySlots (s.tile p.1 p.2)) else s
      | none => s) s

/-- A change of the number of active replicas starts: fences to all of them first (R255). -/
def startChange (s : State) (lead k n : Nat) (g : Stage) : State :=
  let s := if g.active < n then emptyReplica s lead k g.active else s
  setStage s lead k (restamp s.clock { g with changing := some n, fencesLeft := g.active, highSince := none, lowSince := none })

/-- STAGE_HIGH: another replica is switched on. -/
def execStageHigh (cl stage : Nat) (s : State) : Out :=
  match stageOf s cl stage with
  | some g =>
    if tileActive s cl && g.changing.isNone && g.active < StageEntry.placed g.entry && dwelt s g.highSince then
      .next (startChange s cl stage (g.active + 1) g)
    else .next s
  | none => .next s

/-- STAGE_LOW: a replica is switched off. -/
def execStageLow (cl stage : Nat) (s : State) : Out :=
  match stageOf s cl stage with
  | some g =>
    if tileActive s cl && g.changing.isNone && 1 < g.active && dwelt s g.lowSince then
      .next (startChange s cl stage (g.active - 1) g)
    else .next s
  | none => .next s

/-- STAGE_FENCE_MERGE: with a fence at the head of every active replica, the merger consumes them and takes under the new number. -/
def execStageFenceMerge (cl stage : Nat) (s : State) : Out :=
  match stageOf s cl stage with
  | none => .next s
  | some g =>
    match g.changing with
    | none => .next s
    | some n =>
      let fences := (List.range g.active).all fun r => match exitHead s g r with
        | some x => isFence x
        | none => false
      if !tileActive s cl || !fences then .next s
      else
        let s := (List.range g.active).foldl (fun (s : State) r => takeExit s cl stage r) s
        match stageOf s cl stage with
        | none => .next s
        | some g => .next (setStage s cl stage (restamp s.clock { g with
            active := n, changing := none, mergePos := 0, highSince := none, lowSince := none }))

end Sys2Proof.Machine
end

