-- ==== Sys2Proof/Machine/Image.lean ====
section
/-! DEFINITION. Context images: reading one, its checks, and loading it (R66, R172, R242 to R244, R252, R288). -/

namespace Sys2Proof.Machine

/-! ## Reading by a region sequencer -/

/-- `n` aligned bytes inside one line, as an agent reads them on path t at thread scope. -/
def agentRead (s : State) (a : AgentId) (task : Option Nat) (va : Word) (n : Nat) : Except AddrFault (Nat × State) :=
  match resolve s a task va n .read false with
  | .error f => .error f
  | .ok (.bank _ _ addr) | .ok (.localMem _ addr) => .ok (s.backingBytes addr n, s)
  | .ok (.fifo _ _) | .ok (.bankControl _ _) => .error .protection
  | .ok (.memory pa coh _ shared) =>
    match siteOf s pa shared with
    | .here | .moving | .copy _ => .ok (readMemory s a task va (levelOf a .thread) (coherentAt s task va coh) pa n 4)
    | .absent p => if reach s p = .down then .error .protection else .error .waits
    | .uncached p => match reach s p with
      | .up => .ok (freeBytes s n)
      | .retraining => .error .waits
      | .down => .error .protection

/-- Eight words of each of `n` lines from an address on. -/
def readLines (s : State) (a : AgentId) (task : Option Nat) (va : Word) : Nat → Except (Word × AddrFault) (List Word × State)
  | 0 => .ok ([], s)
  | n + 1 =>
    match agentRead s a task va 64 with
    | .error f => .error (va, f)
    | .ok (v, s) =>
      match readLines s a task (va + 64) n with
      | .error f => .error f
      | .ok (ws, s) => .ok ((List.range 8).map (fun k => BitVec.ofNat 64 (bitsAt v (64 * k) 64)) ++ ws, s)

/-- `m` records of `n` lines each. -/
def readRecords (s : State) (a : AgentId) (task : Option Nat) (va : Word) (n : Nat) : Nat → Except (Word × AddrFault) (List (List Word) × State)
  | 0 => .ok ([], s)
  | m + 1 =>
    match readLines s a task va n with
    | .error f => .error f
    | .ok (ws, s) => match readRecords s a task (va + BitVec.ofNat 64 (64 * n)) n m with
      | .error f => .error f
      | .ok (r, s) => .ok (ws :: r, s)

/-! ## Checks of a slot (R52, R55, R65, R115, R172) -/

/-- The cause of a word that decodes to no instruction. -/
def rejectCause : Reject → Nat
  | .badSource | .badTarget => 3
  | _ => 1

/-- The prefix of a slot, or the cause of its misuse. -/
def checkPrefix (w : Nat) : Except Nat Prefix :=
  if w = 0 then .ok .implied
  else if !isPrefixWord w then .error 4
  else match decodeW w with
    | .ok i => match asPrefix i with
      | some p => .ok p
      | none => .error 4
    | .error .badRounding => .error 5
    | .error .badTarget => .error 3
    | .error _ => .error 4

/-- The opcode reads what its entry allows: `vacc` and `esc` take tokens, and `vacc` names a v register that it does not also target (R126, R131). -/
def operandsOk (i : Instr) (c : CellShape) (p : Prefix) : Bool :=
  match i with
  | .vacc _ _ _ _ _ => isTokenSource c.a && match c.b with
    | some (.v n) => !(targetsOf c p).contains (.reg n)
    | _ => false
  | .esc _ _ _ _ => isTokenSource c.a
  | _ => true

/-- One slot of a context of width `w` on its own: the instruction, nothing for an empty slot, or the cause.
A third source in the prefix of an opcode that reads none fits causes 3 and 4 of R172; it is 4 (DESIGN CHOICE, log entry 34). -/
def checkSlot (w idx : Nat) (word : BitVec 64) : Except Nat (Option (Instr × CellShape × Prefix)) :=
  if word = 0 then .ok none
  else match checkPrefix (word.toNat % 2 ^ 32) with
    | .error c => .error c
    | .ok p => if !isCellWord (word.toNat / 2 ^ 32) then .error (if word.toNat % 2 ^ 32 = 0 then 1 else 4)
      else match decodeW (word.toNat / 2 ^ 32) with
      | .error r => .error (rejectCause r)
      | .ok i => match cellShape i with
        | none => .error 1
        | some c =>
          if !i.wellFormed || !widthOk i w then .error 1
          else if !unusedFieldOk i || !distinctTargets [c.t0, c.t1] || !operandsOk i c p then .error 3
          else if !c.options.accept p || !distinctTargets (targetsOf c p) then .error 4
          else if c.c && p.srcC = .tok && 8 ≤ idx then .error 4
          else .ok (some (i, c, p))

/-- The slot that a target names. -/
def namedSlot : Tgt → Option Nat
  | .slotA i | .slotB i => some i.val
  | .slotC i => some i.val
  | .reg _ | .link _ | .done | .none => none

/-- The links that an instruction reads, each once. -/
def linksRead (c : CellShape) (p : Prefix) : List Link :=
  ((lettered c p).filterMap fun x => match x.2 with
    | .link l => some l
    | .tok | .iter | .lane | .zero | .c _ | .v _ => none).eraseDups

/-- The slots of a context one by one: the first error with its slot (R52, R111, R131). -/
def checkSlots (k : TileContext) (escapes : Vector EscapeEntry 4) : Nat → Nat → List Link → Option (Nat × Nat)
  | 0, _, _ => none
  | n + 1, idx, read =>
    match checkSlot k.w idx (vget 0 k.slots idx) with
    | .error c => some (c, idx)
    | .ok none => checkSlots k escapes n (idx + 1) read
    | .ok (some (i, c, p)) =>
      let empty := (targetsOf c p).any fun t => match namedSlot t with
        | some m => vget 0 k.slots m = 0
        | none => false
      let twice := (linksRead c p).any fun l => read.contains l
      let badEntry := match i with
        | .esc e _ _ _ => !(escapes.get e).valid
        | _ => false
      if empty then some (6, idx)
      else if twice then some (7, idx)
      else if badEntry then some (8, idx)
      else checkSlots k escapes n (idx + 1) (read ++ linksRead c p)

/-! ## Checks of the image's tables (R242 to R244, R252, R288) -/

/-- An escape-table entry, if it is one. -/
def escapeOf (handler w : Word) : Option EscapeEntry :=
  let pool := w.toNat % 2 ^ 5
  let valid := w.getLsbD 9
  if w &&& ~~~0x31F#64 ≠ 0 || (valid && (pool = 0 || 16 < pool)) then none
  else some ⟨handler, pool, w.getLsbD 8, valid⟩

/-- A stage-table entry keeps R252. -/
def stageLegal (w : Word) : Bool :=
  w.toNat / 2 ^ 48 = 0 && w.toNat / 2 ^ 22 % 4 = 0 &&
  StageEntry.low w < StageEntry.high w && StageEntry.high w ≤ 64 && StageEntry.act0 w ≤ StageEntry.placed w

/-- The context that a tile record loads; k0 is all ones (R64). -/
def contextOfRecord (r : List Word) : TileContext where
  loaded := true
  control := (nth 0 r 0).setWidth 32 |>.setWidth 64
  masks := Vector.ofFn fun k =>
    if k.val = 0 then BitVec.allOnes 32 else BitVec.ofNat 32 ((nth 0 r (k.val / 2)).toNat / 2 ^ (32 * (k.val % 2)))
  consts := Vector.ofFn fun k => BitVec.ofNat 32 ((nth 0 r (4 + k.val / 2)).toNat / 2 ^ (32 * (k.val % 2)))
  slots := Vector.ofFn fun k => nth 0 r (8 + k.val)
  nextTicket := Vector.replicate 4 0

namespace TileContext

def pos (c : TileContext) : Nat := c.word / 2 ^ 8 % 2 ^ 8
def col (c : TileContext) : Nat := c.word / 2 ^ 16 % 4

/-- The control word keeps R243 and R244, within a group of clusters and a number of stages. -/
def headerLegal (c : TileContext) (lead : Nat) (group : List Nat) (stages : Nat) : Bool :=
  c.word % 4 ≠ 3 && c.word / 2 ^ 6 % 4 = 0 && isTile c.pos && group.contains (columnCluster lead c.col) &&
  (if c.inStage then c.stage < stages
   else c.stage = 0 && c.replica = 0 && !c.entry && !c.exits && c.word / 2 ^ 28 % 4 = 0 && c.word / 2 ^ 30 % 4 = 0)

end TileContext

/-- A status of `cfgld` (R172). -/
def loadStatus (cause tile idx slot col : Nat) : Word :=
  BitVec.ofNat 64 (cause + 2 ^ 8 * tile + 2 ^ 16 * idx + 2 ^ 20 * slot + 2 ^ 23 * col)

/-- The first error of a list of tile contexts, in their order. -/
def checkTiles (lead : Nat) (group : List Nat) (stages : List Word) (escapes : Vector EscapeEntry 4) (slot : Nat) :
    List (Nat × Nat) → List TileContext → Option Word
  | _, [] => none
  | seen, c :: r =>
    let key := (columnCluster lead c.col, c.pos)
    if !c.headerLegal lead group stages.length || seen.contains key then some (loadStatus 2 c.pos 0 slot c.col)
    else match checkSlots c escapes 16 0 [] with
      | some (cause, idx) => some (loadStatus cause c.pos idx slot c.col)
      | none => checkTiles lead group stages escapes slot (key :: seen) r

/-- Every placed replica of a stage has exactly one ENTRY tile and one EXIT tile, and no tile is of another replica: so the model reads the last of R252's errors (DESIGN CHOICE, log entry 52). -/
def replicasLegal (k : Nat) (entry : Word) (tiles : List TileContext) : Bool :=
  let mine := tiles.filter fun c => c.inStage && c.stage = k
  mine.all (fun c => c.replica < StageEntry.placed entry) &&
  (List.range (StageEntry.placed entry)).all fun r =>
    (mine.filter fun c => c.replica = r && c.entry).length = 1 && (mine.filter fun c => c.replica = r && c.exits).length = 1

/-- A port record keeps R288. -/
def portLegal (r : Vector Word 8) : Bool :=
  PortRec.field r 5 32 32 = 0 && PortRec.field r 6 21 19 = 0 && PortRec.field r 6 10 6 = 0 && PortRec.field r 7 53 11 = 0 &&
  PortRec.cls r ≠ 3 && !(PortRec.amode r && PortRec.wr r) && (PortRec.aop r = 0 || PortRec.cls r = 2) &&
  !(PortRec.cls r = 2 && !PortRec.wr r) && (!PortRec.wr r || goodCode (PortRec.sdcode r))

/-- The number of the port that a record names: one of the lead's own cluster. -/
def recordPort (lead : Nat) (r : Vector Word 8) : Nat := portNo lead (PortRec.edge r) (PortRec.index r)

def distinctNats : List Nat → Bool
  | [] => true
  | n :: r => !r.contains n && distinctNats r

/-- An argument slot: read by the agent, or at the start of a task by the front end through the queue's root, since ARGS is an address of a packet (R351).
What that root does not map is no page of the task that Krany could give: the load fails (DESIGN CHOICE, log entry 15). -/
def argumentWord (s : State) (a : AgentId) (task root : Option Nat) (va : Word) : Except AddrFault (Word × State) :=
  match root with
  | some r => match rootRead s r va with
    | .ok v => .ok (v, s)
    | .error .waits => .error .waits
    | .error _ => .error .protection
  | none => (agentRead s a task va 8).map fun x => (BitVec.ofNat 64 x.1, x.2)

/-- BASE of a record bound to an argument slot (R288). -/
def bindPort (s : State) (a : AgentId) (task root : Option Nat) (args : Word) (r : Vector Word 8) :
    Except (Word × AddrFault) (Vector Word 8 × State) :=
  if !PortRec.arg r then .ok (r, s)
  else
    let va := args + BitVec.ofNat 64 (8 * PortRec.argslot r)
    match argumentWord s a task root va with
    | .error f => .error (va, f)
    | .ok (v, s) => .ok (r.set 0 (v + BitVec.ofInt 64 (PortRec.offset r)), s)

def bindPorts (s : State) (a : AgentId) (task root : Option Nat) (args : Word) : List (Vector Word 8) → Except (Word × AddrFault) (List (Vector Word 8) × State)
  | [] => .ok ([], s)
  | r :: rs =>
    match bindPort s a task root args r with
    | .error f => .error f
    | .ok (r, s) => match bindPorts s a task root args rs with
      | .error f => .error f
      | .ok (rs, s) => .ok (r :: rs, s)

/-! ## Loading (R172, R242, R256) -/

/-- Regions joined to a cluster by stitched sluices, on one side. -/
def stitchedSide (s : State) (l : Link) : Nat → Nat → List Nat
  | 0, _ => []
  | n + 1, cl =>
    let mask := (s.region cl).stitched.toNat
    let joined := if l = .west then mask % 2 ^ 16 ≠ 0 else mask / 2 ^ 16 ≠ 0
    match acrossSluice cl l with
    | some c => if joined then c :: stitchedSide s l n c else []
    | none => []

/-- The stitched group of a region (R256). -/
def stitchedGroup (s : State) (cl : Nat) : List Nat := [cl] ++ stitchedSide s .west 3 cl ++ stitchedSide s .east 3 cl

/-- How a load ends. -/
inductive LoadOut where
  | fault (va : Word) (f : AddrFault)
  | failed (status : Word) (s : State)
  | loaded (s : State)
deriving DecidableEq, Repr

/-- A context slot of every tile of a group emptied. -/
def clearContext (s : State) (group : List Nat) (slot : Nat) : State :=
  { s with tiles := s.tiles.map fun p =>
      if group.contains p.1.1 then (p.1, { p.2 with contexts := vset p.2.contexts slot TileContext.fresh }) else p }

/-- The contexts and tables of a legal image take the slot of the whole group. -/
def installImage (s : State) (lead : Nat) (group : List Nat) (slot : Nat) (escapes : Vector EscapeEntry 4) (stages : List Word)
    (tiles : List TileContext) (ports : List (Vector Word 8)) : State :=
  let s := clearContext s group slot
  let s := tiles.foldl (fun (s : State) c =>
    let cl := columnCluster lead c.col
    let t := s.tile cl c.pos
    s.setTile cl c.pos { t with contexts := vset t.contexts slot c }) s
  let s := group.foldl (fun (s : State) c => s.setRegion c { s.region c with loaded := vset (s.region c).loaded slot none }) s
  let l : Loaded := ⟨escapes, stages, tiles.map fun c => (columnCluster lead c.col, c.pos), ports.map fun r => (recordPort lead r, r)⟩
  s.setRegion lead { s.region lead with loaded := vset (s.region lead).loaded slot (some l) }

/-- Whether a context slot of a group is the one that runs. -/
def slotRuns (s : State) (group : List Nat) (slot : Nat) : Bool :=
  group.any fun c => match runOf s c with
    | some r => r.slot = slot
    | none => false

/-- The checks of an image that has been read, and its installation.
An error that lies in no tile has 0 in the fields that name a tile, an instruction and a column (DESIGN CHOICE, log entry 52). -/
def checkImage (s : State) (lead : Nat) (group : List Nat) (slot : Nat) (tables : List Word) (stages : List Word)
    (tiles : List TileContext) (ports : List (Vector Word 8)) : LoadOut :=
  let bad := LoadOut.failed (loadStatus 2 0 0 slot 0) s
  match (List.range 4).mapM fun n => escapeOf (nth 0 tables (2 * n)) (nth 0 tables (2 * n + 1)) with
  | none => bad
  | some es =>
    let escapes : Vector EscapeEntry 4 := Vector.ofFn fun n => nth ⟨0, 0, false, false⟩ es n.val
    if !stages.all stageLegal then bad
    else match checkTiles lead group stages escapes slot [] tiles with
      | some status => .failed status s
      | none =>
        if !stages.zipIdx.all (fun p => replicasLegal p.2 p.1 tiles) then bad
        else if !ports.all portLegal || !distinctNats (ports.map (recordPort lead)) then bad
        else .loaded (installImage s lead group slot escapes stages tiles ports)

/-- The image at an address loaded into a slot of a lead and a group of regions (R172, R413); the front end reads arguments through its queue's root. -/
def loadInto (s : State) (lead : Nat) (group : List Nat) (va : Word) (slot : Nat) (root : Option Nat) : LoadOut :=
  let a := AgentId.region lead
  let task := (s.hart a).task
  if canonical va && va.toNat % 64 ≠ 0 then .fault va .misaligned
  else if slotRuns s group slot then .failed (loadStatus 9 0 0 slot 0) s
  else match readLines s a task va 1 with
    | .error (v, f) => .fault v f
    | .ok (h, s) =>
      let head := (nth 0 h 0).toNat
      let nt := head % 2 ^ 16
      let np := head / 2 ^ 16 % 2 ^ 16
      let ns := head / 2 ^ 32 % 2 ^ 4
      if head / 2 ^ 36 ≠ 0 || !(h.drop 1).all (fun w => w = 0) || nt = 0 || 896 < nt || 128 < np then
        .failed (loadStatus 2 0 0 slot 0) s
      else match readLines s a task (va + 64) 3 with
        | .error (v, f) => .fault v f
        | .ok (tables, s) => match readRecords s a task (va + 256) 3 nt with
          | .error (v, f) => .fault v f
          | .ok (tiles, s) => match readRecords s a task (va + BitVec.ofNat 64 (256 + 192 * nt)) 1 np with
            | .error (v, f) => .fault v f
            | .ok (ports, s) =>
              let args := match task.bind s.task with
                | some t => t.args
                | none => 0
              match bindPorts s a task root args (ports.map fun r => Vector.ofFn fun k => nth 0 r k.val) with
              | .error (v, f) => .fault v f
              | .ok (ports, s) =>
                checkImage s lead group slot tables ((tables.drop 8).take ns) (tiles.map contextOfRecord) ports

/-- The image at an address loaded into a slot of a lead's stitched group (R172). -/
def loadImage (s : State) (lead : Nat) (va : Word) (slot : Nat) : LoadOut := loadInto s lead (stitchedGroup s lead) va slot none

end Sys2Proof.Machine
end

