-- ==== Sys2Proof/Machine/Run.lean ====
section
/-! DEFINITION. Runs of a context: starting one, convergence, stalls and abortion (R173, R245 to R247, R250, R256, R261). -/

namespace Sys2Proof.Machine

/-! ## Starting a run (R245, R247, R255) -/

/-- A stage at the start of a run. -/
def freshStage (clock : Nat) (w : Word) : Stage :=
  restamp clock ⟨w, StageEntry.act0 w, none, [], [], 0, 0, 0, none, none, Vector.replicate 8 4, 4, [], Vector.replicate 8 []⟩

/-- A tile at the step to a new run: its registers and contexts stay (R64, R245). -/
def steppedTile (t : Tile) : Tile :=
  { Tile.fresh with v := t.v, contexts := t.contexts }

/-- A port at the start of a run. -/
def freshPort (r : Option (Vector Word 8)) : Port := { Port.fresh with record := r }

/-- The flags of a cluster's tiles go to the FSTAT of its region sequencer (R30). -/
def gatherCluster (s : State) (cl : Nat) : State :=
  let f := (s.tiles.filter fun (p : (Nat × Nat) × Tile) => decide (p.1.1 = cl)).foldl (fun f p => f ||| p.2.flags) noFlags
  let s := { s with tiles := s.tiles.map fun (p : (Nat × Nat) × Tile) => if p.1.1 = cl then (p.1, { p.2 with flags := 0 }) else p }
  s.setHart (.region cl) ((s.hart (.region cl)).raise f)

/-- The flags of a group's tiles go to the FSTAT of their own region's sequencer (R30). -/
def gatherFlags (s : State) (group : List Nat) : State := group.foldl gatherCluster s

/-- The link FIFOs of the footprint ports of a group's clusters emptied at a step (R239, R246). -/
def clearFootprints (s : State) (group : List Nat) : State :=
  { s with blocks := s.blocks.map fun p =>
      if group.contains (p.1 / 8) then (p.1, { p.2 with ports := Vector.replicate 8 [] }) else p }

/-- The first cycle in which a tile may fire (R247). -/
def firstCycle (clock : Nat) : Option Nat → Nat
  | some c => if clock ≤ c + 1 then c + 4 else clock + 3
  | none => clock + 3

/-- The tiles of a group with the credits of the new run. -/
def grantCredits (s : State) (group : List Nat) : State :=
  { s with tiles := s.tiles.map fun p =>
      if group.contains p.1.1 then
        (p.1, { p.2 with credits := Vector.ofFn fun l => startCredits s p.1.1 p.1.2 (Link.ofCode l.val) })
      else p }

/-- The region steps: what is left of the last run goes, and the slot runs over N = n0 × n1 × n2 × n3 iterations. Until a tile fires, the cycles without progress count from the first in which one may (DESIGN CHOICE, log entry 52). -/
def startRun (s : State) (lead slot : Nat) (counts : Word) (node : Option Nat) : State :=
  let group := stitchedGroup s lead
  let n : Vector Nat 4 := Vector.ofFn fun k => counts.toNat / 2 ^ (16 * k.val) % 2 ^ 16
  let s := clearFootprints (gatherFlags s group) group
  let s := { s with tiles := s.tiles.map fun p => if group.contains p.1.1 then (p.1, steppedTile p.2) else p }
  let s := group.foldl (fun (s : State) c => s.setRegion c { s.region c with lead := some lead }) s
  let r := s.region lead
  let stages := match vget none r.loaded slot with
    | some l => l.stages.map (freshStage s.clock)
    | none => []
  let first := firstCycle s.clock r.lastConverged
  let s := s.setRegion lead { r with
    run := some ⟨slot, n, s.clock, first, node, group⟩
    failed := none
    frozen := false
    progress := first
    stages := stages }
  let ports := match vget none r.loaded slot with
    | some l => l.ports
    | none => []
  let s := { s with ports := s.ports.map fun p => if group.contains (p.1 / 32) then (p.1, freshPort none) else p }
  let s := ports.foldl (fun (s : State) p => s.setPort p.1 (freshPort (some p.2))) s
  grantCredits s group

/-- A region's sequencer is free for a leaf, and takes part in no other run (R249, R256). -/
def regionIdle (s : State) (cl : Nat) : Bool :=
  let r := s.region cl
  r.run.isNone && r.lead.isNone && r.node.isNone

/-- The other regions of a group run no leaf (R256); one that only waits to start runs none yet. -/
def othersIdle (s : State) (lead : Nat) : Bool :=
  (stitchedGroup s lead).all fun c => c = lead || ((s.region c).run.isNone && (s.region c).lead.isNone)

/-! ## The end of a run (R246, R250) -/

/-- A run leaves its regions. -/
def endRun (s : State) (lead : Nat) : State :=
  let group := groupOf s lead
  let s := group.foldl (fun (s : State) c => s.setRegion c { s.region c with lead := none }) s
  s.setRegion lead { s.region lead with run := none, stages := [], frozen := false }

/-- Tokens lie in slots, link FIFOs, those of footprint ports among them, stage queues, or the FIFO and reorder buffer of a memory port of the group.
R246 names slots and link FIFOs only; that stage queues and buffers count is the model's choice (DESIGN CHOICE, log entry 36). -/
def tokensLeft (s : State) (lead : Nat) : Bool :=
  let group := groupOf s lead
  let any : Vector (Option Landed) 16 → Bool := fun v => v.toList.any Option.isSome
  (s.tiles.any fun p => group.contains p.1.1 &&
    (any p.2.slotA || any p.2.slotB || p.2.slotC.toList.any Option.isSome || p.2.fifo.toList.any fun q => !q.isEmpty)) ||
  (s.region lead).stages.any (fun g => !g.input.isEmpty || !g.output.isEmpty || g.exits.toList.any fun q => !q.isEmpty) ||
  (s.blocks.any fun p => group.contains (p.1 / 8) && p.2.ports.toList.any fun q => !q.isEmpty) ||
  s.ports.any fun p => group.contains (p.1 / 32) && (!p.2.input.isEmpty || !p.2.buffer.isEmpty || p.2.first.isSome)

/-- A node with no parent's business: its status. -/
def nodeStatus (cause : Word) (left : Bool) : Word := if left then cause ||| 0x100#64 else cause

/-- The running children of a node, and theirs, are stopped (R249); `n` bounds the depth. -/
def stopChildren (s : State) (parent : Nat) : Nat → State
  | 0 => s
  | n + 1 =>
    let mine := s.nodes.filter fun p => match p.2.parent, p.2.phase with
      | some (m, _), .waiting | some (m, _), .loading | some (m, _), .running => m = parent
      | _, _ => false
    mine.foldl (fun (s : State) p =>
      let cl := (vget 0 p.2.desc 0).toNat / 2 ^ 16 % 2 ^ 5
      let s := s.setNode p.1 { p.2 with phase := .ended 5 }
      let s := if (s.region cl).node = some p.1 then
          let s := if (s.region cl).run.isSome then endRun s cl else s
          s.setRegion cl { s.region cl with node := none }
        else s
      stopChildren s p.1 n) s

/-- The fields of a node's descriptor (R248). -/
def nodeKind (d : Vector Word 4) : Nat := (vget 0 d 0).toNat % 4
def nodeGated (d : Vector Word 4) : Bool := (vget 0 d 0).getLsbD 3
def nodeDepth (d : Vector Word 4) : Nat := (vget 0 d 0).toNat / 2 ^ 4 % 2 ^ 4
def nodeChildren (d : Vector Word 4) : Nat := (vget 0 d 0).toNat / 2 ^ 8 % 2 ^ 8
def nodeCluster (d : Vector Word 4) : Nat := (vget 0 d 0).toNat / 2 ^ 16 % 2 ^ 5
def nodeAddr (d : Vector Word 4) : Word := vget 0 d 1
def nodeCount (d : Vector Word 4) : Word := vget 0 d 2
def nodeSlot (d : Vector Word 4) : Nat := (vget 0 d 3).toNat % 2 ^ 3
def nodeLoaded (d : Vector Word 4) : Bool := (vget 0 d 3).getLsbD 3
/-- How often each child of a node runs. -/
def nodeRuns (d : Vector Word 4) : Nat := if nodeKind d = 1 then (nodeCount d).toNat else 1

/-- The task hears of a node's end: a nonzero cause is its cause 5, and LEFT is kept (R359). -/
def noteNode (s : State) (task : Nat) (status : Word) : State :=
  match s.task task with
  | some k => s.setTask task { k with
      cause := if k.cause = 0 && status.toNat % 2 ^ 8 ≠ 0 then 5 else k.cause
      left := k.left || status.getLsbD 8 }
  | none => s

/-- A node ends with a status, and its parent takes note: a nonzero cause stops the parent's other children and ends it too (R249).
A child with cause 0 lets the parent go on whatever its LEFT says (DESIGN CHOICE, log entry 52).
`n` bounds the height of the tree. -/
def endNode (s : State) (m : Nat) (status : Word) : Nat → State
  | 0 => s
  | n + 1 =>
    match s.node m with
    | none => s
    | some x =>
      let cl := nodeCluster x.desc
      let left := status.getLsbD 8
      let s := s.setNode m { x with phase := .ended status, left := left }
      let s := if (s.region cl).node = some m then s.setRegion cl { s.region cl with node := none } else s
      match x.parent with
      | none => noteNode s x.task status
      | some (p, k) => match s.node p with
        | none => s
        | some y =>
          let y := { y with ended := setNth y.ended k (nth 0 y.ended k + 1), left := y.left || left }
          let s := s.setNode p y
          if status.toNat % 2 ^ 8 ≠ 0 then
            endNode (stopChildren s p (s.nextNode + 1)) p (nodeStatus (status &&& ~~~0x100#64) y.left) n
          else
            let last := nth 0 y.ended (nodeChildren y.desc - 1)
            let done := if nodeKind y.desc = 1 then last = nodeRuns y.desc else y.ended.all fun c => c = 1
            if done then endNode s p (nodeStatus 0 y.left) n else s

/-- The end of a node, with every parent it ends. -/
def finishNode (s : State) (m : Nat) (status : Word) : State := endNode s m status (s.nextNode + 1)

/-- A run outside a node left tokens: the task's LEFT hears of it as of a node's (R246, R359; log entry 36). -/
def noteLeft (s : State) (lead : Nat) (left : Bool) : State :=
  match (s.hart (.region lead)).task.bind fun t => (s.task t).map fun k => (t, k) with
  | some (t, k) => s.setTask t { k with left := k.left || left }
  | none => s

/-- A run outside a node ends with a nonzero cause: the program ends as at a `halt`, and the task takes cause 5 (R250, R359). -/
def failRun (s : State) (lead cause : Nat) (left : Bool) : State :=
  let a := AgentId.region lead
  let h := s.hart a
  let s := s.setHart a { h with status := if h.status = .stopped then .stopped else .halted }
  let s := s.setRegion lead { s.region lead with failed := some (cause, left) }
  let s := noteLeft (s.report (.runFailed lead cause)) lead left
  match h.task.bind fun t => (s.task t).map fun k => (t, k) with
  | some (t, k) => s.setTask t { k with cause := if k.cause = 0 then 5 else k.cause }
  | none => s

/-- A running leaf ends with a nonzero cause. A stalled region stays frozen until it is released (R261); a parent releases its child's at once. -/
def failLeaf (s : State) (lead cause : Nat) : State :=
  let left := tokensLeft s lead
  match (s.region lead).run with
  | none => s
  | some r =>
    let stalled := s.setRegion lead { s.region lead with frozen := true }
    match r.node with
    | some m =>
      let parent := match s.node m with
        | some x => x.parent.isSome
        | none => false
      finishNode (if cause = 4 && !parent then stalled else endRun s lead) m (nodeStatus (BitVec.ofNat 64 cause) left)
    | none => failRun (if cause = 4 then stalled else endRun s lead) lead cause left

/-! ## Convergence (R246) -/

/-- The iterations of a port's loop nest (R289). -/
def portTotal (r : Vector Word 8) : Nat := (List.range 6).foldl (fun n k => n * PortRec.ext r k) 1

/-- A port of the context has issued every access; a random one holds no token and has no access outstanding (R246, R289). -/
def portIssued (x : Port) : Bool :=
  match x.record with
  | none => true
  | some r =>
    if PortRec.cls r = 1 then x.input.isEmpty && x.first.isNone && x.buffer.isEmpty && x.fault.isNone
    else portTotal r ≤ x.next

/-- Some instruction of a context names `done`. -/
def isDoneTile (k : TileContext) : Bool :=
  (List.range 16).any fun n => match k.instr n with
    | some (i, p) => match cellShape i with
      | some c => (targetsOf c p).contains .done
      | none => false
    | none => false

/-- The generators of a context have made their firings. -/
def generatorsDone (k : TileContext) (t : Tile) (n : Nat) : Bool :=
  (List.range 16).all fun m => match k.instr m with
    | some (i, p) => match cellShape i with
      | some c => !isGenerator c p || n ≤ vget 0 t.counts m
      | none => true
    | none => true

/-- The tiles of the running context. -/
def runTiles (s : State) (lead : Nat) : List (TileContext × Tile) :=
  match loadedOf s lead with
  | none => []
  | some l => l.tiles.filterMap fun p => (contextOf s p.1 p.2).map fun k => (k, s.tile p.1 p.2)

/-- The conditions of R246 on a lead's run; one of no iterations converges in the cycle after its `cfgrun`. -/
def converged (s : State) (lead : Nat) : Bool :=
  match (s.region lead).run with
  | none => false
  | some r =>
    let n := runTotal r
    let tiles := runTiles s lead
    let group := r.group
    let ports := match loadedOf s lead with
      | some l => l.ports
      | none => []
    decide (r.issued < s.clock) && (n = 0 || (
      tiles.all (fun p => (!isDoneTile p.1 || n ≤ p.2.doneCount) && generatorsDone p.1 p.2 n) &&
      (s.tiles.all fun p => !group.contains p.1.1 || (p.2.flights.isEmpty && p.2.tickets.isEmpty)) &&
      (ports.all fun p => portIssued (s.port p.1)) &&
      (tiles.any (fun p => isDoneTile p.1) || !tokensLeft s lead)))

/-- CONVERGE: the lead's run ends; its node ends with status 0, or its `cfgrun` completes (R246, R247). -/
def execConverge (cl : Nat) (s : State) : Out :=
  match (s.region cl).run with
  | none => .next s
  | some r =>
    if !regionRuns s cl || (s.region cl).frozen || (s.region cl).failed.isSome || !converged s cl then .next s
    else
      let left := tokensLeft s cl
      let s := endRun s cl
      let s := s.setRegion cl { s.region cl with lastConverged := some s.clock }
      match r.node with
      | some m => .next (finishNode s m (nodeStatus 0 left))
      | none => .next (completeFor (.region cl) (.cfgrun 0 0) [] (noteLeft s cl left))

end Sys2Proof.Machine
end

