-- ==== Sys2Proof/Machine/Weir.lean ====
section
/-! DEFINITION. Weirs: arming, counting, tripping and waiting (R188 to R194, R300 to R307). -/

namespace Sys2Proof.Machine

/-! ## The state machine (R190, R191) -/

namespace Weir

def act (w : Weir) : Nat := (vget 0 w.desc 3).toNat % 8
def scope (w : Weir) : Nat := (vget 0 w.desc 3).toNat / 2 ^ 5 % 8
def periodic (w : Weir) : Bool := (vget 0 w.desc 3).getLsbD 8
def target (w : Weir) : Nat := (vget 0 w.desc 3).toNat / 2 ^ 32 % 2 ^ 16
def startBal (w : Weir) : Int := signedOf 48 (vget 0 w.desc 2).toNat
def startPar (w : Weir) : BitVec 16 := BitVec.ofNat 16 ((vget 0 w.desc 2).toNat / 2 ^ 48)
/-- BAL changed by an amount; past i48 it saturates and sets OVER. -/
def addBal (w : Weir) (x : Int) : Weir :=
  let b := w.bal + x
  if b < -(2 ^ 47) then { w with bal := -(2 ^ 47), pastEnd := true }
  else if 2 ^ 47 - 1 < b then { w with bal := 2 ^ 47 - 1, pastEnd := true }
  else { w with bal := b }

end Weir

/-- The bytes of an overflow entry in the core's queue of the task's memory (R195, R271). -/
def writeOverflow (s : State) (task : Option Nat) (core : Nat) (c : Codelet) : State :=
  let k := s.core core
  let va := k.clovf + BitVec.ofNat 64 (16 * (k.overflowed % 65536))
  match task, task.bind s.task with
  | some n, some t =>
    match translate s n t.root va.toNat with
    | .ok (pa, _) => (s.recallLine (pa / 64)).writeHomeWords pa [c.entry, c.arg]
    | .error _ => s
  | _, _ => s

/-- A codelet pushed to a core: to the ring, or to the overflow queue once that holds entries or the ring is full (R197). -/
def pushCodelet (s : State) (task : Option Nat) (core : Nat) (c : Codelet) : State :=
  let k := s.core core
  if k.overflow.isEmpty && k.ring.length < 1024 then s.setCore core { k with ring := k.ring ++ [c] }
  else
    let s := writeOverflow s task core c
    let k := s.core core
    s.setCore core { k with overflow := k.overflow ++ [c], overflowed := k.overflowed + 1 }

/-- The ring and the overflow queue are both full (R197, R271). -/
def queuesFull (k : Core) : Bool := (!k.overflow.isEmpty || k.ring.length = 1024) && 65536 ≤ k.overflow.length

/-- A push of a weir, which waits as a pusher sleeps where the queues are full (R191, R197). -/
def weirPush (s : State) (task : Option Nat) (core : Nat) (c : Codelet) : State :=
  let k := s.core core
  if queuesFull k then s.setCore core { k with waitingPushes := k.waitingPushes ++ [(task, c)] } else pushCodelet s task core c

/-- Room in the overflow queue goes to the first push of a weir that waits for it, ahead of threads asleep in a push (R271; DESIGN CHOICE, log entry 52). -/
def settlePush (s : State) (core : Nat) : State :=
  let k := s.core core
  match k.waitingPushes with
  | [] => s
  | (task, c) :: r => if queuesFull k then s else pushCodelet (s.setCore core { k with waitingPushes := r }) task core c

/-- A cluster lies in the instance of a weir's SCOPE that holds the weir (R192, R233, R315). -/
def inWeirScope (s : State) (n : Nat) (w : Weir) (cl : Nat) : Bool :=
  match scopeOf w.scope with
  | some .device | some .system => true
  | some .group => match w.task.bind s.task with
    | some t => (t.groupScope (n / 64)).contains cl
    | none => n / 64 = cl
  | some .thread | some .core | some .cluster | none => n / 64 = cl

/-- The action of a trip; a target that the part does not have gets none.
A core that the task did not declare, at which `clpush` would trap, takes no push: a weir has no agent to trap (DESIGN CHOICE, log entry 52). -/
def tripAction (s : State) (n : Nat) (w : Weir) : State :=
  match w.act with
  | 2 => if w.target < 4096 then kickQueue s w.target ((s.queue w.target).wmax + 1) else s
  | 3 =>
    if w.target < 32 then
      let r := s.region w.target
      s.setRegion w.target { r with stepCredits := if r.stepCredits < 0xFFFF then r.stepCredits + 1 else r.stepCredits }
    else s
  | 4 =>
    let declared := match w.task.bind s.task with
      | some t => t.hasCore w.target
      | none => false
    if declared then
      let sc := if inWeirScope s n w (coreCluster w.target) then scopeOf w.scope else none
      weirPush s w.task w.target ⟨vget 0 w.desc 4, BitVec.ofNat 64 n, sc⟩
    else s
  | _ => s

/-- A trip (R191): every counted byte was performed at its home before its notice (R303), so nothing is left to write out. -/
def tripWeir (s : State) (n : Nat) (w : Weir) : State :=
  let w' := { w with gen := w.gen + 1, state := if w.periodic then .armed else .tripped }
  let w' := if w.periodic then { w' with bal := w.startBal, par := w.startPar } else w'
  let g := s.segment (n / 64)
  let s := s.setSegment (n / 64) { g with wtrip := g.wtrip ||| BitVec.ofNat 64 (2 ^ (n % 64)) }
  tripAction (s.setWeir n w') n w

/-- The trip test after an event (R190). -/
def tripTest (s : State) (n : Nat) (w : Weir) : State :=
  if w.par ≠ 0 then s.setWeir n w
  else if w.bal < 0 then s.setWeir n { w with pastEnd := true }
  else if w.bal = 0 && !w.pastEnd then tripWeir s n w
  else s.setWeir n w

/-- Bytes counted or credited (R190). -/
def countBytes (s : State) (n bytes : Nat) : State :=
  let w := s.weir n
  match w.state with
  | .armed => tripTest s n (w.addBal (-(bytes : Int)))
  | .idle | .tripped => s.setWeir n { w with late := true }

/-! ## Instructions (R188 to R193) -/

/-- A weir reference of the task, or the protection trap of R188, whose EVAL is the whole register value (DESIGN CHOICE, log entry 52). -/
def withWeir (i : Instr) (ref : Word) (s : State) (k : Nat → Out) : Out :=
  let cl := ref.toNat / 2 ^ 6 % 2 ^ 5
  match s.myTask with
  | some t => if t.hasCluster cl then k (weirNo cl (ref.toNat % 2 ^ 6)) else trapHere i .protection ref s
  | none => trapHere i .protection ref s

/-- A page of the window: its physical piece, which no home here backs when it is host memory (R301). -/
def windowPage (s : State) (task : Nat) (root va len : Nat) : Except AddrFault (List (Nat × Nat)) :=
  match translate s task root va with
  | .error e => .error e
  | .ok (pa, e) =>
    match siteOf s pa (Pte.bit e 61) with
    | .here | .moving => .ok (if 2 ^ 42 ≤ pa then [] else [(pa, len)])
    | .copy _ | .absent _ | .uncached _ => .error .protection

/-- The pieces of a window over its pages, from an address on. -/
def windowPieces (s : State) (task root : Nat) (va len : Nat) : Nat → Except (AddrFault × Nat) (List (Nat × Nat))
  | 0 => .ok []
  | n + 1 =>
    if len = 0 then .ok []
    else
      let room := 4096 - va % 4096
      let here := if len < room then len else room
      match windowPage s task root va here with
      | .error e => .error (e, va)
      | .ok p => match windowPieces s task root (va + here) (len - here) n with
        | .error e => .error e
        | .ok r => .ok (p ++ r)

/-- The window of an arming descriptor, or the trap of R189 and R302. -/
def armWindow (s : State) (t : Task) (task cl : Nat) (base len : Word) (scratch : Bool) : Except (AddrFault × Word) (List (Nat × Nat)) :=
  if len = 0 then .ok []
  else
    let last := base + len - 1
    if scratch then
      let lo := scratchBase + cl * 0x2000000
      if lo ≤ base.toNat && base.toNat + len.toNat ≤ lo + 0x2000000 then .ok [(base.toNat, len.toNat)]
      else .error (.protection, base)
    else if !canonical base || !canonical last || last.toNat < base.toNat || meetsWindow base.toNat last.toNat then .error (.protection, base)
    else match windowPieces s task t.root base.toNat len.toNat (len.toNat / 4096 + 2) with
      | .ok p => .ok p
      | .error (e, va) => .error (e, BitVec.ofNat 64 va)

/-- The arming descriptor is one that R189 allows. -/
def armLegal (h : Hart) : Bool :=
  let o1 := h.oxr 1; let o3 := h.oxr 3
  (h.oxr 0).toNat % 64 = 0 && o1.toNat % 64 = 0 && o1.toNat / 2 ^ 40 = 0 &&
  o3.toNat % 8 ≤ 4 && o3.toNat / 2 ^ 3 % 4 = 0 && o3.toNat / 2 ^ 10 % 2 ^ 22 = 0 && o3.toNat / 2 ^ 48 = 0 &&
  (let sc := o3.toNat / 2 ^ 5 % 8; 2 ≤ sc && sc ≤ 5)

/-- `warm`, R189 and R190. -/
def execWarm (d a : Reg) (s : State) : Out :=
  issue (.warm d a) s fun h =>
    withWeir (.warm d a) (h.reg a) s fun n =>
      if !armLegal h then illegal (.warm d a) s
      else match s.me.task, s.myTask with
        | some task, some t =>
          match armWindow s t task (n / 64) (h.oxr 0) (h.oxr 1) ((h.oxr 3).getLsbD 9) with
          | .error (e, va) => addressFault (.warm d a) va e s
          | .ok win =>
            let w := s.weir n
            let w' : Weir := { w with
              state := .armed
              pastEnd := false
              late := false
              desc := Vector.ofFn fun k => h.oxr (Fin.ofNat 8 k.val)
              window := win
              task := some task }
            let w' := { w' with bal := w'.startBal, par := w'.startPar }
            retire (.warm d a) [(d, w.gen.setWidth 64)] (tripTest s n w')
        | _, _ => trapHere (.warm d a) .protection (h.reg a) s

/-- `wexp`, R190. -/
def execWexp (d a b : Reg) (s : State) : Out :=
  issue (.wexp d a b) s fun h =>
    withWeir (.wexp d a b) (h.reg a) s fun n =>
      let w := s.weir n
      let v := (h.reg b).toNat
      if 2 ^ 47 ≤ v then retire (.wexp d a b) [(d, 3)] s
      else if w.state ≠ .armed then retire (.wexp d a b) [(d, 1)] s
      else if w.par = 0 then retire (.wexp d a b) [(d, 2)] s
      else
        let w' := w.addBal (v : Int)
        retire (.wexp d a b) [(d, 0)] (tripTest s n { w' with par := w.par - 1 })

/-- The acquire of a weir's counted bytes on every path, by an agent in its scope (R192, R307). -/
def acquireCounted (s : State) (n : Nat) (w : Weir) : State :=
  match scopeOf w.scope with
  | some sc => if inWeirScope s n w s.cur.cluster then s.syncPaths s.cur sc else s
  | none => s

/-- `wwait`, R192: the wake is an acquire of every counted byte on every path (R307). -/
def execWwait (d a b : Reg) (s : State) : Out :=
  issue (.wwait d a b) s fun h =>
    notInCodelet (.wwait d a b) s <|
    withWeir (.wwait d a b) (h.reg a) s fun n =>
      let w := s.weir n
      if w.act ≠ 1 then retire (.wwait d a b) [(d, BitVec.allOnes 64)] s
      else if w.gen = (h.reg b).setWidth 16 then sleepOn (.weir n w.gen) s
      else retire (.wwait d a b) [(d, w.gen.setWidth 64)] (acquireCounted s n w)

/-- The status word of `wrd.st`, R193. -/
def weirStatus (w : Weir) : Word :=
  let st := match w.state with
    | .idle => 0 | .armed => 1 | .tripped => 2
  let bit : Bool → Nat → Nat := fun b k => if b then 2 ^ k else 0
  BitVec.ofNat 64 (w.par.toNat + 2 ^ 16 * w.gen.toNat + 2 ^ 32 * st + bit w.pastEnd 34 + bit w.late 35 + bit w.periodic 36 +
    2 ^ 37 * w.scope + 2 ^ 40 * w.act)

/-- `wrd`, R193. -/
def execWrd (status : Bool) (d a : Reg) (s : State) : Out :=
  issue (.wrd status d a) s fun h =>
    withWeir (.wrd status d a) (h.reg a) s fun n =>
      let w := s.weir n
      retire (.wrd status d a) [(d, if status then weirStatus w else BitVec.ofInt 64 w.bal)] s

/-- `wdis`, R190 and R193. -/
def execWdis (a : Reg) (s : State) : Out :=
  issue (.wdis a) s fun h =>
    withWeir (.wdis a) (h.reg a) s fun n =>
      retire (.wdis a) [] (s.setWeir n { s.weir n with state := .idle })

/-! ## Notices and credits on their way (R301, R303, R306) -/

/-- Whether an earlier notice of the same source to the same weir of the same task is still on its way. -/
def noticeBehind (n : Nat) (k : Notice) (l : List Notice) : Bool :=
  (l.take n).any fun m => m.weir = k.weir && m.source = k.source && m.task = k.task

/-- A notice counts at its weir; one of a task that has ended is gone. -/
def applyNotice (s : State) (k : Notice) : State :=
  let w := s.weir k.weir
  if w.task = k.task || w.task.isNone then countBytes s k.weir k.bytes else s

/-- A notice reaches its weir; one for a weir that a save or a debugger holds waits (R369, R370). -/
def deliverNotice (gone waits : State) (k : Notice) : State :=
  if taskHeld gone k.task then waits else applyNotice gone k

/-- WEIR_COUNT_NOTICE: notice `n` reaches its weir; notices of one source keep their order (R303). -/
def execWeirCountNotice (n : Nat) (s : State) : Out :=
  match nth? s.notices n with
  | none => .next s
  | some k =>
    if noticeBehind n k s.notices then .next s
    else .next (deliverNotice { s with notices := dropNth s.notices n } s k)

/-- WEIR_CREDIT: credit `n` reaches its weir, in any order (R303, R306). -/
def execWeirCredit (n : Nat) (s : State) : Out :=
  match nth? s.credits n with
  | none => .next s
  | some k => .next (deliverNotice { s with credits := dropNth s.credits n } s k)

end Sys2Proof.Machine
end

