-- ==== Sys2Proof/Machine/Freeze.lean ====
section
/-! DEFINITION. Phase 1 of a save, which a debugger's halt performs too: every agent of a task at its boundary (R135, R162, R194, R328, R366, R370). -/

namespace Sys2Proof.Machine

/-- The command at the head of a block's queue, if it is running, completes, or one that a debugger stopped from its next group on (R162, R370).
One that still wants tokens of a link has added nothing to its accumulator: it is queued again, and keeps the tokens that it has taken (DESIGN CHOICE, log entry 17). -/
def completeRunning (s : State) (blk : Nat) : State :=
  match headProduct s blk with
  | none => s
  | some (c, acc, d) =>
    if !c.fetching then s
    else
      let s := takeTokens s blk 64
      match headProduct s blk with
      | none => s
      | some (c, _, _) => match operandReady c d false, operandReady c d true with
        | some _, some _ => completeHead s blk
        | _, _ => mapHead s blk fun c => { c with fetching := false, rowsA := none, rowsB := none }

/-- Running matrix commands complete (R162). -/
def completeCommands (s : State) (t : Task) : State := t.blocks.foldl completeRunning s

/-- The results that a tile has fired are delivered, in the order in which they left (R135). -/
def deliverTile (s : State) (cl pos : Nat) : State :=
  let t := s.tile cl pos
  t.flights.foldl (fun s f => land s cl pos f) (s.setTile cl pos { t with flights := [] })

/-- Every result of the task's tiles is delivered. -/
def deliverFlights (s : State) (t : Task) : State :=
  (s.tiles.filter fun p => t.hasCluster p.1.1).foldl (fun s p => deliverTile s p.1.1 p.1.2) s

/-- The count notices and credits of the task that are on their way reach their weirs, also where a debugger holds the task already (R194). -/
def settleNotices (s : State) (n : Nat) : State :=
  let mine : Notice → Bool := fun k => k.task = some n
  let all := s.notices.filter mine ++ s.credits.filter mine
  all.foldl applyNotice
    { s with notices := s.notices.filter fun k => !mine k, credits := s.credits.filter fun k => !mine k }

/-- The dirty lines of every cache, the ways of the task's blocks among them, go to their homes (R285, R328). -/
def cleanFor (s : State) (t : Task) : State := t.blocks.foldl flushWays s.cleanEverything

/-- The rest of phase 1: dirty lines go to their homes, and their notices and all others reach their weirs (R194). -/
def settleUnits (s : State) (n : Nat) (t : Task) : State := settleNotices (cleanFor s t) n

/-! ## Cycles that do not count (R213, R261, R368, R370) -/

/-- A sleep, and a region's counters, moved past some cycles. -/
def laterHart (k : Nat) (h : Hart) : Hart :=
  match h.status with
  | .sleeping w since => { h with status := .sleeping w (since + k) }
  | .empty | .ready | .halted | .stopped => h
def laterStage (k : Nat) (g : Stage) : Stage := { g with highSince := g.highSince.map (· + k), lowSince := g.lowSince.map (· + k) }
def laterRegion (k : Nat) (r : Region) : Region := { r with progress := r.progress + k, stages := r.stages.map (laterStage k) }

/-- Cycles in which a task stood still do not count for its agents; where one of them was stepped, for none of its regions and not for that one. -/
def skipCycles (s : State) (t : Task) (stepped : Option AgentId) (k : Nat) : State :=
  { s with
    harts := s.harts.map fun p => if t.hasCluster p.1.cluster && stepped ≠ some p.1 then (p.1, laterHart k p.2) else p
    regions := s.regions.map fun p => if t.hasCluster p.1 && stepped.isNone then (p.1, laterRegion k p.2) else p }

/-- The agents of a task stand still from now on. -/
def holdTask (s : State) (n : Nat) : State :=
  match s.task n with
  | none => s
  | some t =>
    let s := match t.heldSince, t.stepping with
      | some h, some a => skipCycles s t (some a) (s.clock - h)
      | _, _ => s
    let since := match t.heldSince, t.stepping with
      | some h, none => h
      | _, _ => s.clock
    s.setTask n { t with heldSince := some since }

/-- The cycles for which a task stood still end here: `on` says that it stands still no longer, not even beside an agent that is stepped. -/
def thawTask (s : State) (n : Nat) (on : Bool) : State :=
  match s.task n with
  | none => s
  | some t => match t.heldSince with
    | none => s
    | some h => (skipCycles s t none (s.clock - h)).setTask n { t with heldSince := if on then none else some s.clock }

end Sys2Proof.Machine
end

