-- ==== Sys2Proof/Machine/Cfg.lean ====
section
/-! DEFINITION. Configuration instructions and controller nodes (R171 to R177, R248 to R251, R256). -/

namespace Sys2Proof.Machine

/-- A configuration instruction of a region sequencer with its cluster. -/
def cfgOp (i : Instr) (s : State) (k : Nat → Hart → Out) : Out :=
  issue i s fun h =>
    match s.cur with
    | .region cl => k cl h
    | .thread _ _ | .matrix _ _ | .epilogue _ _ | .copySeq _ _ | .tile _ _ _ => illegal i s

/-! ## `cfgld` and `cfgrun` (R172, R173, R245) -/

/-- `cfgld`, R172: a misaligned image is a misalignment trap. -/
def execCfgld (d a b : Reg) (s : State) : Out :=
  let i := Instr.cfgld d a b
  cfgOp i s fun cl h =>
    match loadImage s cl (h.reg a) ((h.reg b).toNat % 2 ^ 3) with
    | .fault va f => addressFault i va f s
    | .failed status s => retire i [(d, status)] s
    | .loaded s => retire i [(d, 0)] s

/-- `cfgrun`, R173: the sequencer sleeps from the start of the run until it converges. -/
def execCfgrun (a b : Reg) (s : State) : Out :=
  let i := Instr.cfgrun a b
  cfgOp i s fun cl h =>
    if !(regionIdle s cl && othersIdle s cl) then sleepOn .run s
    else sleepOn .run (startRun s cl ((h.reg a).toNat % 2 ^ 3) (h.reg b) none)

/-! ## `cfgpatch` (R38, R174) -/

/-- The escape table of the context that a tile is part of: that of the lead which loaded it, of whichever region the patch comes from. -/
def escapesOf (s : State) (cl pos slot : Nat) : Vector EscapeEntry 4 :=
  match (stitchedGroup s cl).findSome? fun c => (vget none (s.region c).loaded slot).filter fun l => l.tiles.contains (cl, pos) with
  | some l => l.escapes
  | none => Vector.replicate 4 ⟨0, 0, false, false⟩

/-- The whole tile checked with one slot replaced. -/
def patchStatus (s : State) (cl pos idx slot : Nat) (word : BitVec 64) : Word :=
  let col := cl % 4
  let k := vget TileContext.fresh (s.tile cl pos).contexts slot
  let escapes := escapesOf s cl pos slot
  if !isTile pos || !k.loaded then loadStatus 10 pos idx slot col
  else match checkSlots { k with slots := vset k.slots idx word } escapes 16 0 [] with
    | some (cause, n) => loadStatus cause pos n slot col
    | none => 0

/-- A slot replaced. -/
def putSlot (s : State) (cl pos idx slot : Nat) (word : BitVec 64) : State :=
  let t := s.tile cl pos
  let k := vget TileContext.fresh t.contexts slot
  s.setTile cl pos { t with contexts := vset t.contexts slot { k with slots := vset k.slots idx word } }

/-- The node starts to drain: the tokens in the FIFOs of the links it reads are the last ones under the old code. -/
def startDrain (s : State) (cl pos idx slot : Nat) (word : BitVec 64) (d : Reg) : State :=
  let t := s.tile cl pos
  let k := vget TileContext.fresh t.contexts slot
  let ls := match k.instr idx with
    | some (i, p) => match cellShape i with
      | some c => linksRead c p
      | none => []
    | none => []
  let links : Vector Nat 4 := Vector.ofFn fun n =>
    if ls.any fun l => l.code = n.val then (vget [] t.fifo n.val).length else 0
  s.setTile cl pos { t with draining := some ⟨slot, idx, word, s.cur, d, links, Vector.replicate 4 0⟩ }

/-- `cfgpatch`, R174. -/
def execCfgpatch (d a b : Reg) (s : State) : Out :=
  let i := Instr.cfgpatch d a b
  cfgOp i s fun lead h =>
    let v := (h.reg a).toNat
    let pos := v % 2 ^ 8
    let idx := v / 2 ^ 8 % 2 ^ 4
    let slot := v / 2 ^ 12 % 2 ^ 3
    let col := v / 2 ^ 15 % 2 ^ 2
    let cl := columnCluster lead col
    if !(stitchedGroup s lead).contains cl then retire i [(d, loadStatus 10 pos idx slot col)] s
    else
      let status := patchStatus s cl pos idx slot (h.reg b)
      let k := vget TileContext.fresh (s.tile cl pos).contexts slot
      if status ≠ 0 then retire i [(d, status)] s
      else if !slotRuns s [cl] slot || vget 0 k.slots idx = 0 then retire i [(d, 0)] (putSlot s cl pos idx slot (h.reg b))
      else if (s.tile cl pos).draining.isSome then sleepOn .patch s
      else sleepOn .patch (startDrain s cl pos idx slot (h.reg b) d)

/-- Nothing is left that the old code must convert: no token in the node's slots or on its way to them, none counted in its links, no ticket. -/
def drained (t : Tile) (d : Draining) : Bool :=
  let n := d.idx
  (vget none t.slotA n).isNone && (vget none t.slotB n).isNone && (vget none t.slotC n).isNone &&
  !(t.flights.any fun f => f.dest = .slotA n || f.dest = .slotB n || f.dest = .slotC n) &&
  d.links.toList.all (fun c => c = 0) && !(t.tickets.any fun k => k.idx = n)

/-- The withheld credits of a link go back. -/
def releaseCredits (s : State) (cl pos : Nat) (l : Link) : Nat → State
  | 0 => s
  | n + 1 => releaseCredits (returnCredit s cl pos l) cl pos l n

/-- NODE_REPLACE: the drained node takes its new word, and its issuer's `cfgpatch` completes (R174), unless its task stands still (R366, R370). -/
def execNodeReplace (cl pos idx : Nat) (s : State) : Out :=
  let t := s.tile cl pos
  match t.draining with
  | none => .next s
  | some d =>
    if d.idx ≠ idx || !drained t d || clusterHeld s cl then .next s
    else
      let s := putSlot (s.setTile cl pos { t with draining := none }) cl pos idx d.ctx d.word
      let s := [Link.north, .east, .south, .west].foldl (fun (s : State) l =>
        releaseCredits s cl pos l (vget 0 d.withheld l.code)) s
      .next (completeFor d.issuer (.cfgpatch d.dest 0 0) [(d.dest, 0)] s)

/-! ## `cfgseam` (R175, R256) -/

/-- The side and row of a bit of the sluice mask. -/
def seamSide (n : Nat) : Link × Nat := if n < 16 then (.west, n) else (.east, n - 16)

/-- The bits of a mask that name a sluice on the die's edge. -/
def onEdge (cl : Nat) (mask : BitVec 32) : Bool :=
  (List.range 32).any fun n => mask.getLsbD n && (acrossSluice cl (seamSide n).1).isNone

/-- The bits of a mask that are not yet in the state asked for. -/
def seamLeft (s : State) (cl : Nat) (mask : BitVec 32) (off : Bool) : BitVec 32 :=
  if off then mask &&& (s.region cl).stitched else mask &&& ~~~(s.region cl).stitched

/-- `cfgseam`, R175. -/
def execCfgseam (off : Bool) (a : Reg) (s : State) : Out :=
  let i := Instr.cfgseam off a
  cfgOp i s fun cl h =>
    let mask := lo32 (h.reg a)
    if onEdge cl mask then illegal i s
    else
      let left := seamLeft s cl mask off
      if left = 0 then retire i [] (s.setRegion cl { s.region cl with seamAsk := none })
      else sleepOn .seam (s.setRegion cl { s.region cl with seamAsk := some (left, off) })

/-- A sequencer asks for a port's change. -/
def seamAsks (s : State) (cl n : Nat) : Option Bool :=
  match (s.region cl).seamAsk with
  | some (mask, off) => if mask.getLsbD n then some off else none
  | none => none

/-- No token lies in the input FIFO of a border tile's link, and none is on its way out over it. -/
def linkEmpty (s : State) (cl pos : Nat) (l : Link) : Bool :=
  let t := s.tile cl pos
  (vget [] t.fifo l.code).isEmpty && !t.flights.any fun f => f.dest = .link l

/-- One port of a cluster stitched, with 4 credits, or unstitched. -/
def flipSeam (s : State) (cl n pos : Nat) (l : Link) (off : Bool) : State :=
  let r := s.region cl
  let bit : BitVec 32 := BitVec.ofNat 32 (2 ^ n)
  let s := s.setRegion cl { r with stitched := if off then r.stitched &&& ~~~bit else r.stitched ||| bit }
  let t := s.tile cl pos
  s.setTile cl pos { t with
    credits := vset t.credits l.code (if off then 0 else 4)
    creditsDue := t.creditsDue.filter fun c => c.1 ≠ l.code }

/-- The issuer of a `cfgseam` goes on once every port it named has changed. -/
def seamDone (s : State) (cl : Nat) : State :=
  match (s.region cl).seamAsk with
  | some (mask, off) =>
    if seamLeft s cl mask off = 0 then
      completeFor (.region cl) (.cfgseam off 0) [] (s.setRegion cl { s.region cl with seamAsk := none })
    else s
  | none => s

/-- SEAM_STITCH: both sequencers ask for the same change of a sluice port, and it takes effect (R175), unless the task of one of them stands still (R366, R370). -/
def execSeamStitch (cl port : Nat) (s : State) : Out :=
  if 32 ≤ cl || 32 ≤ port then .fault .noSuchUnit
  else
    let (l, row) := seamSide port
    match acrossSluice cl l with
    | none => .next s
    | some cl' =>
      let port' := sluiceBit (opposite l) row
      let pos := if l = .west then 16 * row else 16 * row + 15
      let pos' := if l = .west then 16 * row + 15 else 16 * row
      match seamAsks s cl port, seamAsks s cl' port' with
      | some off, some off' =>
        if off ≠ off' || clusterHeld s cl || clusterHeld s cl' || (off && !(linkEmpty s cl pos l && linkEmpty s cl' pos' (opposite l))) then .next s
        else
          let s := flipSeam (flipSeam s cl port pos l off) cl' port' pos' (opposite l) off
          .next (seamDone (seamDone s cl) cl')
      | _, _ => .next s

/-! ## `cfgsync` and `cfgest` (R176, R177) -/

/-- `cfgsync`, R176. -/
def execCfgsync (sc : Scope) (s : State) : Out :=
  let i := Instr.cfgsync sc
  cfgOp i s fun cl _ =>
    match postedStatus s s.cur with
    | none => sleepOn .sync s
    | some _ =>
      let s := { s with posted := s.posted.filter fun p => !postedBy s s.cur p }
      let s := releaseHomes s sc
      retire i [] (gatherFlags s (stitchedGroup s cl))

/-- `cfgest`, R177. -/
def execCfgest (a : Reg) (s : State) : Out :=
  let i := Instr.cfgest a
  cfgOp i s fun _ h =>
    let v := (h.reg a).toNat
    let s := match s.me.task, s.myTask with
      | some t, some k => s.setTask t { k with estimate := if v < 2 ^ 32 then v else 2 ^ 32 - 1, estimateAt := s.clock }
      | _, _ => s
    retire i [] s

/-! ## Controller nodes (R177, R248, R249) -/

/-- A descriptor keeps R248 for a task. -/
def nodeLegal (t : Task) (d : Vector Word 4) : Bool :=
  (vget 0 d 0).toNat / 2 ^ 21 = 0 && !(vget 0 d 0).getLsbD 2 && (vget 0 d 3).toNat / 2 ^ 4 = 0 &&
  t.hasCluster (nodeCluster d) &&
  (if nodeKind d = 3 then nodeChildren d = 0 else 1 ≤ nodeChildren d && nodeChildren d ≤ 16) &&
  (nodeKind d ≠ 1 || 1 ≤ nodeDepth d)

/-- Inner nodes that a region controller holds. -/
def innerNodes (s : State) (cl : Nat) : Nat :=
  (s.nodes.filter fun p => nodeCluster p.2.desc = cl && nodeKind p.2.desc ≠ 3 && match p.2.phase with
    | .waiting | .loading | .running => true
    | .ended _ => false).length

/-- The region that a node runs on has room for it. -/
def nodeRoom (s : State) (d : Vector Word 4) : Bool :=
  if nodeKind d = 3 then regionIdle s (nodeCluster d) else innerNodes s (nodeCluster d) < 16

/-- A node comes into being: a leaf takes its region's sequencer, and a malformed one ends at once with cause 1. -/
def makeNode (s : State) (task : Nat) (t : Task) (d : Vector Word 4) (parent : Option (Nat × Nat)) (spawner : Option AgentId) : State :=
  let n := s.nextNode
  let zeros := List.replicate (nodeChildren d) 0
  let s := { s with nextNode := n + 1 }
  let s := s.setNode n ⟨d, task, parent, spawner, .waiting, zeros, zeros, false⟩
  if !nodeLegal t d then finishNode s n 1
  else if nodeKind d = 3 then s.setRegion (nodeCluster d) { s.region (nodeCluster d) with node := some n }
  else s

/-- A descriptor of four doublewords read by an agent. -/
def readNode (s : State) (a : AgentId) (task : Option Nat) (va : Word) (acc : List Word) : Nat → Except (Word × AddrFault) (Vector Word 4 × State)
  | 0 => .ok (Vector.ofFn fun k => nth 0 acc k.val, s)
  | n + 1 =>
    match agentRead s a task va 8 with
    | .error f => .error (va, f)
    | .ok (v, s) => readNode s a task (va + 8) (acc ++ [BitVec.ofNat 64 v]) n

/-- `cfgspawn`, R177. -/
def execCfgspawn (d a : Reg) (s : State) : Out :=
  let i := Instr.cfgspawn d a
  cfgOp i s fun _ h =>
    match readNode s s.cur s.me.task (h.reg a) [] 4, s.me.task, s.myTask with
    | .error (va, f), _, _ => addressFault i va f s
    | .ok (desc, s'), some n, some t =>
      if nodeLegal t desc && !nodeRoom s desc then sleepOn .spawn s
      else retire i [(d, BitVec.ofNat 64 s.nextNode)] (makeNode s' n t desc none (some s.cur))
    | .ok _, _, _ => illegal i s

/-- `cfgjoin`, R177. -/
def execCfgjoin (d a : Reg) (s : State) : Out :=
  let i := Instr.cfgjoin d a
  cfgOp i s fun _ h =>
    let n := (h.reg a).toNat
    match s.node n with
    | none => retire i [(d, BitVec.allOnes 64)] s
    | some x =>
      if x.spawner ≠ some s.cur || some x.task ≠ s.me.task then retire i [(d, BitVec.allOnes 64)] s
      else match x.phase with
        | .ended w => retire i [(d, w)] s
        | .waiting | .loading | .running => sleepOn (.join n) s

/-- A region's sequencer finds uncorrectable data while it starts a node: it stops, and its task with it (R409). -/
def badData (s : State) (cl task : Nat) (va : Word) : State :=
  stopTask (stopAgent s (.region cl) ⟨0, (s.hart (.region cl)).pc, va⟩) task 6

/-- The leaf's region loads its image, unless the slot already holds it, and runs it. -/
def runLeaf (s : State) (m : Nat) (x : Node) : State :=
  let cl := nodeCluster x.desc
  let run := fun (s : State) =>
    startRun (s.setNode m { x with phase := .running }) cl (nodeSlot x.desc) (nodeCount x.desc) (some m)
  if nodeLoaded x.desc then run s
  else if (nodeAddr x.desc).toNat % 64 ≠ 0 then finishNode s m 3
  else match loadImage s cl (nodeAddr x.desc) (nodeSlot x.desc) with
    | .fault _ .page | .fault _ .waits => s
    | .fault va .poisoned => badData s cl x.task va
    | .fault _ _ => finishNode s m 3
    | .failed w s => finishNode s m (2 + w <<< 16)
    | .loaded s => run s

/-- A leaf that waits starts; a gated one first consumes one step credit, once, however often its image has to be waited for (R249, R251), and with it acquires the bytes that the weir counted (R307, log entry 47). -/
def startLeaf (s : State) (m : Nat) (x : Node) : State :=
  let cl := nodeCluster x.desc
  let r := s.region cl
  if !(r.run.isNone && r.lead.isNone && r.node = some m && othersIdle s cl) then s
  else if nodeGated x.desc && x.phase = .waiting then
    if r.stepCredits = 0 then s
    else
      let x := { x with phase := .loading }
      runLeaf (((s.setRegion cl { r with stepCredits := r.stepCredits - 1 }).setNode m x).syncPaths (.region cl) .device) m x
  else runLeaf s m x

/-- Child k may start its next run (R249). -/
def childReady (x : Node) (k : Nat) : Bool :=
  let started := nth 0 x.started k
  let ended := fun (n : Nat) => nth 0 x.ended n
  match nodeKind x.desc with
  | 0 => started = 0 && (k = 0 || ended (k - 1) = 1)
  | 1 =>
    started < nodeRuns x.desc && (k = 0 || started < ended (k - 1)) && started ≤ ended k &&
    (k + 1 = nodeChildren x.desc || started < nodeDepth x.desc || started - nodeDepth x.desc < ended (k + 1))
  | _ => started = 0

/-- Child k of a running inner node starts, if it may and its region has room. A node whose child cannot be read ends with cause 3, and its running children are stopped (DESIGN CHOICE, log entry 52). -/
def startChild (m : Nat) (t : Task) (s : State) (k : Nat) : State :=
  match s.node m with
  | none => s
  | some x =>
    let a := AgentId.region (nodeCluster x.desc)
    if x.phase ≠ .running || !childReady x k then s
    else match agentRead s a (some x.task) (nodeAddr x.desc + BitVec.ofNat 64 (8 * k)) 8 with
    | .error .page | .error .waits => s
    | .error .poisoned => badData s (nodeCluster x.desc) x.task (nodeAddr x.desc)
    | .error _ => finishNode (stopChildren s m (s.nextNode + 1)) m 3
    | .ok (va, s) => match readNode s a (some x.task) (BitVec.ofNat 64 va) [] 4 with
      | .error (_, .page) | .error (_, .waits) => s
      | .error (at_, .poisoned) => badData s (nodeCluster x.desc) x.task at_
      | .error _ => finishNode (stopChildren s m (s.nextNode + 1)) m 3
      | .ok (d, s) =>
        if nodeLegal t d && !nodeRoom s d then s
        else makeNode (s.setNode m { x with started := setNth x.started k (nth 0 x.started k + 1) }) x.task t d (some (m, k)) none

/-- Every child of an inner node that may start does (R249). -/
def startChildren (s : State) (m : Nat) (x : Node) (t : Task) : State :=
  (List.range (nodeChildren x.desc)).foldl (startChild m t) s

/-- NODE_START: a waiting leaf starts its run; an inner node starts every child that may start (R249). -/
def execNodeStart (node : Nat) (s : State) : Out :=
  match s.node node with
  | none => .next s
  | some x =>
    if !taskRuns s x.task then .next s
    else match x.phase, s.task x.task with
      | .ended _, _ | _, none => .next s
      | .loading, some _ => .next (startLeaf s node x)
      | .waiting, some _ =>
        if nodeKind x.desc = 3 then .next (startLeaf s node x)
        else if nodeKind x.desc = 1 && nodeRuns x.desc = 0 then .next (finishNode s node 0)
        else .next (s.setNode node { x with phase := .running })
      | .running, some t => if nodeKind x.desc = 3 then .next s else .next (startChildren s node x t)

end Sys2Proof.Machine
end

