-- ==== Sys2Proof/Machine/LoadStore.lean ====
section
/-! DEFINITION. Loads, stores, prefetch and operand-extension loads (R89 to R96). -/

namespace Sys2Proof.Machine

/-- The address of a WM form. -/
def offAddress (z : Size) (a : Reg) (off : BitVec 8) (h : Hart) : Word := h.reg a + scaledOff z off

/-- The address of an indexed form, R94. -/
def indexAddress (z : Size) (scaled : Bool) (a b : Reg) (h : Hart) : Word :=
  h.reg a + (if scaled then h.reg b * BitVec.ofNat 64 (sizeBytes z) else h.reg b)

/-- `ld`, R89. -/
def execLd (z : Size) (o : Order) (sc : Scope) (d a : Reg) (off : BitVec 8) (s : State) : Out :=
  loadOp (.ld z o sc d a off) s z o sc false (z = .d) d (offAddress z a off)
/-- `lds`, R89. -/
def execLds (z : Size) (o : Order) (sc : Scope) (d a : Reg) (off : BitVec 8) (s : State) : Out :=
  loadOp (.lds z o sc d a off) s z o sc true false d (offAddress z a off)
/-- `st`, R89. -/
def execSt (z : Size) (o : Order) (sc : Scope) (d a : Reg) (off : BitVec 8) (s : State) : Out :=
  storeOp (.st z o sc d a off) s z o sc (z = .d) (offAddress z a off) fun h => h.reg d
/-- `ldx`, R94. -/
def execLdx (z : Size) (o : Order) (sc : Scope) (scaled : Bool) (d a b : Reg) (s : State) : Out :=
  loadOp (.ldx z o sc scaled d a b) s z o sc false false d (indexAddress z scaled a b)
/-- `ldx.sx`, R94. -/
def execLdxSx (z : Size) (o : Order) (sc : Scope) (scaled : Bool) (d a b : Reg) (s : State) : Out :=
  loadOp (.ldxSx z o sc scaled d a b) s z o sc true false d (indexAddress z scaled a b)
/-- `stx`, R94. -/
def execStx (z : Size) (o : Order) (sc : Scope) (scaled : Bool) (d a b : Reg) (s : State) : Out :=
  storeOp (.stx z o sc scaled d a b) s z o sc false (indexAddress z scaled a b) fun h => h.reg d

/-- The line that `pref` brings into a cache; the scale of an index is 1 byte, since its size field is 0 (R95). -/
def prefetchLine (hint : Hint) (va : Word) (s : State) : State :=
  match resolve s s.cur s.me.task va 1 .read false with
  | .ok (.memory pa coh _ shared) =>
    let no := pa / 64
    let c := coherentAt s s.me.task va coh
    match siteOf s pa shared with
    | .absent _ | .uncached _ => s
    | .here | .moving | .copy _ =>
      let segment := (if c then s.cleanLine no else s).fillSeg s.cur.cluster no
      match hint, s.cur with
      | .l1, .thread k _ => if c then fillFromHome (s.cleanBut (some k) no) k no else s.fillL1 k no
      | .l1, _ => segment
      | .segment, _ => segment
      | .mere, _ => s.fetchMere no
  | .ok (.bank _ _ _) | .ok (.localMem _ _) | .ok (.fifo _ _) | .ok (.bankControl _ _) | .error _ => s

/-- `pref`, R95: it never traps. -/
def execPref (hint : Hint) (scaled : Bool) (a b : Reg) (s : State) : Out :=
  issue (.pref hint scaled a b) s fun h =>
    retire (.pref hint scaled a b) [] (prefetchLine hint (indexAddress .b scaled a b h) s)

/-- An operand-extension register written as the instruction completes. -/
def retireOx (i : Instr) (x : Fin 8) (v : Word) (s : State) : Out := retire i [] (s.setMe (s.me.setOx x v))

/-- `oxli`, R96. -/
def execOxli (x : Fin 8) (imm : BitVec 15) (s : State) : Out :=
  issue (.oxli x imm) s fun _ => retireOx (.oxli x imm) x (sext imm) s
/-- `oxmv`, R96. -/
def execOxmv (x : Fin 8) (a : Reg) (s : State) : Out :=
  issue (.oxmv x a) s fun h => retireOx (.oxmv x a) x (h.reg a) s
/-- `oxld`, R96. -/
def execOxld (x : Fin 8) (a : Reg) (off : BitVec 15) (s : State) : Out :=
  issue (.oxld x a off) s fun h =>
    readAt (.oxld x a off) s .thread (h.reg a + sext off * 8) 8 false fun m s =>
      retireOx (.oxld x a off) x (BitVec.ofNat 64 m) s

end Sys2Proof.Machine
end

