-- ==== Sys2Proof/Machine/Codelet.lean ====
section
/-! DEFINITION. Codelets, queues, chains and launch (R195 to R200). -/

namespace Sys2Proof.Machine

/-! ## Codelets (R195 to R198) -/

/-- A codelet reference: its core and the record's address, or the trap of R195 and R266, whose EVAL is the whole register value (log entry 52). -/
def withRecord (i : Instr) (ref : Word) (s : State) (k : Nat → Nat → Out) : Out :=
  let core := ref.toNat / 2 ^ 16 % 2 ^ 11
  let off := ref.toNat % 2 ^ 16
  let declared := match s.myTask with
    | some t => t.hasCore core
    | none => false
  if !declared then trapHere i .protection ref s
  else if off % 8 ≠ 0 || 0xFFF0 < off then trapHere i .misalignment ref s
  else if off < 0x6100 || 0xC000 < off + 16 then trapHere i .protection ref s
  else k core (localBase + core * 0x10000 + off)

/-- `cldec`, R197: one step that takes the counter down and pushes when it crosses zero; a record that holds uncorrectable data stops the task (R409). -/
def execCldec (o : Order) (sc : Scope) (d a b : Reg) (s : State) : Out :=
  issue (.cldec o sc d a b) s fun h =>
    withRecord (.cldec o sc d a b) (h.reg a) s fun core addr =>
      let bad := fun (x : Nat) => s.service.poison.contains (x / 64)
      let n : Word := if b = 0 then 1 else h.reg b
      let old : Word := BitVec.ofNat 64 (s.backingBytes addr 8)
      let new := old - n
      let crosses := (0#64).slt old && new.sle 0
      if bad addr || (crosses && bad (addr + 8)) then addressFault (.cldec o sc d a b) (h.reg a) .poisoned s
      else if crosses && queuesFull (s.core core) then sleepOn (.overflow core) s
      else
        let s := releaseFor s o sc
        let s := s.setBytes addr (bytesLE 8 new.toNat)
        let s := if crosses then
            pushCodelet s s.me.task core ⟨BitVec.ofNat 64 (s.backingBytes (addr + 8) 8), h.reg a, none⟩
          else s
        retire (.cldec o sc d a b) [(d, new)] s

/-- `clpush`, R197; its d field names the register with the core. -/
def execClpush (o : Order) (sc : Scope) (d a b : Reg) (s : State) : Out :=
  issue (.clpush o sc d a b) s fun h =>
    let core := (h.reg d).toNat % 2 ^ 11
    let declared := match s.myTask with
      | some t => t.hasCore core
      | none => false
    if !declared then trapHere (.clpush o sc d a b) .protection (h.reg d) s
    else if queuesFull (s.core core) then sleepOn (.overflow core) s
    else retire (.clpush o sc d a b) [] (pushCodelet (releaseFor s o sc) s.me.task core ⟨h.reg a, h.reg b, none⟩)

/-- Threads of a core that sleep in `clnext`. -/
def codeletWaiters (s : State) (core : Nat) : List (AgentId × Nat) :=
  s.harts.filterMap fun p => match p.1, p.2.status with
    | .thread c _, .sleeping .codelet since => if c = core then some (p.1, since) else none
    | _, _ => none

/-- The entries that a core's ring and overflow queue hold. -/
def codeletCount (k : Core) : Nat := k.ring.length + k.overflow.length

/-- The oldest entry taken from a core. -/
def takeCodelet (k : Core) : Option (Codelet × Core) :=
  match k.ring, k.overflow with
  | c :: r, _ => some (c, { k with ring := r })
  | [], c :: r => some (c, { k with overflow := r })
  | [], [] => none

/-- A thread takes the oldest codelet of its core and enters it (R198). -/
def enterCodelet (o : Order) (sc : Scope) (core : Nat) (s : State) : Out :=
  match takeCodelet (s.core core) with
  | none => sleepOn .codelet s
  | some (c, k) =>
    let s := acquireFor (settlePush (s.setCore core k) core) o sc
    let s := match c.acquire with
      | some sc => s.syncPaths s.cur sc
      | none => s
    let next := s.me.pc + 4
    let s := chainMoves (.clnext o sc) [(3, c.arg), (1, next)] s
    .next (s.setMe { s.me.setRegs (keptWrites s.me [(3, c.arg), (1, next)]) with
      pc := evenPc c.entry
      codelet := true
      codeRet := next })

/-- `clnext`, R198; an entry goes first to the threads that already sleep for one (R272). -/
def execClnext (o : Order) (sc : Scope) (s : State) : Out :=
  issue (.clnext o sc) s fun _ =>
    notInCodelet (.clnext o sc) s <|
    match s.cur with
    | .thread c _ =>
      if codeletCount (s.core c) ≤ (codeletWaiters s c).length then sleepOn .codelet s
      else enterCodelet o sc c s
    | .region _ | .matrix _ _ | .epilogue _ _ | .copySeq _ _ | .tile _ _ _ => illegal (.clnext o sc) s

/-! ## Packets (R199) -/

/-- The eight words of a packet, read after a release at a scope on path t, or the trap or wait of its address.
`ready` says whether the instruction may proceed; if not, it sleeps before it releases or reads anything. -/
def withPacket (i : Instr) (sc : Scope) (va : Word) (ready : Bool) (w : Wait) (s : State) (k : List Word → State → Out) : Out :=
  match resolve s s.cur s.me.task va 64 .read false with
  | .error f => addressFault i va f s
  | .ok (.fifo _ _) | .ok (.bankControl _ _) => trapHere i .protection va s
  | .ok (.bank _ _ addr) | .ok (.localMem _ addr) =>
    if !ready then sleepOn w s
    else
      let s := s.release s.cur sc
      k ((List.range 8).map fun n => BitVec.ofNat 64 (s.backingBytes (addr + 8 * n) 8)) s
  | .ok (.memory pa _ _ shared) =>
    if !ready then sleepOn w s
    else
      let here := fun (_ : Unit) =>
        let s := (s.release s.cur sc).cleanLine (pa / 64)
        k ((List.range 8).map fun n => s.homeWord (pa + 8 * n)) s
      match siteOf s pa shared with
      | .here | .moving | .copy _ => here ()
      | .absent p | .uncached p => match reach s p with
        | .up =>
          let s := s.release s.cur sc
          k ((List.range 8).map fun n => Config.free (s.freeCtr + n)) { s with freeCtr := s.freeCtr + 8 }
        | .retraining => sleepOn (.remote (pa / 4096)) s
        | .down => trapHere i .protection va s

/-- Credits toward a destination: those in hand, or those that management grants at the first send, 0 to 16 (R393; log entry 4). -/
def creditsFor (s : State) (dest : Nat) : Nat × State :=
  match tfind dest s.renqCredits with
  | some n => (n, s)
  | none =>
    let n := (Config.free s.freeCtr).toNat % 17
    (n, if n = 0 then s.bumpFree else { s.bumpFree with renqCredits := tset dest n s.renqCredits })

/-- A failure that no acknowledgement reports goes to the link error record (R199, R392). -/
def renqFailed (s : State) (dest : Nat) (va : Word) : State :=
  s.linkRecord 2 (portOf s dest) dest va (some s.cur) s.me.task 64

/-- A packet is acknowledged: its credit returns, whether or not its sender waits for the status, with what the receiver did: 0 placed, 1 full, 2 in error or 4 not permitted, as a free value says (R199, R393; log entry 4). -/
def packetAnswer (s : State) (r : Renq) : Nat × State :=
  let status := match (Config.free s.freeCtr).toNat % 4 with
    | 0 => 0 | 1 => 1 | 2 => 2 | _ => 4
  (status, { s.bumpFree with
    renqs := if r.ack && !r.gone then s.renqs.map fun x => if x = r then { x with answer := some status } else x else s.renqs.erase r
    renqCredits := tset r.dest (tget 0 r.dest s.renqCredits + 1) s.renqCredits })

/-- The acknowledgement of a packet; a refusal goes to the link error record where no status reports it (R199). -/
def packetAnswered (s : State) (r : Renq) : State :=
  let p := packetAnswer s r
  if p.1 = 0 || r.ack then p.2 else p.2.linkRecord 2 (portOf s r.dest) r.dest r.va (some r.sender) r.task 64

/-- The packets toward a device whose acknowledgement is back by now, as free values say, among those that have left (R393, R398; log entry 4). -/
def settlePackets (s : State) (dest : Nat) : State :=
  (s.renqs.filter fun r => r.dest = dest && r.answer.isNone && !r.waiting).foldl (fun (s : State) r =>
    if (Config.free s.freeCtr).getLsbD 0 then packetAnswered s.bumpFree r else s.bumpFree) s

/-- The packet of the `renq.ack` at an agent's pc, sent for the task that it runs, and by its handler where it is in one. -/
def Renq.of (s : State) (a : AgentId) (r : Renq) : Bool :=
  r.sender = a && r.ack && !r.gone && r.pc = (s.hart a).pc && r.task = (s.hart a).task && r.handler = (s.hart a).tmode

/-- A `renq.ack` that sleeps for its answer completes with the status of its packet, which is gone then (R199). -/
def answerWith (s : State) (r : Renq) (status : Nat) : State :=
  completeFor r.sender r.instr [(r.dest_, BitVec.ofNat 64 status)] { s with renqs := s.renqs.erase r }

/-- An agent has sent the packet of a `renq.ack` at its pc and waits for the answer: a watchdog trap returns here, and the packet is not sent twice (R206, R213). -/
def answerAwaited (s : State) : Bool := s.renqs.any (Renq.of s s.cur)

/-- A `renq` that no port can carry: a record of kind 2 where no status reports it, or where the peer was declared down (R392, R399); the status 3 follows its record (R400). -/
def renqUnreachable (ack : Bool) (i : Instr) (d : Reg) (dest q : Nat) (va : Word) (ws : List Word) (s : State) : Out :=
  let s := if ack && (tfind dest s.peersDown).isNone then s else renqFailed s dest va
  if !ack then retire i [(d, 0)] s
  else if s.recordsWait then
    sleepOn .answer { s with renqs := s.renqs ++
      [⟨dest, q, Vector.ofFn fun k => nth 0 ws k.val, s.cur, s.me.task, va, true, d, i, s.me.pc, some 3, false, s.me.tmode, false⟩] }
  else retire i [(d, 3)] s

/-- `renq`, R199. -/
def execRenq (ack : Bool) (d a b : Reg) (s : State) : Out :=
  issue (.renq ack d a b) s fun h =>
    let i := Instr.renq ack d a b
    let dest := (h.reg a).toNat % 2 ^ 18
    let q := (h.reg a).toNat / 2 ^ 18 % 2 ^ 12
    let va := h.reg b
    if ack && answerAwaited s then sleepOn .answer s
    else if dest = s.ownDevice then
      withPacket i .system va true (.packetSlot dest) s fun ws s =>
        let r := receivePacket s q s.myTask ws
        if ack then retire i [(d, BitVec.ofNat 64 r.1)] r.2
        else retire i [(d, 0)] (if r.1 = 0 then r.2 else renqFailed r.2 dest va)
    else match reach s dest with
      | .down =>
        withPacket i .system va true (.packetSlot dest) s fun ws s => renqUnreachable ack i d dest q va ws s
      | .up | .retraining =>
        let c := creditsFor s dest
        withPacket i .system va (c.1 ≠ 0) (.packetSlot dest) c.2 fun ws s =>
          let packet : Vector Word 8 := Vector.ofFn fun k => nth 0 ws k.val
          let s := { s with
            renqCredits := tset dest (c.1 - 1) s.renqCredits
            renqs := s.renqs ++ [⟨dest, q, packet, s.cur, s.me.task, va, ack, d, i, s.me.pc, none, false, s.me.tmode, reach s dest ≠ .up⟩] }
          if ack then sleepOn .answer s else retire i [(d, 0)] s

/-- `launch`, R199. -/
def execLaunch (d a b : Reg) (s : State) : Out :=
  issue (.launch d a b) s fun h =>
    let q := (h.reg b).toNat % 2 ^ 12
    withPacket (.launch d a b) .device (h.reg a) true (.packetSlot 0) s fun ws s =>
      let k := s.queue q
      if !openTo k s.myTask || k.full then retire (.launch d a b) [(d, BitVec.allOnes 64)] s
      else retire (.launch d a b) [(d, BitVec.ofNat 64 k.wmax)] (placePacket s q ws)

/-- `trig`, R199: only the first one of a task counts. -/
def execTrig (s : State) : Out :=
  issue .trig s fun _ =>
    let s := s.release s.cur .system
    let s := match s.me.task, s.myTask with
      | some n, some t => s.setTask n { t with trig := true }
      | _, _ => s
    retire .trig [] s

/-! ## Chains (R200) -/

/-- The chain bindings of the threads of a core. -/
def bindings (s : State) (core : Nat) : List (Option Nat × Option Nat) :=
  s.harts.filterMap fun p => match p.1, p.2.chain with
    | .thread c _, some b => if c = core then some b else none
    | _, _ => none

/-- The status of a `qbind` of a core to neighbours: the side of this core, or the side of the neighbour that faces it, is taken. -/
def bindStatus (s : State) (core : Nat) (up down : Option Nat) : Nat :=
  let near : Option Nat → Bool := fun n => match n with
    | some n => neighbours core n
    | none => true
  if !(near up && near down) then 1
  else
    let mine := bindings s core
    let upTaken := match up with
      | none => false
      | some u => mine.any (fun b => b.1.isSome) || (bindings s u).any fun b => match b.2 with
        | some x => x ≠ core
        | none => false
    let downTaken := match down with
      | none => false
      | some n => mine.any (fun b => b.2.isSome) || (bindings s n).any fun b => match b.1 with
        | some x => x ≠ core
        | none => false
    if upTaken || downTaken then 2 else 0

/-- The binding of the running thread changed after the instruction completed under the old one. -/
def rebind (b : Option (Option Nat × Option Nat)) : Out → Out
  | .next s => .next (s.setMe { s.me with chain := b })
  | .fault f => .fault f
  | .refused r => .refused r

/-- The thread's output queue is empty (R200). -/
def outputDrained (s : State) : Bool :=
  match s.me.chain with
  | some (_, some d) => (s.core d).chain.isEmpty
  | some (_, none) | none => true

/-- `qbind`, R200; a thread that is bound already takes the new binding as a whole, and the status that `qbind.off` writes is 0; the spec states neither (DESIGN CHOICE, log entry 52). -/
def execQbind (off : Bool) (d a b : Reg) (s : State) : Out :=
  issue (.qbind off d a b) s fun h =>
    let i := Instr.qbind off d a b
    if off then
      if outputDrained s then rebind none (retire i [(d, 0)] s) else sleepOn .chainDrain s
    else match s.cur with
      | .thread c _ =>
        let side : Word → Option Nat := fun v => if v = BitVec.allOnes 64 then none else some v.toNat
        let up := side (h.reg a)
        let down := side (h.reg b)
        match bindStatus s c up down with
        | 0 => rebind (some (up, down)) (retire i [(d, 0)] s)
        | n + 1 => retire i [(d, BitVec.ofNat 64 (n + 1))] s
      | .region _ | .matrix _ _ | .epilogue _ _ | .copySeq _ _ | .tile _ _ _ => illegal i s

end Sys2Proof.Machine
end

