-- ==== Sys2Proof/Machine/Copy.lean ====
section
/-! DEFINITION. Copies: issue, element loop, streams and completion (R139 to R152). -/

namespace Sys2Proof.Machine

/-! ## Conversion (R144) -/

/-- A rounding code of R25. -/
def rndOf : Nat → Rnd
  | 1 => .rtz | 2 => .rdn | 3 => .rup | 4 => .rna | 5 => .rod | 6 => .rhd
  | _ => .rne

/-- The destination element of a source element; with CONV 0 it is unchanged, a self-describing block too (R144, log entry 11): `q` is its linear index and `t` the copy's number (R27). -/
def copyConvert (d : CopyDesc) (q t v : Nat) : Nat × Flags :=
  let r : Rounding := ⟨rndOf d.rnd, rhdHash (BitVec.ofNat 32 q) (BitVec.ofNat 32 t)⟩
  let go := fun (a b : FloatType) => (floatFmt b).convert r d.sat ((floatFmt a).unpack v)
  match d.conv with
  | 1 => go .f32 .bf16
  | 2 => go .f32 .f16
  | 3 => go .bf16 .f32
  | 4 => go .f16 .f32
  | 5 => go .f32 .e4m3
  | 6 => go .f32 .e5m2
  | 7 => go .bf16 .e4m3
  | 8 => go .e4m3 .bf16
  | 9 => go .f32 .fp4
  | 10 => (intFmt .i8).clamp ((intFmt .i32).read v)
  | _ => (v, noFlags)

namespace Copy

/-- The bytes of a pair: each unclipped nibble in its half, a clipped one 0. -/
def pairByte (c : Copy) (values : List Nat) : Nat × Flags :=
  let d : CopyDesc := c.desc
  let (low, high) := match c.parts with
    | [a, b] => (!c.clipped a, !c.clipped b)
    | _ => (false, false)
  if d.esz = 5 then
    let v := nth 0 values 0
    ((if low then v % 16 else 0) + (if high then v / 16 % 16 * 16 else 0), noFlags)
  else
    let x := if low then copyConvert d c.linear c.number (nth 0 values 0) else (0, noFlags)
    let y := if high then copyConvert d (c.linear + 1) c.number (nth 0 values (if low then 1 else 0)) else (0, noFlags)
    (x.1 % 16 + 16 * (y.1 % 16), x.2 ||| y.2)

/-- The destination value of the step from the values read. -/
def value (c : Copy) (values : List Nat) : Nat × Flags :=
  let d : CopyDesc := c.desc
  if d.pairs then c.pairByte values
  else if c.clipped c.place.1 then (0, noFlags)
  else copyConvert d c.linear c.number (nth 0 values 0)

end Copy

/-- The element of a pair whose read is under way: of two FP32 elements that become one byte, the second once the first is read or clipped (R145). -/
def Copy.readOffset (c : Copy) : Nat :=
  let d : CopyDesc := c.desc
  if d.pairs && d.esz ≠ 5 then
    match c.parts with
    | a :: _ => if c.clipped a then 1 else c.held.length
    | [] => 0
  else 0

/-- A copy freezes with its record, for the element `off` past the one under way (R297, R298).
A retry that finds a bad format code again is unresolvable, and the task stops. -/
def freezeCopy (s : State) (e : Nat) (c : Copy) (off : Nat) (va : Word) (cause fcode : Nat) : State × Copy :=
  let (i0, i1, i2, i3) := c.place
  let again := match c.record with
    | some r => r.state = 2 && r.cause = 4 && cause = 4
    | none => false
  let r : FaultRecord := ⟨va, [i0 + off, i1, i2, i3, c.number % 2 ^ 16, 0], 0, fcode, 0, 1, e, if again then 3 else 1, cause⟩
  let s := s.report (.addressFault r)
  (if again then stopTask s c.task 7 else s, { c with record := some r })

/-- A copy is frozen until a wake token reaches it; then it retries the failing access (R297). -/
def Copy.frozen (c : Copy) : Bool := match c.record with
  | some r => r.state ≠ 2
  | none => false

/-- The reads of a step that are still to be performed, and what follows. -/
def copyReads (s : State) (e : Nat) (c : Copy) (block : Bool) : List (Word × Nat) → (State → Copy → State × Copy) → State × Copy
  | [], k => k s c
  | (va, n) :: r, k =>
    match genRead s (engineCluster e) (some c.task) va n block with
    | .wait => (s, c)
    | .fault cause fcode => freezeCopy s e c c.readOffset va cause fcode
    | .done v s => copyReads s e { c with held := c.held ++ [v], record := none } block r k

/-- The first destination that cannot be written now. -/
def writeBlocked (s : State) (e : Nat) (c : Copy) (n : Nat) : List Word → Option (Word × GenOut)
  | [] => none
  | va :: r =>
    match genWriteCheck s (engineCluster e) (some c.task) va n with
    | .done _ _ => writeBlocked s e c n r
    | .wait => some (va, .wait)
    | .fault cause fcode => some (va, .fault cause fcode)

/-- The step after this one. -/
def copyNext (c : Copy) : Copy :=
  let next := c.next + 1
  { c with next := next, held := [], record := none, index := if next % c.perRow = 0 then none else c.index }

/-- The writes of a step to all its destinations: every one passes its checks before the first is performed. -/
def copyWrites (s : State) (e : Nat) (c : Copy) (n : Nat) (v : Nat × Flags) : State × Copy :=
  let cl := engineCluster e
  if c.strays cl then freezeCopy s e c 0 c.dstAt 2 0
  else match writeBlocked s e c n (c.targets cl) with
    | some (va, .fault cause fcode) => freezeCopy s e c 0 va cause fcode
    | some _ => (s, c)
    | none =>
      ((c.targets cl).foldl (fun (s : State) va => genWriteBy s (.region cl) c.owner (some c.task) va n v.1) s,
       copyNext { c with flags := c.flags ||| v.2 })

/-- Bytes credited to the weir named, once for each destination (R145, R306). -/
def creditClipped (s : State) (e : Nat) (task : Option Nat) (d : CopyDesc) (n : Nat) : State :=
  if d.nocr || d.weir = 0x3F || n = 0 then s
  else { s with credits := s.credits ++ [⟨weirNo (engineCluster e) d.weir, task, e, n⟩] }

/-- One element, or one pair of nibbles, of a copy (R145). -/
def copyElement (s : State) (e : Nat) (c : Copy) : State × Copy :=
  let d : CopyDesc := c.desc
  let n := if d.pairs then 1 else d.dstBytes
  if c.allClipped && !d.zf then
    (creditClipped s e (some c.task) d (n * (if d.mc then (c.targets (engineCluster e)).length else 1)), copyNext c)
  else
    copyReads s e c (d.esz = 4) (c.reads.drop c.held.length) fun s c => copyWrites s e c n (c.value c.held)

/-- The index of the row under way read first (R148), then the element. -/
def copyIndexed (s : State) (e : Nat) (c : Copy) (list : Word) : State × Copy :=
  match c.index with
  | some _ => copyElement s e c
  | none =>
    let va := list + BitVec.ofNat 64 (4 * (c.next / c.perRow))
    match genRead s (engineCluster e) (some c.task) va 4 false with
    | .wait => (s, c)
    | .fault cause fcode => freezeCopy s e c 0 va cause fcode
    | .done v s => copyElement s e { c with index := some (BitVec.ofNat 64 v), record := none }

/-- The physical line of a virtual line, where its page grants the access (R151). -/
def rangeLine (s : State) (e : Nat) (c : Copy) (va : Nat) (k : Access) : Option Nat :=
  if 2 ^ 64 ≤ va then none
  else match resolve s (.region (engineCluster e)) (some c.task) (BitVec.ofNat 64 va) 1 k false with
    | .ok (.memory pa _ _ _) => some (pa / 64)
    | .ok (.bank _ _ _) | .ok (.localMem _ _) | .ok (.fifo _ _) | .ok (.bankControl _ _) | .error _ => none

/-- A mere line discarded: of its dirty bytes any may have reached HBM before, by a free value (R151; log entry 4). -/
def discardLine (s : State) (no : Nat) : State :=
  match findLine no s.mere with
  | none => s
  | some l =>
    let kept := Config.free s.freeCtr &&& l.dirty
    let bytes := (List.range 64).filter fun k => kept.getLsbD k
    let s := bytes.foldl (fun (s : State) k => s.setBacking (64 * no + k) (lineByte l.data k)) s
    (s.discardMere no).bumpFree

/-- One step of a command of an engine. -/
def copyStep (s : State) (e : Nat) (c : Copy) : State × Copy :=
  match c.kind with
  | .tile | .landing => copyElement s e c
  | .stream _ => if c.next < c.started * c.perTile then copyElement s e c else (s, c)
  | .gather l _ | .scatter l _ => copyIndexed s e c l
  | .discard _ _ =>
    let s := match rangeLine s e c (64 * (c.lines.1 + c.next)) .write with
      | some no => discardLine s no
      | none => s
    (s, { c with next := c.next + 1 })
  | .prefetch _ _ =>
    let s := match rangeLine s e c (64 * (c.lines.1 + c.next)) .read with
      | some no => s.fetchMere no
      | none => s
    (s, { c with next := c.next + 1 })

/-! ## Issuing (R140, R146 to R150) -/

/-- The operand-extension registers as they are captured. -/
def captured (h : Hart) : CopyDesc := h.ox

/-- A command accepted by the engine of the running agent: it joins the queue and the agent's open batch.
`numbered` says that it takes a copy sequence number (R140). -/
def acceptCopy (s : State) (task : Nat) (kind : CopyKind) (d : CopyDesc) (stream started : Nat) (numbered : Bool) : CopyId × State :=
  let e := s.cur.engine
  let k := s.engine e
  let n := tget 0 task k.counts
  let id : CopyId := ⟨e, k.serial⟩
  let c : Copy := ⟨id, s.cur, task, kind, d, n, 0, none, [], [], stream, started, 0, noFlags, none⟩
  let counts := if numbered then tset task ((n + 1) % 2 ^ 32) k.counts else k.counts
  let s := s.setEngine e { k with queue := k.queue ++ [c], serial := k.serial + 1, counts := counts }
  (id, s.setMe { s.me with openBatch := s.me.openBatch ++ [id] })

/-- The engine's queue of 32 commands is full. -/
def copyQueueFull (s : State) : Bool := 32 ≤ (s.engine s.cur.engine).queue.length

/-- A copy instruction with a legal descriptor, once the queue has room. -/
def copyOp (i : Instr) (landing : Bool) (s : State) (k : Nat → CopyDesc → Hart → Out) : Out :=
  issue i s fun h =>
    let d := captured s.me
    match s.me.task with
    | none => illegal i s
    | some t =>
      if !d.legal s.cur.cluster landing then illegal i s
      else if copyQueueFull s then sleepOn .copyQueue s
      else k t d h

/-- A copy accepted, with its promise written to d (R147). -/
def issueCopy (i : Instr) (dst : Reg) (task : Nat) (kind : CopyKind) (d : CopyDesc) (s : State) : Out :=
  let p := Config.promise s.freeCtr
  let (id, s) := acceptCopy s.bumpFree task kind d 0 0 true
  retire i [(dst, p)] (s.setMe { s.me with promises := s.me.promises ++ [(id, p)] })

/-- A gather or scatter of no rows is complete at once (R148); it takes its number all the same. -/
def issueEmpty (i : Instr) (dst : Reg) (task : Nat) (s : State) : Out :=
  let k := s.engine s.cur.engine
  let s := s.setEngine s.cur.engine { k with counts := tset task ((tget 0 task k.counts + 1) % 2 ^ 32) k.counts }
  retire i [(dst, Config.promise s.freeCtr)] s.bumpFree

/-- `cpgo`, R145. -/
def execCpgo (d : Reg) (s : State) : Out :=
  copyOp (.cpgo d) false s fun t x _ => issueCopy (.cpgo d) d t .tile x s

/-- `cpmx`, R147. -/
def execCpmx (d : Reg) (s : State) : Out :=
  copyOp (.cpmx d) true s fun t x _ => issueCopy (.cpmx d) d t .landing x s

/-- `cpgath`, R148. -/
def execCpgath (d a b : Reg) (s : State) : Out :=
  copyOp (.cpgath d a b) false s fun t x h =>
    let rows := (h.reg b).toNat % 2 ^ 16
    if rows = 0 then issueEmpty (.cpgath d a b) d t s
    else issueCopy (.cpgath d a b) d t (.gather (h.reg a) rows) x s

/-- `cpscat`, R148. -/
def execCpscat (d a b : Reg) (s : State) : Out :=
  copyOp (.cpscat d a b) false s fun t x h =>
    let rows := (h.reg b).toNat % 2 ^ 16
    if rows = 0 then issueEmpty (.cpscat d a b) d t s
    else issueCopy (.cpscat d a b) d t (.scatter (h.reg a) rows) x s

/-- `cpseal`, R149: an empty batch is finished when it is sealed. -/
def execCpseal (d : Reg) (s : State) : Out :=
  issue (.cpseal d) s fun _ =>
    let h := s.me
    if 16 ≤ h.sealedBatches.length then sleepOn .sealed s
    else
      let sealed := if h.openBatch.isEmpty then h.sealedBatches else h.sealedBatches ++ [(h.nextBatch.toNat, h.openBatch)]
      retire (.cpseal d) [(d, h.nextBatch)] (s.setMe { h with
        openBatch := []
        sealedBatches := sealed
        nextBatch := h.nextBatch + 1 })

/-- `cpwaitb`, R149. -/
def execCpwaitb (n : BitVec 5) (s : State) : Out :=
  issue (.cpwaitb n) s fun _ =>
    notInCodelet (.cpwaitb n) s <|
    if n.toNat < s.me.sealedBatches.length then sleepOn (.batches n.toNat) s
    else retire (.cpwaitb n) [] s

/-- A range command accepted by the engine (R151); it is no copy and takes no number. -/
def rangeOp (i : Instr) (kind : Hart → CopyKind) (s : State) : Out :=
  issue i s fun h =>
    match s.me.task with
    | none => illegal i s
    | some t =>
      if copyQueueFull s then sleepOn .copyQueue s
      else retire i [] (acceptCopy s t (kind h) (captured s.me) 0 0 false).2

/-- `cpdisc`, R151. -/
def execCpdisc (a b : Reg) (s : State) : Out :=
  rangeOp (.cpdisc a b) (fun h => .discard (h.reg a) (h.reg b)) s

/-- `cppre`, R151. -/
def execCppre (a b : Reg) (s : State) : Out :=
  rangeOp (.cppre a b) (fun h => .prefetch (h.reg a) (h.reg b)) s

/-- An open stream. -/
def isStream (n : Nat) (c : Copy) : Bool :=
  match c.kind with
  | .stream _ => c.stream = n
  | .tile | .landing | .gather _ _ | .scatter _ _ | .discard _ _ | .prefetch _ _ => false

/-- The lowest stream of an engine that is not open. -/
def freeStream (k : CopyEngine) : Option Nat :=
  (List.range 16).find? fun n => !(k.queue ++ k.running).any (isStream n)

/-- `cpstr`, R150. -/
def execCpstr (d a : Reg) (s : State) : Out :=
  let i := Instr.cpstr d a
  issue i s fun h =>
    let x := captured s.me
    let n := (h.reg a).toNat
    match s.me.task with
    | none => illegal i s
    | some t =>
      if !x.legal s.cur.cluster false || n = 0 || 256 < n then illegal i s
      else match freeStream (s.engine s.cur.engine) with
        | none => sleepOn .streams s
        | some m =>
          if copyQueueFull s then sleepOn .copyQueue s
          else
            let started := if n < x.ext 3 then n else x.ext 3
            retire i [(d, BitVec.ofNat 64 (16 * s.cur.engine + m))] (acceptCopy s t (.stream n) x m started true).2

/-- A freed-slot notice on its way to the stream of a handle of 13 bits (R150). -/
def sendFreed (s : State) (handle : Word) : State := { s with freed := s.freed ++ [handle.toNat % 2 ^ 13] }

/-- `cpfree`, R150. -/
def execCpfree (a : Reg) (s : State) : Out :=
  issue (.cpfree a) s fun h => retire (.cpfree a) [] (sendFreed s (h.reg a))

/-! ## The engine at work -/

/-- COPY_START: the copy at the head of the queue starts while fewer than four run (R140). -/
def execCopyStart (e : Nat) (s : State) : Out :=
  let k := s.engine e
  match k.queue with
  | c :: r =>
    if k.running.length < 4 && taskRuns s c.task then .next (s.setEngine e { k with queue := r, running := k.running ++ [c] })
    else .next s
  | [] => .next s

/-- A running copy put back after a step. -/
def putCopy (s : State) (e n : Nat) (c : Copy) : State :=
  s.setEngine e { s.engine e with running := setNth (s.engine e).running n c }

/-- A step of a copy that a bank's switch waits for is served under the bank's old mode (R286). -/
def copyStepEarly (s : State) (e : Nat) (c : Copy) : State × Copy :=
  let mark := fun (s : State) (m : Nat → Option BankMode) =>
    c.early.foldl (fun (s : State) key => setBank s (key / 32) (key % 32) { bankOf s (key / 32) (key % 32) with busy := m key }) s
  let r := copyStep (mark s fun _ => none) e c
  (mark r.1 fun key => (bankOf s (key / 32) (key % 32)).busy, r.2)

/-- COPY_ELEMENT: running copy `n` of the engine takes its next step, unless it is frozen (R145, R297). -/
def execCopyElement (e n : Nat) (s : State) : Out :=
  match nth? (s.engine e).running n with
  | none => .next s
  | some c =>
    if c.frozen || !(c.next < c.total) || !taskRuns s c.task then .next s
    else
      let r := copyStepEarly s e c
      .next (putCopy r.1 e n r.2)

/-- The batches of an agent without a copy that is complete; a finished batch is no longer counted (R149). -/
def leaveBatches (h : Hart) (id : CopyId) : Hart :=
  { h with
    openBatch := h.openBatch.filter fun x => x ≠ id
    sealedBatches := (h.sealedBatches.map fun b => (b.1, b.2.filter fun x => x ≠ id)).filter fun b => !b.2.isEmpty
    promises := h.promises.filter fun p => p.1 ≠ id }

/-- The agent still waits for the copy, and so is the one that issued it. -/
def issuedBy (h : Hart) (id : CopyId) : Bool := h.openBatch.contains id || h.sealedBatches.any fun b => b.2.contains id

/-- The deferred slots that hear of a landing (R147). -/
def landingsOf (c : Copy) (cl : Nat) : List (Nat × Nat) :=
  let d : CopyDesc := c.desc
  match c.kind with
  | .landing =>
    if d.mc then ((List.range 8).filter fun b => d.mask.testBit b).map fun b => (blockNo cl b, d.slot)
    else [(blockNo cl ((d.word 1 - scratchBase) % 0x2000000 / 0x400000), d.slot)]
  | .tile | .gather _ _ | .scatter _ _ | .stream _ | .discard _ _ | .prefetch _ _ => []

/-- The flags of a copy go to the agent that issued it: a thread that still waits for it, or the sequencer, which keeps no batches over a fork and still takes the flags of its task's copies (R30). -/
def raisesFor (h : Hart) (c : Copy) : Bool := issuedBy h c.id || (!c.owner.isThread && h.task = some c.task)

/-- A copy is complete: its writes are released, its agent's flags and batches hear of it, and landing notices leave (R30, R147, R152). -/
def finishCopy (s : State) (e : Nat) (c : Copy) : State :=
  let d : CopyDesc := c.desc
  let s := match scopeOf d.scope with
    | some sc => releaseHomes s sc
    | none => s
  let h := s.hart c.owner
  let s := if raisesFor h c then s.setHart c.owner (leaveBatches (h.raise c.flags) c.id) else s
  { s with landings := s.landings ++ landingsOf c (engineCluster e) }

/-- COPY_COMPLETE: running copy `n` has handled its last element (R152). -/
def execCopyComplete (e n : Nat) (s : State) : Out :=
  let k := s.engine e
  match nth? k.running n with
  | none => .next s
  | some c =>
    if c.record.isSome || c.next < c.total || !taskRuns s c.task then .next s
    else .next (finishCopy (s.setEngine e { k with running := dropNth k.running n }) e c)

/-- A notice reaches a stream: it starts the next tile, or is ignored and marked in STRSTAT when no slot is held (R150). -/
def freeSlot (c : Copy) : Option Copy :=
  let d : CopyDesc := c.desc
  if c.started ≤ c.freed then none
  else some { c with freed := c.freed + 1, started := if c.started < d.ext 3 then c.started + 1 else c.started }

/-- The engine with a notice for one of its streams delivered. -/
def deliverFreed (k : CopyEngine) (n : Nat) : CopyEngine :=
  let overflow := { k with strstat := k.strstat ||| BitVec.ofNat 16 (2 ^ n) }
  let upd : List Copy → List Copy := fun l => l.map fun c =>
    if isStream n c then
      match freeSlot c with
      | some c => c
      | none => c
    else c
  if (k.queue ++ k.running).any fun c => isStream n c && (freeSlot c).isSome then
    { k with queue := upd k.queue, running := upd k.running }
  else overflow

/-- STREAM_TILE_START: the earliest notice on its way to stream `n` of engine `e` arrives (R150, R300). -/
def execStreamTileStart (e n : Nat) (s : State) : Out :=
  if 288 ≤ e || 16 ≤ n then .fault .noSuchUnit
  else if s.freed.contains (16 * e + n) && !clusterHeld s (if e < 256 then e / 8 else e - 256) then
    .next ({ s with freed := s.freed.erase (16 * e + n) }.setEngine e (deliverFreed (s.engine e) n))
  else .next s

/-! ## Frozen copies (R297) -/

/-- A copy's fault cannot be resolved: the task stops with cause 7, or 6 for uncorrectable data. -/
def copyUnresolved (s : State) (e n : Nat) : State :=
  match nth? (s.engine e).running n with
  | none => s
  | some c => match c.record with
    | none => s
    | some r =>
      if r.state = 3 then s
      else stopTask (putCopy s e n { c with record := some { r with state := 3 } }) c.task (if r.cause = 5 then 6 else 7)

/-- A frozen copy retries: its record takes STATE 2, and it makes the failing access again with all its checks until that goes through or fails again.
A wake token sets off causes 1 and 4, and a restore any (R297, R299); while the task is frozen the access waits until it runs again. -/
def retryCopy (s : State) (e n : Nat) (any : Bool) : State :=
  match nth? (s.engine e).running n with
  | none => s
  | some c => match c.record with
    | none => s
    | some r =>
      if !(r.state = 1 && (any || r.cause = 1 || r.cause = 4)) then s
      else
        let c := { c with record := some { r with state := 2 } }
        if taskRuns s c.task then
          let x := copyStepEarly s e c
          putCopy x.1 e n x.2
        else putCopy s e n c

end Sys2Proof.Machine
end

