-- ==== Sys2Proof/Machine/Epilogue.lean ====
section
/-! DEFINITION. The epilogue engine: reading accumulators, loading and storing rows on path m, and cell words over row registers (R56, R136, R137, R163 to R166, R285). -/

namespace Sys2Proof.Machine

/-! ## Accumulators (R164) -/

/-- A command on an accumulator is queued, or released and waiting for the queue (R161). -/
def accumulatorBusy (k : Block) (acc : Nat) : Bool :=
  let names : MatrixCmd → Bool := fun c => match c.op with
    | .multiply n _ | .fill n _ => n = acc
    | .program _ _ | .unload => false
  k.queue.any names || k.releases.any fun n => match (deferredSlot k n).cmd with
    | some c => names c
    | none => false

/-- A lane times its two band scales (R37). -/
def bandScaled (c0 c1 : BitVec 32) (row j acc : Nat) : Nat × Flags :=
  let half := fun (c : BitVec 32) (n : Nat) => bitsAt c.toNat (if n < 64 then 0 else 16) 16
  let scale := fun (v : Nat) => ((floatFmt .f32).convert roundRNE false ((floatFmt .bf16).unpack v)).1
  let x := (floatFmt .f32).mul roundRNE false acc (scale (half c0 row))
  let y := (floatFmt .f32).mul roundRNE false x.1 (scale (half c1 j))
  (y.1, x.2 ||| y.2)

/-- `evacc`, R164. -/
def execEvacc (bs : Bool) (acc : Fin 4) (v : Fin 16) (a : Reg) (s : State) : Out :=
  let i := Instr.evacc bs acc v a
  issue i s fun h =>
    match s.cur with
    | .epilogue cl b =>
      let blk := blockNo cl b
      let k := s.block blk
      if accumulatorBusy k acc.val then sleepOn (.accumulator acc.val) s
      else
        let row := (h.reg a).toNat % 2 ^ 7
        let e := s.epilogue blk
        let scaled := bs && !vget false k.accInt acc.val
        let r := mapLanes (tget 0 row (vget [] k.acc acc.val)) 128 fun j x =>
          if scaled then bandScaled (e.c.get 0) (e.c.get 1) row j x else (x, noFlags)
        let s := s.setEpilogue blk { e with v := e.v.set v r.1, row := row }
        retire i [] (s.setMe (s.me.raise r.2))
    | .thread _ _ | .region _ | .matrix _ _ | .copySeq _ _ | .tile _ _ _ => illegal i s

/-! ## Path m (R165, R166, R285) -/

/-- The block's cache-mode banks serve its accesses to device memory. -/
def hasWays (s : State) (blk : Nat) : Bool := (s.block blk).banks.toList.any fun k => k.mode = .cacheWay

/-- A bank among the ways of a block is being switched: accesses that the ways serve wait (R286). -/
def waysBusy (s : State) (blk : Nat) : Bool := (s.block blk).banks.toList.any fun k => k.mode = .cacheWay && k.busy.isSome

/-- A line in the ways of a block, filled from its home where it is not yet there. -/
def wayLine (s : State) (blk no : Nat) : Line :=
  match findLine no (s.block blk).ways with
  | some l => l
  | none => Line.filled no (s.homeLine no) (Vector.replicate 4 0)

def putWay (s : State) (blk : Nat) (l : Line) : State :=
  s.setBlock blk { s.block blk with ways := putLine l (s.block blk).ways }

/-- The place of an epilogue's access when the ways of its block serve it: a line of device memory outside the coherent regime (R285). -/
def wayServes (s : State) (blk : Nat) (task : Option Nat) (va : Word) (p : Place) : Option Nat :=
  match p with
  | .memory pa coh _ shared => if hasWays s blk && !coherentAt s task va coh && !shared && !State.hostLine (pa / 64) then some pa else none
  | .bank _ _ _ | .fifo _ _ | .localMem _ _ | .bankControl _ _ => none

/-- A check of an address generator as a check of an instruction. -/
def asAccess : GenOut → Except AddrFault (Nat × State)
  | .done v s => .ok (v, s)
  | .wait => .error .waits
  | .fault 1 _ => .error .page
  | .fault 3 _ => .error .misaligned
  | .fault 5 _ => .error .poisoned
  | .fault _ _ => .error .protection

/-- 64 aligned bytes read on path m. -/
def lineRead (s : State) (blk : Nat) (va : Word) : Except AddrFault (Nat × State) :=
  let task := s.me.task
  match resolve s s.cur task va 64 .read false with
  | .error f => .error f
  | .ok p => match wayServes s blk task va p with
    | some pa =>
      let l := wayLine s blk (pa / 64)
      if waysBusy s blk then .error .waits else .ok (lineValue l.data, putWay s blk l)
    | none => asAccess (genRead s s.cur.cluster task va 64 false)

/-- Consecutive lines read, the first lowest. -/
def linesRead (s : State) (blk : Nat) (va : Word) : Nat → Except (Word × AddrFault) (Nat × State)
  | 0 => .ok (0, s)
  | n + 1 =>
    match lineRead s blk va with
    | .error f => .error (va, f)
    | .ok (v, s) => match linesRead s blk (va + 64) n with
      | .error f => .error f
      | .ok (w, s) => .ok (v + 2 ^ 512 * w, s)

/-- `n` bytes inside one line written on path m. -/
def chunkWrite (s : State) (blk : Nat) (va : Word) (n v : Nat) : Except AddrFault State :=
  let task := s.me.task
  let z := if n = 64 then 64 else 1
  match resolve s s.cur task va z .write false with
  | .error f => .error f
  | .ok p => match wayServes s blk task va p with
    | some pa =>
      let l := wayLine s blk (pa / 64)
      let mask := maskOf (pa % 64) n
      let new := { l with data := mergeLine l.data (placeBytes (pa % 64) v) mask, dirty := l.dirty ||| mask }
      if waysBusy s blk then .error .waits else .ok (putWay (noteWrite s s.cur task va (pa / 64)) blk new)
    | none => match asAccess (genWriteCheck s s.cur.cluster task va z) with
      | .error f => .error f
      | .ok (_, s) => .ok (genWriteBy s s.cur s.cur task va (if n = 64 then 64 else n) v)

/-- `n` bytes written from an address on, line by line; `fuel` bounds the number of lines. -/
def bytesWrite (s : State) (blk : Nat) (va : Word) (n v : Nat) : Nat → Except (Word × AddrFault) State
  | 0 => .ok s
  | fuel + 1 =>
    if n = 0 then .ok s
    else
      let room := 64 - va.toNat % 64
      let here := if n < room then n else room
      match chunkWrite s blk va here (v % 2 ^ (8 * here)) with
      | .error f => .error (va, f)
      | .ok s => bytesWrite s blk (va + BitVec.ofNat 64 here) (n - here) (v / 2 ^ (8 * here)) fuel

/-- `evld`, R165. -/
def execEvld (v : Fin 16) (a b : Reg) (s : State) : Out :=
  let i := Instr.evld v a b
  issue i s fun h =>
    match s.cur with
    | .epilogue cl k =>
      let blk := blockNo cl k
      match linesRead s blk (h.reg a) 8 with
      | .error (va, f) => addressFault i va f s
      | .ok (x, s) =>
        let e := s.epilogue blk
        let s := s.setEpilogue blk { e with v := e.v.set v (BitVec.ofNat 4096 x) }
        retire i [] (if b = 0 then s else sendFreed s (h.reg b))
    | .thread _ _ | .region _ | .matrix _ _ | .copySeq _ _ | .tile _ _ _ => illegal i s

namespace Epilogue

/-- The element width of EMODE (R163). -/
def w (e : Epilogue) : Nat := match e.emode.toNat % 4 with
  | 0 => 8 | 1 => 16 | _ => 32

end Epilogue

/-- The bits of a part of a row: its first bit and its length. -/
def partBits : Part → Nat × Nat
  | .whole => (0, 4096) | .lo => (0, 2048) | .hi => (2048, 2048)

/-- `evst`, R166. -/
def execEvst (part : Part) (v : Fin 16) (a b : Reg) (s : State) : Out :=
  let i := Instr.evst part v a b
  issue i s fun h =>
    match s.cur with
    | .epilogue cl k =>
      let blk := blockNo cl k
      let e := s.epilogue blk
      let d := captured s.me
      let (first, len) := partBits part
      let count := len / e.w
      let given := (h.reg b).toNat
      let stored := if b = 0 || count ≤ given then count else given
      let bytes := if d.zf then len / 8 else stored * e.w / 8
      let value := bitsAt (e.v.get v).toNat first len % 2 ^ (stored * e.w)
      if !canonical (h.reg a) then addressFault i (h.reg a) .protection s
      else if (h.reg a).toNat % (e.w / 8) ≠ 0 then addressFault i (h.reg a) .misaligned s
      else match bytesWrite s blk (h.reg a) bytes value 9 with
        | .error (va, f) => addressFault i va f s
        | .ok s =>
          let s := s.setEpilogue blk { s.epilogue blk with stores := e.stores + 1 }
          retire i [] (if d.zf then s else creditClipped s s.cur.engine s.me.task d ((count - stored) * e.w / 8))
    | .thread _ _ | .region _ | .matrix _ _ | .copySeq _ _ | .tile _ _ _ => illegal i s

/-! ## Cell words over row registers (R56, R136, R137) -/

namespace Epilogue

/-- The mode, mask and rounding of a cell word under its prefix (R27, R163). -/
def lanes (e : Epilogue) (p : Prefix) : Lanes where
  bits := 4096
  w := e.w
  f8 := e.emode.getLsbD 2
  f16 := e.emode.getLsbD 3
  gfmt := e.emode.toNat / 2 ^ 4
  active := fun n => (e.mask p.k).getLsbD (e.w * n / 32)
  z := p.z
  sat := p.sat
  rnd := p.rnd
  hash := fun n => rhdHash (BitVec.ofNat 32 (128 * e.row + n)) (BitVec.ofNat 32 e.stores)

/-- A 32-bit constant in every lane. -/
def spread (c : BitVec 32) : Nat := (joinElems 32 ((List.range 128).map fun _ => (c.toNat, noFlags))).1

/-- The value of a source; tokens and links do not exist here. -/
def source (e : Epilogue) : Src → Option Nat
  | .tok | .link _ => none
  | .iter => some (joinElems e.w ((List.range (4096 / e.w)).map fun _ => ((e.i.get 0).toNat, noFlags))).1
  | .lane => some (joinElems e.w ((List.range (4096 / e.w)).map fun n => (n, noFlags))).1
  | .zero => some 0
  | .c n => some (spread (e.c.get n))
  | .v n => some (e.v.get n).toNat

/-- The source of an optional field; an unread one is 0. -/
def source? (e : Epilogue) : Option Src → Option Nat
  | some x => e.source x
  | none => some 0

/-- A result written to a target: a row register or nothing. -/
def put (e : Epilogue) (r : Nat) : Tgt → Epilogue
  | .reg n => { e with v := e.v.set n (BitVec.ofNat 4096 r) }
  | .slotA _ | .slotB _ | .slotC _ | .link _ | .done | .none => e

end Epilogue

/-- A target that the epilogue engine has (R56). -/
def rowTarget : Tgt → Bool
  | .reg _ | .none => true
  | .slotA _ | .slotB _ | .slotC _ | .link _ | .done => false

/-- What a cell word does to the registers of an epilogue engine, with its flags; none where the word is illegal there (R115, R137). -/
def rowOp (e : Epilogue) (i : Instr) (p : Prefix) : Option (Epilogue × Flags) :=
  match cellShape i, laneOf i with
  | some c, some f =>
    let ts := targetsOf c p
    if !(i.wellFormed && c.options.accept p && widthOk i e.w && unusedFieldOk i && distinctTargets ts && ts.all rowTarget) then none
    else match e.source c.a, e.source? c.b, (if c.c then e.source p.srcC else some 0) with
      | some a, some b, some d =>
        let r := f (e.lanes p) a b d
        let e' := (e.put r.low c.t0).put (r.high.getD r.low) c.t1
        some (e'.put r.low p.tgt2, r.flags)
      | _, _, _ => none
  | _, _ => none

/-- A cell word in the instruction stream of an epilogue sequencer; `len` is 8 with its prefix.
An illegal pair traps at the prefix (R55, R137). -/
def runRow (i : Instr) (p : Prefix) (len : Nat) (s : State) : Out :=
  match s.cur with
  | .epilogue cl b =>
    let blk := blockNo cl b
    match rowOp (s.epilogue blk) i p with
    | none => illegal i s
    | some (e, f) =>
      let s := s.setEpilogue blk e
      let h := s.me.raise f
      .next (s.setMe { h with pc := h.pc + BitVec.ofNat 64 len })
  | .thread _ _ | .region _ | .matrix _ _ | .copySeq _ _ | .tile _ _ _ => illegal i s

/-- The word after a prefix, as its instruction, or the parcel that cannot be fetched (R41); the second parcel is fetched only of a W-form. -/
def nextWord (s : State) : Except (Word × AddrFault) (Option Instr) :=
  let pc := s.me.pc + 4
  match fetchParcel s pc with
  | .error f => .error (pc, f)
  | .ok lo =>
    if lo % 2 = 0 then .ok none
    else match fetchParcel s (pc + 2) with
      | .error f => .error (pc + 2, f)
      | .ok hi => match decodeW (lo + 2 ^ 16 * hi) with
        | .ok i => .ok (some i)
        | .error _ => .ok none

/-- `pfx`: with the cell word that follows it, it is one instruction (R53, R55). -/
def execPfx (sat : Bool) (t2 : Tgt) (c : Src) (r : Rnd) (z : Bool) (k : Fin 8) (s : State) : Out :=
  let i := Instr.pfx sat t2 c r z k
  issue i s fun _ =>
    match nextWord s with
    | .error (va, f) => addressFault i va f s
    | .ok (some w) => runRow w ⟨sat, t2, c, r, z, k⟩ 8 s
    | .ok none => illegal i s

end Sys2Proof.Machine
end

