-- ==== Sys2Proof/Machine/TrackOps.lean ====
section
/-! DEFINITION. The Trackway instructions (R204, R205, R372 to R375). -/

namespace Sys2Proof.Machine

/-! ## Closing a part (R374) -/

/-- The frames of the pages of a range, from a page number on; a page with no translation has none. -/
def rangeFrames (s : State) (task root page : Nat) : Nat → List Nat
  | 0 => []
  | n + 1 =>
    match translate s task root (4096 * page) with
    | .ok (pa, _) => pa / 4096 :: rangeFrames s task root (page + 1) n
    | .error _ => rangeFrames s task root (page + 1) n

/-- The frames of a recording's range. -/
def trackFrames (s : State) (task : Nat) (t : Track) : List Nat :=
  match s.task task with
  | some k => rangeFrames s task k.root (t.base / 4096) (t.len / 4096)
  | none => []

/-- The lines of a range that any cache of the die holds. -/
def cachedIn (s : State) (frames : List Nat) : List Nat :=
  (s.cores.flatMap (fun p => State.lineNumbers p.2.l1) ++ s.segments.flatMap (fun p => State.lineNumbers p.2.cache) ++
    s.blocks.flatMap (fun p => p.2.ways.map Line.no)).filter fun no => frames.contains (no / 64)

/-- A cache whose resident lines of a range have become lines of the current versions. -/
def redated (frames : List Nat) (c : Cache) : Cache :=
  { c with lines := c.lines.map fun l => if frames.contains (l.no / 64) then { l with versions := c.versions } else l }

/-- The resident lines of a range become lines of the current versions (R375). -/
def redateRange (s : State) (frames : List Nat) : State :=
  { s with
    cores := s.cores.map fun p => (p.1, { p.2 with l1 := redated frames p.2.l1 })
    segments := s.segments.map fun p => (p.1, { p.2 with cache := redated frames p.2.cache }) }

/-- A thread's part of a recording shut: the lines still held for it depart (R381), and the last part ends the iteration. -/
def shutPart (s : State) (task id c sl : Nat) : State :=
  let t := s.track task id
  if (tfind (c, sl) t.parts).isNone then s
  else
    let k := s.core c
    let mine : Held → Bool := fun h => h.task = task && h.id = id && h.consSlot = sl
    let n := (k.held.filter mine).length
    let s := s.setCore c { k with held := k.held.filter fun h => !mine h }
    let s := (List.range n).foldl (fun (s : State) _ => s.depart task id c sl 4) s
    let t := s.track task id
    let t := { t with parts := tdrop (c, sl) t.parts }
    if t.parts.isEmpty then
      let s := if t.state = .recording then redateRange s (trackFrames s task t) else s
      s.setTrack task id { t with state := .recorded }
    else s.setTrack task id t

/-- The threads that sleep until a recording is Recorded wake (R264, R374). -/
def wakeRecorders (s : State) (task id : Nat) : State :=
  { s with harts := s.harts.map fun p => match p.2.status with
      | .sleeping (.recording k) _ => if k = id && p.2.task = some task then (p.1, { p.2 with status := .ready, wokenAt := some s.clock }) else p
      | .sleeping _ _ | .empty | .ready | .halted | .stopped => p }

/-- A part closed, with the wake that the state Recorded brings. -/
def closePart (s : State) (task id c sl : Nat) : State :=
  let open_ := (tfind (c, sl) (s.track task id).parts).isSome
  let s := shutPart s task id c sl
  if open_ && (s.track task id).state = .recorded then wakeRecorders s task id else s

/-- Every open part of a thread closed, as by `tkend` (R374). -/
def closeParts (s : State) (task : Option Nat) (a : AgentId) : State :=
  match task, a with
  | some n, .thread c sl => (List.range 16).foldl (fun (s : State) id => closePart s n id c sl) s
  | _, _ => s

/-! ## The instructions -/

/-- A Trackway instruction of a thread, with its task, identifier, core and slot. -/
def trackOp (i : Instr) (a : Reg) (s : State) (k : Hart → Nat → Nat → Nat → Nat → Out) : Out :=
  issue i s fun h =>
    match s.cur, s.me.task with
    | .thread c sl, some n => k h n ((h.reg a).toNat % 16) c sl
    | _, _ => illegal i s

/-- The range of `tkrec` is one that R204 and R372 refuse. -/
def badRange (start len : Word) : Bool :=
  let last := start + len - 1
  start.toNat % 4096 ≠ 0 || len.toNat % 4096 ≠ 0 || len = 0 || !canonical start || !canonical last ||
  last.toNat < start.toNat || meetsWindow start.toNat last.toNat

/-- The recorder of a core and its segment are full with entries of other identifiers (R378). -/
def recordersFull (s : State) (task id c : Nat) : Bool :=
  let others := { s with tracks := s.tracks.filter fun p => p.1.2 ≠ id }
  2048 ≤ recorderFill others task false c && 32768 ≤ recorderFill others task true c

/-- A recording begun over a range, with the running thread's part (R374, R375). -/
def beginRecording (s : State) (task id c sl : Nat) (start len : Word) : State :=
  let t : Track := { Track.fresh with state := .recording, base := start.toNat, len := len.toNat, parts := [((c, sl), 0)] }
  let frames := trackFrames s task t
  ((cachedIn s frames).foldl (fun (s : State) no => s.recallLine no) s).setTrack task id t

/-- `tkrec`, R374. -/
def execTkrec (d a : Reg) (s : State) : Out :=
  trackOp (.tkrec d a) a s fun h n id c sl =>
    let i := Instr.tkrec d a
    let start := h.oxr 0
    let len := h.oxr 1
    let t := s.track n id
    if badRange start len then retire i [(d, 1)] s
    else if t.state = .recording && !(t.base = start.toNat && t.len = len.toNat) then retire i [(d, 2)] s
    else if recordersFull s n id c then retire i [(d, 3)] s
    else match t.state with
      | .none | .recorded => retire i [(d, 0)] (beginRecording s n id c sl start len)
      | .recording =>
        let parts := if (tfind (c, sl) t.parts).isSome then t.parts else tset (c, sl) 0 t.parts
        retire i [(d, 0)] (s.setTrack n id { t with parts := parts })
      | .playing =>
        let s := closePart s n id c sl
        if (s.track n id).state = .recorded then retire i [(d, 0)] (beginRecording s n id c sl start len)
        else sleepOn (.recording id) s

/-- No line counts as pushed in the iteration that begins (R373). -/
def clearPushed (s : State) (task id : Nat) : State :=
  { s with cores := s.cores.map fun p => (p.1, { p.2 with l1 := { p.2.l1 with lines := p.2.l1.lines.map fun l =>
      (if l.pushed = some (task, id) then { l with pushed := none } else l) } }) }

/-- A replay iteration begun by a thread (R374). -/
def beginReplay (t : Track) (c sl : Nat) (ox2 : Word) : Track :=
  { t with
    state := .playing
    deps := 0
    fell := false
    pushed := 0
    usedp := 0
    iters := if t.iters < 0xFFFF then t.iters + 1 else t.iters
    threshold := ox2.toNat % 2 ^ 16
    trapEnable := ox2.getLsbD 16
    parts := [((c, sl), 0)]
    writers := []
    tags := [] }

/-- `tkplay`, R374. -/
def execTkplay (d a : Reg) (s : State) : Out :=
  trackOp (.tkplay d a) a s fun h n id c sl =>
    let i := Instr.tkplay d a
    let ox2 := h.oxr 2
    if ox2.toNat / 2 ^ 17 ≠ 0 then illegal i s
    else
      let s := closePart s n id c sl
      let t := s.track n id
      match t.state with
      | .none => retire i [(d, 4)] s
      | .recording => sleepOn (.recording id) s
      | .recorded => retire i [(d, 0)] ((clearPushed s n id).setTrack n id (beginReplay t c sl ox2))
      | .playing => retire i [(d, 0)] (s.setTrack n id { t with parts := tset (c, sl) 0 t.parts })

/-- `tkend`, R374. -/
def execTkend (d a : Reg) (s : State) : Out :=
  trackOp (.tkend d a) a s fun _ n id c sl =>
    match (s.track n id).state with
    | .none => retire (.tkend d a) [(d, 4)] s
    | .recording | .recorded | .playing => retire (.tkend d a) [(d, 0)] (closePart s n id c sl)

/-- The status word of R205. -/
def trackStatus (t : Track) : Word :=
  let st := match t.state with
    | .none => 0 | .recording => 1 | .recorded => 2 | .playing => 3
  let bit : Bool → Nat → Nat := fun b k => if b then 2 ^ k else 0
  BitVec.ofNat 64 (st + bit t.fell 2 + bit t.spill 3 + bit t.lost 4 + 2 ^ 16 * t.deps + 2 ^ 32 * t.entries.length)

/-- The counter word of R373. -/
def trackCounts (t : Track) : Word := BitVec.ofNat 64 (t.iters + 2 ^ 16 * t.usedp + 2 ^ 32 * t.pushed)

/-- `tkstat`, R205 and R373; with no recording it writes 0 (R374). -/
def execTkstat (counts : Bool) (d a : Reg) (s : State) : Out :=
  trackOp (.tkstat counts d a) a s fun _ n id _ _ =>
    let t := s.track n id
    let v := match t.state with
      | .none => 0
      | .recording | .recorded | .playing => if counts then trackCounts t else trackStatus t
    retire (.tkstat counts d a) [(d, v)] s

/-- A recording discarded: every open part is shut, and nobody wakes (R374). -/
def discardTrack (s : State) (task id : Nat) : State :=
  let s := (s.track task id).parts.foldl (fun s p => shutPart s task id p.1.1 p.1.2) s
  { s with tracks := tdrop (task, id) s.tracks }

/-- `tkdrop`, R374. -/
def execTkdrop (d a : Reg) (s : State) : Out :=
  trackOp (.tkdrop d a) a s fun _ n id _ _ =>
    match (s.track n id).state with
    | .none => retire (.tkdrop d a) [(d, 4)] s
    | .recording | .recorded | .playing => retire (.tkdrop d a) [(d, 0)] (discardTrack s n id)

end Sys2Proof.Machine
end

