-- ==== Sys2Proof/Machine/System.lean ====
section
/-! DEFINITION. System instructions and system registers (R208 to R212). -/

namespace Sys2Proof.Machine

/-! ## `nop`, `yield`, `brk`, `trap`, `eret`, `rdcyc` (R208) -/

/-- `nop`, R208. -/
def execNop (s : State) : Out := issue .nop s fun _ => retire .nop [] s
/-- `nop` in H-form, R44. -/
def execHNop (s : State) : Out := issue .hNop s fun _ => retire .hNop [] s

/-- The other slots of the core with a ready thread, which issue first after a `yield`. -/
def readyOthers (s : State) (core slot : Nat) : List Nat :=
  (List.range 16).filter fun n =>
    n ≠ slot && (s.hart (.thread core n)).status = .ready && agentRuns s (.thread core n)

/-- The thread is passed over until those slots have issued once; on a sequencer nothing happens (R208). -/
def yieldOp (i : Instr) (s : State) : Out :=
  issue i s fun _ =>
    match s.cur with
    | .thread c sl => retire i [] (s.setMe { s.me with yielded := readyOthers s c sl })
    | .region _ | .matrix _ _ | .epilogue _ _ | .copySeq _ _ | .tile _ _ _ => retire i [] s

/-- `yield`, R208. -/
def execYield (s : State) : Out := yieldOp .yield s
/-- `yield` in H-form, R44. -/
def execHYield (s : State) : Out := yieldOp .hYield s

/-- A task halted for the debugger: phase 1 of a save, but for a running matrix command, which stops at a group boundary (R370). -/
def haltTask (s : State) (t : Nat) : State :=
  match s.task t with
  | none => s
  | some k =>
    let s := holdTask (settleUnits (k.blocks.foldl stopCommand (deliverFlights s k)) t k) t
    match s.task t with
    | none => s
    | some k => s.setTask t { k with debugHalted := true, stepping := none }

/-- A breakpoint: the trap, or with a debugger attached the halt of the task after the instruction (R208). -/
def breakOp (i : Instr) (s : State) : Out :=
  issue i s fun _ =>
    match s.service.debugger, s.me.task with
    | true, some t =>
      match retire i [] s with
      | .next s => .next (haltTask s t)
      | .fault f => .fault f
      | .refused r => .refused r
    | _, _ => trapNext i .breakpoint 0 s

/-- `brk`, R208. -/
def execBrk (s : State) : Out := breakOp .brk s
/-- `brk` in H-form, R44. -/
def execHBrk (s : State) : Out := breakOp .hBrk s

/-- `trap`, R208. -/
def execTrap (n : BitVec 10) (s : State) : Out := issue (.trap n) s fun _ => trapNext (.trap n) .trap (zext n) s
/-- `eret`, R207. -/
def execEret (s : State) : Out := issue .eret s fun _ => returnFromTrap .eret s
/-- `rdcyc`, R208. -/
def execRdcyc (d : Reg) (s : State) : Out := compute (.rdcyc d) s d fun _ => BitVec.ofNat 64 s.clock

/-! ## `halt` (R209) -/

/-- A persistent thread retires: its parts close, its chain is unbound, nothing that it sent is reported any more, and its slot is empty (R186, R200, R209, R374). -/
def endThread (s : State) (a : AgentId) : State :=
  let h := s.hart a
  (disown (closeParts s h.task a) fun x t => x = some a && t = h.task).setHart a (vacantHart h)

/-- The controller node on a region's sequencer ends with status 0, its run with it (R209; DEDUCED, log entry 50). -/
def endLeaf (s : State) (cl : Nat) : State :=
  match (s.region cl).node with
  | some m => finishNode (if (s.region cl).run.isSome then endRun s cl else s) m 0
  | none => s

/-- An engine program ends: armed commands it queued are discarded, and an epilogue's cache ways are written out (R168, R285); a region's program ends its node (R209). -/
def endSequencer (s : State) (a : AgentId) : State :=
  let s := s.setHart a { s.hart a with status := .halted }
  match a with
  | .matrix cl b => s.setBlock (blockNo cl b) (dropCommands (s.block (blockNo cl b)) a false)
  | .epilogue cl b => flushWays s (blockNo cl b)
  | .region cl => endLeaf s cl
  | .thread _ _ | .copySeq _ _ | .tile _ _ _ => s

/-- The pc of a sequencer that halted stands at the next instruction. -/
def pastHalt (i : Instr) (s : State) : State := s.setMe { s.me with pc := s.me.pc + BitVec.ofNat 64 i.length }

/-- `halt` and its H-form (R209). -/
def haltOp (i : Instr) (s : State) : Out :=
  issue i s fun _ =>
    if !s.cur.isThread then .next (endSequencer (pastHalt i s) s.cur)
    else
      let escape := match s.me.origin with
        | .escape _ _ _ _ => true
        | .none | .persistent _ => false
      if escape || s.me.codelet then illegal i s
      else
        let drained := match s.me.chain with
          | some (_, some d) => (s.core d).chain.isEmpty
          | some (_, none) | none => true
        if !drained then sleepOn .chainDrain s
        else afterHeld s fun s => .next (endThread s s.cur)

/-- `halt`, R209. -/
def execHalt (s : State) : Out := haltOp .halt s
/-- `halt` in H-form, R44. -/
def execHHalt (s : State) : Out := haltOp .hHalt s

/-! ## `sleepc` (R210) -/

/-- The earliest promise of an unfinished copy at or before a cycle. -/
def missedPromise (till : Word) : List (CopyId × Word) → Option Word
  | [] => none
  | (_, p) :: r =>
    match missedPromise till r with
    | none => if p.ule till then some p else none
    | some q => if p.ule till && p.ult q then some p else some q

/-- `sleepc`, R210. With `.p` one that returns at once checks the promises too, as one that wakes does (DESIGN CHOICE, log entry 52). -/
def execSleepc (p : Bool) (a : Reg) (s : State) : Out :=
  issue (.sleepc p a) s fun h =>
    notInCodelet (.sleepc p a) s <|
    let till := h.reg a
    if s.clock < till.toNat then sleepOn (.clock till) s
    else match p, missedPromise till s.me.promises with
      | true, some m => trapNext (.sleepc p a) .promise m s
      | _, _ => retire (.sleepc p a) [] s

/-! ## System registers (R211, R212) -/

/-- The epilogue mask and half that a number reaches. -/
def maskNumber (n : Nat) : Option (Fin 8 × Bool) :=
  if 0x028 ≤ n && n < 0x030 then some (Fin.ofNat 8 ((n - 0x028) / 2), n % 2 = 1)
  else if 0x040 ≤ n && n < 0x048 then some (Fin.ofNat 8 (4 + (n - 0x040) / 2), n % 2 = 1)
  else none

/-- The registers that every agent has. -/
def readCommon (s : State) (a : AgentId) (h : Hart) (n : Nat) : Option Word :=
  match n with
  | 0x000 => some (BitVec.ofNat 64 (tidOf a))
  | 0x002 => some (BitVec.ofNat 64 a.cluster)
  | 0x003 => some (match h.task.bind s.task with
      | some t => t.args
      | none => 0)
  | 0x004 => some (BitVec.ofNat 64 s.clock)
  | 0x005 => some (h.fstat.setWidth 64)
  | 0x018 => some (s.segment a.cluster).wtrip
  | 0x019 => some ((s.engine a.engine).strstat.setWidth 64)
  | _ => if 0x010 ≤ n && n < 0x018 then some (h.oxr (Fin.ofNat 8 (n - 0x010))) else none

/-- The registers of a swarm thread. -/
def readThread (s : State) (core : Nat) (h : Hart) (n : Nat) : Option Word :=
  match n with
  | 0x001 => some (BitVec.ofNat 64 core)
  | 0x006 => some h.lookahead
  | 0x007 => some h.vtime
  | 0x008 => some h.tvec
  | 0x009 => some h.epc
  | 0x00A => some (h.ecause.setWidth 64)
  | 0x00B => some h.eval
  | 0x00C => some h.escr
  | 0x00D => some (BitVec.ofNat 64 ((if h.tmode then 1 else 0) + (if h.codelet then 2 else 0)))
  | 0x00E => some h.wdog
  | 0x01A => some (s.core core).clovf
  | 0x01B => some (h.tkfell.setWidth 64)
  | 0x01C => some h.mxblk
  | _ => none

/-- The registers of an epilogue sequencer. -/
def readEpilogue (e : Epilogue) (n : Nat) : Option Word :=
  match maskNumber n with
  | some (k, high) => some (BitVec.ofNat 64 ((e.mask k).toNat / 2 ^ (if high then 64 else 0)))
  | none =>
    if n = 0x00F then some (e.emode.setWidth 64)
    else if 0x020 ≤ n && n < 0x028 then some ((e.c.get (Fin.ofNat 8 (n - 0x020))).setWidth 64)
    else if 0x030 ≤ n && n < 0x034 then some ((e.i.get (Fin.ofNat 4 (n - 0x030))).setWidth 64)
    else none

/-- System register n of an agent; none where the agent lacks it. -/
def readSystem (s : State) (a : AgentId) (h : Hart) (n : Nat) : Option Word :=
  match readCommon s a h n with
  | some v => some v
  | none =>
    match a with
    | .thread c _ => readThread s c h n
    | .epilogue cl b => readEpilogue (s.epilogue (blockNo cl b)) n
    | .region _ | .matrix _ _ | .copySeq _ _ | .tile _ _ _ => none

/-- `sysr`, R211. -/
def execSysr (d : Reg) (n : BitVec 10) (s : State) : Out :=
  issue (.sysr d n) s fun _ =>
    match readSystem s s.cur s.me n.toNat with
    | some v => retire (.sysr d n) [(d, v)] s
    | none => illegal (.sysr d n) s

/-- A write of a register that every agent has; one that is read-only changes nothing. -/
def writeCommon (s : State) (a : AgentId) (n : Nat) (v : Word) : Option State :=
  let h := s.hart a
  match n with
  | 0x000 | 0x002 | 0x003 | 0x004 => some s
  | 0x005 => some (s.setHart a { h with fstat := clearOnes h.fstat (v.setWidth 5) })
  | 0x018 => let g := s.segment a.cluster; some (s.setSegment a.cluster { g with wtrip := g.wtrip &&& ~~~v })
  | 0x019 =>
    let e := s.engine a.engine
    some (s.setEngine a.engine { e with strstat := e.strstat &&& ~~~(v.setWidth 16) })
  | _ => if 0x010 ≤ n && n < 0x018 then some (s.setHart a (h.setOx (Fin.ofNat 8 (n - 0x010)) v)) else none

/-- A write of a register of a swarm thread; MXBLK takes only the handle of a block that the thread holds (R154). -/
def writeThread (s : State) (a : AgentId) (n : Nat) (v : Word) : Option State :=
  let h := s.hart a
  match n with
  | 0x001 | 0x007 | 0x00A | 0x00D | 0x01A => some s
  | 0x006 => some (s.setHart a { h with lookahead := v })
  | 0x008 => some (s.setHart a { h with tvec := v })
  | 0x009 => some (s.setHart a { h with epc := v })
  | 0x00B => some (s.setHart a { h with eval := v })
  | 0x00C => some (s.setHart a { h with escr := v })
  | 0x00E => some (s.setHart a { h with wdog := v })
  | 0x01B => some (s.setHart a { h with tkfell := h.tkfell &&& ~~~(v.setWidth 16) })
  | 0x01C => if h.held.contains v.toNat then some (s.setHart a { h with mxblk := v }) else none
  | _ => none

/-- A write of a register of an epilogue sequencer (R163, R212). -/
def writeEpilogue (e : Epilogue) (n : Nat) (v : Word) : Option Epilogue :=
  match maskNumber n with
  | some (k, high) =>
    if k = 0 then some e
    else
      let old := (e.k.get k).toNat
      let new := if high then old % 2 ^ 64 + 2 ^ 64 * v.toNat else old / 2 ^ 64 * 2 ^ 64 + v.toNat
      some { e with k := e.k.set k (BitVec.ofNat 128 new) }
  | none =>
    if n = 0x00F then
      if v.toNat / 2 ^ 6 ≠ 0 || v.toNat % 4 = 3 then none else some { e with emode := v.setWidth 6 }
    else if 0x020 ≤ n && n < 0x028 then some { e with c := e.c.set (Fin.ofNat 8 (n - 0x020)) (lo32 v) }
    else if 0x030 ≤ n && n < 0x034 then some { e with i := e.i.set (Fin.ofNat 4 (n - 0x030)) (lo32 v) }
    else none

/-- A write of system register n of an agent; none where it lacks the register or may not take the value. -/
def writeSystem (s : State) (a : AgentId) (n : Nat) (v : Word) : Option State :=
  match writeCommon s a n v with
  | some s => some s
  | none =>
    match a with
    | .thread _ _ => writeThread s a n v
    | .epilogue cl b => match writeEpilogue (s.epilogue (blockNo cl b)) n v with
      | some e => some (s.setEpilogue (blockNo cl b) e)
      | none => none
    | .region _ | .matrix _ _ | .copySeq _ _ | .tile _ _ _ => none

/-- `sysw`, R211. -/
def execSysw (d : Reg) (n : BitVec 10) (s : State) : Out :=
  issue (.sysw d n) s fun h =>
    match writeSystem s s.cur n.toNat (h.reg d) with
    | some s => retire (.sysw d n) [] s
    | none => illegal (.sysw d n) s

end Sys2Proof.Machine
end

