-- ==== Sys2Proof/Machine/Fork.lean ====
section
/-! DEFINITION. Fork, rendezvous and escape return (R132, R133, R167 to R170). -/

namespace Sys2Proof.Machine

/-! ## `fork` (R167, R169) -/

/-- A sequencer at its program entry with the pointer in s14; an entry of 0 starts nothing. -/
def startSequencer (s : State) (a : AgentId) (task : Option Nat) (entry pointer : Word) : State :=
  let h := Hart.fresh
  let status : Status := if entry = 0 then .halted else .ready
  (s.setHart a { h with status := status, task := task, pc := evenPc entry, x := h.x.set 14 pointer, lastIssue := (s.hart a).lastIssue }).acquire a .cluster

/-- The three programs of a block start; the cache ways hold nothing, and nothing is yet discarded or stopped (R168, R285). -/
def startBlock (s : State) (blk : Nat) (task : Option Nat) (entries : List Word) : State :=
  let pointer := nth 0 entries 3
  let s := s.setEpilogue blk Epilogue.fresh
  let s := s.setBlock blk { s.block blk with ways := [], discarded := false, stopped := false, forked := true }
  ((blockSequencers blk).zipIdx).foldl (fun (s : State) p => startSequencer s p.1 task (nth 0 entries p.2) pointer) s

/-- The block is held by another thread, or its sequencers still run. -/
def forkBlocked (s : State) (blk core slot : Nat) : Bool :=
  let held := match (s.block blk).holder with
    | some h => h ≠ (core, slot)
    | none => false
  held || !(blockSequencers blk).all fun a => seqDone (s.hart a)

/-- `n` doublewords read on path t at thread scope, from an address on. -/
def readWords (i : Instr) (s : State) (va : Word) (n : Nat) (acc : List Word) (k : List Word → State → Out) : Out :=
  match n with
  | 0 => k acc s
  | n + 1 => readAt i s .thread va 8 false fun v s => readWords i s (va + 8) n (acc ++ [BitVec.ofNat 64 v]) k

/-- The first address of `n` doublewords that cannot be read, with its fault. -/
def wordsFault (s : State) (va : Word) : Nat → Option (Word × AddrFault)
  | 0 => none
  | n + 1 =>
    match resolve s s.cur s.me.task va 8 .read false with
    | .error f => some (va, f)
    | .ok _ => wordsFault s (va + 8) n

/-- `fork`, R167: its table is checked before its release and read after it. -/
def execFork (d a b : Reg) (s : State) : Out :=
  let i := Instr.fork d a b
  issue i s fun h =>
    match s.cur, s.myTask with
    | .thread c sl, some t =>
      let cl := coreCluster c
      let n := (h.reg b).toNat % 2 ^ 3
      let blk := blockNo cl n
      if !t.hasBlock cl n then trapHere i .protection (h.reg b) s
      else if forkBlocked s blk c sl then sleepOn (.forkBlock blk) s
      else match wordsFault s (h.reg a) 4 with
        | some (va, f) => addressFault i va f s
        | none =>
          readWords i (s.release s.cur .cluster) (h.reg a) 4 [] fun ws s =>
            let task := s.me.task
            let s := startBlock s blk task ws
            let s := s.setBlock blk { s.block blk with holder := some (c, sl) }
            let me := s.me
            retire i [(d, BitVec.ofNat 64 blk)] (s.setMe { me with
              held := if me.held.contains blk then me.held else me.held ++ [blk]
              mxblk := BitVec.ofNat 64 blk })
    | _, _ => illegal i s

/-! ## `rdz` (R168) -/

/-- `rdz`, R168; a step of it that finds a stopped sequencer does not complete it (R371). It carries path m, so that what an epilogue left in the block's cache ways when the fault service stopped it goes to its homes too (R285, R331). -/
def execRdz (d a : Reg) (s : State) : Out :=
  let i := Instr.rdz d a
  issue i s fun h =>
    notInCodelet i s <|
    let blk := (h.reg a).toNat
    if !s.me.held.contains blk then retire i [(d, BitVec.allOnes 64)] s
    else if !blockQuiet s blk || stepStopped s blk then sleepOn (.rendezvous blk) s
    else
      let status := rendezvousStatus s blk
      let s := acquirePosted s s.cur (blockSequencers blk)
      retire i [(d, status)] (releaseBlock ((flushWays s blk).syncPaths s.cur .cluster) s.cur blk)

/-! ## `escr` (R133, R170) -/

/-- A payload of four words, s3 lowest. -/
def replyPayload (h : Hart) : Payload := h.reg 6 ++ h.reg 5 ++ h.reg 4 ++ h.reg 3

/-- A reply comes back to its ticket, where it can be delivered 8 cycles on at the earliest (R133). -/
def takeReply (s : State) (cl pos entry ticket : Nat) (v : Payload) : State :=
  let t := s.tile cl pos
  let tickets := t.tickets.map fun k =>
    if k.entry = entry && k.ticket = ticket && k.reply.isNone then { k with reply := some (v, s.clock + 8, t.nextReply) } else k
  s.setTile cl pos { t with tickets := tickets, nextReply := t.nextReply + 1 }

/-- `escr`, R170: held blocks are waited for first (R169), and the handler's writes go to their homes, where the ports of the region see them (R319, log entry 47). The tile that s8 names is that of the dispatch, whatever the handler has written to s8 since (R257; DESIGN CHOICE, log entry 52). -/
def execEscr (s : State) : Out :=
  issue .escr s fun h =>
    match h.origin with
    | .escape cl pos entry ticket =>
      afterHeld s fun s =>
        let s := takeReply (s.release s.cur .device) cl pos entry ticket (replyPayload h)
        .next (endThread s s.cur)
    | .none | .persistent _ => illegal .escr s

end Sys2Proof.Machine
end

