-- ==== Sys2Proof/Machine/Ports.lean ====
section
/-! DEFINITION. Memory-port tiles: their accesses, self-describing pages, faults and wake tokens (R288 to R292, R297 to R299). -/

namespace Sys2Proof.Machine

/-! ## Addresses (R289) -/

/-- The loop counters of access `n`, level 0 first. -/
def portCounters (r : Vector Word 8) (n : Nat) : List Nat :=
  ((List.range 6).foldl (fun (x : List Nat × Nat) k => (x.1 ++ [x.2 % PortRec.ext r k], x.2 / PortRec.ext r k)) ([], n)).1

/-- BASE + Σ ik × Sk. -/
def streamAddress (r : Vector Word 8) (n : Nat) : Word :=
  (portCounters r n).zipIdx.foldl (fun (a : Word) p => a + BitVec.ofInt 64 (p.1 * PortRec.stride r p.2)) (PortRec.base r)

/-- The address of a random access for the token it takes. -/
def randomAddress (r : Vector Word 8) (k : Token) : Word :=
  if PortRec.amode r then PortRec.base r + k.payload.setWidth 64
  else PortRec.base r + BitVec.ofInt 64 (k.tag.toNat * PortRec.stride r 0)

/-! ## Self-describing blocks as tokens (R292) -/

/-- The scale bytes and element bytes of half a grouped block, and where its elements lie in a block. -/
def halfShape (code : Nat) : Nat × Nat × Nat := if code = 0x10 then (6, 24, 14) else (3, 24, 8)

/-- Half h of a grouped block as a group token. -/
def groupHalf (v code h : Nat) : Nat :=
  let (sc, el, base) := halfShape code
  bitsAt v (8 * (2 + sc * h)) (8 * sc) + 2 ^ (8 * sc) * bitsAt v (8 * (base + el * h)) (8 * el) + 2 ^ 248 * byteAt v 1

/-- The two payloads of a block that was read. -/
def blockTokens (v : Nat) : Nat × Nat :=
  match BlockFmt.ofCode (v % 256) with
  | some .zero => (0, 0)
  | some f => if f.grouped then (groupHalf v (v % 256) 0, groupHalf v (v % 256) 1) else (bitsAt v 0 256, bitsAt v 256 256)
  | none => (bitsAt v 0 256, bitsAt v 256 256)

/-- Two payloads packed into a block. -/
def packBlock (code a b : Nat) : Nat :=
  let grouped := match BlockFmt.ofCode code with
    | some f => f.grouped
    | none => false
  if grouped then
    let (sc, el, base) := halfShape code
    let half := fun (v h : Nat) =>
      bitsAt v 0 (8 * sc) * 2 ^ (8 * (2 + sc * h)) + bitsAt v (8 * sc) (8 * el) * 2 ^ (8 * (base + el * h))
    code + 2 ^ 8 * byteAt a 31 + half a 0 + half b 1
  else a + 2 ^ 256 * b

/-! ## Updates (R290) -/

/-- One element of an update. -/
def updateElem (op et old new : Nat) : Nat :=
  let w := if et = 3 then 64 else 32
  let t : IntFmt := ⟨w, et ≠ 1⟩
  if et = 2 then
    match op with
    | 1 => ((floatFmt .f32).add roundRNE false old new).1
    | 2 => (floatFmt .f32).min old new
    | _ => (floatFmt .f32).max old new
  else
    match op with
    | 1 => (old + new) % 2 ^ w
    | 2 => if t.read new < t.read old then new else old
    | _ => if t.read old < t.read new then new else old

/-- The elements of a token combined with 32 bytes of memory. -/
def updateBytes (op et token old : Nat) : Nat :=
  let w := if et = 3 then 64 else 32
  (joinElems w ((List.range (256 / w)).map fun k => (updateElem op et (bitsAt old (w * k) w) (bitsAt token (w * k) w), noFlags))).1

/-! ## Faults and waits -/

/-- The region's run reaches its ports. -/
def portActive (s : State) (cl : Nat) : Bool :=
  (runOf s cl).isSome && !(s.region (leadOf s cl)).frozen && regionRuns s cl

/-- A port freezes with its record (R297, R298). -/
def freezePort (s : State) (p : Nat) (va : Word) (cause fcode tag n : Nat) : State :=
  let x := s.port p
  match x.record with
  | none => s
  | some r =>
    let f : FaultRecord := ⟨va, portCounters r n, tag, fcode, 16 * PortRec.edge r + PortRec.index r, 0, 0, 1, cause⟩
    (s.setPort p { x with fault := some f }).report (.addressFault f)

/-- A fault of a port that cannot be resolved: its region's run ends with cause 3, and for uncorrectable data the task stops (R297, R409). -/
def portUnresolved (s : State) (p : Nat) : State :=
  let x := s.port p
  match x.fault with
  | none => s
  | some f =>
    if f.state = 3 then s
    else
      let lead := leadOf s (p / 32)
      let task := regionTask s (p / 32)
      let s := failLeaf (s.setPort p { x with fault := some { f with state := 3 } }) lead 3
      match task with
      | some t => if f.cause = 5 then stopTask s t 6 else s
      | none => s

/-- An access that failed: a new record, or the end of the run where a format fault failed its retry. -/
def portFails (s : State) (p : Nat) (va : Word) (cause fcode tag n : Nat) : State :=
  let again := match (s.port p).fault with
    | some f => f.state = 2 && f.cause = 4 && cause = 4
    | none => false
  let s := freezePort s p va cause fcode tag n
  if again then portUnresolved s p else s

/-- A port whose access went through is no longer frozen. -/
def thaw (x : Port) : Port := { x with fault := none }

/-! ## Accesses (R289 to R291) -/

/-- The address lies in a FIFO bank. -/
def inFifo (s : State) (cl : Nat) (task : Option Nat) (va : Word) : Bool :=
  match resolve s (.region cl) task (va &&& ~~~63#64) 64 .read false with
  | .ok (.fifo _ _) => true
  | .ok (.bank _ _ _) | .ok (.localMem _ _) | .ok (.bankControl _ _) | .ok (.memory _ _ _ _) | .error _ => false

/-- An access of a port moves 64 bytes as two tokens: a block of a self-describing page (R292), or an entry of a FIFO bank,
which a port may use and which serves 64 bytes alone (R285; log entry 26). -/
def twoTokens (s : State) (cl : Nat) (task : Option Nat) (va : Word) : Bool := selfDescribing s cl task va || inFifo s cl task va

/-- Tokens that the port sends for a read, to its reorder buffer. -/
def readTokens (s : State) (cl : Nat) (task : Option Nat) (va : Word) (tag : BitVec 16) (last : Bool) : Except GenOut (List Token × State) :=
  if twoTokens s cl task va then
    let sd := selfDescribing s cl task va
    match genRead s cl task va 64 sd with
    | .done v s =>
      let (a, b) := if sd then blockTokens v else (bitsAt v 0 256, bitsAt v 256 256)
      .ok ([⟨BitVec.ofNat 256 a, false, false, tag⟩, ⟨BitVec.ofNat 256 b, false, last, tag⟩], s)
    | out => .error out
  else match genRead s cl task va 32 false with
    | .done v s => .ok ([⟨BitVec.ofNat 256 v, false, last, tag⟩], s)
    | out => .error out

/-- The head of a port's input, once it has landed. -/
def portHead (s : State) (x : Port) : Option Token :=
  match x.input with
  | k :: _ => if k.at_ ≤ s.clock then some k.token else none
  | [] => none

/-- The tile behind a port and the link it feeds (R240). -/
def portTile (p : Nat) : Nat × Nat × Link :=
  if p % 32 < 16 then (p / 32, p % 16, .north) else (p / 32, 240 + p % 16, .south)

/-- The head of a port's input taken: its credit returns to the tile (R103). -/
def popInput (s : State) (p : Nat) : State :=
  let x := s.port p
  let s := s.setPort p { x with input := x.input.drop 1 }
  let (cl, pos, l) := portTile p
  owedCredit s cl pos l 1

/-- The tokens of an access that has been performed enter the reorder buffer. -/
def buffered (s : State) (p : Nat) (ks : List Token) : State :=
  let x := s.port p
  s.setPort p (thaw { x with next := x.next + 1, buffer := x.buffer ++ ks, owed := x.owed ++ [ks.length] })

/-- A streaming read may issue: at most 64 accesses ahead of the tokens taken. -/
def mayStream (x : Port) (r : Vector Word 8) : Bool := x.next < portTotal r && x.owed.length < 64

/-- The tokens of a port's next streaming read. -/
def streamTokens (s : State) (p : Nat) (x : Port) (r : Vector Word 8) : Except GenOut (List Token × State) :=
  readTokens s (p / 32) (regionTask s (p / 32)) (streamAddress r x.next) (BitVec.ofNat 16 x.next) (x.next + 1 = portTotal r)

/-- A streaming read. -/
def streamRead (s : State) (p : Nat) (x : Port) (r : Vector Word 8) : State :=
  if !mayStream x r then s
  else match streamTokens s p x r with
    | .ok (ks, s) => buffered s p ks
    | .error (.fault cause fcode) => portFails s p (streamAddress r x.next) cause fcode 0 x.next
    | .error _ => s

/-- A random read: one address token for each access. -/
def randomRead (s : State) (p : Nat) (x : Port) (r : Vector Word 8) : State :=
  match portHead s x with
  | none => s
  | some k =>
    let va := randomAddress r k
    if 64 ≤ x.buffer.length then s
    else match readTokens s (p / 32) (regionTask s (p / 32)) va k.tag k.last with
      | .ok (ks, s) => buffered (popInput s p) p ks
      | .error (.fault cause fcode) => portFails s p va cause fcode k.tag.toNat x.next
      | .error _ => s

/-- The address of a port's write; of two tokens for a block, the first gives a random access its address. -/
def writeAddress (x : Port) (r : Vector Word 8) (k : Token) : Word :=
  if PortRec.cls r = 1 then randomAddress r (x.first.getD k) else streamAddress r x.next

/-- The token that a port's write takes is the first of two. -/
def takesFirst (s : State) (p : Nat) (x : Port) (r : Vector Word 8) (k : Token) : Bool :=
  x.first.isNone && twoTokens s (p / 32) (regionTask s (p / 32)) (writeAddress x r k)

/-- The checks of a port's write or update: of 64 bytes once it holds both tokens of a block. -/
def writeCheck (s : State) (p : Nat) (x : Port) (r : Vector Word 8) (k : Token) : GenOut :=
  let n := if x.first.isSome then 64 else 32
  let check := if PortRec.aop r ≠ 0 then genUpdateCheck else genWriteCheck
  check s (p / 32) (regionTask s (p / 32)) (writeAddress x r k) n

/-- The bytes of two tokens in a block: packed under SDCODE on a self-describing page, and as they stand in a FIFO bank. -/
def pairBlock (s : State) (cl : Nat) (task : Option Nat) (va : Word) (r : Vector Word 8) (a k : Token) : Nat :=
  if selfDescribing s cl task va then packBlock (PortRec.sdcode r) a.payload.toNat k.payload.toNat
  else a.payload.toNat + 2 ^ 256 * k.payload.toNat

/-- The effect of a port's write that has passed its checks. An update of a block combines its 64 bytes with the two payloads as they stand (R290, R292; log entry 26). -/
def performWrite (s : State) (p : Nat) (x : Port) (r : Vector Word 8) (k : Token) : State :=
  let cl := p / 32
  let task := regionTask s cl
  let va := writeAddress x r k
  let update := fun (old : Nat) (new : Token) => updateBytes (PortRec.aop r) (PortRec.et r) new.payload.toNat old
  match x.first with
  | some a =>
    if PortRec.aop r ≠ 0 then
      genUpdate s cl task va 64 fun old => update (bitsAt old 0 256) a + 2 ^ 256 * update (bitsAt old 256 256) k
    else genWrite s cl task va 64 (pairBlock s cl task va r a k)
  | none =>
    if PortRec.aop r ≠ 0 then genUpdate s cl task va 32 fun old => update old k
    else genWrite s cl task va 32 k.payload.toNat

/-- A write of a port for the token it takes. -/
def portWrite (s : State) (p : Nat) (x : Port) (r : Vector Word 8) (k : Token) : State :=
  if takesFirst s p x r k then
    let s := popInput s p
    s.setPort p { s.port p with first := some k }
  else match writeCheck s p x r k with
    | .done _ s =>
      let s := popInput (performWrite s p x r k) p
      s.setPort p (thaw { s.port p with next := x.next + 1, first := none })
    | .fault cause fcode => portFails s p (writeAddress x r k) cause fcode k.tag.toNat x.next
    | .wait => s

/-- The next access of a port waits for memory: it has what it needs, and memory cannot serve it now (R261, R291). -/
def portWaits (s : State) (p : Nat) : Bool :=
  let x := s.port p
  let isWait : Except GenOut (List Token × State) → Bool := fun o => match o with
    | .error .wait => true
    | .error _ | .ok _ => false
  match x.record with
  | none => false
  | some r =>
    if !PortRec.wr r && PortRec.cls r ≠ 1 then mayStream x r && isWait (streamTokens s p x r)
    else match portHead s x with
      | none => false
      | some k =>
        if !PortRec.wr r then isWait (readTokens s (p / 32) (regionTask s (p / 32)) (randomAddress r k) k.tag k.last)
        else !takesFirst s p x r k && match writeCheck s p x r k with
          | .wait => true
          | .done _ _ | .fault _ _ => false

/-- The credits of a port that count now, and those still on their way. -/
def portCredits (s : State) (x : Port) : Nat × List Nat :=
  (x.credits + (x.creditsDue.filter fun d => d ≤ s.clock).length, x.creditsDue.filter fun d => s.clock < d)

/-- A token of an earlier access can still leave for the tile: it does so before a fault of the port is acted on (R297; log entry 26). -/
def earlierToken (s : State) (p : Nat) : Bool :=
  let x := s.port p
  !x.buffer.isEmpty && (portCredits s x).1 ≠ 0 && portActive s (p / 32)

/-- PORT_ACCESS: a port makes its next access, or retries the failing one after a wake token (R289, R290, R297). -/
def execPortAccess (cl port : Nat) (s : State) : Out :=
  if 32 ≤ cl || 32 ≤ port then .fault .noSuchUnit
  else
    let p := 32 * cl + port
    let x := s.port p
    let held := match x.fault with
      | some f => f.state ≠ 2 || (f.cause = 4 && earlierToken s p)
      | none => false
    match x.record with
    | none => .next s
    | some r =>
      if held || !portActive s cl then .next s
      else
        let s := if portWaits s p then noteProgress s cl else s
        if !PortRec.wr r then .next (if PortRec.cls r = 1 then randomRead s p x r else streamRead s p x r)
        else match portHead s x with
          | none => .next s
          | some k => if PortRec.cls r ≠ 1 && !(x.next < portTotal r) then .next s else .next (portWrite s p x r k)

/-- PORT_RESPONSE: the oldest token of the reorder buffer leaves for the tile (R291). -/
def execPortResponse (cl port : Nat) (s : State) : Out :=
  if 32 ≤ cl || 32 ≤ port then .fault .noSuchUnit
  else
    let p := 32 * cl + port
    let x := s.port p
    match x.buffer with
    | [] => .next s
    | k :: rest =>
      let (n, due) := portCredits s x
      if n = 0 || !portActive s cl then .next s
      else
        let (c, pos, l) := portTile p
        let s := s.setPort p { x with buffer := rest, credits := n - 1, creditsDue := due }
        .next (pushFifo s c pos l k (s.clock + 1))

/-! ## Wake tokens (R297) -/

/-- WAKE_TOKEN: a frozen node retries the failing access, unless its task stands still (R366, R370); a node that is not frozen ignores it. -/
def execWakeToken (g : GenNode) (s : State) : Out :=
  match g with
  | .copy e n => .next (retryCopy s e n false)
  | .port p =>
    let x := s.port p
    match x.fault with
    | some f =>
      if f.state = 1 && (f.cause = 1 || f.cause = 4) && !clusterHeld s (p / 32) then
        .next (noteProgress (s.setPort p { x with fault := some { f with state := 2 } }) (p / 32))
      else .next s
    | none => .next s

/-! ## Stalls (R261) -/

/-- The ports of a lead's running context. -/
def contextPorts (s : State) (lead : Nat) : List Nat := match loadedOf s lead with
  | some l => l.ports.map Prod.fst
  | none => []

/-- A ticket of the run is outstanding, or a port of it has an access that waits for memory or a fault: no cycle of a stall (R261). -/
def regionBusy (s : State) (cl : Nat) (run : Run) : Bool :=
  ((contextPorts s cl).any fun p => (s.port p).fault.isSome || portWaits s p) ||
  s.tiles.any fun p => run.group.contains p.1.1 && !p.2.tickets.isEmpty

/-- A region over the cycles up to `last`: those in which it was busy start the count of cycles without progress again (R261). -/
def idleRegion (s : State) (last : Nat) (p : Nat × Region) : Nat × Region :=
  match p.2.run with
  | some run => if regionRuns s p.1 && !p.2.frozen && regionBusy s p.1 run then (p.1, { p.2 with progress := max p.2.progress last }) else p
  | none => p

/-- What `dt` cycles that pass leave on the tiles and regions: wait counts and readiness ages (R106), and the cycles without progress (R261). -/
def passCycles (s : State) (dt : Nat) : State :=
  if dt = 0 then s
  else
    let last := s.clock + dt - 1
    { s with tiles := s.tiles.map (idleTile s last), regions := s.regions.map (idleRegion s last) }

/-- STALL_DETECT: a run that made no progress for 65,536 cycles ends with cause 4, and one that Krany's fault service has ended takes its cause (R250, R261, R270). -/
def execStallDetect (cl : Nat) (s : State) : Out :=
  let r := s.region cl
  match r.run with
  | none => .next s
  | some run =>
    match r.failed with
    | some (cause, _) => if r.frozen then .next s else .next (failLeaf s cl cause)
    | none =>
      if !regionRuns s cl || r.frozen || regionBusy s cl run || s.clock < r.progress + 65536 || converged s cl then .next s
      else .next ((failLeaf s cl 4).report (.regionStalled cl))

end Sys2Proof.Machine
end

