-- ==== Sys2Proof/Machine/Time.lean ====
section
/-! DEFINITION. Virtual time, messages and the floor (R201 to R203, R274 to R276). -/

namespace Sys2Proof.Machine

/-- The larger of two virtual times. -/
def later (a b : Word) : Word := if a.ult b then b else a

/-- The latest published floor (R275). -/
def floorOf (s : State) : Word := s.service.floor

/-- `tmset`, R201. -/
def execTmset (d a : Reg) (s : State) : Out :=
  issue (.tmset d a) s fun h =>
    let v := if h.joined then later (h.reg a) (floorOf s) else h.reg a
    retire (.tmset d a) [(d, v)] (s.setMe { s.me with vtime := v })

/-- `tmget`, R201. -/
def execTmget (d : Reg) (s : State) : Out := compute (.tmget d) s d fun h => h.vtime

/-- `floor`, R201. -/
def execFloor (d : Reg) (s : State) : Out := compute (.floor d) s d fun _ => floorOf s

/-- `fljoin`, R201 and R276. -/
def execFljoin (a : Reg) (s : State) : Out :=
  issue (.fljoin a) s fun h =>
    let joins := (h.reg a).getLsbD 0
    retire (.fljoin a) [] (s.setMe { s.me with
      joined := joins
      vtime := if joins then later s.me.vtime (floorOf s) else s.me.vtime })

/-- `msend`, R202. -/
def execMsend (d a b : Reg) (s : State) : Out :=
  issue (.msend d a b) s fun h =>
    let core := (h.reg a).toNat % 2 ^ 11
    let declared := match s.myTask with
      | some t => t.hasCore core
      | none => false
    if !declared then trapHere (.msend d a b) .protection (h.reg a) s
    else if 256 ≤ (s.core core).inbox.length then sleepOn (.inbox core) s
    else
      let ts := if h.joined then later (h.reg b) h.vtime else h.reg b
      let k := s.core core
      retire (.msend d a b) [(d, ts)] (s.setCore core { k with inbox := k.inbox ++ [⟨ts, h.reg 3, h.reg 4, h.reg 5⟩] })

/-- The earliest message of an inbox, by timestamp and then by arrival, and its place. -/
def earliest : List Message → Option (Nat × Message)
  | [] => none
  | m :: r => match earliest r with
    | none => some (0, m)
    | some (n, x) => if x.stamp.ult m.stamp then some (n + 1, x) else some (0, m)

/-- The latest timestamp that a thread may take: floor + LOOKAHEAD, saturating. -/
def horizon (s : State) (h : Hart) : Word :=
  if floorOf s + h.lookahead |>.ult (floorOf s) then BitVec.allOnes 64 else floorOf s + h.lookahead

/-- The message that a thread may take from its core's inbox now. -/
def takeable (s : State) (core : Nat) (h : Hart) : Option (Nat × Message) :=
  match earliest (s.core core).inbox with
  | some (n, m) => if m.stamp.ule (horizon s h) then some (n, m) else none
  | none => none

/-- `mrecv`, R202. -/
def execMrecv (nb : Bool) (d : Reg) (s : State) : Out :=
  issue (.mrecv nb d) s fun h =>
    if !nb && s.me.codelet then illegal (.mrecv nb d) s
    else match s.cur with
    | .thread c _ =>
      match takeable s c h with
      | some (n, m) =>
        let k := s.core c
        let s := s.setCore c { k with inbox := dropNth k.inbox n }
        retire (.mrecv nb d) [(d, m.stamp), (3, m.p0), (4, m.p1), (5, m.p2)]
          (s.setMe { s.me with vtime := later s.me.vtime m.stamp })
      | none =>
        if nb then retire (.mrecv nb d) [(d, BitVec.allOnes 64)] s
        else sleepOn .message s
    | .region _ | .matrix _ _ | .epilogue _ _ | .copySeq _ _ | .tile _ _ _ => illegal (.mrecv nb d) s

/-! ## The floor tree (R275) -/

/-- The contributions of one thread: none while it sleeps in `mrecv`, up to the issue that takes the message (R203, R276). -/
def contribution (h : Hart) : Option Word :=
  if !h.joined || h.receiving then none
  else match h.status with
    | .sleeping .message _ => none
    | .empty | .halted => none
    | .ready | .sleeping _ _ | .stopped => some h.vtime

/-- What some threads and cores contribute to the floor: virtual times and the stamps of waiting messages. -/
def contributed (harts : Tbl AgentId Hart) (cores : Tbl Nat Core) : List Word :=
  (harts.filterMap fun p => contribution p.2) ++ cores.flatMap fun p => p.2.inbox.map Message.stamp

/-- The least of every contribution, on the cores and in the saves of checkpoints; all ones when there is none (R203, R276). -/
def contributions (s : State) : Word :=
  let least : Word → Word → Word := fun a b => if a.ult b then a else b
  (contributed s.harts s.cores ++ s.saves.flatMap fun p => contributed p.2.harts p.2.cores).foldl least (BitVec.allOnes 64)

/-- FLOOR_PUBLISH: in the cycles that are multiples of 32, from the cut of that cycle (R275). -/
def execFloorPublish (s : State) : Out :=
  if s.clock % 32 = 0 then
    .next { s with service := { s.service with floor := contributions s, floorAt := some s.clock } }
  else .next s

end Sys2Proof.Machine
end

