-- ==== Sys2Proof/Machine/Wake.lean ====
section
/-! DEFINITION. Waking and stopping sleepers, page faults, refills and evictions (R178, R182, R187, R206, R213, R264, R271, R272, R274, R295, R297, R387, R395). -/

namespace Sys2Proof.Machine

/-! ## The instruction at a program counter -/

/-- The bytes of an agent's next instruction; the second parcel is fetched for a W-form only (R41). -/
def fetchBytes (s : State) (pc : Word) : Except AddrFault (List Byte) :=
  match fetchParcel s pc with
  | .error f => .error f
  | .ok lo =>
    if lo % 2 = 0 then .ok (bytesLE 2 lo)
    else match fetchParcel s (pc + 2) with
      | .error f => .error f
      | .ok hi => .ok (bytesLE 4 (lo + 2 ^ 16 * hi))

/-- The instruction that an agent sleeps in. -/
def instrOf (s : State) (a : AgentId) : Option Instr :=
  let s := { s with cur := a }
  match fetchBytes s s.me.pc with
  | .ok bs => match decode bs with
    | .ok (i, _) => some i
    | .error _ => none
  | .error _ => none

/-- An instruction as long as the running agent's, by its first parcel; where not even that can be read, a free value decides (log entries 4 and 32). -/
def lengthStandIn (s : State) : Instr × State :=
  match fetchParcel s s.me.pc with
  | .ok lo => (if lo % 2 = 1 then .nop else .hNop, s)
  | .error _ => (if (Config.free s.freeCtr).getLsbD 0 then .nop else .hNop, s.bumpFree)

/-- An agent traps on the instruction that it sleeps in. -/
def trapAsleep (s : State) (a : AgentId) (c : TrapClass) (eval : Word) : State :=
  let r := lengthStandIn { s with cur := a }
  enterTrap { r.2 with cur := s.cur } a c r.1.length (s.hart a).pc eval

/-! ## Wake conditions (R264) -/

/-- Threads of a core that sleep for a message they may take, in the order in which they went to sleep. -/
def earlierSleeper (s : State) (a : AgentId) (core since : Nat) : Bool :=
  s.harts.any fun p => match p.1, p.2.status with
    | .thread c _, .sleeping .message n => c = core && p.1 ≠ a && n < since && (takeable s core p.2).isSome
    | _, _ => false

/-- A shared page can be asked for again, or cannot be reached at all: a read that finds no copy yet sleeps once more (R395, R398). -/
def remoteReady (s : State) (frame : Nat) : Bool :=
  match siteOf s (4096 * frame) true with
  | .here | .copy _ => true
  | .moving => false
  | .absent p | .uncached p => reach s p ≠ .retraining && !homeSwitches s (4096 * frame)

/-- The page of an address can be accessed. -/
def pageReady (s : State) (a : AgentId) (va : Word) : Bool :=
  match resolve s a (s.hart a).task va 1 .read false with
  | .error .page => false
  | .ok _ | .error _ => true

/-- What an agent waits for has come about; other events complete the waits that are never ready here. -/
def waitOver (s : State) (a : AgentId) (since : Nat) : Wait → Bool
  | .chainInput => (chainHead { s with cur := a }).isSome
  | .chainOutput => chainRoom { s with cur := a }
  | .chainDrain => outputDrained { s with cur := a }
  | .copyQueue => (s.engine a.engine).queue.length < 32
  | .batches n => (s.hart a).sealedBatches.length ≤ n
  | .sealed => (s.hart a).sealedBatches.length < 16
  | .streams => (freeStream (s.engine a.engine)).isSome
  | .matrixQueue => match matrixBlock { s with cur := a } with
    | some b => matrixRoom (s.block b)
    | none => true
  | .deferredSlot n => match matrixBlock { s with cur := a } with
    | some b => (deferredSlot (s.block b) n).cmd.isNone
    | none => true
  | .matrixIdle all => match matrixBlock { s with cur := a } with
    | some b => matrixIdle (s.block b) all
    | none => true
  | .accumulator acc => match a with
    | .epilogue cl b => !accumulatorBusy (s.block (blockNo cl b)) acc
    | .thread _ _ | .region _ | .matrix _ _ | .copySeq _ _ | .tile _ _ _ => true
  | .forkBlock blk => match a with
    | .thread c sl => !forkBlocked s blk c sl
    | .region _ | .matrix _ _ | .epilogue _ _ | .copySeq _ _ | .tile _ _ _ => true
  | .rendezvous blk => blockQuiet s blk
  | .heldBlocks => match lowestHeld (s.hart a).held with
    | some b => blockQuiet s b
    | none => true
  | .load | .spawn | .bank _ => true
  | .run => regionIdle s a.cluster && othersIdle s a.cluster
  | .patch => !s.tiles.any fun p => match p.2.draining with
    | some d => d.issuer = a
    | none => false
  | .seam => (s.region a.cluster).seamAsk.isNone
  | .sync => (postedStatus s a).isSome
  | .join n => match s.node n with
    | some x => match x.phase with
      | .ended _ => true
      | .waiting | .loading | .running => false
    | none => true
  | .value _ | .codelet | .answer | .packetSlot _ | .bankSwitch _ _ => false
  | .weir n g => (s.weir n).gen ≠ g
  | .overflow c => !queuesFull (s.core c)
  | .inbox c => (s.core c).inbox.length < 256
  | .message => match a with
    | .thread c _ => (takeable s c (s.hart a)).isSome && !earlierSleeper s a c since
    | .region _ | .matrix _ _ | .epilogue _ _ | .copySeq _ _ | .tile _ _ _ => true
  | .clock till => till.toNat ≤ s.clock
  | .page va => pageReady s a va
  | .recording id => match (s.hart a).task with
    | some t => match (s.track t id).state with
      | .recorded => true
      | .none | .recording | .playing => false
    | none => true
  | .remote f => remoteReady s f

/-- The agent issues its instruction again; for the floor a thread that woke in `mrecv` sleeps until it does (R203, R276). -/
def makeReady (s : State) (a : AgentId) : State :=
  let h := s.hart a
  let receiving := match h.status with
    | .sleeping .message _ => true
    | .sleeping _ _ | .empty | .ready | .halted | .stopped => false
  s.setHart a { h with status := .ready, wokenAt := some s.clock, receiving := receiving }

/-! ## Waits that another unit completes -/

/-- A meaning performed by another agent, which was asleep in it. -/
def performAs (s : State) (a : AgentId) (f : State → Out) : State :=
  let s' := outState s (f { makeReady s a with cur := a })
  { s' with cur := s.cur }

/-- A codelet goes to the waiter that went to sleep first (R272). -/
def wakeCodelet (s : State) (a : AgentId) (core since : Nat) : State :=
  let first := (codeletWaiters s core).all fun p => p.1 = a || since ≤ p.2
  match instrOf s a with
  | some (.clnext o sc) =>
    if first && codeletCount (s.core core) ≠ 0 then performAs s a (enterCodelet o sc core) else s
  | _ => s

/-- The answer to the `renq.ack` that an agent sleeps in, which has come already or comes now, over a port that is up (R398); a status 3 follows its record (R199, R400). -/
def answerRenq (s : State) (a : AgentId) : State :=
  match s.renqs.find? (Renq.of s a) with
  | none => s
  | some r => match r.answer with
    | some n => if n = 3 && s.recordsWait then s else answerWith s r n
    | none =>
      if reach s r.dest ≠ .up then s
      else
        let p := packetAnswer s r
        answerWith p.2 { r with answer := some p.1 } p.1

/-- A packet toward the destination is acknowledged over a port that is up, and its credit may carry the next one; with none on its way management may grant credits (R393). -/
def freePacketSlot (s : State) (a : AgentId) (dest : Nat) : State :=
  if tget 0 dest s.renqCredits ≠ 0 then makeReady s a
  else match s.renqs.find? fun r => r.dest = dest && r.answer.isNone with
    | some r => if reach s dest = .up then makeReady (packetAnswered s r) a else s
    | none => makeReady s a

/-- THREAD_WAKE: a sleeper whose condition holds becomes Ready (R178, R213, R264). -/
def execThreadWake (a : AgentId) (s : State) : Out :=
  if !a.exists then .fault .noSuchUnit
  else
    let h := s.hart a
    match h.status, a with
    | .sleeping w since, _ =>
      if !agentRuns s a then .next s
      else match w, a with
        | .codelet, .thread c _ => .next (wakeCodelet s a c since)
        | .answer, _ => .next (answerRenq s a)
        | .packetSlot dest, _ => .next (freePacketSlot s a dest)
        | _, _ => if waitOver s a since w then .next (makeReady s a) else .next s
    | .empty, _ | .ready, _ | .halted, _ | .stopped, _ => .next s

/-- A `waitv` that still sleeps has slept since it first did. -/
def keepSince (a : AgentId) (since : Nat) (s : State) : State :=
  match (s.hart a).status with
  | .sleeping (.value l) _ => s.setHart a { s.hart a with status := .sleeping (.value l) since }
  | .sleeping _ _ | .empty | .ready | .halted | .stopped => s

/-- WAITV_REREAD: a sleeping `waitv` reads its location again (R187). -/
def execWaitvReread (a : AgentId) (s : State) : Out :=
  if !a.exists then .fault .noSuchUnit
  else
    let h := s.hart a
    match h.status with
    | .sleeping (.value _) since =>
      if !agentRuns s a then .next s
      else match instrOf s a with
        | some (.waitvEq q z sc d x y) => .next (keepSince a since (performAs s a (execWaitvEq q z sc d x y)))
        | some (.waitvNe q z sc d x y) => .next (keepSince a since (performAs s a (execWaitvNe q z sc d x y)))
        | some (.waitvLt q z sc d x y) => .next (keepSince a since (performAs s a (execWaitvLt q z sc d x y)))
        | some (.waitvGe q z sc d x y) => .next (keepSince a since (performAs s a (execWaitvGe q z sc d x y)))
        | _ => .next (makeReady s a)
    | .sleeping _ _ | .empty | .ready | .halted | .stopped => .next s

/-- WATCHDOG_EXPIRY: a thread that has slept longer than WDOG cycles takes the watchdog trap (R206). -/
def execWatchdogExpiry (a : AgentId) (s : State) : Out :=
  if !a.exists then .fault .noSuchUnit
  else
    let h := s.hart a
    match h.status with
    | .sleeping _ since =>
      let slept := s.clock - since
      if a.isThread && agentRuns s a && h.wdog ≠ 0 && h.wdog.toNat < slept then
        .next (trapAsleep s a .watchdog (BitVec.ofNat 64 slept))
      else .next s
    | .empty | .ready | .halted | .stopped => .next s

/-- ILLEGAL_INSTRUCTION: the running agent issues a word that is no instruction (R65). -/
def execIllegalInstruction (s : State) : Out :=
  let w := bitsAtPc s
  .next (enterTrap s s.cur .illegal (if w.getLsbD 0 then 4 else 2) s.me.pc w)

/-! ## Page faults (R206, R297) -/

/-- The pages and entries that a leaf entry for a page stands for: itself, or with CONT its group of sixteen, whose frames are contiguous and aligned. -/
def mappedGroup (page : Nat) (pte : Word) : List (Nat × Word) :=
  if Pte.bit pte 8 then
    (List.range 16).map fun k => (page / 16 * 16 + k, (pte &&& ~~~0x000FFFFFFFFFF000#64) ||| BitVec.ofNat 64 (Pte.frame pte - 4096 * (page % 16) + 4096 * k))
  else [(page, pte)]

/-- A level-0 entry for a page that R293 allows: a malformed one is none that Krany writes. -/
def entryLegal (s : State) (page : Nat) (pte : Word) : Bool :=
  Pte.bit pte 0 && Pte.bit pte 7 && pte &&& Pte.reserved = 0 && (!Pte.bit pte 8 || Pte.frame pte / 4096 % 16 = page % 16) &&
  (mappedGroup page pte).all fun x => Pte.backed (Pte.frame x.2) && frameEnabled s.closedUnits (Pte.frame x.2 / 4096)

/-- Krany maps a page of a task, or with CONT its group of sixteen. -/
def mapPage (s : State) (task : Nat) (va pte : Word) : Option State :=
  let page := va.toNat % 2 ^ 57 / 4096
  if !entryLegal s page pte || inWindowRange va.toNat then none
  else
    let new := mappedGroup page pte
    some { s with maps := (new.map fun x => (task, x.1, x.2)) ++ s.maps.filter fun m => !(m.1 = task && new.any fun x => x.1 = m.2.1) }

/-- The address that a node of a region cannot read while it starts, with its task: the image of a leaf, or a descriptor of an inner node's child. -/
def nodeFault (s : State) (cl : Nat) : Option (Nat × Nat × Word) :=
  s.nodes.findSome? fun p =>
    let x := p.2
    let a := AgentId.region cl
    let missing : Word → Option (Nat × Nat × Word) := fun va =>
      match agentRead s a (some x.task) va 8 with
      | .error .page => some (p.1, x.task, va)
      | .ok _ | .error _ => none
    if nodeCluster x.desc ≠ cl then none
    else match x.phase with
      | .waiting | .loading =>
        if nodeKind x.desc = 3 && !nodeLoaded x.desc then
          match loadImage s cl (nodeAddr x.desc) (nodeSlot x.desc) with
          | .fault va .page => some (p.1, x.task, va)
          | .fault _ _ | .failed _ _ | .loaded _ => none
        else none
      | .running =>
        if nodeKind x.desc = 3 then none
        else ((List.range (nodeChildren x.desc)).filter (childReady x)).findSome? fun k =>
            let at_ := nodeAddr x.desc + BitVec.ofNat 64 (8 * k)
            match agentRead s a (some x.task) at_ 8 with
            | .error .page => some (p.1, x.task, at_)
            | .error _ => none
            | .ok (va, _) => (List.range 4).findSome? fun n => missing (BitVec.ofNat 64 (va + 8 * n))
      | .ended _ => none

/-- The page that a faulting unit waits for, and the task in whose space Krany maps it. -/
def faultPage (s : State) : FaultSite → Option (Nat × Word)
  | .task t => (s.task t).bind fun k => k.waitPage.map fun va => (if k.phase = .accepted then t else frontSpace s t k, va)
  | .agent a =>
    match (s.hart a).status, (s.hart a).task with
    | .sleeping (.page va) _, some t => some (t, va)
    | _, _ => match a with
      | .region cl => (nodeFault s cl).map fun x => (x.2.1, x.2.2)
      | .thread _ _ | .matrix _ _ | .epilogue _ _ | .copySeq _ _ | .tile _ _ _ => none
  | .node (.port p) =>
    match (s.port p).fault, regionTask s (p / 32) with
    | some f, some t => if f.cause = 1 && f.state = 1 then some (t, f.va) else none
    | _, _ => none
  | .node (.copy e n) =>
    match nth? (s.engine e).running n with
    | some c => match c.record with
      | some f => if f.cause = 1 && f.state = 1 then some (c.task, f.va) else none
      | none => none
    | none => none

/-- Krany's home entry for a frame that it maps as shared: the home device and whether the page is coherent (R394). -/
def noteHome (s : State) (pte : Word) : Option (Nat × Bool) → State
  | none => s
  | some (dev, coherent) =>
    let f := placeOf (Pte.frame pte) / 4096
    if Pte.bit pte 61 && deviceAssigned dev && (tfind f s.homes).isNone then
      { s with homes := tset f ⟨dev, coherent, [], false, false, none, [], none⟩ s.homes }
    else s

/-- The agent or node of a fault belongs to a task that stands still (R366, R370). -/
def siteHeld (s : State) : FaultSite → Bool
  | .agent a => taskHeld s (s.hart a).task
  | .node (.port p) => clusterHeld s (p / 32)
  | .node (.copy e n) => match nth? (s.engine e).running n with
    | some c => taskHeld s (some c.task)
    | none => false
  | .task _ => false

/-- PAGE_FAULT_RESOLVED: Krany maps the page; an agent issues its instruction again, once its task does not stand still (R366, R370), and a node waits for its wake token (R206, R297). -/
def execPageFaultResolved (f : FaultSite) (pte : Word) (home : Option (Nat × Bool)) (s : State) : Out :=
  match faultPage s f with
  | none => .next s
  | some (t, va) => match mapPage s t va pte with
    | none => .next s
    | some s => let s := noteHome s pte home; match f with
      | .agent a => match (s.hart a).status with
        | .sleeping (.page _) _ => .next (if siteHeld s f then s else makeReady s a)
        | .sleeping _ _ | .empty | .ready | .halted | .stopped => .next s
      | .node _ => .next s
      | .task n => match s.task n with
        | some k => .next (s.setTask n { k with waitPage := none })
        | none => .next s

/-- FAULT_UNRESOLVABLE: unless its task stands still, the agent takes the page-fault trap, the region's leaf ends, or the task stops (R206, R297). -/
def execFaultUnresolvable (f : FaultSite) (s : State) : Out :=
  if siteHeld s f then .next s
  else match f with
  | .agent a => match (s.hart a).status with
    | .sleeping (.page va) _ => .next (trapAsleep s a .pageFault va)
    | .sleeping _ _ | .empty | .ready | .halted | .stopped => match a with
      | .region cl => match nodeFault s cl with
        | some (m, _, _) => .next (finishNode s m 3)
        | none => .next s
      | .thread _ _ | .matrix _ _ | .epilogue _ _ | .copySeq _ _ | .tile _ _ _ => .next s
  | .node (.port p) => .next (if earlierToken s p then s else portUnresolved s p)
  | .node (.copy e n) => .next (copyUnresolved s e n)
  | .task t => match s.task t with
    | some k => .next (s.setTask t { k with pageLost := k.waitPage.isSome, waitPage := none })
    | none => .next s

/-! ## Refills, evictions and moves -/

/-- RING_REFILL: the oldest overflow entry moves to the ring, at most one in 4 cycles (R271). -/
def execRingRefill (core : Nat) (s : State) : Out :=
  if 2048 ≤ core then .fault .noSuchUnit
  else
    let k := s.core core
    let due := match k.lastRefill with
      | some n => n + 4 ≤ s.clock
      | none => true
    match k.overflow with
    | c :: r =>
      if due && k.ring.length < 1024 && !clusterHeld s (coreCluster core) then
        .next (settlePush (s.setCore core { k with ring := k.ring ++ [c], overflow := r, lastRefill := some s.clock }) core)
      else .next s
    | [] => .next s

/-- A core's held copies of a line leave its cache without becoming ordinary, each a departure (R381). -/
def evictHeld (s : State) (c no : Nat) : State :=
  let hs := (s.core c).held
  let s := s.setCore c { s.core c with held := hs.filter fun h => h.no ≠ no }
  (hs.filter fun h => h.no = no).foldl (fun (s : State) h => s.depart h.task h.id c h.consSlot 4) s

/-- LINE_EVICTION: a line leaves a cache, its dirty bytes outward (R182).
Caches 0 to 2,047 are the L1s, the next 32 the segment caches, then the mere, then the ways of each block. -/
def execLineEviction (cache line : Nat) (s : State) : Out :=
  if cache < 2048 then .next (evictHeld (s.leaveL1 cache line) cache line)
  else if cache < 2080 then .next (s.leaveSeg (cache - 2048) line)
  else if cache = 2080 then .next (s.evictMere line)
  else if cache < 2081 + 256 then
    .next (s.leaveWay (cache - 2081) line)
  else .fault .noSuchUnit

/-! ## Capacities (R281) -/

/-- Lines of 64 bytes of an L1, of a segment cache and of a mere slice, and of a bank that is a cache way. -/
def l1Lines : Nat := 512
def segmentLines : Nat := 32768
def sliceLines : Nat := 32768
def bankLines : Nat := 2048

/-- Lines leave a cache until it holds no more than its capacity; the spec gives no policy, and free values choose them (log entry 40). -/
def evictExcess (lines : State → List Nat) (evict : State → Nat → State) (cap : Nat) (s : State) : Nat → State
  | 0 => s
  | fuel + 1 =>
    let l := lines s
    if l.length ≤ cap then s
    else evictExcess lines evict cap (evict s.bumpFree (nth 0 l ((Config.free s.freeCtr).toNat % l.length))) fuel

/-- A cache of some lines brought to its capacity. -/
def trimTo (lines : State → List Nat) (evict : State → Nat → State) (cap : Nat) (s : State) : State :=
  evictExcess lines evict cap s ((lines s).length - cap)

/-- The cache ways of a block hold the lines of its banks in that mode. -/
def wayLines (k : Block) : Nat := bankLines * (k.banks.toList.filter fun b => b.mode = .cacheWay).length

def trimL1 (s : State) (c : Nat) : State :=
  trimTo (fun s => State.lineNumbers (s.l1 c) ++ (s.core c).held.map Held.no) (fun s no => evictHeld (s.leaveL1 c no) c no) l1Lines s

def trimSegment (s : State) (cl : Nat) : State := trimTo (fun s => State.lineNumbers (s.seg cl)) (fun s no => s.leaveSeg cl no) segmentLines s

def trimWays (s : State) (blk : Nat) : State :=
  trimTo (fun s => (s.block blk).ways.map Line.no) (fun s no => s.leaveWay blk no) (wayLines (s.block blk)) s

/-- The lines of one slice, with those that it holds for a retired one. -/
def trimSlice (s : State) (k : Nat) : State :=
  trimTo (fun s => (s.mere.map Line.no).filter fun no => standingSlice s.service.retired (sliceOf no) = k) State.evictMere sliceLines s

/-- After a turn no cache holds more lines than R281 gives it: the lower levels first, since their dirty lines go to the next one. -/
def trimCaches (s : State) : State :=
  let s := s.cores.foldl (fun s p => trimL1 s p.1) s
  let s := s.blocks.foldl (fun s p => trimWays s p.1) s
  let s := s.segments.foldl (fun s p => trimSegment s p.1) s
  if s.mere.length ≤ sliceLines then s
  else trimTo (fun s => s.mere.map Line.no) State.evictMere (256 * sliceLines) ((List.range 256).foldl trimSlice s)

/-- Every cached line of a frame written to its home, and from there to the memory behind it. -/
def flushFrame (s : State) (frame : Nat) : State :=
  (List.range 64).foldl (fun (s : State) k => (s.recallLine (64 * frame + k)).evictMere (64 * frame + k)) s

/-- A physical address after the move of `n` frames from `old` on to `new` on. -/
def movedAddress (old new n pa : Nat) : Nat := if old ≤ pa / 4096 && pa / 4096 < old + n then pa - 4096 * old + 4096 * new else pa
def movedLine (old new n no : Nat) : Nat := movedAddress old new n (64 * no) / 64

/-- Weir windows after a move. -/
def movedWeirs (old new n : Nat) (ws : Tbl Nat Weir) : Tbl Nat Weir :=
  ws.map fun p => (p.1, { p.2 with window := p.2.window.map fun x => (movedAddress old new n x.1, x.2) })

/-- Recordings after a move: their tags and last writers follow the line (R384). -/
def movedTracks (old new n : Nat) (ts : Tbl (Nat × Nat) Track) : Tbl (Nat × Nat) Track :=
  ts.map fun p => (p.1, { p.2 with
    writers := p.2.writers.map fun x => (movedLine old new n x.1, x.2)
    tags := p.2.tags.map fun x => ((x.1.1, movedLine old new n x.1.2), x.2) })

/-- A frame after the move. -/
def movedFrame (old new n f : Nat) : Nat := movedAddress old new n (4096 * f) / 4096

/-- A table entry or mapping whose frame follows the move. -/
def movedEntry (old new n : Nat) (e : Word) : Word :=
  (e &&& ~~~0x000FFFFFFFFFF000#64) ||| BitVec.ofNat 64 (movedAddress old new n (placeOf (Pte.frame e)))

/-- What names frames by their physical addresses follows the move: weir windows, recordings and held lines, also those that a save holds, shared frames, and Krany's mappings. -/
def renameFrames (s : State) (old new n : Nat) : State :=
  { s with
    weirs := movedWeirs old new n s.weirs
    saves := s.saves.map fun p => (p.1, { p.2 with weirs := movedWeirs old new n p.2.weirs, tracks := movedTracks old new n p.2.tracks })
    tracks := movedTracks old new n s.tracks
    cores := s.cores.map fun p => (p.1, { p.2 with held := p.2.held.map fun h => { h with no := movedLine old new n h.no } })
    homes := s.homes.map fun p => (movedFrame old new n p.1, p.2)
    posted := s.posted.map fun p => { p with frame := movedFrame old new n p.frame }
    frontWrites := s.frontWrites.map fun w => { w with addr := movedAddress old new n w.addr }
    maps := s.maps.map fun m => (m.1, m.2.1, if movedFrame old new n (placeOf (Pte.frame m.2.2) / 4096) ≠ placeOf (Pte.frame m.2.2) / 4096 then movedEntry old new n m.2.2 else m.2.2) }

/-- Frames of 4 KiB in the page of a leaf entry at a level: 16 of one of a 64 KiB group (R293). -/
def leafFrames (level : Nat) (e : Word) : Nat := if level = 0 && Pte.bit e 8 then 16 else 512 ^ level

/-- Frames of the page that a walk ends in. -/
def walkFrames (s : State) (va : Nat) : Nat → Nat → Nat
  | 0, _ => 1
  | level + 1, table =>
    let e := s.homeWord (table + 8 * (va / levelSize level % 512))
    if Pte.bit e 7 then leafFrames level e else walkFrames s va level (placeOf (Pte.frame e))

/-- Frames of the page that maps an address of a task: a mapping of Krany's own has one. -/
def pageFrames (s : State) (task root va : Nat) : Nat :=
  match mappedEntry task (va % 2 ^ 57 / 4096) s.maps with
  | some _ => 1
  | none => walkFrames s (va % 2 ^ 57) 5 root

/-- The roots of the tables that the device walks: those of the tasks it has seen and of the open queues (R293, R351). -/
def tableRoots (s : State) : List Nat :=
  (s.tasks.map (fun p => p.2.root) ++ (s.queues.filter fun p => p.2.opened).map fun p => p.2.root).eraseDups

/-- An entry of some table: its address, its level and its word. -/
structure TableEntry where
  at_ : Nat
  level : Nat
  word : Word

/-- The first of the frames that an entry leads to, and their number: those of its page, or the one of a table. -/
def TableEntry.frames (x : TableEntry) : Nat × Nat :=
  let f := placeOf (Pte.frame x.word) / 4096
  let k := if Pte.bit x.word 7 then leafFrames x.level x.word else 1
  (f / k * k, k)

/-- The entries of a table, and of those below it, that map some of `n` frames from `first` on, or name one as a table. -/
def entriesTo (s : State) (first n : Nat) : Nat → Nat → List TableEntry
  | 0, _ => []
  | level + 1, table => (List.range 512).flatMap fun k =>
    let x : TableEntry := ⟨table + 8 * k, level, s.homeWord (table + 8 * k)⟩
    if !Pte.bit x.word 0 || x.word &&& Pte.reserved ≠ 0 then []
    else
      let here := if x.frames.1 < first + n && first < x.frames.1 + x.frames.2 then [x] else []
      if Pte.bit x.word 7 || level = 0 then here else here ++ entriesTo s first n level (placeOf (Pte.frame x.word))

/-- The entries of every table that lead to some of the frames. -/
def tableEntries (s : State) (first n : Nat) : List TableEntry := (tableRoots s).flatMap fun r => entriesTo s first n 5 r

/-- One entry changed in memory, and in the copy too where its table lies in a moved frame. -/
def moveEntry (old new n : Nat) (s : State) (x : TableEntry) : State :=
  let put := fun (s : State) (pa : Nat) => (s.recallLine (pa / 64)).writeHomeWords pa [movedEntry old new n x.word]
  let s := put s x.at_
  if movedAddress old new n x.at_ = x.at_ then s else put s (movedAddress old new n x.at_)

/-- Krany can move `n` frames from `first` on: none holds the root of a table, and no page larger than these frames maps one of them (log entry 28). -/
def framesMovable (s : State) (first n : Nat) : Bool :=
  !((tableRoots s).any fun r => first ≤ placeOf r / 4096 && placeOf r / 4096 < first + n) &&
  (tableEntries s first n).all fun x => first ≤ x.frames.1 && x.frames.1 + x.frames.2 ≤ first + n

/-- The bytes of `n` frames copied to others, and everything that named the old ones led to the new (R295). -/
def moveFrames (s : State) (old new n : Nat) : State :=
  let s := (List.range n).foldl (fun (s : State) k => flushFrame (flushFrame s (old + k)) (new + k)) s
  let bytes := (List.range (4096 * n)).map fun k => s.backing (4096 * old + k)
  let xs := tableEntries s old n
  xs.foldl (moveEntry old new n) (renameFrames (s.setBytes (4096 * new) bytes) old new n)

/-- PAGE_MOVE: a page of a task, of whatever size, moves to new frames, the named one for the page of 4 KiB that the event names (R295); Krany keeps a mapping of its own for that one (log entry 28). -/
def execPageMove (task page frame : Nat) (s : State) : Out :=
  match s.task task with
  | none => .next s
  | some t =>
    if !Pte.backed (4096 * frame) then .fault .noSuchUnit
    else match translate s task t.root (4096 * page) with
      | .error _ => .next s
      | .ok (pa, e) =>
        let n := pageFrames s task t.root (4096 * page)
        let old := pa / 4096 / n * n
        let frame := placeOf (4096 * frame) / 4096
        let new := frame / n * n
        let hostWaits := (2 ^ 47 ≤ 4096 * frame || 2 ^ 47 ≤ pa) && s.service.host ≠ .up
        if hostWaits || frame - new ≠ pa / 4096 - old || !((List.range n).all fun k => frameEnabled s.closedUnits (new + k)) || !framesMovable s old n then .next s
        else
          let s := moveFrames s old new n
          let pte := (e &&& ~~~0x000FFFFFFFFFF100#64) ||| BitVec.ofNat 64 (4096 * frame)
          .next { s with maps := (task, page, pte) :: s.maps.filter fun m => !(m.1 = task && m.2.1 = page) }

/-- HOST_SNOOP: a host line leaves the mere slice that caches it (R387). -/
def execHostSnoop (line : Nat) (s : State) : Out :=
  if State.hostLine line then .next (s.evictMere line) else .next s

/-- READ_COPY_INVALIDATE: the home asks, over a port that is up (R398), and the read copy of a shared page, and every cached line of it, is dropped, for a peer writes it (R395). -/
def execReadCopyInvalidate (page : Nat) (s : State) : Out :=
  match tfind page s.homes with
  | some e =>
    if e.copy && e.home ≠ s.ownDevice && reach s e.home = .up then
      let s := (List.range 64).foldl (fun (s : State) k => ((s.recallLine (64 * page + k)).discardMere (64 * page + k)).overwritten (64 * page + k) (BitVec.allOnes 64)) s
      .next { s with homes := tset page { e with copy := false } s.homes }
    else .next s
  | none => .next s

end Sys2Proof.Machine
end

