-- ==== Sys2Proof/Machine/Finish.lean ====
section
/-! DEFINITION. The end of a task: its conditions, what it leaves, and its completion record (R258, R278, R311, R359, R363). -/

namespace Sys2Proof.Machine

/-! ## The units of a task (R357, R361) -/

/-- A copy engine lies in a declared cluster. -/
def Task.hasEngine (t : Task) (e : Nat) : Bool := t.hasCluster (if e < 256 then e / 8 else e - 256)

/-- A cache with its lines gone. -/
def emptied (c : Cache) : Cache := { c with lines := [] }

/-- A core, segment and block as a task leaves them, a core with the slot and cycle of its last issue (R263): the accumulators and banks stay until another task is given the block (R311). -/
def vacantCore (k : Core) : Core := { Core.fresh with l1 := emptied k.l1, issuedAt := k.issuedAt, lastSlot := k.lastSlot }
/-- A tile without a task: it fires at most once in a cycle all the same (R104). -/
def vacantTile (t : Tile) : Tile := { Tile.fresh with lastFired := t.lastFired }
def vacantSegment (g : Segment) : Segment := { Segment.fresh with cache := emptied g.cache }
def vacantBlock (k : Block) : Block := { Block.fresh with acc := k.acc, accInt := k.accInt, banks := k.banks, owner := k.owner }

/-- The declared clusters without a trace of the task, once its dirty lines are at their homes (R328). -/
def vacate (s : State) (n : Nat) (t : Task) : State :=
  let s := (clustersOf t.clusterMask).foldl (fun (s : State) cl =>
    (List.range 8).foldl (fun (s : State) b => flushWays s (blockNo cl b)) s) s.cleanEverything
  { s with
    harts := s.harts.map fun p => if t.hasCluster p.1.cluster then (p.1, vacantHart p.2) else p
    cores := s.cores.map fun p => if t.hasCluster (coreCluster p.1) then (p.1, vacantCore p.2) else p
    segments := s.segments.map fun p => if t.hasCluster p.1 then (p.1, vacantSegment p.2) else p
    tiles := s.tiles.map fun p => if t.hasCluster p.1.1 then (p.1, vacantTile p.2) else p
    regions := s.regions.filter fun p => !t.hasCluster p.1
    ports := s.ports.filter fun p => !t.hasCluster (p.1 / 32)
    engines := s.engines.filter fun p => !t.hasEngine p.1
    blocks := s.blocks.map fun p => if t.hasCluster (p.1 / 8) then (p.1, vacantBlock p.2) else p
    epilogues := s.epilogues.filter fun p => !t.hasCluster (p.1 / 8)
    weirs := s.weirs.filter fun p => !t.hasCluster (p.1 / 64)
    tracks := s.tracks.filter fun p => p.1.1 ≠ n
    nodes := s.nodes.filter fun p => p.2.task ≠ n }

/-! ## Completion (R359) -/

/-- The status word. -/
def statusWord (t : Task) : Word :=
  let bit : Bool → Nat → Nat := fun b k => if b then 2 ^ k else 0
  let v := match t.variant with
    | some v => v
    | none => 0xFFFF
  BitVec.ofNat 64 (t.cause % 2 ^ 8 + bit t.left 8 + bit t.discarded 9 + bit t.streamsLeft 10 + 2 ^ 16 * v)

def Task.caddr (t : Task) : Word := vget 0 t.packet 5
def Task.cval (t : Task) : Word := vget 0 t.packet 6
def Task.flag (t : Task) (n : Nat) : Bool := (vget 0 t.packet 0).getLsbD n

/-- The completion record, then the notice, which waits with it; both wait for the release of the task's writes (R359). -/
def writeCompletion (s : State) (n : Nat) (t : Task) : State :=
  let q := s.queue t.queue
  let notice := if t.flag 26 then some q.msix else none
  if t.caddr = 0 then s.frontWrite ⟨0, false, [], some n, 0, false, notice, none, some n⟩
  else rootWrite s q.root t.caddr [statusWord t, t.cval] (some n) notice (some n)

/-- A queue no longer holds back its next packet for a launch. -/
def clearPending (s : State) (q n : Nat) : State :=
  let k := s.queue q
  if k.pending = some n then s.setQueue q { k with pending := none } else s

/-- What a task that ends has sent to peers: its writes are acknowledged with its release, but for those whose port retrains, and nobody takes the status of its packets any more (R359, R393, R399). -/
def settleSent (s : State) (n : Nat) : State :=
  disown { s with
    posted := s.posted.filter fun p => p.task ≠ some n || p.agent.isNone || (!p.lost && reach s p.peer = .retraining) } fun _ t => t = some n

/-- A task has ended: its writes are released at system scope, its units are free, its fresh frames go back, and its record is written (R359, R412). -/
def finishTask (s : State) (n : Nat) : State :=
  match s.task n with
  | none => s
  | some t =>
    let s := match t.phase with
      | .running | .saving => vacate s n t
      | .accepted | .saved | .done => s
    let s := releaseHomes s .system
    let s := settleSent s n
    let s := { s with maps := s.maps.filter fun m => m.1 % 2 ^ 64 ≠ n, saves := tdrop n s.saves }
    let s := s.setTask n { t with phase := .done, stepping := none, heldSince := none }
    writeCompletion (clearPending s t.queue n) n t

/-! ## When a task has ended (R278, R359) -/

/-- An agent of the task still runs, or is a thread that the fault service stopped (R207). -/
def agentLeft (n : Nat) (p : AgentId × Hart) : Bool :=
  p.2.task = some n && match p.1, p.2.status with
    | .thread _ _, .empty => false
    | .thread _ _, _ => true
    | .region _, .empty | .region _, .halted => false
    | .region _, _ => true
    | _, _ => !seqDone p.2

/-- A stream whose tiles in flight are complete waits for notices only (R150). -/
def streamIdle (c : Copy) : Bool :=
  match c.kind with
  | .stream _ => c.record.isNone && c.started * c.perTile ≤ c.next
  | .tile | .landing | .gather _ _ | .scatter _ _ | .discard _ _ | .prefetch _ _ => false

/-- The copies of a task among those of some engines. -/
def copiesOf (es : Tbl Nat CopyEngine) (n : Nat) : List Copy :=
  es.flatMap fun p => (p.2.queue ++ p.2.running).filter fun c => c.task = n

/-- A copy is a freed-slot stream. -/
def streamOf (c : Copy) : Bool :=
  match c.kind with
  | .stream _ => true
  | .tile | .landing | .gather _ _ | .scatter _ _ | .discard _ _ | .prefetch _ _ => false

/-- A block still has a matrix command of the task to complete. -/
def blockBusy (n : Nat) (k : Block) : Bool :=
  (k.queue.any fun c => c.task = n) || (List.range 8).any fun m =>
    let d := deferredSlot k m
    d.released && match d.cmd with
      | some c => c.task = n
      | none => false

/-- A run or node of the task has not ended. -/
def runsLeft (s : State) (n : Nat) (t : Task) : Bool :=
  (s.nodes.any fun p => p.2.task = n && match p.2.phase with
    | .ended _ => false
    | .waiting | .loading | .running => true) ||
  s.regions.any fun p => t.hasCluster p.1 && p.2.run.isSome && p.2.failed.isNone && !p.2.frozen

def taskEnded (s : State) (n : Nat) (t : Task) : Bool :=
  !(s.harts.any (agentLeft n)) && (copiesOf s.engines n).all streamIdle && !(s.blocks.any fun p => blockBusy n p.2) &&
  !runsLeft s n t && !s.releasing n

/-- What a task leaves behind on its units, or in its save, for its status word: entries that the rings and overflow queues of its cores still hold, and stream tiles that were not started (R278, R359). -/
def withLeft (s : State) (n : Nat) (t : Task) : Task :=
  let left := fun (cores : Tbl Nat Core) (copies : List Copy) => { t with
    discarded := cores.any fun p => t.hasCore p.1 && codeletCount p.2 ≠ 0
    streamsLeft := copies.any fun c => streamOf c && c.next < c.total }
  match t.phase, tfind n s.saves with
  | .running, _ | .saving, _ => left s.cores (copiesOf s.engines n)
  | .saved, some p => left p.cores (copiesOf p.engines n)
  | .saved, none | .accepted, _ | .done, _ => t

/-- The task ends with a cause, killed or refused (R359). -/
def finishWith (s : State) (n cause : Nat) : State :=
  match s.task n with
  | none => s
  | some t => finishTask (s.setTask n { withLeft s n t with cause := cause }) n

/-- TASK_COMPLETE: a task that has ended, or that was stopped, completes (R359). -/
def execTaskComplete (t : Nat) (s : State) : Out :=
  match s.task t with
  | none => .next s
  | some k =>
    if k.phase ≠ .running || (k.debugHalted && !k.stopped) then .next s
    else if !k.stopped && !taskEnded s t k then .next s
    else .next (finishTask (s.setTask t (withLeft s t k)) t)

/-- KILL: the task's tickets and threads are discarded, and it completes with cause 4 (R258, R363). -/
def execKill (t : Nat) (s : State) : Out :=
  match s.task t with
  | none => .next s
  | some k =>
    match k.phase with
    | .running | .saving | .saved => .next (finishWith s t 4)
    | .accepted | .done => .next s

end Sys2Proof.Machine
end

