-- ==== Sys2Proof/Machine/Launch.lean ====
section
/-! DEFINITION. Queues at work: opening, kicks, polls, accepting a packet (R351 to R357, R362, R411, R414). -/

namespace Sys2Proof.Machine

/-! ## Opening, kicks and polls -/

/-- A queue descriptor keeps R351. -/
def queueLegal (d : Vector Word 5) : Bool :=
  let q1 := (vget 0 d 1).toNat
  (vget 0 d 0).toNat % 64 = 0 && q1 / 2 ^ 28 = 0 && q1 / 2 ^ 6 % 4 = 0 && 4 ≤ q1 % 16 && (vget 0 d 3).toNat % 32 = 0

/-- QUEUE_OPEN: Krany opens a queue that is closed (R351, R362). -/
def execQueueOpen (q : Nat) (desc : Vector Word 5) (s : State) : Out :=
  if 4096 ≤ q then .fault .noSuchUnit
  else if s.service.phase ≠ .running || (s.queue q).opened || !queueLegal desc then .next s
  else
    let k := { Queue.fresh with opened := true, desc := desc, tokenSince := s.clock }
    .next (s.setQueue q { k with balance := k.tokens })

/-- A write of a register of a kick page, held while the host link is in recovery (R352, R390). -/
def kickPageWrite (s : State) (q : Nat) (resume : Bool) (v : Word) : State :=
  match s.service.host with
  | .up => if resume then resumeQueue s q v.toNat else kickQueue s q v.toNat
  | .recovery => { s with service := { s.service with heldKicks := s.service.heldKicks ++ [(q, resume, v)] } }
  | .down => s

/-- KICK, R353. -/
def execKick (q : Nat) (v : Word) (s : State) : Out :=
  if 4096 ≤ q then .fault .noSuchUnit else .next (kickPageWrite s q false v)

/-- RESUME, R356. -/
def execResume (q : Nat) (v : Word) (s : State) : Out :=
  if 4096 ≤ q then .fault .noSuchUnit else .next (kickPageWrite s q true v)

/-- QUEUE_POLL: a waiting queue reads its packet again once in every 2,500 cycles; the polls come at multiples of 2,500 cycles, as in R353's worked case (DEDUCED, log entry 6). -/
def execQueuePoll (q : Nat) (s : State) : Out :=
  let k := s.queue q
  if k.state = .waiting && k.pollSince / 2500 < s.clock / 2500 then .next (s.setQueue q { k with state := .fetching }) else .next s

/-- TOKEN_REPLENISH: one more token each 250,000 cycles, up to TOKENS (R362). -/
def execTokenReplenish (q : Nat) (s : State) : Out :=
  let k := s.queue q
  if k.opened && k.tokenSince + 250000 ≤ s.clock then
    .next (s.setQueue q { k with
      balance := if k.balance < k.tokens then k.balance + 1 else k.balance
      tokenSince := k.tokenSince + 250000 })
  else .next s

/-! ## Checks of a packet (R354, R356) -/

/-- The first test that holds: a byte offset in the packet and a cause. -/
def firstError : List (Bool × Nat × Nat) → Option (Nat × Nat)
  | [] => none
  | (bad, e) :: r => if bad then some e else firstError r

/-- The first bad field of a packet. -/
def packetError (p : List Word) : Option (Nat × Nat) :=
  let w : Nat → Nat := fun n => (nth 0 p n).toNat
  let type := w 0 / 2 ^ 16 % 2 ^ 8
  let launch : Bool := type = 1
  firstError [
    (1 < type, 2, 1), (w 0 / 2 ^ 27 ≠ 0, 3, 2),
    (launch && w 1 % 2 ^ 16 ≠ 0, 8, 3), (launch && w 2 % 64 ≠ 0, 16, 3), (launch && w 3 % 8 ≠ 0, 24, 3),
    (launch && (2 ^ 16 < w 4 % 2 ^ 32 || w 4 % 8 ≠ 0), 32, 6), (w 4 / 2 ^ 32 ≠ 0, 36, 2),
    (w 5 % 16 ≠ 0, 40, 3), (w 7 ≠ 0, 56, 2)]

/-- The byte offset that stands for a field of the descriptor. -/
def inDescriptor : Nat := 0xFF

/-! ## Checks of a descriptor (R265, R267, R357) -/

/-- Clusters that the firmware holds for its own tests (R402). -/
def heldClusters (s : State) : Nat := match s.service.table with
  | some t => (vget 0 t 0).toNat / 2 ^ 32
  | none => 0

/-- A core of the firmware or the standby column (R402). -/
def inColumn (s : State) (c : Nat) : Bool :=
  let k := c % 256
  let v := s.service
  (v.column ≤ k && k < v.column + v.width) || (v.standby ≤ k && k < v.standby + v.width)

/-- A reserved bit of a descriptor is set. -/
def descReserved (d : List Word) : Bool :=
  let w : Nat → Nat := fun n => (nth 0 d n).toNat
  w 1 / 2 ^ 40 % 2 ^ 8 ≠ 0 || w 7 / 2 ^ 32 ≠ 0 || w 10 / 2 ^ 6 ≠ 0 || w 21 / 2 ^ 40 ≠ 0 || w 22 / 4 ≠ 0

/-- A field of a descriptor is out of range. -/
def descRange (s : State) (d : List Word) : Bool :=
  let w : Nat → Nat := fun n => (nth 0 d n).toNat
  let clusters := w 1 % 2 ^ 32
  let groups := [w 2 % 2 ^ 32, w 2 / 2 ^ 32, w 3 % 2 ^ 32, w 3 / 2 ^ 32]
  clusters &&& heldClusters s ≠ 0 || groups.any (fun g => g &&& clusters ≠ g) || w 7 % 16 ≠ 0 ||
  ((nth 0 d 10).getLsbD 5 && !clusters.testBit (w 10 % 2 ^ 5)) ||
  (List.range 8).any fun b => (List.range 32).any fun k => w (11 + b) / 2 ^ (2 * k) % 4 = 3

/-- The core table by cluster: the mask, and the reserved slots of each core. -/
def coreTable (clusters : List Nat) (ws : List Word) : List (Nat × Word × List Nat) :=
  clusters.zipIdx.map fun p =>
    (p.1, nth 0 ws (9 * p.2), (List.range 64).map fun k => byteAt (nth 0 ws (9 * p.2 + 1 + k / 8)).toNat (k % 8))

/-- The declared cores of a row of the table, ascending. -/
def rowCores (r : Nat × Word × List Nat) : List Nat :=
  ((List.range 64).filter fun k => r.2.1.getLsbD k).map fun k => 64 * r.1 + k

/-- Persistent threads of T that core i of C takes. -/
def threadsOn (t c i : Nat) : Nat := if c = 0 then 0 else (t + c - 1 - i) / c

/-- A row of the core table that the module or the threads asked for do not allow. -/
def badRow (s : State) (t : Nat) (honoured : Bool) (r : Nat × Word × List Nat) : Bool :=
  let cores := rowCores r
  r.2.2.any (fun n => 16 < n) || cores.any (inColumn s) || (cores.isEmpty && t ≠ 0) ||
  cores.zipIdx.any fun p => 16 < threadsOn t cores.length p.2 + (if honoured then nth 0 r.2.2 (p.1 % 64) else 0)

/-! ## The image header (R411) -/

/-- A section: kind, offset, size and link address. -/
abbrev Section := Nat × Word × Word × Word

/-- The section that a table entry describes, if it is one. -/
def sectionOf (len : Nat) (e : List Word) : Option Section :=
  let kind := (nth 0 e 0).toNat / 2 ^ 56
  let off := (nth 0 e 1).toNat
  let size := (nth 0 e 2).toNat
  let va := (nth 0 e 3).toNat
  let loaded : Bool := kind ≤ 6
  if (nth 0 e 0).toNat % 2 ^ 56 ≠ 0 || kind = 0 || 10 < kind || off % (if loaded then 2 ^ 16 else 64) ≠ 0 ||
      (if loaded then va % 2 ^ 16 ≠ 0 else va ≠ 0) || len < off + size then none
  else some (kind, nth 0 e 1, nth 0 e 2, nth 0 e 3)

def findSection (k : Nat) (ss : List Section) : Option Section := ss.find? fun x => x.1 = k

/-- The variants of a `.vars` section. -/
def variantCount (x : Section) : Nat := x.2.2.1.toNat / 576

/-- The sections of an image, or nothing where R411 calls it invalid. -/
def imageSections (h table : List Word) : Option (List Section) :=
  let b0 := (nth 0 h 0).toNat
  let n := b0 / 2 ^ 8 % 2 ^ 8
  if b0 / 2 ^ 16 ≠ 0x425254310001 || b0 % 2 ^ 8 ≠ 0 || n = 0 || 10 < n || !(h.drop 3).all (fun w => w = 0) then none
  else match (List.range n).mapM fun k => sectionOf (nth 0 h 2).toNat ((table.drop (4 * k)).take 4) with
    | none => none
    | some ss =>
      match findSection 8 ss with
      | none => none
      | some v => if distinctNats (ss.map fun x => x.1) && 1 ≤ variantCount v && variantCount v ≤ 255 then some ss else none

/-- LEN and the sections of an image, as read through a root. -/
def readSections (s : State) (root : Nat) (image : Word) : Except AddrFault (Option (Nat × List Section)) :=
  match rootWords s root image 8 with
  | .error f => .error f
  | .ok h =>
    let n := (nth 0 h 0).toNat / 2 ^ 8 % 2 ^ 8
    if 10 < n then .ok none
    else match rootWords s root (image + 64) (4 * n) with
      | .error f => .error f
      | .ok t => .ok ((imageSections h t).map fun ss => ((nth 0 h 2).toNat, ss))

/-- Whether a `.ports` entry names a slot past ARGSZ; its reserved bits are ignored, and a SIZE of no whole number of entries counts the whole ones (DESIGN CHOICE, log entry 15). -/
def portsPast (s : State) (root : Nat) (image : Word) (argsz : Nat) (ss : List Section) : Except AddrFault Bool :=
  match findSection 7 ss with
  | none => .ok false
  | some x =>
    match rootWords s root (image + x.2.1) (x.2.2.1.toNat / 8) with
    | .error f => .error f
    | .ok ws => .ok (ws.any fun w => argsz < 8 * (w.toNat % 2 ^ 8) + 8)

/-! ## Accepting a packet (R355) -/

/-- What is kept of a packet at its acceptance. -/
def acceptedTask (s : State) (q : Nat) (p d : List Word) (cores : List (Nat × Word × List Nat)) (image : Option (List Section)) (len : Nat := 0) : Task where
  queue := q
  index := (s.queue q).rd
  packet := Vector.ofFn fun k => nth 0 p k.val
  desc := Vector.ofFn fun k => nth 0 d k.val
  cores := cores
  image := image
  imageLen := len
  reserved := []
  noop := (nth 0 p 0).toNat / 2 ^ 16 % 2 ^ 8 = 0
  phase := .accepted
  cause := 0
  left := false
  discarded := false
  streamsLeft := false
  variant := none
  acceptedAt := s.clock
  savedAt := 0
  waitPage := none
  pageLost := false
  estimate := (nth 0 d 21).toNat % 2 ^ 32
  estimateAt := s.clock
  trig := false
  action := .none
  decidedAt := none
  limit := 0
  finalDrain := false
  spent := false
  debugHalted := false
  stepping := none
  stopped := false
  frozenAt := 0
  frozenEst := 0
  relaunched := false
  heldSince := none
  preempter := none
  finalFor := []

/-- A read of a launch that cannot be made: it waits, or is error 3 at a byte offset (R356, R390). -/
def readError (off : Nat) : AddrFault → Option (Nat × Nat)
  | .waits => none
  | .misaligned | .page | .protection | .poisoned => some (off, 3)

/-- The task of a launch packet, or the byte offset and cause of its first error; no error where a read waits. -/
def readLaunch (s : State) (q : Nat) (p : List Word) : Except (Option (Nat × Nat)) Task :=
  let k := s.queue q
  let image := nth 0 p 1
  match rootWords s k.root (nth 0 p 2) 24 with
  | .error f => .error (readError 16 f)
  | .ok d =>
    let clusters := clustersOf ((nth 0 d 1).toNat % 2 ^ 32)
    if descReserved d then .error (some (inDescriptor, 2))
    else if descRange s d then .error (some (inDescriptor, 4))
    else if (nth 0 d 4).toNat % 8 ≠ 0 then .error (some (inDescriptor, 3))
    else match rootWords s k.root (nth 0 d 4) (9 * clusters.length) with
      | .error f => .error (readError inDescriptor f)
      | .ok ws =>
        let cores := coreTable clusters ws
        if cores.any (badRow s ((nth 0 d 1).toNat / 2 ^ 48) (k.class_ = 0)) then .error (some (inDescriptor, 4))
        else match readSections s k.root image with
          | .error f => .error (readError 8 f)
          | .ok none => .ok (acceptedTask s q p d cores none)
          | .ok (some (len, ss)) => match portsPast s k.root image ((nth 0 p 4).toNat % 2 ^ 32) ss with
            | .error f => .error (readError 8 f)
            | .ok true => .error (some (32, 6))
            | .ok false => .ok (acceptedTask s q p d cores (some ss) len)

/-- The working set of a task brought into the mere, through the root of its queue; nothing is raised for its range (R151, R351, R358). -/
def prefetchSet (s : State) (t : Task) : State :=
  let base := (t.word 19).toNat
  let len := (t.word 20).toNat
  if len = 0 then s
  else (List.range ((base + len - 1) / 64 + 1 - base / 64)).foldl (fun (s : State) k =>
    let va := 64 * (base / 64 + k)
    if 2 ^ 64 ≤ va || !canonical (BitVec.ofNat 64 va) || inWindowRange va then s
    else match walk s (va % 2 ^ 57) 5 (s.queue t.queue).root with
      | .ok (pa, e) => if Pte.permits e .read && dykeAllowsTask s pa .read && (pa < 2 ^ 47 || s.service.host = .up) then s.fetchMere (pa / 64) else s
      | .error _ => s) s

/-- A packet accepted: RD advances and is mirrored. -/
def acceptPacket (s : State) (q : Nat) (t : Task) : State :=
  let n := s.nextTask
  let k := s.queue q
  let s := { s.setTask n t with nextTask := n + 1 }
  let s := s.setQueue q { k with
    rd := k.rd + 1
    pending := some n
    state := if k.rd + 1 = k.wmax then .idle else .fetching }
  let s := if k.rdaddr = 0 then s else rootWrite s k.root k.rdaddr [BitVec.ofNat 64 (k.rd + 1)]
  prefetchSet s t

/-- PACKET_FETCH: the packet at RD is read, checked and accepted; at most one launch waits (R353, R355, R356). In recovery mode no queue is served (R405, R410). -/
def execPacketFetch (q : Nat) (s : State) : Out :=
  let k := s.queue q
  if s.service.phase ≠ .running || !k.opened || k.state ≠ .fetching || k.pending.isSome || k.wmax ≤ k.rd then .next s
  else match rootWords s k.root (k.slot k.rd) 8 with
    | .error .waits => .next s
    | .error _ => .next (queueError s q 3 none none)
    | .ok p =>
      let head := nth 0 p 0
      if head.toNat % 2 ^ 16 ≠ k.rd % 2 ^ 16 then .next (s.setQueue q { k with state := .waiting, pollSince := s.clock })
      else match packetError p with
        | some (off, cause) => .next (queueError s q cause (some off) (some head))
        | none =>
          if head.toNat / 2 ^ 16 % 2 ^ 8 = 0 then .next (acceptPacket s q (acceptedTask s q p [] [] none))
          else match readLaunch s q p with
            | .error none => .next s
            | .error (some (off, cause)) => .next (queueError s q cause (some off) (some head))
            | .ok t => .next (acceptPacket s q t)

/-! ## Barriers and no-ops (R354) -/

/-- BARRIER and EARLY let a packet go on. -/
def barrierOpen (s : State) (t : Task) : Bool :=
  let mine : Nat × Task → Bool := fun p => p.2.queue = t.queue
  if !t.flag 24 then true
  else if t.flag 25 then s.tasks.all fun p => !(mine p && p.2.index + 1 = t.index) || p.2.trig || p.2.phase = .done
  else s.tasks.all fun p => !(mine p && p.2.index < t.index) || p.2.phase = .done

/-- The launch or no-op that a queue holds; one that is launched again comes first (R279). -/
def pendingTask (s : State) (q : Nat) : Option (Nat × Task) :=
  match s.tasks.find? fun p => p.2.queue = q && p.2.relaunched && p.2.phase = .accepted with
  | some p => some p
  | none => (s.queue q).pending.bind fun n => (s.task n).map fun t => (n, t)

/-- NOOP_COMPLETE: a no-op packet completes as soon as its barrier allows. -/
def execNoopComplete (q : Nat) (s : State) : Out :=
  match pendingTask s q with
  | none => .next s
  | some (n, t) => if t.noop && barrierOpen s t then .next (finishTask s n) else .next s

end Sys2Proof.Machine
end

