-- ==== Sys2Proof/Machine/Start.lean ====
section
/-! DEFINITION. Placement and the start of a task (R267, R311, R358, R360, R361, R412, R413, R415). -/

namespace Sys2Proof.Machine

/-! ## Placement (R361) -/

def overlaps (a b : Task) : Bool := a.clusterMask &&& b.clusterMask ≠ 0

/-- The core that stands for a number of a task: as its save has it, or on its units (R279). -/
def standingCore (s : State) (n : Nat) (t : Task) (c : Nat) : Nat :=
  match tfind n s.saves with
  | some p => (tget Core.fresh c p.cores).physical.getD c
  | none => if t.holds then s.physicalCore c else c

/-- The units that a task declares, by the bit numbers of R360. -/
def declaredUnits (s : State) (n : Nat) (t : Task) : List Nat :=
  let cls := clustersOf t.clusterMask
  cls ++ t.blocks.map (32 + ·) ++
    (t.cores.flatMap rowCores).map fun c => 288 + standingCore s n t c

def unitsFree (s : State) (n : Nat) (t : Task) : Bool :=
  s.tasks.all fun p => p.1 = n || !(p.2.holds && overlaps p.2 t)

/-- Every declared unit is enabled, and none is on its way to being retired. -/
def unitsReady (s : State) (n : Nat) (t : Task) : Bool :=
  (declaredUnits s n t).all fun u => !s.service.retired.contains u && !s.service.draining.contains u

/-- A waiting task could start, as far as its barrier and units go. -/
def fits (s : State) (n : Nat) (t : Task) : Bool :=
  t.waits && (t.phase = .saved || barrierOpen s t) && unitsFree s n t && unitsReady s n t

def classOf (s : State) (t : Task) : Nat := (s.queue t.queue).class_

/-- The order in which the scheduler considers the waiting tasks: by class, then the saved ones by their save, then the accepted ones by their acceptance. -/
def before (s : State) (x y : Nat × Task) : Bool :=
  let key : Nat × Task → Nat × Nat × Nat := fun p =>
    if p.2.phase = .saved then (0, p.2.savedAt, p.1) else (1, p.2.acceptedAt, p.1)
  let (a, b, c) := key x
  let (a', b', c') := key y
  classOf s x.2 < classOf s y.2 ||
    (classOf s x.2 = classOf s y.2 && (a < a' || (a = a' && (b < b' || (b = b' && c < c')))))

/-- A waiting task starts now: it fits, waits behind no earlier one of its class, and gives way to an earlier one that fits too. -/
def mayStart (s : State) (n : Nat) (t : Task) : Bool :=
  fits s n t && s.tasks.all fun p =>
    !(p.2.waits && p.1 ≠ n && overlaps p.2 t && before s p (n, t) &&
      (classOf s p.2 = classOf s t || fits s p.1 p.2))

/-! ## Variants (R360, R415) -/

/-- A variant: signature, offset and length of its `.cfg`, and its bitmap in words. -/
structure Variant where
  sig : Word
  cfgOff : Word
  cfgSize : Word
  bitmap : List Word
deriving DecidableEq, Repr

def Variant.needs (v : Variant) (u : Nat) : Bool := (nth 0 v.bitmap (u / 64)).getLsbD (u % 64)

/-- Units of the bitmap: clusters, blocks, cores and slices. -/
def numUnits : Nat := 2592

/-- The bitmap is a subset of the enabled units. -/
def Variant.enabled (v : Variant) (s : State) : Bool :=
  (List.range 4096).all fun u => !v.needs u || (u < numUnits && !s.service.retired.contains u)

/-- The variants in a `.vars` section, read through the queue's root; a `.vars` of no whole number of entries counts the whole ones (DESIGN CHOICE, log entry 52), and the reserved words v3 to v7 are ignored (DESIGN CHOICE, log entry 15). -/
def readVariants (s : State) (root : Nat) (image : Word) (ss : List Section) : Except AddrFault (List Variant) :=
  match findSection 8 ss with
  | none => .error .protection
  | some x =>
    (List.range (variantCount x)).mapM fun k =>
      (rootWords s root (image + x.2.1 + BitVec.ofNat 64 (576 * k)) 72).map fun ws => ⟨nth 0 ws 0, nth 0 ws 1, nth 0 ws 2, ws.drop 8⟩

/-- The slots that an entry of a context table names, a region and slot to a number: of LEAD and of the other regions of STITCH (R413). -/
def slotsNamed (c1 : Word) : List Nat :=
  let v := c1.toNat
  let lead := v / 2 ^ 8 % 2 ^ 5
  (lead :: (clustersOf (v / 2 ^ 16 % 2 ^ 32)).filter fun c => c ≠ lead).map fun c => 8 * c + v % 8

/-- The context table of a variant names no slot of a region twice, as far as QROOT lets the front end read it; a read that waits for a link holds the launch back (R390, R413). -/
def tableDistinct (s : State) (root : Nat) (cfg : Word) : Except AddrFault Bool :=
  match rootWords s root cfg 1 with
  | .error .waits => .error .waits
  | .error _ => .ok true
  | .ok h =>
    let k := min 256 ((nth 0 h 0).toNat % 2 ^ 16)
    match rootWords s root (cfg + 64) (2 * k) with
    | .error .waits => .error .waits
    | .error _ => .ok true
    | .ok ws => .ok (distinctNats ((List.range k).flatMap fun i => slotsNamed (nth 0 ws (2 * i + 1))))

/-- The cause of a launch whose image cannot be read: uncorrectable data is cause 6, and anything else makes the image invalid (R359, R409). -/
def unreadCause : AddrFault → Nat
  | .poisoned => 6
  | .misaligned | .page | .protection | .waits => 3

/-- Every variant's context table names no slot of a region twice. -/
def tablesDistinct (s : State) (root : Nat) (image : Word) (ss : List Section) (vs : List Variant) : Except AddrFault Bool :=
  if (findSection 6 ss).isNone then .ok true
  else ((vs.filter fun v => v.cfgSize ≠ 0).mapM fun v => tableDistinct s root (image + v.cfgOff)).map fun l => l.all id

/-- The variants of a launch's image; an image is invalid where the `.cfg` of a variant lies past LEN (R411) or its context table names one slot of a region twice (R413), and so is what cannot be read. -/
def imageVariants (s : State) (t : Task) : Except AddrFault (List Variant) :=
  match t.image with
  | none => .error .protection
  | some ss => match readVariants s (s.queue t.queue).root (vget 0 t.packet 1) ss with
    | .error f => .error f
    | .ok vs =>
      if vs.any (fun v => t.imageLen < v.cfgOff.toNat + v.cfgSize.toNat) then .error .protection
      else match tablesDistinct s (s.queue t.queue).root (vget 0 t.packet 1) ss vs with
        | .error f => .error f
        | .ok good => if good then .ok vs else .error .protection

/-- The variant that R360 chooses; a launch made again looks only at the units that are enabled (R279, R408). -/
def chooseVariant (s : State) (t : Task) (vs : List Variant) : Option (Nat × Variant) :=
  let all := vs.zipIdx.map fun p => (p.2, p.1)
  match all.find? fun p => !t.relaunched && p.2.sig = s.service.signature with
  | some p => some p
  | none => all.find? fun p => p.2.enabled s

/-! ## Sections (R412) -/

def permRead : Word := 0x9#64
def permReadExec : Word := 0x29#64
def permReadWrite : Word := 0x19#64
/-- XS, COH and SD of a page. -/
def pageAttributes : Word := 0x3800000000000000#64

/-- 4 KiB pages of a section's 64 KiB pages. -/
def sectionPages (size : Word) : Nat := (size.toNat + 0xFFFF) / 0x10000 * 16

/-- Pages of a task set from a virtual page on, to leaf entries; where sections overlap, the later one in the section table stands (DESIGN CHOICE, log entry 15). -/
def mapPages (s : State) (n page : Nat) (ptes : List Word) : State :=
  let last := page + ptes.length
  { s with maps := (ptes.zipIdx.map fun p => (n, page + p.2, p.1)) ++
      s.maps.filter fun m => !(m.1 = n && page ≤ m.2.1 && m.2.1 < last) }

def pageOf (va : Word) : Nat := va.toNat % 2 ^ 57 / 4096

/-- Leaf entries over the image's own frames, which QROOT must let the front end read (DESIGN CHOICE, log entry 15), from the page of the section's first byte on: a CFGOFF that is no multiple of 64 KiB counts from its 4 KiB page (DESIGN CHOICE, log entry 15). -/
def imagePtes (s : State) (root : Nat) (src : Word) (perm : Word) (k : Nat) : Except AddrFault (List Word) :=
  (List.range k).mapM fun i =>
    match walk s ((src.toNat + 4096 * i) % 2 ^ 57) 5 root with
    | .error f => .error f
    | .ok x => if Pte.permits x.2 .read then .ok (BitVec.ofNat 64 (x.1 / 4096 * 4096) ||| perm ||| (x.2 &&& pageAttributes)) else .error .protection

/-- Consecutive frames as leaf entries; COH, SD and XS are 0 (DESIGN CHOICE, log entry 15). -/
def framePtes (frame : Nat) (perm : Word) (k : Nat) : List Word :=
  (List.range k).map fun i => BitVec.ofNat 64 (4096 * (frame + i)) ||| perm

/-- Frames that Krany may take: enabled, of HBM, and mapped nowhere beside the tables. -/
def framesFresh (s : State) (frame k : Nat) : Bool :=
  frame + k ≤ 2 ^ 30 && ((List.range k).all fun i => frameEnabled s.closedUnits (frame + i)) &&
  s.maps.all fun m => let f := Pte.frame m.2.2 / 4096; f < frame || frame + k ≤ f

/-- The bytes of page `i` of a section as the front end reads them (R394, R403), zeros past its length. -/
def sectionPage (s : State) (root : Nat) (src : Word) (size i : Nat) : Except AddrFault (List Byte) :=
  if size ≤ 4096 * i then .ok (List.replicate 4096 0)
  else match rootPlace s root (src + BitVec.ofNat 64 (4096 * i)) .read with
    | .error f => .error f
    | .ok (pa, shared) => match (List.range 512).mapM fun k => frontRead s (pa + 8 * k) shared with
      | .error f => .error f
      | .ok ws =>
        let n := min 4096 (size - 4096 * i)
        .ok ((ws.flatMap fun w => bytesOf 8 w.toNat).take n ++ List.replicate (4096 - n) 0)

/-- A fresh frame filled with a page of a section. -/
def copyPage (root : Nat) (src : Word) (size frame i : Nat) (s : State) : Except AddrFault State :=
  (sectionPage s root src size i).map fun bs => (flushFrame s frame).setBytes (4096 * frame) bs

/-- One section made visible, or why the image cannot be read. -/
def mapSection (s : State) (n root : Nat) (image : Word) (v : Variant) (dataFrame : Nat) (x : Section) : Except AddrFault State :=
  let (kind, off, size, va) := x
  let own := fun (src : Word) (size perm : Word) =>
    (imagePtes s root src perm (sectionPages size)).map fun ptes => mapPages s n (pageOf va) ptes
  match kind with
  | 1 | 2 | 3 => own (image + off) size permReadExec
  | 4 => own (image + off) size permRead
  | 6 => own (image + v.cfgOff) v.cfgSize permRead
  | 5 =>
    let k := sectionPages size
    ((List.range k).foldlM (fun (s : State) i => copyPage root (image + off) size.toNat (dataFrame + i) i s) s).map fun s =>
      mapPages s n (pageOf va) (framePtes dataFrame permReadWrite k)
  | _ => .ok s

def mapSections (s : State) (n root : Nat) (image : Word) (v : Variant) (dataFrame : Nat) : List Section → Except AddrFault State
  | [] => .ok s
  | x :: r => match mapSection s n root image v dataFrame x with
    | .ok s => mapSections s n root image v dataFrame r
    | .error f => .error f

/-! ## Blocks, cores and regions of a new task (R64, R271, R311, R358) -/

/-- The mode of bank k of a block that a descriptor gives. -/
def descMode (t : Task) (b k : Nat) : BankMode :=
  match (t.word (11 + b)).toNat / 2 ^ (2 * k) % 4 with
  | 1 => .cacheWay
  | 2 => .fifo
  | _ => .scratch

/-- A block given to a task: its accumulators and banks are clear, and its banks take their modes. -/
def giveBlock (n : Nat) (t : Task) (s : State) (blk : Nat) : State :=
  let lo := scratchBase + blk * 0x400000
  let s := { s with mem := s.mem.filter fun c => !(lo ≤ c.1 && c.1 < lo + 0x400000) }
  s.setBlock blk { Block.fresh with
    banks := Vector.ofFn fun k => { Bank.fresh with mode := descMode t (blk % 8) k.val }
    owner := some n }

/-- The overflow queue of the i-th declared core: 256 frames, mapped readable. -/
def giveQueue (n queueFrame : Nat) (queueVa : Word) (s : State) (p : Nat × Nat) : State :=
  let va := queueVa + BitVec.ofNat 64 (0x100000 * p.2)
  let s := mapPages s n (pageOf va) (framePtes (queueFrame + 256 * p.2) permRead 256)
  s.setCore p.1 { s.core p.1 with clovf := va }

/-- The slots of a core that the task's class reserves: the highest ones (log entry 13). -/
def reservedMask (t : Task) (honoured : Bool) (c : Nat) : Nat :=
  if honoured then
    let r := t.reservedSlots c
    (2 ^ r - 1) * 2 ^ (16 - r)
  else 0

/-- A region sequencer of the task; SEQENT runs on one of them, with `s14` = ARGS. -/
def seqHart (n : Nat) (t : Task) (cl : Nat) : Hart :=
  let h := { Hart.fresh with task := some n, status := .halted }
  let v := (t.word 10).toNat
  if v / 2 ^ 5 % 2 = 1 && v % 2 ^ 5 = cl && t.word 9 ≠ 0 then
    { h with status := .ready, pc := evenPc (t.word 9), x := h.x.set 14 t.args }
  else h

/-- Persistent thread j of the m-th declared cluster (R267). -/
def threadHart (n : Nat) (t : Task) (m j : Nat) : Hart :=
  let total := t.threadsPerSegment
  let ssize := (t.word 7).toNat % 2 ^ 32
  let h := { Hart.fresh with
    status := .ready
    origin := .persistent j
    task := some n
    pc := evenPc (t.word 5)
    tvec := t.tvec }
  h.setRegs [(3, BitVec.ofNat 64 j), (4, BitVec.ofNat 64 total), (30, t.args),
    (2, t.word 6 + BitVec.ofNat 64 ((m * total + j + 1) * ssize))]

/-- The threads of a declared cluster: thread j on core j mod C, in its lowest free slot, spaced after whatever issued there last (R263). -/
def startThreads (n : Nat) (t : Task) (s : State) (p : (Nat × Word × List Nat) × Nat) : State :=
  let cores := rowCores p.1
  let c := cores.length
  (List.range t.threadsPerSegment).foldl (fun (s : State) j =>
    let a := AgentId.thread (nth 0 cores (j % c)) (j / c)
    s.setHart a { threadHart n t p.2 j with lastIssue := (s.hart a).lastIssue }) s

/-! ## The context table (R413) -/

/-- Words that the front end reads through a task's own tables, with the checks of its other reads, those of Dyke among them (R403). -/
def taskWords (s : State) (n root : Nat) (va : Word) : Nat → Except (Word × AddrFault) (List Word)
  | 0 => .ok []
  | k + 1 =>
    match frontPlace s va .read (translate s n root va.toNat) with
    | .error f => .error (va, f)
    | .ok (pa, shared) => match frontRead s pa shared with
      | .error f => .error (va, f)
      | .ok w => match taskWords s n root (va + 8) k with
        | .error f => .error f
        | .ok r => .ok (w :: r)

/-- An entry of the table: offset of the image, lead, group and slot; nothing where it is malformed, which the model takes for an invalid image (DESIGN CHOICE, log entry 15). -/
def contextEntry (t : Task) (c0 c1 : Word) : Option (Word × Nat × List Nat × Nat) :=
  let v := c1.toNat
  let lead := v / 2 ^ 8 % 2 ^ 5
  let others := clustersOf (v / 2 ^ 16 % 2 ^ 32)
  if v / 2 ^ 48 ≠ 0 || v / 2 ^ 13 % 8 ≠ 0 || v / 2 ^ 3 % 2 ^ 5 ≠ 0 || c0.toNat % 64 ≠ 0 || !t.hasCluster lead ||
      others.any (fun c => c = lead || c / 4 ≠ lead / 4 || !t.hasCluster c) then none
  else some (c0, lead, lead :: others, v % 8)

/-- No two entries name one slot of one region. -/
def entriesDistinct (es : List (Word × Nat × List Nat × Nat)) : Bool :=
  distinctNats (es.flatMap fun e => e.2.2.1.map fun c => 8 * c + e.2.2.2)

/-- How a start goes on. -/
inductive StartOut where
  | waits (va : Word)
  /-- A read waits for a link: the start is tried again. -/
  | later
  | refused (cause : Nat)
  | started (s : State)
deriving DecidableEq, Repr

/-- Contexts loaded into their slots, their arguments read through the queue's root. -/
def loadContexts (s : State) (root : Nat) (cfg : Word) : List (Word × Nat × List Nat × Nat) → StartOut
  | [] => .started s
  | (off, lead, group, slot) :: r =>
    match loadInto s lead group (cfg + off) slot (some root) with
    | .loaded s => loadContexts s root cfg r
    | .failed _ _ => .refused 3
    | .fault va .page => .waits va
    | .fault _ .waits => .later
    | .fault _ f => .refused (unreadCause f)

/-- The contexts of the chosen variant's table. -/
def startContexts (s : State) (n : Nat) (t : Task) (ss : List Section) (v : Variant) : StartOut :=
  match findSection 6 ss with
  | none => .started s
  | some x =>
    if v.cfgSize = 0 then .started s
    else
      let cfg := x.2.2.2
      match taskWords s n t.root cfg 1 with
      | .error (va, .page) => .waits va
      | .error (_, .waits) => .later
      | .error (_, f) => .refused (unreadCause f)
      | .ok h =>
        let k := (nth 0 h 0).toNat
        if 256 < k then .refused 3
        else match taskWords s n t.root (cfg + 64) (2 * k) with
          | .error (va, .page) => .waits va
          | .error (_, .waits) => .later
          | .error (_, f) => .refused (unreadCause f)
          | .ok ws =>
            match (List.range k).mapM fun i => contextEntry t (nth 0 ws (2 * i)) (nth 0 ws (2 * i + 1)) with
            | none => .refused 3
            | some es => if entriesDistinct es then loadContexts s (s.queue t.queue).root cfg es else .refused 3

/-! ## TASK_START -/

/-- Steps 2 to 7 of R358 with the chosen variant and the frames that Krany gives.
A page of a section that QROOT does not map or let be read ends the launch with cause 3 (DESIGN CHOICE, log entry 15). -/
def startSteps (s : State) (n : Nat) (t : Task) (ss : List Section) (k : Nat) (v : Variant) (dataFrame queueFrame : Nat) (queueVa : Word) : StartOut :=
  let root := (s.queue t.queue).root
  let honoured : Bool := classOf s t = 0
  let cores := t.cores.flatMap rowCores
  let s := vacate s n t
  match mapSections s n root (vget 0 t.packet 1) v dataFrame ss with
  | .error .waits => .later
  | .error f => .refused (unreadCause f)
  | .ok s =>
    let t := { t with
      phase := .running
      variant := some k
      estimate := (t.word 21).toNat % 2 ^ 32
      estimateAt := s.clock
      reserved := cores.map fun c => (c, reservedMask t honoured c) }
    let s := s.setTask n t
    let cls := clustersOf t.clusterMask
    let s := cls.foldl (fun (s : State) cl =>
      (t.blocksIn cl).foldl (giveBlock n t) s) s
    let s := cores.zipIdx.foldl (giveQueue n queueFrame queueVa) s
    let s := cls.foldl (fun (s : State) cl => s.setHart (.region cl) { seqHart n t cl with lastIssue := (s.hart (.region cl)).lastIssue }) s
    match startContexts s n t ss v with
    | .started s => .started (t.cores.zipIdx.foldl (startThreads n t) s)
    | out => out

/-- The frames and addresses that Krany chose for the fresh pages and the overflow queues are ones it may take. -/
def framesGood (s : State) (t : Task) (ss : List Section) (dataFrame queueFrame : Nat) (queueVa : Word) : Bool :=
  let d := match findSection 5 ss with
    | some x => sectionPages x.2.2.1
    | none => 0
  let q := 256 * (t.cores.flatMap rowCores).length
  let top := queueVa.toNat + 4096 * q
  framesFresh s dataFrame d && framesFresh s queueFrame q && (dataFrame + d ≤ queueFrame || queueFrame + q ≤ dataFrame) &&
  queueVa.toNat % 4096 = 0 && top ≤ 2 ^ 56

/-- The start of a launch whose turn has come. -/
def startLaunch (s : State) (n : Nat) (t : Task) (dataFrame queueFrame : Nat) (queueVa : Word) : State :=
  let refuse := fun (s : State) (cause : Nat) => finishWith s n cause
  match t.image with
  | none => refuse s 3
  | some ss =>
    match imageVariants s t with
    | .error .waits => s
    | .error f => refuse s (unreadCause f)
    | .ok vs => match chooseVariant s t vs with
      | none => refuse s 1
      | some (k, v) =>
        if (List.range numUnits).any fun u => v.needs u && s.service.draining.contains u then s
        else if !framesGood s t ss dataFrame queueFrame queueVa then s
        else match startSteps s n t ss k v dataFrame queueFrame queueVa with
          | .waits va => s.setTask n { t with waitPage := some va }
          | .later => s
          | .refused cause => refuse (s.setTask n { t with variant := some k }) cause
          | .started s => clearPending s t.queue n

/-- The cause of a launch that declares a retired unit: an invalid image and a module without a variant come first (R359, R360; log entry 15); nothing while a read of the image waits (R390). -/
def retiredCause (s : State) (t : Task) : Option Nat :=
  match imageVariants s t with
  | .error .waits => none
  | .error f => some (unreadCause f)
  | .ok vs => some (if (chooseVariant s t vs).isSome then 2 else 1)

/-- TASK_START: the launch that a queue holds starts once its barrier and units allow, or is refused (R358 to R361). -/
def execTaskStart (q dataFrame queueFrame : Nat) (queueVa : Word) (s : State) : Out :=
  match pendingTask s q with
  | none => .next s
  | some (n, t) =>
    if s.service.phase ≠ .running || t.noop || !barrierOpen s t || t.waitPage.isSome then .next s
    else if t.pageLost then .next (finishWith s n 3)
    else if (declaredUnits s n t).any s.service.retired.contains then
      match retiredCause s t with
      | some cause => .next (finishWith s n cause)
      | none => .next s
    else if !mayStart s n t then .next s
    else .next (startLaunch s n t dataFrame queueFrame queueVa)

end Sys2Proof.Machine
end

