-- ==== Sys2Proof/Machine/Sched.lean ====
section
/-! DEFINITION. Pre-emption: the decision of R363, its cost (R364) and the drain limit. -/

namespace Sys2Proof.Machine

/-! ## The save cost (R364) -/

/-- Bytes that a save of the task writes in a declared cluster; what is saved as held counts 64 bytes for each item, and the entries that lie in a core's local memory are counted with it (R266, R271; log entry 12). -/
def saveBytes (s : State) (n : Nat) (t : Task) (cl : Nat) : Nat :=
  let sum : List Nat → Nat := fun l => l.foldl (· + ·) 0
  let blocks := (t.blocksIn cl).map fun b =>
    let k := s.block b
    let banks := k.banks.toList.map fun x => match x.mode with
      | .scratch => 131072
      | .fifo => 64 * x.entries.length
      | .cacheWay => 0
    262144 + sum banks + 64 * (k.queue.length + (k.slots.toList.filter fun d => d.cmd.isSome).length)
  let cores := ((t.cores.filter fun r => r.1 = cl).flatMap rowCores).map fun c =>
    let k := ((List.range 16).filter fun sl => (s.hart (.thread c sl)).task = some n).length
    let x := s.core c
    (if k = 0 then 64 * (x.ring.length + x.inbox.length + x.chain.length) else 65536 + 4096 * k) + 64 * x.waitingPushes.length
  let weirs := ((List.range 64).filter fun w => (s.weir (weirNo cl w)).state ≠ .idle).length
  let copies := (s.engines.filter fun p => t.hasEngine p.1 && (if p.1 < 256 then p.1 / 8 else p.1 - 256) = cl).map fun p =>
    (p.2.queue ++ p.2.running).length
  let entries := (s.tracks.filter fun p => p.1.1 = n).map fun p =>
    (p.2.entries.filter fun e => coreCluster e.prodCore = cl).length
  let g := s.segment cl
  let escapes := g.parked.length + g.escapes.length + g.reserved.length
  let stages := (s.region cl).stages.map fun g => g.input.length + g.output.length + sum (g.exits.toList.map List.length)
  327680 + sum blocks + sum cores + 64 * (weirs + sum copies + sum entries + escapes + sum stages)

/-- S in µs, for the declared cluster with the largest count. -/
def saveCost (s : State) (n : Nat) (t : Task) : Nat :=
  let most := (clustersOf t.clusterMask).foldl (fun m cl => max m (saveBytes s n t cl)) 0
  2 + (most + 99999) / 100000

/-! ## The decision (R363) -/

def cyclesPerMicro : Nat := 2500

/-- E in µs: the estimate less the time since it was set. -/
def remaining (s : State) (t : Task) : Nat := t.estimate - (s.clock - t.estimateAt) / cyclesPerMicro

def Task.checkpointable (t : Task) : Bool := (t.word 22).getLsbD 1
def Task.restartable (t : Task) : Bool := (t.word 22).getLsbD 0
def Task.ptok (t : Task) : Nat := (t.word 21).toNat / 2 ^ 32 % 2 ^ 8

/-- The first row of the table that matches, for a limit in µs; `late` leaves row 1 out. -/
def chooseAction (s : State) (n : Nat) (t : Task) (limit : Nat) (late : Bool) : Action :=
  if !late && !t.debugHalted && remaining s t ≤ limit then .drain
  else if t.checkpointable && saveCost s n t ≤ limit then .checkpoint
  else if t.restartable then .kill
  else if t.checkpointable then .checkpoint
  else .drain

/-- A decision on a running task for a newcomer, written to its record; a final drain was that of an earlier pre-emption (R368). -/
def decideTask (s : State) (n : Nat) (t : Task) (newcomer : Option Nat) (limit : Nat) (late : Bool) : State :=
  let a := chooseAction s n t limit late
  (s.setTask n { t with
    action := a
    decidedAt := some s.clock
    limit := limit * cyclesPerMicro
    finalDrain := false
    preempter := newcomer }).report (.scheduled n a)

/-- L in µs for the class of the newcomer. -/
def limitOf (cls : Nat) : Nat := if cls = 0 then 25 else 250

/-- A newcomer may pre-empt at all (R362). -/
def mayPreempt (s : State) (x : Task) : Bool :=
  x.waits && (x.phase = .saved || barrierOpen s x) && classOf s x ≤ 1 && x.ptok ≠ 0 &&
  (x.spent || x.ptok ≤ (s.queue x.queue).balance)

/-- The tokens of a newcomer spent, once. -/
def spendTokens (s : State) (n : Nat) (x : Task) : State :=
  if x.spent then s
  else
    let q := s.queue x.queue
    (s.setQueue x.queue { q with balance := q.balance - x.ptok }).setTask n { x with spent := true }

/-- No decision within a limit in µs stands on a task; a final drain stands only for the newcomers whose pre-emption it ended (R368). -/
def undecided (k : Task) (newcomer limit : Nat) : Bool :=
  !k.finalFor.contains newcomer &&
  (k.decidedAt.isNone || k.finalDrain || (k.action = .drain && limit * cyclesPerMicro < k.limit))

/-- SCHEDULE_DECISION: the scheduler decides on a running task that a newcomer pre-empts; one that drains for a newcomer with a longer limit is decided again (R362, R363). -/
def execScheduleDecision (newcomer t : Nat) (s : State) : Out :=
  match s.task newcomer, s.task t with
  | some x, some k =>
    if newcomer = t || !mayPreempt s x || !k.holds || !undecided k newcomer (limitOf (classOf s x)) || !overlaps x k || classOf s k ≤ classOf s x then .next s
    else .next (decideTask (spendTokens s newcomer x) t k (some newcomer) (limitOf (classOf s x)) false)
  | _, _ => .next s

/-- DRAIN_TIMEOUT: a task still draining L after the decision is decided again, unless its drain is final (R363, R368). -/
def execDrainTimeout (t : Nat) (s : State) : Out :=
  match s.task t with
  | none => .next s
  | some k =>
    match k.decidedAt with
    | none => .next s
    | some n =>
      if k.holds && k.action = .drain && !k.finalDrain && n + k.limit ≤ s.clock then
        .next (decideTask s t k k.preempter (k.limit / cyclesPerMicro) true)
      else .next s

end Sys2Proof.Machine
end

