-- ==== Sys2Proof/Machine/Save.lean ====
section
/-! DEFINITION. Checkpoint, restore and regroup (R279, R280, R366 to R369). -/

namespace Sys2Proof.Machine

/-! ## The save area (R366 to R368) -/

def saveMagic : Nat := 0x53564131

/-- Where a word of the save area lies, which the root of the queue translates (R351), or why it cannot be reached. -/
def areaPlace (s : State) (n : Nat) (t : Task) (va : Word) (k : Access) : Except AddrFault (Nat × Bool) :=
  let root := (s.queue t.queue).root
  match frontPlace s va k (translate s (frontSpace s n t) root va.toNat) with
  | .error f => .error f
  | .ok (pa, shared) => match frontRead s pa shared with
    | .error .poisoned => if k == .write then .ok (pa, shared) else .error .poisoned
    | .error f => .error f
    | .ok _ => .ok (pa, shared)

def areaRead (s : State) (n : Nat) (t : Task) (va : Word) : Except AddrFault Word :=
  match areaPlace s n t va .read with
  | .error f => .error f
  | .ok (pa, shared) => frontRead s pa shared

/-- Words written to the area a line at a time, as far as its pages allow; `fuel` bounds the number of lines. -/
def areaLines (s : State) (n : Nat) (t : Task) (va : Word) (ws : List Word) : Nat → State
  | 0 => s
  | fuel + 1 =>
    let room := 8 - va.toNat / 8 % 8
    let here := ws.take room
    let s := match here.isEmpty, areaPlace s n t va .write with
      | false, .ok (pa, shared) => s.frontWrite ⟨pa, shared, here, some n, va, false, none, none, none⟩
      | _, _ => s
    areaLines s n t (va + BitVec.ofNat 64 (8 * room)) (ws.drop room) fuel

def areaWrite (s : State) (n : Nat) (t : Task) (va : Word) (ws : List Word) : State := areaLines s n t va ws (ws.length / 8 + 2)

/-- The first page of `k` from an address on that cannot be written. -/
def areaFault (s : State) (n : Nat) (t : Task) (va : Word) : Nat → Option (Word × AddrFault)
  | 0 => none
  | k + 1 =>
    match areaPlace s n t va .write with
    | .error f => some (va, f)
    | .ok _ => areaFault s n t (va + 4096 - BitVec.ofNat 64 (va.toNat % 4096)) k

/-- `k` free words of the body, whose layout the spec does not give (log entry 4). -/
def freeWords (s : State) (k : Nat) : List Word := (List.range k).map fun i => Config.free (s.freeCtr + i)

/-- Bytes of the body: what every declared cluster writes. -/
def bodyBytes (s : State) (n : Nat) (t : Task) : Nat :=
  (clustersOf t.clusterMask).foldl (fun m cl => m + saveBytes s n t cl) 0

/-! ## What a checkpoint holds (R366) -/

/-- An address of a declared core's local memory or of a declared block's banks. -/
def ownByte (t : Task) (a : Nat) : Bool :=
  if a < scratchBase then false
  else if a < localBase then
    let blk := (a - scratchBase) / 0x400000
    t.hasBlock (blk / 8) (blk % 8)
  else a < controlBase && t.hasCore ((a - localBase) / 0x10000)

/-- What a save keeps of a core, segment and block: no line of a cache, and no held line (R328, R383). -/
def savedCore (k : Core) : Core := { k with l1 := emptied k.l1, held := [] }
def savedSegment (g : Segment) : Segment := { g with cache := emptied g.cache }
def savedBlock (k : Block) : Block := { k with ways := [] }

def snapshot (s : State) (n : Nat) (t : Task) : Snapshot where
  task := n
  harts := s.harts.filter fun p => t.hasCluster p.1.cluster
  cores := (s.cores.filter fun p => t.hasCluster (coreCluster p.1)).map fun p => (p.1, savedCore p.2)
  segments := (s.segments.filter fun p => t.hasCluster p.1).map fun p => (p.1, savedSegment p.2)
  tiles := s.tiles.filter fun p => t.hasCluster p.1.1
  regions := s.regions.filter fun p => t.hasCluster p.1
  ports := s.ports.filter fun p => t.hasCluster (p.1 / 32)
  nodes := s.nodes.filter fun p => p.2.task = n
  blocks := (s.blocks.filter fun p => t.hasCluster (p.1 / 8)).map fun p => (p.1, savedBlock p.2)
  epilogues := s.epilogues.filter fun p => t.hasCluster (p.1 / 8)
  engines := s.engines.filter fun p => t.hasEngine p.1
  weirs := s.weirs.filter fun p => t.hasCluster (p.1 / 64)
  tracks := s.tracks.filter fun p => p.1.1 = n
  landings := s.landings.filter fun p => t.hasCluster (p.1 / 8)
  freed := s.freed.filter fun k => t.hasEngine (k / 16)
  bytes := s.mem.filter fun c => ownByte t c.1

/-- A save that cannot go on: a restartable task is killed, and any other is thawed and drains for good, as its scheduling record then says (R363, R368). -/
def saveFails (s : State) (n : Nat) (t : Task) : State :=
  if t.restartable then finishWith ((s.setTask n { t with action := .kill }).report (.scheduled n .kill)) n 4
  else
    let s := (s.setTask n { t with
      phase := .running
      waitPage := none
      pageLost := false
      action := .drain
      decidedAt := some s.clock
      finalDrain := true
      finalFor := t.preempter.toList ++ t.finalFor }).report (.scheduled n .drain)
    if t.debugHalted then s else thawTask s n true

/-- The words of the header (R367). -/
def headerWords (how used est : Nat) (freeze : Nat) : List Word :=
  [BitVec.ofNat 64 (saveMagic * 2 ^ 32 + 2 ^ 16 + how), BitVec.ofNat 64 used, BitVec.ofNat 64 freeze, BitVec.ofNat 64 est, 0, 0, 0, 0]

/-- Phase 2 with every page of the area at hand. -/
def writeSave (s : State) (n : Nat) (t : Task) (used : Nat) : State :=
  let area := t.word 23
  let how := if t.action = .checkpoint && t.decidedAt.isSome then 2 else 0
  let snap := snapshot s n t
  let words := freeWords s (used / 8)
  let s := areaWrite { s with freeCtr := s.freeCtr + used / 8 } n t (area + 128) words
  let s := areaWrite s n t area (headerWords how used t.frozenEst t.frozenAt)
  let s := releaseHomes (vacate s n t) .system
  let s := { s with
    saves := tset n snap s.saves
    landings := s.landings.filter fun p => !t.hasCluster (p.1 / 8)
    freed := s.freed.filter fun k => !t.hasEngine (k / 16) }
  s.setTask n { t with
    phase := .saved
    savedAt := s.clock
    waitPage := none
    estimate := t.frozenEst
    estimateAt := s.clock
    heldSince := none
    decidedAt := none }

/-- Phase 1: MAGIC goes to 0 and every agent freezes at its boundary, its dirty lines at their homes; FREEZE and EST are taken at its end. -/
def freezeTask (s : State) (n : Nat) (t : Task) : State :=
  if t.phase = .saving then s
  else
    let s := areaWrite s n t (t.word 23) [0]
    let s := holdTask (settleUnits (completeCommands (deliverFlights s t) t) n t) n
    match s.task n with
    | some t => s.setTask n { t with phase := .saving, frozenAt := s.clock, frozenEst := remaining s t }
    | none => s

/-- A save that the scheduler decided on, which a final drain bars; any other is Krany's request (R363, R367, R368). -/
def saveBarred (t : Task) : Bool := t.finalDrain && t.action = .checkpoint

/-- CHECKPOINT: the task is frozen and saved; a page of the area that is not mapped is waited for, that of MAGIC before the freeze (R366, R368). -/
def execCheckpoint (t : Nat) (s : State) : Out :=
  match s.task t with
  | none => .next s
  | some k =>
    if !k.holds || k.stopped || !k.checkpointable || saveBarred k || k.waitPage.isSome then .next s
    else match k.pageLost, areaPlace s t k (k.word 23) .write with
    | true, _ => .next (saveFails s t k)
    | false, .error .page => .next (s.setTask t { k with waitPage := some (k.word 23) })
    | false, .error .waits => .next s
    | false, .error _ => .next (saveFails s t k)
    | false, .ok _ =>
      let s := freezeTask s t k
      match s.task t with
      | none => .next s
      | some k =>
        let area := k.word 23
        let used := bodyBytes s t k
        let wait := fun (va : Word) => (.next (s.setTask t { k with waitPage := some va }) : Out)
        match areaRead s t k (area + 64) with
          | .error .page => wait (area + 64)
          | .error .waits => .next s
          | .error _ => .next (saveFails s t k)
          | .ok len =>
            if len.toNat < used then .next (saveFails s t k)
            else match areaFault s t k area ((area.toNat % 4096 + 128 + used + 4095) / 4096) with
              | some (va, .page) => wait va
              | some (_, .waits) => .next s
              | some _ => .next (saveFails s t k)
              | none => .next (writeSave s t k used)

/-! ## Restore (R280, R299, R369) -/

/-- MAGIC and FORMAT of a valid header. -/
def headerValid (h : Word) : Bool := h.toNat / 2 ^ 32 = saveMagic && h.toNat / 2 ^ 16 % 2 ^ 16 = 1

/-- A core as it comes back: the barrel restarts at slot 0, and the cycle of the core's last issue stands (R263). -/
def restoredCore (now k : Core) : Core := { k with lastSlot := 15, issuedAt := now.issuedAt }

/-- The later of two cycles. -/
def laterCycle : Option Nat → Option Nat → Option Nat
  | some a, some b => some (max a b)
  | a, none => a
  | none, b => b

/-- An agent as it comes back: a sleeper's instruction issues again, so its sleep counts from now on (R178, R213); it is spaced after the last issue of its slot, whoever made it (R263). -/
def restoredHart (clock : Nat) (now h : Hart) : Hart :=
  let h := { h with lastIssue := laterCycle now.lastIssue h.lastIssue }
  match h.status with
  | .sleeping w _ => { h with status := .sleeping w clock }
  | .empty | .ready | .halted | .stopped => h

/-- A tile as it comes back: wait counts and readiness ages start again (R106, R135), and the cycle of the tile's last firing stands (R104). -/
def restoredTile (now t : Tile) : Tile :=
  { t with waits := Vector.replicate 16 0, readySince := Vector.replicate 16 none, lastFired := now.lastFired, consumed := [] }

/-- A stage and a region as they come back: the dwell counters and the count of cycles without progress start again (R255, R261). -/
def restoredStage (clock : Nat) (g : Stage) : Stage :=
  { g with highSince := g.highSince.map fun _ => clock, lowSince := g.lowSince.map fun _ => clock }
def restoredRegion (clock : Nat) (r : Region) : Region :=
  { r with progress := clock, stages := r.stages.map (restoredStage clock) }

/-- A frozen port that retries its access once. -/
def restoredPort (x : Port) : Port :=
  match x.fault with
  | some f => if f.state = 1 then { x with fault := some { f with state := 2 } } else x
  | none => x

/-- Bytes put back one by one. -/
def putBytes (m : List Host.Cell) (cs : List Host.Cell) : List Host.Cell := cs.foldl (fun m c => memWrite m c.1 c.2) m

/-- Every part of a snapshot put back into vacant units. -/
def putBack (s : State) (n : Nat) (t : Task) (p : Snapshot) : State :=
  let s := vacate s n t
  let s := p.cores.foldl (fun (s : State) x => s.setCore x.1 (restoredCore (s.core x.1) x.2)) s
  let s := p.segments.foldl (fun (s : State) x => s.setSegment x.1 { x.2 with cache := (s.segment x.1).cache }) s
  let s := p.blocks.foldl (fun (s : State) x => s.setBlock x.1 x.2) s
  let s := p.harts.foldl (fun (s : State) x => s.setHart x.1 (restoredHart s.clock (s.hart x.1) x.2)) s
  let s := p.tiles.foldl (fun (s : State) x => s.setTile x.1.1 x.1.2 (restoredTile (s.tile x.1.1 x.1.2) x.2)) s
  { s with
    regions := s.regions ++ p.regions.map fun x => (x.1, restoredRegion s.clock x.2)
    ports := s.ports ++ p.ports.map fun x => (x.1, restoredPort x.2)
    nodes := s.nodes ++ p.nodes
    epilogues := s.epilogues ++ p.epilogues
    engines := s.engines ++ p.engines
    weirs := s.weirs ++ p.weirs
    tracks := s.tracks ++ p.tracks
    landings := s.landings ++ p.landings
    freed := s.freed ++ p.freed
    mem := putBytes (s.mem.filter fun c => !ownByte t c.1) p.bytes
    saves := tdrop n s.saves }

/-- The frozen copies of the task's engines retry once, whatever their cause (R299). -/
def retryCopies (s : State) (t : Task) : State :=
  (s.engines.filter fun p => t.hasEngine p.1).foldl (fun (s : State) p =>
    (List.range p.2.running.length).foldl (fun (s : State) k => retryCopy s p.1 k true) s) s

/-- RESTORE: a saved task whose units are free goes on, or completes with cause 4 where its area is invalid and 6 where that holds uncorrectable data (R409); a page of the area that is not mapped is waited for (R368, R369). -/
def execRestore (t : Nat) (s : State) : Out :=
  match s.task t with
  | none => .next s
  | some k =>
    if k.phase ≠ .saved || k.waitPage.isSome || !mayStart s t k then .next s
    else match areaRead s t k (k.word 23), tfind t s.saves with
      | .error .page, _ =>
        if k.pageLost then .next (finishWith s t 4) else .next (s.setTask t { k with waitPage := some (k.word 23) })
      | .error .waits, _ => .next s
      | .error .poisoned, _ => .next (finishWith s t 6)
      | .ok h, some p =>
        if headerValid h then
          let s := (putBack s t k p).setTask t { k with
            phase := .running
            estimateAt := s.clock
            heldSince := if k.debugHalted then some s.clock else none
            decidedAt := none
            finalDrain := false }
          .next (retryCopies s k)
        else .next (finishWith s t 4)
      | _, _ => .next (finishWith s t 4)

/-! ## Launching again (R279, R408) -/

/-- A core table without a core. -/
def withoutCore (c : Nat) (rows : List (Nat × Word × List Nat)) : List (Nat × Word × List Nat) :=
  rows.map fun r => if r.1 = coreCluster c then (r.1, r.2.1 &&& ~~~(BitVec.ofNat 64 (2 ^ (c % 64))), r.2.2) else r

/-- The units that are left are enough for a launch: a cluster, the one of SEQENT among them, and cores for the persistent threads. -/
def stillFits (s : State) (t : Task) (mask : Word) (cores : List (Nat × Word × List Nat)) : Bool :=
  let v := (t.word 10).toNat
  mask.toNat % 2 ^ 32 ≠ 0 && (v / 2 ^ 5 % 2 = 0 || mask.getLsbD (v % 2 ^ 5)) &&
  cores.all fun r => !badRow s t.threadsPerSegment ((s.queue t.queue).class_ = 0) r

/-- A saved task starts again from its launch, on a variant and on units without the one that was retired (R279, R408; DESIGN CHOICE, log entry 51).
One that the units left cannot hold ends with cause 2, since its resources are never available (R359).
Its new agents have nothing to do with what the old ones sent to peers (R186, R199). -/
def relaunch (s : State) (n : Nat) (t : Task) (u : Nat) : State :=
  let w := t.word 1
  let (w, cores) :=
    if u < 32 then (w &&& ~~~(BitVec.ofNat 64 (2 ^ u)), t.cores.filter fun r => r.1 ≠ u)
    else if u < 288 then (w &&& ~~~(BitVec.ofNat 64 (2 ^ (32 + u % 8))), t.cores)
    else (w, withoutCore (u - 288) t.cores)
  if !stillFits s t w cores then finishWith s n 2
  else disown { s.setTask n { t with
      desc := vset t.desc 1 w
      cores := cores
      phase := .accepted
      variant := none
      waitPage := none
      pageLost := false
      decidedAt := none
      relaunched := true } with
    saves := tdrop n s.saves
    maps := s.maps.filter fun m => m.1 ≠ n } fun _ t => t = some n

/-! ## Regroup (R279) -/

/-- A core stands for some number of a task, saved or on its units. -/
def standsIn (s : State) (spare : Nat) : Bool :=
  (s.saves.any fun p => p.2.cores.any fun c => c.2.physical = some spare) || s.cores.any fun c => c.2.physical = some spare

/-- A core of the segment of another that may stand for it in a task. -/
def isSpare (s : State) (t : Task) (core spare : Nat) : Bool :=
  coreCluster core = coreCluster spare && !s.service.retired.contains (288 + spare) && !inColumn s spare && !standsIn s spare && !t.hasCore spare

/-- REGROUP: in every saved task whose standing core for a number was retired, a spare core of the same segment stands for the number; a task whose segment has no spare core is launched again instead. -/
def execRegroup (core spare : Nat) (s : State) : Out :=
  if numCores ≤ core || numCores ≤ spare then .fault .noSuchUnit
  else
    let stand := fun (p : Snapshot) =>
      { p with cores := tset core { (tget Core.fresh core p.cores) with physical := some spare } p.cores }
    .next (s.saves.foldl (fun (s : State) p =>
      match s.task p.1 with
      | none => s
      | some t =>
        if t.phase ≠ .saved || !t.hasCore core || !s.service.retired.contains (288 + standingCore s p.1 t core) then s
        else if isSpare s t core spare then { s with saves := tset p.1 (stand p.2) s.saves }
        else if ((List.range 64).any fun k => isSpare s t core (64 * coreCluster core + k)) then s
        else relaunch s p.1 t (288 + core)) s)

end Sys2Proof.Machine
end

