-- ==== Sys2Proof/Machine/Debug.lean ====
section
/-! DEFINITION. The debugger: halt, single step and resume (R370, R371). -/

namespace Sys2Proof.Machine

/-- DEBUG_HALT: a debugger attaches and halts a running task (R370). -/
def execDebugHalt (t : Nat) (s : State) : Out :=
  match s.task t with
  | none => .next s
  | some k =>
    if k.phase = .running && !k.debugHalted then
      .next (haltTask { s with service := { s.service with debugger := true } } t)
    else .next s

/-- DEBUG_STEP: one thread or sequencer of a halted task may issue one instruction, and the engines run with it until that completes (R371). -/
def execDebugStep (a : AgentId) (s : State) : Out :=
  let h := s.hart a
  match h.task.bind fun n => (s.task n).map fun k => (n, k) with
  | none => .next s
  | some (n, k) =>
    let issues := match h.status with
      | .ready | .sleeping _ _ => true
      | .empty | .halted | .stopped => false
    if k.phase = .running && k.debugHalted && k.stepping.isNone && issues then
      let s := thawTask s n false
      match s.task n with
      | none => .next s
      | some k => .next (s.setTask n { k with stepping := some a })
    else .next s

/-- A copy is frozen with its record. -/
def copyFaulted (s : State) (id : CopyId) : Bool :=
  (s.engine id.engine).running.any fun c => c.id = id && c.record.isSome

/-- Something that an agent waits for has faulted: it sleeps in `cpwaitb`, `sleepc.p`, `mxwait` or `rdz` (R371). -/
def waitFaulted (s : State) (a : AgentId) : Bool :=
  let h := s.hart a
  let stopped : Nat → Bool := fun b => [AgentId.matrix (b / 8) (b % 8), .epilogue (b / 8) (b % 8), .copySeq (b / 8) (b % 8)].any fun q => (s.hart q).status = .stopped
  match h.status with
  | .sleeping (.batches _) _ => h.sealedBatches.any fun b => b.2.any (copyFaulted s)
  | .sleeping (.clock _) _ => match instrOf s a with
    | some (.sleepc true _) => h.promises.any fun p => copyFaulted s p.1
    | _ => false
  | .sleeping (.matrixIdle _) _ => match matrixBlock { s with cur := a } with
    | some b => stopped b
    | none => false
  | .sleeping (.rendezvous b) _ =>
    stopped b || s.engines.any fun p => p.2.running.any fun c => c.record.isSome && match c.owner with
      | .matrix cl k | .epilogue cl k | .copySeq cl k => blockNo cl k = b
      | .thread _ _ | .region _ | .tile _ _ _ => false
  | .sleeping _ _ | .empty | .ready | .halted | .stopped => false

/-- The tasks whose stepped agent meets a condition freeze again. -/
def endSteps (s : State) (finished : AgentId → Bool) : State :=
  s.tasks.foldl (fun (s : State) p => match p.2.stepping with
    | some a => if finished a then haltTask s p.1 else s
    | none => s) s

/-- A step ends: its instruction has completed under its entry, or waits for an operation that has faulted, and everything freezes again (R371). -/
def endStep (s : State) (a : AgentId) : State :=
  let s := match (s.hart a).status with
    | .sleeping _ _ => s
    | .empty | .ready | .halted | .stopped => endSteps s fun b => a = b
  endSteps s (waitFaulted s)

/-- An event may complete the stepped instruction of an agent that slept in it, or trap it: its pc has moved or it has ended (R371). -/
def eventEnded (before after : State) (a : AgentId) : Bool :=
  let h := after.hart a
  h.pc ≠ (before.hart a).pc || waitFaulted after a || match h.status with
    | .empty | .halted | .stopped => true
    | .ready | .sleeping _ _ => false

/-- DEBUG_RESUME: a halted task goes on; the debugger may leave (R370). -/
def execDebugResume (t : Nat) (detach : Bool) (s : State) : Out :=
  let s := if detach then { s with service := { s.service with debugger := false } } else s
  match s.task t with
  | none => .next s
  | some k =>
    let s := if k.phase = .running then thawTask s t true else s
    match s.task t with
    | none => .next s
    | some k => .next (s.setTask t { k with debugHalted := false, stepping := none })

end Sys2Proof.Machine
end

