-- ==== Sys2Proof/Machine/Issue.lean ====
section
/-! DEFINITION. Issue: the barrel of a core, and the fetch of an agent's next instruction (R40, R97, R206, R262, R263, R371, R382). -/

namespace Sys2Proof.Machine

/-! ## The barrel (R208, R262, R263) -/

/-- Cycles between two issues of one thread. -/
def issueSpacing : Nat := 8

/-- The thread of a slot can issue this cycle: it is Ready, did not wake in this very cycle, and is not Spaced (R263, R264). -/
def slotReady (s : State) (c n : Nat) : Bool :=
  let h := s.hart (.thread c n)
  h.status = .ready && agentRuns s (.thread c n) && h.wokenAt ≠ some s.clock && match h.lastIssue with
    | some k => k + issueSpacing ≤ s.clock
    | none => true

/-- The thread that yielded is passed over while a slot that was ready then has not issued and still could. -/
def passedOver (s : State) (c n : Nat) : Bool :=
  (s.hart (.thread c n)).yielded.any fun m =>
    (s.hart (.thread c m)).status = .ready && agentRuns s (.thread c m)

/-- The slot that issues: the first one upward from the slot after the last. -/
def pickSlot (s : State) (c : Nat) : Option Nat :=
  let last := (s.core c).lastSlot
  ((List.range 16).map fun k => (last + 1 + k) % 16).find? fun n => slotReady s c n && !passedOver s c n

/-- Another thread of the core that yielded no longer waits for the slot. -/
def issuedBeside (c n : Nat) (p : AgentId × Hart) : AgentId × Hart :=
  match p.1 with
  | .thread c' m => if c' = c && m ≠ n then (p.1, { p.2 with yielded := p.2.yielded.filter fun k => k ≠ n }) else p
  | .region _ | .matrix _ _ | .epilogue _ _ | .copySeq _ _ | .tile _ _ _ => p

/-- The slot issues in this cycle. -/
def noteIssue (s : State) (c n : Nat) : State :=
  let s := s.setCore c { s.core c with lastSlot := n, issuedAt := some s.clock }
  let s := { s with harts := s.harts.map (issuedBeside c n) }
  let a := AgentId.thread c n
  s.setHart a { s.hart a with lastIssue := some s.clock, yielded := [], receiving := false }

/-- A sequencer that can issue: it has not done so in this cycle (R97). -/
def sequencerReady (s : State) (a : AgentId) : Bool := (s.hart a).status = .ready && agentRuns s a && (s.hart a).lastIssue ≠ some s.clock

/-- The sequencer issues in this cycle. -/
def noteSequencer (s : State) (a : AgentId) : State := s.setHart a { s.hart a with lastIssue := some s.clock }

/-! ## Fetch -/

/-- The address of the parcel that cannot be fetched. -/
def faultingParcel (s : State) : Word :=
  match fetchParcel s s.me.pc with
  | .ok _ => s.me.pc + 2
  | .error _ => s.me.pc

/-- What an agent does when it issues: an instruction, or the trap or wait that comes first. -/
inductive Fetched where
  | instr (i : Instr)
  | instead (o : Out)

/-- The departure trap that an agent's next issue takes, and the agent without it; of several that one access caused, the later ones wait until it has left its handler (R382, log entry 48). -/
def dueTrap (h : Hart) : Option (Nat × Word) × Hart :=
  match h.pendingTrap, h.laterTraps with
  | some t, _ => (some t, { h with pendingTrap := none })
  | none, t :: r => if h.tmode then (none, h) else (some t, { h with laterTraps := r })
  | none, [] => (none, h)

/-- The running agent's next instruction; a word that is none is the illegal-instruction event (R65). -/
def fetchNext (s : State) : Fetched :=
  match dueTrap s.me with
  | (some (len, ev), h) => .instead (.next (enterTrap (s.setMe h) s.cur .departure len s.me.pc ev))
  | (none, _) => match fetchBytes s s.me.pc with
    | .error f =>
      let r := lengthStandIn s
      .instead (addressFault r.1 (faultingParcel s) f r.2)
    | .ok bs => match decode bs with
      | .ok (i, _) => .instr i
      | .error _ => .instr .illegalInstruction

/-- An agent's issue ends: a single step freezes its task again once the instruction has completed (R371), and the caches keep their capacities (R281). -/
def afterIssue (a : AgentId) : Out → Out
  | .next s => .next (trimCaches (endStep s a))
  | .fault f => .fault f
  | .refused r => .refused r

/-- An event that the agenda may start; the illegal-instruction trap and the firings of a tile belong to the turns of their agents. -/
def isEvent (i : Instr) : Bool :=
  match i with
  | .illegalInstruction | .configFiring _ _ _ => false
  | _ => (encodeWord i).isNone

end Sys2Proof.Machine
end

