-- ==== Sys2Proof/Machine/Place.lean ====
section
/-! DEFINITION. A machine in which one instruction is the next to run: a task of cluster 0, and the instruction at the pc of one of its agents or in a slot of one of its tiles (log entry 7). -/

namespace Sys2Proof.Machine

def placeVa : Word := 0x40000000#64
def placeFrame : Nat := 0x100

/-- The words of a descriptor of a task that declares cluster 0 with its blocks. -/
def placeDesc : List Word := [0, 0xFF00000001#64]

/-- A running task of cluster 0 with all of its cores and blocks. -/
def placeTask (s : State) : Task :=
  { acceptedTask s 0 [] placeDesc [(0, BitVec.allOnes 64, List.replicate 64 0)] none with phase := .running }

/-- The kinds of agent that run an instruction: the sequencer whose own instruction it is, or a thread. -/
def placeAgent (i : Instr) : AgentId :=
  match i with
  | .mxprog _ _ _ | .mxmm _ _ _ _ | .mxclr _ _ | .mxwait _ => .matrix 0 0
  | _ => ([.thread 0 0, .region 0, .epilogue 0 0].find? fun a => accepts a i).getD (.thread 0 0)

/-- The task, with the page of its code. -/
def placeBase (s : State) (bytes : List Byte) : State :=
  let n := s.nextTask
  let s := { s.setTask n (placeTask s) with nextTask := n + 1 }
  let line := 64 * placeFrame
  let pte := BitVec.ofNat 64 (4096 * placeFrame) ||| 0x39#64
  { s.setBytes (4096 * placeFrame) bytes with
    maps := (n, pageOf placeVa, pte) :: s.maps
    mere := dropLine line s.mere
    agenda := []
    service := { s.service with poison := s.service.poison.filter fun l => l ≠ line, dyke := Vector.replicate 16 (0, 0) } }

/-- An agent that issues next, at the code. -/
def placeHart (s : State) (n : Nat) (a : AgentId) : State :=
  let h := s.hart a
  let s := s.setHart a { h with
    status := .ready
    task := some n
    pc := placeVa
    lastIssue := none
    wokenAt := none
    yielded := []
    pendingTrap := none
    laterTraps := [] }
  match a with
  | .thread c sl => { s.setCore c { s.core c with lastSlot := (sl + 15) % 16 } with turn := .core c }
  | .region _ | .matrix _ _ | .epilogue _ _ | .copySeq _ _ | .tile _ _ _ => { s with turn := .sequencer a }

/-- A token in every place that an instruction of a tile can read. -/
def placeToken : Landed := ⟨⟨0, false, false, 0⟩, 0⟩

/-- A tile whose slot 15 holds a word, with an operand in each of its slots and links. -/
def placeTileState (w : Nat) : Tile :=
  let k : TileContext := { TileContext.fresh with
    loaded := true
    control := 1
    slots := vset TileContext.fresh.slots 15 (BitVec.ofNat 64 (w * 2 ^ 32)) }
  { Tile.fresh with
    contexts := vset Tile.fresh.contexts 0 k
    slotA := vset Tile.fresh.slotA 15 (some placeToken)
    slotB := vset Tile.fresh.slotB 15 (some placeToken)
    fifo := Vector.replicate 4 [placeToken]
    credits := Vector.replicate 4 4 }

/-- A tile of cluster 0 that fires next, in a run of one iteration. -/
def placeTile (s : State) (n w : Nat) : State :=
  let l : Loaded := ⟨Vector.replicate 4 ⟨0, 1, true, true⟩, [], [(0, 0)], []⟩
  let r : Region := { Region.fresh with
    loaded := vset Region.fresh.loaded 0 (some l)
    run := some ⟨0, Vector.replicate 4 1, 0, 0, none, [0]⟩
    lead := some 0 }
  let s := (s.setRegion 0 r).setHart (.region 0) { s.hart (.region 0) with task := some n, status := .sleeping .run s.clock }
  { s.setTile 0 0 (placeTileState w) with turn := .tile 0 0 }

/-- The machine whose next step runs the instruction of the bytes, a cell word on a tile and any other at its agent's pc. -/
def placeNext (s : State) (bytes : List Byte) (w : Nat) : State :=
  let n := s.nextTask
  let s := placeBase s bytes
  match decode bytes with
  | .ok (i, _) => if (cellShape i).isSome then placeTile s n w else placeHart s n (placeAgent i)
  | .error _ => placeHart s n (.thread 0 0)

end Sys2Proof.Machine
end

