-- ==== Sys2Proof/Machine/Alu.lean ====
section
/-! DEFINITION. Integer operations on registers, immediate forms and the spatial hash (R67 to R76). -/

namespace Sys2Proof.Machine

/-! ## Operations at a width -/

/-- An operation of two sources at 64 bits, or at 32 bits with the result sign-extended (R68). -/
def atWidth (w : Width) (f : (n : Nat) → BitVec n → BitVec n → BitVec n) (a b : Word) : Word :=
  match w with
  | .d => f 64 a b
  | .w => (f 32 (lo32 a) (lo32 b)).signExtend 64

def addB (n : Nat) (a b : BitVec n) : BitVec n := a + b
def subB (n : Nat) (a b : BitVec n) : BitVec n := a - b
/-- The shift count is the low bits of b: [5:0] at 64 bits and [4:0] at 32 (R67, R68). -/
def shiftCount (n : Nat) (b : BitVec n) : Nat := b.toNat % n
def shlB (n : Nat) (a b : BitVec n) : BitVec n := a <<< shiftCount n b
def shrB (n : Nat) (a b : BitVec n) : BitVec n := a >>> shiftCount n b
def sraB (n : Nat) (a b : BitVec n) : BitVec n := a.sshiftRight (shiftCount n b)
def minB (n : Nat) (a b : BitVec n) : BitVec n := if b.slt a then b else a
def maxB (n : Nat) (a b : BitVec n) : BitVec n := if a.slt b then b else a
def minnB (n : Nat) (a b : BitVec n) : BitVec n := if b.ult a then b else a
def maxnB (n : Nat) (a b : BitVec n) : BitVec n := if a.ult b then b else a
def sltB (n : Nat) (a b : BitVec n) : BitVec n := if a.slt b then BitVec.ofNat n 1 else 0
def sltnB (n : Nat) (a b : BitVec n) : BitVec n := if a.ult b then BitVec.ofNat n 1 else 0
def mulB (n : Nat) (a b : BitVec n) : BitVec n := a * b
/-- The high half of the signed product. -/
def mulhB (n : Nat) (a b : BitVec n) : BitVec n := BitVec.ofInt n (a.toInt * b.toInt / (2 ^ n : Nat))
/-- The high half of the unsigned product. -/
def mulhnB (n : Nat) (a b : BitVec n) : BitVec n := BitVec.ofNat n (a.toNat * b.toNat / 2 ^ n)
/-- R69: truncating; a zero divisor gives all ones. -/
def divB (n : Nat) (a b : BitVec n) : BitVec n := if b = 0 then BitVec.allOnes n else a.sdiv b
def divnB (n : Nat) (a b : BitVec n) : BitVec n := if b = 0 then BitVec.allOnes n else a / b
/-- R69: the remainder has the sign of the dividend, and is the dividend for a zero divisor. -/
def remB (n : Nat) (a b : BitVec n) : BitVec n := if b = 0 then a else a.srem b
def remnB (n : Nat) (a b : BitVec n) : BitVec n := if b = 0 then a else a % b
/-- Leading zeros; the second operand is not read. -/
def clzB (n : Nat) (a _b : BitVec n) : BitVec n :=
  BitVec.ofNat n (if a = 0 then n else n - 1 - Nat.log2 a.toNat)
/-- How many of the bits from `k` on, `m` at most, are 0 before the first 1. -/
def zerosFrom {n : Nat} (a : BitVec n) : Nat → Nat → Nat
  | _, 0 => 0
  | k, m + 1 => if a.getLsbD k then 0 else 1 + zerosFrom a (k + 1) m
def ctzB (n : Nat) (a _b : BitVec n) : BitVec n := BitVec.ofNat n (zerosFrom a 0 n)
def popcB (n : Nat) (a _b : BitVec n) : BitVec n :=
  BitVec.ofNat n ((List.range n).filter fun k => a.getLsbD k).length

/-- The field descriptor of R70: pos = b[5:0], and len = b[14:8] taken as at most 64. -/
def fieldPos (b : Word) : Nat := b.toNat % 64
def fieldLen (b : Word) : Nat := let n := b.toNat / 2 ^ 8 % 2 ^ 7; if n < 64 then n else 64
/-- `bext`, R70. -/
def extractField (a b : Word) : Word := BitVec.ofNat 64 (a.toNat / 2 ^ fieldPos b % 2 ^ fieldLen b)
/-- `bins`, R70: positions above 63 are not written. -/
def insertField (d a b : Word) : Word :=
  let mask : Word := BitVec.ofNat 64 ((2 ^ fieldLen b - 1) * 2 ^ fieldPos b)
  (d &&& ~~~ mask) ||| ((a <<< fieldPos b) &&& mask)

/-! ## The spatial hash (R75, R76) -/

/-- The offset that a neighbour code stands for, R75. -/
def deltaInt : Delta → Int
  | .zero => 0 | .plus => 1 | .minus => -1

/-- The floor of the exact quotient of two finite values, the second above 0. -/
def floorQuotient (neg : Bool) (m : Nat) (e : Int) (hm : Nat) (he : Int) : Int :=
  let q := minInt e he
  scaledInt neg m e q / scaledInt false hm he q

/-- The cell coordinate of a position, or none where the position is infinite (R76). -/
def cellCoord (x : FVal) (hm : Nat) (he : Int) (d : Delta) : Option Int :=
  match x with
  | .fin n m e => some (floorQuotient n m e hm he + deltaInt d)
  | .inf _ | .nan => none

/-- A coordinate in 0 to 2^21 - 1. -/
def inGrid : Option Int → Option Nat
  | some c => if 0 ≤ c && c < 2097152 then some c.toNat else none
  | none => none

/-- Bits of three 21-bit coordinates interleaved, bit i of x at 3i (R76). -/
def interleave (cx cy cz : Nat) : Nat :=
  (List.range 21).foldl (fun k i =>
    k + (cx / 2 ^ i % 2) * 2 ^ (3 * i) + (cy / 2 ^ i % 2) * 2 ^ (3 * i + 1) + (cz / 2 ^ i % 2) * 2 ^ (3 * i + 2)) 0

/-- The key of a position's cell, or all ones for no cell, with the flag of R76. -/
def cellKey (dx dy dz : Delta) (a b ox0 : Word) : Nat × Flags :=
  let f32 := floatFmt .f32
  let none64 := 2 ^ 64 - 1
  let x := f32.unpack a.toNat
  let y := f32.unpack (a.toNat / 2 ^ 32)
  let z := f32.unpack b.toNat
  match f32.unpack ox0.toNat with
  | .nan | .inf _ => (none64, flagNV)
  | .fin hn hm he =>
    if hn || hm = 0 then (none64, flagNV)
    else if x.isNaN || y.isNaN || z.isNaN then (none64, flagNV)
    else
      match inGrid (cellCoord x hm he dx), inGrid (cellCoord y hm he dy), inGrid (cellCoord z hm he dz) with
      | some cx, some cy, some cz => (interleave cx cy cz, noFlags)
      | _, _, _ => (none64, noFlags)

/-! ## Meanings: two sources at a width (R67, R68) -/

/-- Two register sources at a width. -/
def aluOp (i : Instr) (f : (n : Nat) → BitVec n → BitVec n → BitVec n) (w : Width) (d a b : Reg) (s : State) : Out :=
  compute i s d fun h => atWidth w f (h.reg a) (h.reg b)

/-- A register and an immediate of 64 bits. -/
def immOp (i : Instr) (f : Word → Word → Word) (d a : Reg) (imm : Word) (s : State) : Out :=
  compute i s d fun h => f (h.reg a) imm

/-- `add`, R67. -/
def execAdd (w : Width) (d a b : Reg) (s : State) : Out := aluOp (.add w d a b) addB w d a b s
/-- `sub`, R67. -/
def execSub (w : Width) (d a b : Reg) (s : State) : Out := aluOp (.sub w d a b) subB w d a b s
/-- `shl`, R67. -/
def execShl (w : Width) (d a b : Reg) (s : State) : Out := aluOp (.shl w d a b) shlB w d a b s
/-- `shr`, R67. -/
def execShr (w : Width) (d a b : Reg) (s : State) : Out := aluOp (.shr w d a b) shrB w d a b s
/-- `sra`, R67. -/
def execSra (w : Width) (d a b : Reg) (s : State) : Out := aluOp (.sra w d a b) sraB w d a b s
/-- `min`, R67. -/
def execMin (w : Width) (d a b : Reg) (s : State) : Out := aluOp (.min w d a b) minB w d a b s
/-- `max`, R67. -/
def execMax (w : Width) (d a b : Reg) (s : State) : Out := aluOp (.max w d a b) maxB w d a b s
/-- `minn`, R67. -/
def execMinn (w : Width) (d a b : Reg) (s : State) : Out := aluOp (.minn w d a b) minnB w d a b s
/-- `maxn`, R67. -/
def execMaxn (w : Width) (d a b : Reg) (s : State) : Out := aluOp (.maxn w d a b) maxnB w d a b s
/-- `slt`, R67. -/
def execSlt (w : Width) (d a b : Reg) (s : State) : Out := aluOp (.slt w d a b) sltB w d a b s
/-- `sltn`, R67. -/
def execSltn (w : Width) (d a b : Reg) (s : State) : Out := aluOp (.sltn w d a b) sltnB w d a b s
/-- `mul`, R67. -/
def execMul (w : Width) (d a b : Reg) (s : State) : Out := aluOp (.mul w d a b) mulB w d a b s
/-- `mulh`, R67. -/
def execMulh (w : Width) (d a b : Reg) (s : State) : Out := aluOp (.mulh w d a b) mulhB w d a b s
/-- `mulhn`, R67. -/
def execMulhn (w : Width) (d a b : Reg) (s : State) : Out := aluOp (.mulhn w d a b) mulhnB w d a b s
/-- `div`, R69. -/
def execDiv (w : Width) (d a b : Reg) (s : State) : Out := aluOp (.div w d a b) divB w d a b s
/-- `divn`, R69. -/
def execDivn (w : Width) (d a b : Reg) (s : State) : Out := aluOp (.divn w d a b) divnB w d a b s
/-- `rem`, R69. -/
def execRem (w : Width) (d a b : Reg) (s : State) : Out := aluOp (.rem w d a b) remB w d a b s
/-- `remn`, R69. -/
def execRemn (w : Width) (d a b : Reg) (s : State) : Out := aluOp (.remn w d a b) remnB w d a b s
/-- `clz`, R67. -/
def execClz (w : Width) (d a : Reg) (s : State) : Out := aluOp (.clz w d a) clzB w d a a s
/-- `ctz`, R67. -/
def execCtz (w : Width) (d a : Reg) (s : State) : Out := aluOp (.ctz w d a) ctzB w d a a s
/-- `popc`, R67. -/
def execPopc (w : Width) (d a : Reg) (s : State) : Out := aluOp (.popc w d a) popcB w d a a s
/-- `and`, R67. -/
def execAnd (d a b : Reg) (s : State) : Out := compute (.and d a b) s d fun h => h.reg a &&& h.reg b
/-- `or`, R67. -/
def execOr (d a b : Reg) (s : State) : Out := compute (.or d a b) s d fun h => h.reg a ||| h.reg b
/-- `xor`, R67. -/
def execXor (d a b : Reg) (s : State) : Out := compute (.xor d a b) s d fun h => h.reg a ^^^ h.reg b
/-- `andn`, R67. -/
def execAndn (d a b : Reg) (s : State) : Out := compute (.andn d a b) s d fun h => h.reg a &&& ~~~ h.reg b
/-- `bext`, R70. -/
def execBext (d a b : Reg) (s : State) : Out := compute (.bext d a b) s d fun h => extractField (h.reg a) (h.reg b)
/-- `bins`, R70. -/
def execBins (d a b : Reg) (s : State) : Out := compute (.bins d a b) s d fun h => insertField (h.reg d) (h.reg a) (h.reg b)
/-- `sel`, R71. -/
def execSel (d a b : Reg) (s : State) : Out := compute (.sel d a b) s d fun h => if h.reg d ≠ 0 then h.reg a else h.reg b
/-- `cellkey`, R75 and R76. -/
def execCellkey (dx dy dz : Delta) (d a b : Reg) (s : State) : Out :=
  computeFlags (.cellkey dx dy dz d a b) s d fun h => cellKey dx dy dz (h.reg a) (h.reg b) (h.oxr 0)

/-! ## Immediate forms (R72 to R74) -/

/-- `addi`, R72. -/
def execAddi (d a : Reg) (imm : BitVec 15) (s : State) : Out :=
  immOp (.addi d a imm) (fun x y => x + y) d a (sext imm) s
/-- `andi`, R72. -/
def execAndi (d a : Reg) (imm : BitVec 15) (s : State) : Out :=
  immOp (.andi d a imm) (fun x y => x &&& y) d a (sext imm) s
/-- `ori`, R72. -/
def execOri (d a : Reg) (imm : BitVec 15) (s : State) : Out :=
  immOp (.ori d a imm) (fun x y => x ||| y) d a (sext imm) s
/-- `xori`, R72. -/
def execXori (d a : Reg) (imm : BitVec 15) (s : State) : Out :=
  immOp (.xori d a imm) (fun x y => x ^^^ y) d a (sext imm) s
/-- `ldi`, R73. -/
def execLdi (d : Reg) (imm : BitVec 15) (s : State) : Out := compute (.ldi d imm) s d fun _ => sext imm
/-- `ldhi`, R73. -/
def execLdhi (d a : Reg) (imm : BitVec 15) (s : State) : Out :=
  immOp (.ldhi d a imm) (fun x y => (x <<< 15) ||| y) d a (zext imm) s
/-- `shli`, R74. -/
def execShli (w : Width) (d a : Reg) (n : BitVec 6) (s : State) : Out :=
  immOp (.shli w d a n) (atWidth w shlB) d a (zext n) s
/-- `shri`, R74. -/
def execShri (w : Width) (d a : Reg) (n : BitVec 6) (s : State) : Out :=
  immOp (.shri w d a n) (atWidth w shrB) d a (zext n) s
/-- `srai`, R74. -/
def execSrai (w : Width) (d a : Reg) (n : BitVec 6) (s : State) : Out :=
  immOp (.srai w d a n) (atWidth w sraB) d a (zext n) s

end Sys2Proof.Machine
end

