-- ==== Sys2Proof/Machine/Atomic.lean ====
section
/-! DEFINITION. Atomics: `amo`, `ared`, `cas` and `incw` (R179 to R183). -/

namespace Sys2Proof.Machine

/-- An operation at the access size on the old value and the operand. -/
def atSize (z : Width) (f : (n : Nat) → BitVec n → BitVec n → BitVec n) (m v : Nat) : Nat :=
  match z with
  | .w => (f 32 (BitVec.ofNat 32 m) (BitVec.ofNat 32 v)).toNat
  | .d => (f 64 (BitVec.ofNat 64 m) (BitVec.ofNat 64 v)).toNat

/-- The float format of an atomic. -/
def atomicFmt : Width → FloatFmt
  | .w => floatFmt .f32
  | .d => floatFmt .f64

/-- The operand at the access size. -/
def atomicOperand (z : Width) (v : Word) : Nat := v.toNat % 2 ^ (8 * widthBytes z)

/-- A read-modify-write that always writes: `amo` with a destination, `ared` without one. -/
def amoOp (i : Instr) (z : Width) (o : Order) (sc : Scope) (d : Option Reg) (a b : Reg) (f : Width → Nat → Nat → Nat) (s : State) : Out :=
  atomicOp i s (widthBytes z) o sc d (fun h => h.reg a) fun h m => some (f z m (atomicOperand z (h.reg b)))

/-- The new value of each operation of R179. -/
def newAdd (z : Width) (m v : Nat) : Nat := atSize z (fun _ x y => x + y) m v
def newAnd (z : Width) (m v : Nat) : Nat := atSize z (fun _ x y => x &&& y) m v
def newOr (z : Width) (m v : Nat) : Nat := atSize z (fun _ x y => x ||| y) m v
def newXor (z : Width) (m v : Nat) : Nat := atSize z (fun _ x y => x ^^^ y) m v
def newMin (z : Width) (m v : Nat) : Nat := atSize z (fun _ x y => if y.slt x then y else x) m v
def newMax (z : Width) (m v : Nat) : Nat := atSize z (fun _ x y => if x.slt y then y else x) m v
def newMinn (z : Width) (m v : Nat) : Nat := atSize z (fun _ x y => if y.ult x then y else x) m v
def newMaxn (z : Width) (m v : Nat) : Nat := atSize z (fun _ x y => if x.ult y then y else x) m v
def newSwap (_z : Width) (_m v : Nat) : Nat := v
def newFadd (z : Width) (m v : Nat) : Nat := ((atomicFmt z).add roundRNE false m v).1
def newFmin (z : Width) (m v : Nat) : Nat := (atomicFmt z).min m v
def newFmax (z : Width) (m v : Nat) : Nat := (atomicFmt z).max m v

/-- `amo.add`, R179. -/
def execAmoAdd (z : Width) (o : Order) (sc : Scope) (d a b : Reg) (s : State) : Out := amoOp (.amoAdd z o sc d a b) z o sc (some d) a b newAdd s
/-- `ared.add`, R179. -/
def execAredAdd (z : Width) (o : Order) (sc : Scope) (a b : Reg) (s : State) : Out := amoOp (.aredAdd z o sc a b) z o sc none a b newAdd s
/-- `amo.and`, R179. -/
def execAmoAnd (z : Width) (o : Order) (sc : Scope) (d a b : Reg) (s : State) : Out := amoOp (.amoAnd z o sc d a b) z o sc (some d) a b newAnd s
/-- `ared.and`, R179. -/
def execAredAnd (z : Width) (o : Order) (sc : Scope) (a b : Reg) (s : State) : Out := amoOp (.aredAnd z o sc a b) z o sc none a b newAnd s
/-- `amo.or`, R179. -/
def execAmoOr (z : Width) (o : Order) (sc : Scope) (d a b : Reg) (s : State) : Out := amoOp (.amoOr z o sc d a b) z o sc (some d) a b newOr s
/-- `ared.or`, R179. -/
def execAredOr (z : Width) (o : Order) (sc : Scope) (a b : Reg) (s : State) : Out := amoOp (.aredOr z o sc a b) z o sc none a b newOr s
/-- `amo.xor`, R179. -/
def execAmoXor (z : Width) (o : Order) (sc : Scope) (d a b : Reg) (s : State) : Out := amoOp (.amoXor z o sc d a b) z o sc (some d) a b newXor s
/-- `ared.xor`, R179. -/
def execAredXor (z : Width) (o : Order) (sc : Scope) (a b : Reg) (s : State) : Out := amoOp (.aredXor z o sc a b) z o sc none a b newXor s
/-- `amo.min`, R179. -/
def execAmoMin (z : Width) (o : Order) (sc : Scope) (d a b : Reg) (s : State) : Out := amoOp (.amoMin z o sc d a b) z o sc (some d) a b newMin s
/-- `ared.min`, R179. -/
def execAredMin (z : Width) (o : Order) (sc : Scope) (a b : Reg) (s : State) : Out := amoOp (.aredMin z o sc a b) z o sc none a b newMin s
/-- `amo.max`, R179. -/
def execAmoMax (z : Width) (o : Order) (sc : Scope) (d a b : Reg) (s : State) : Out := amoOp (.amoMax z o sc d a b) z o sc (some d) a b newMax s
/-- `ared.max`, R179. -/
def execAredMax (z : Width) (o : Order) (sc : Scope) (a b : Reg) (s : State) : Out := amoOp (.aredMax z o sc a b) z o sc none a b newMax s
/-- `amo.minn`, R179. -/
def execAmoMinn (z : Width) (o : Order) (sc : Scope) (d a b : Reg) (s : State) : Out := amoOp (.amoMinn z o sc d a b) z o sc (some d) a b newMinn s
/-- `ared.minn`, R179. -/
def execAredMinn (z : Width) (o : Order) (sc : Scope) (a b : Reg) (s : State) : Out := amoOp (.aredMinn z o sc a b) z o sc none a b newMinn s
/-- `amo.maxn`, R179. -/
def execAmoMaxn (z : Width) (o : Order) (sc : Scope) (d a b : Reg) (s : State) : Out := amoOp (.amoMaxn z o sc d a b) z o sc (some d) a b newMaxn s
/-- `ared.maxn`, R179. -/
def execAredMaxn (z : Width) (o : Order) (sc : Scope) (a b : Reg) (s : State) : Out := amoOp (.aredMaxn z o sc a b) z o sc none a b newMaxn s
/-- `amo.swap`, R179. -/
def execAmoSwap (z : Width) (o : Order) (sc : Scope) (d a b : Reg) (s : State) : Out := amoOp (.amoSwap z o sc d a b) z o sc (some d) a b newSwap s
/-- `ared.swap`, R179. -/
def execAredSwap (z : Width) (o : Order) (sc : Scope) (a b : Reg) (s : State) : Out := amoOp (.aredSwap z o sc a b) z o sc none a b newSwap s
/-- `amo.fadd`, R179. -/
def execAmoFadd (z : Width) (o : Order) (sc : Scope) (d a b : Reg) (s : State) : Out := amoOp (.amoFadd z o sc d a b) z o sc (some d) a b newFadd s
/-- `ared.fadd`, R179. -/
def execAredFadd (z : Width) (o : Order) (sc : Scope) (a b : Reg) (s : State) : Out := amoOp (.aredFadd z o sc a b) z o sc none a b newFadd s
/-- `amo.fmin`, R179. -/
def execAmoFmin (z : Width) (o : Order) (sc : Scope) (d a b : Reg) (s : State) : Out := amoOp (.amoFmin z o sc d a b) z o sc (some d) a b newFmin s
/-- `ared.fmin`, R179. -/
def execAredFmin (z : Width) (o : Order) (sc : Scope) (a b : Reg) (s : State) : Out := amoOp (.aredFmin z o sc a b) z o sc none a b newFmin s
/-- `amo.fmax`, R179. -/
def execAmoFmax (z : Width) (o : Order) (sc : Scope) (d a b : Reg) (s : State) : Out := amoOp (.amoFmax z o sc d a b) z o sc (some d) a b newFmax s
/-- `ared.fmax`, R179. -/
def execAredFmax (z : Width) (o : Order) (sc : Scope) (a b : Reg) (s : State) : Out := amoOp (.aredFmax z o sc a b) z o sc none a b newFmax s

/-- `cas`, R180: the old value is compared with s[d], and d receives it either way. -/
def execCas (z : Width) (o : Order) (sc : Scope) (d a b : Reg) (s : State) : Out :=
  atomicOp (.cas z o sc d a b) s (widthBytes z) o sc (some d) (fun h => h.reg a) fun h m =>
    if m = atomicOperand z (h.reg d) then some (atomicOperand z (h.reg b)) else none
/-- `incw`, R180. -/
def execIncw (z : Width) (o : Order) (sc : Scope) (d a b : Reg) (s : State) : Out :=
  atomicOp (.incw z o sc d a b) s (widthBytes z) o sc (some d) (fun h => h.reg a) fun h m =>
    some (if atomicOperand z (h.reg b) ≤ m then 0 else m + 1)

end Sys2Proof.Machine
end

