-- ==== Sys2Proof/Machine/Link.lean ====
section
/-! DEFINITION. The host link and the peers: host accesses, shared pages, hand-overs and links that fail (R352, R387 to R401). -/

namespace Sys2Proof.Machine

/-! ## Registers of the host's windows (R352, R388) -/

/-- A register of a queue's kick page as it reads. -/
def kickPageRead (s : State) (q off : Nat) : Word :=
  let k := s.queue q
  let state : Nat := match k.state with
    | .idle => 0 | .fetching => 1 | .waiting => 2 | .error => 3
  match off with
  | 0x08 => BitVec.ofNat 64 k.wmax
  | 0x10 => BitVec.ofNat 64 k.rd
  | 0x18 => BitVec.ofNat 64 (state + (if k.pending.isSome then 4 else 0))
  | _ => 0

/-- A register of BAR2 as it reads. -/
def registerRead (s : State) (off : Nat) : Word :=
  match off with
  | 0x00 => s.links.devid
  | 0x08 => s.links.lebase
  | 0x10 => s.links.lectl
  | 0x18 => s.links.lewidx
  | 0x20 => s.links.leridx
  | 0x28 => s.links.ledrop
  | _ => 0

/-- A write of a register of BAR2; bits without a field stay 0. -/
def registerWrite (s : State) (off : Nat) (v : Word) : State :=
  let r := s.links
  match off with
  | 0x08 => { s with links := { r with lebase := v &&& ~~~63#64 } }
  | 0x10 => { s with links := { r with lectl := v &&& 0x7FF000F#64 } }
  | 0x20 => { s with links := { r with leridx := v } }
  | 0x28 => { s with links := { r with ledrop := r.ledrop &&& ~~~v } }
  | _ => s

/-- REGISTER_WRITE: the host writes a register of BAR2 (R388). -/
def execRegisterWrite (addr : Nat) (v : Word) (s : State) : Out :=
  if s.service.host = .up then .next (registerWrite s addr v) else .next s

/-! ## Host accesses (R325, R387, R403) -/

/-- A frame whose writes wait for a hand-over (R396). -/
def frameMoving (s : State) (pa : Nat) : Bool := siteOf s pa true = .moving

/-- An access of the host to its own memory, performed at the host once the line has left the mere slice that caches it (R287, R325, R387). -/
def hostOwnMemory (s : State) (pa : Nat) (write : Bool) (n : Nat) (v : Word) : State :=
  let s := s.evictMere (pa / 64)
  if write then (s.setBytes pa (bytesLE n v.toNat)).overwritten (pa / 64) (maskOf (pa % 64) n) else s.report (.hostData (BitVec.ofNat 64 (s.backingBytes pa n)))

/-- A host access to device memory, which invalidates read copies and recalls the line from every cache of the die, or to the host's own. -/
def hostMemory (s : State) (pa : Nat) (write : Bool) (n : Nat) (v : Word) : State :=
  if pa % n ≠ 0 then s
  else if 2 ^ 47 ≤ pa && pa < 2 ^ 48 then hostOwnMemory s pa write n v
  else if 2 ^ 42 ≤ pa then s
  else if !dykeAllowsHost s pa then s.report .hostAbort
  else if write then
    if frameMoving s pa then s
    else (((dropCopies s pa true).recallLine (pa / 64)).writeHome pa (v.toNat % 2 ^ (8 * n)) n)
  else
    let s := s.recallLine (pa / 64)
    s.report (.hostData (BitVec.ofNat 64 (s.homeBytes pa n)))

/-- HOST_ACCESS: a host access is performed at the home, or reaches a register; while the link is not up it waits, but for a kick, which recovery holds (R352, R387, R390). -/
def execHostAccess (target : HostTarget) (write : Bool) (z : Size) (v : Word) (s : State) : Out :=
  let kick : Bool := match target with
    | .kickPage _ _ => write
    | .memory _ | .register _ => false
  if s.service.host ≠ .up && !(s.service.host = .recovery && kick) then .next s
  else match target with
    | .memory pa => .next (hostMemory s pa write (sizeBytes z) v)
    | .kickPage q off =>
      if 4096 ≤ q then .fault .noSuchUnit
      else if z ≠ .d then .next s
      else if !write then .next (s.report (.hostData (kickPageRead s q off)))
      else match off with
        | 0x00 => .next (kickPageWrite s q false v)
        | 0x20 => .next (kickPageWrite s q true v)
        | _ => .next s
    | .register off =>
      if z ≠ .d then .next s
      else if write then .next (registerWrite s off v)
      else .next (s.report (.hostData (registerRead s off)))

/-! ## The host link (R389, R390) -/

/-- Every task that is not done ends with a cause. -/
def endAllTasks (s : State) (cause : Nat) : State :=
  s.tasks.foldl (fun (s : State) p => if p.2.phase = .done then s else finishWith s p.1 cause) s

/-- HOST_LINK_RECOVERY: the link enters recovery, or returns: the host lines that the mere held back are written, and the writes of the front end that waited and the held kicks apply in their order (R390). -/
def execHostLinkRecovery (back : Bool) (s : State) : Out :=
  match back, s.service.host with
  | false, .up => .next { s with service := { s.service with host := .recovery } }
  | true, .recovery =>
    let held := s.service.heldKicks
    let s := (releaseHomes { s with service := { s.service with host := .up, heldKicks := [] } } .system).settleFront
    .next (held.foldl (fun (s : State) k => kickPageWrite s k.1 k.2.1 k.2.2) s)
  | _, _ => .next s

/-- HOST_LINK_DOWN: recovery has failed, and every task of the owner completes with cause 4 (R390). -/
def execHostLinkDown (s : State) : Out :=
  match s.service.host with
  | .recovery => .next (endAllTasks ({ s with service := { s.service with host := .down, heldKicks := [] } }).settleFront 4)
  | .up | .down => .next s

/-- OWNERSHIP_CHANGE: the tasks end, every SRAM and HBM byte is cleared, and every queue is closed (R389). -/
def execOwnershipChange (owner : Nat) (s : State) : Out :=
  if s.service.phase ≠ .running then .next s
  else
    let s := endAllTasks s 4
    .next { State.reset with
      clock := s.clock
      freeCtr := s.freeCtr
      cur := s.cur
      agenda := s.agenda
      turn := s.turn
      mem := s.mem.filter fun c => 2 ^ 47 ≤ c.1 && c.1 < 2 ^ 48
      tasks := s.tasks
      nextTask := s.nextTask
      nextNode := s.nextNode
      reports := s.reports
      links := { State.reset.links with devid := s.links.devid }
      scaleUp := s.scaleUp
      routes := s.routes
      peersDown := s.peersDown
      service := { s.service with
        owner := owner
        heldKicks := []
        poison := []
        debugger := false
        floor := BitVec.allOnes 64
        floorAt := none
        host := .up } }

/-! ## Requests from peers (R325, R394, R395, R199) -/

/-- The new value of a location, and nothing for a read or a comparison that fails. -/
def remoteNew (op : RemoteOp) (z : Width) (m v : Nat) : Option Nat :=
  match op with
  | .read => none
  | .write | .swap => some v
  | .add => some (newAdd z m v)
  | .and => some (newAnd z m v)
  | .or => some (newOr z m v)
  | .xor => some (newXor z m v)
  | .min => some (newMin z m v)
  | .max => some (newMax z m v)
  | .minn => some (newMinn z m v)
  | .maxn => some (newMaxn z m v)
  | .fadd => some (newFadd z m v)
  | .fmin => some (newFmin z m v)
  | .fmax => some (newFmax z m v)
  | .cas e => if m = atomicOperand z e then some v else none
  | .incw => some (if v ≤ m then 0 else m + 1)

/-- The width of an atomic; a read or write has any size. -/
def remoteWidth (op : RemoteOp) (z : Size) : Option Width :=
  match z with
  | .w => some .w
  | .d => some .d
  | .b | .h => match op with
    | .read | .write => some .w
    | _ => none

/-- A request performed at the home: every read copy but the writer's goes first, and the peer has its answer. -/
def performRemote (s : State) (src : Nat) (op : RemoteOp) (pa : Nat) (z : Size) (w : Width) (v : Word) : State :=
  let n := sizeBytes z
  let s := s.recallLine (pa / 64)
  let m := s.homeBytes pa n
  let s := match remoteNew op w m (v.toNat % 2 ^ (8 * n)) with
    | none => s
    | some x =>
      let s := match tfind (pa / 4096) s.homes with
        | some e => { s with homes := tset (pa / 4096) { e with copies := e.copies.filter fun d => d = src } s.homes }
        | none => s
      s.writeHome pa x n
  match op with
  | .write => s.report (.peerAnswer src 0)
  | _ => s.report (.peerData src (BitVec.ofNat 64 m))

/-- A peer's request that has reached a shared page homed here is performed, unless a Dyke window refuses it (R403), or it waits for a hand-over or a tombstone (R325, R395 to R397). -/
def takeRequest (src : Nat) (op : RemoteOp) (pa : Nat) (z : Size) (v : Word) (s : State) : State :=
  match tfind (pa / 4096) s.homes, remoteWidth op z with
  | some e, some w =>
    let hold := { s with homes := tset (pa / 4096) { e with held := e.held ++ [⟨src, op, pa, z, v⟩] } s.homes }
    let kind : Access := match op with
      | .read => .read
      | .write => .write
      | _ => .update
    if pa % sizeBytes z ≠ 0 then s
    else if !dykeAllowsTask s pa kind then s.report (.peerRefused src pa)
    else if e.tombstone.isSome then hold
    else if e.home ≠ s.ownDevice then s
    else if e.moving && op ≠ .read then hold
    else performRemote s src op pa z w v
  | _, _ => s

/-- REMOTE_REQUEST: a peer's request arrives over a port that is up (R398). In recovery mode the module answers on its sideband alone (R405). -/
def execRemoteRequest (src : Nat) (op : RemoteOp) (pa : Nat) (z : Size) (v : Word) (s : State) : Out :=
  if s.service.phase ≠ .running || reach s src ≠ .up then .next s else .next (takeRequest src op pa z v s)

/-- RENQ_RECEIVE: a packet from a peer is placed at the queue's write index, or refused, and the credit returns with the status; acknowledgements of packets sent to that peer may have come with it (R199, R393). -/
def execRenqReceive (src q : Nat) (packet : Vector Word 8) (s : State) : Out :=
  if 4096 ≤ q then .fault .noSuchUnit
  else if s.service.phase ≠ .running || reach s src ≠ .up then .next s
  else
    let r := receivePacket (settlePackets s src) q none packet.toList
    .next (r.2.report (.peerAnswer src r.1))

/-! ## Pages (R395 to R397) -/

def setHome (s : State) (page : Nat) (e : HomeEntry) : State := { s with homes := tset page e s.homes }

/-- A page that arrives from a peer, with whatever others wrote in it: 512 words that only the peer knows (log entry 4). -/
def installPage (s : State) (page : Nat) : State :=
  let s := flushFrame s page
  let words := freeWords s 512
  let s := (List.range 64).foldl (fun (s : State) k => s.overwritten (64 * page + k) (BitVec.allOnes 64)) s
  let s := words.zipIdx.foldl (fun (s : State) p => s.setBytes (4096 * page + 8 * p.2) (bytesLE 8 p.1.toNat)) s
  { s with freeCtr := s.freeCtr + 512 }

/-- REMOTE_READ_MISS: a coherent page homed here goes to a device as a read copy, to at most 1,023 others, so that 1,024 share it (R1), unless a Dyke window refuses it (R403), or the copy that this device asked for arrives (R395). -/
def execRemoteReadMiss (dev page : Nat) (s : State) : Out :=
  match tfind page s.homes with
  | none => .next s
  | some e =>
    if s.service.phase ≠ .running || !e.coherent || e.tombstone.isSome then .next s
    else if dev = s.ownDevice then
      if e.home = dev || e.copy || reach s e.home ≠ .up then .next s
      else .next (setHome (installPage s page) page { e with copy := true })
    else if e.home ≠ s.ownDevice || e.moving || reach s dev ≠ .up || (1023 ≤ e.copies.length && !e.copies.contains dev) then .next s
    else if !dykeAllowsTask s (4096 * page) .read then .next (s.report (.peerRefused dev (4096 * page)))
    else
      let s := (List.range 64).foldl (fun (s : State) k => s.cleanLine (64 * page + k)) s
      .next (setHome s page { e with copies := if e.copies.contains dev then e.copies else e.copies ++ [dev] })

/-- The page lies in the memory window of an armed weir, one that a save holds among them (R369, R396). -/
def weirCovers (s : State) (page : Nat) : Bool :=
  s.allWeirs.any fun p => p.2.state = .armed && p.2.window.any fun x => x.1 < 4096 * (page + 1) && 4096 * page < x.1 + x.2

/-- PAGE_HANDOVER: the old home starts a hand-over, and at the next occurrence sends the page and leaves its tombstone; the new home installs the page; any other device learns of it, and with requests to the old home unanswered it takes a second occurrence, when they are, over a port that is up (R396 to R398).
Where the page comes back, requests that its tombstone still held are performed here, in their order, whether or not a port to their source retrains. -/
def execPageHandover (page home : Nat) (s : State) : Out :=
  match tfind page s.homes with
  | none => .next s
  | some e =>
    let own := s.ownDevice
    let here := s.posted.any fun p => p.frame = page && !p.lost
    if s.service.phase ≠ .running || !e.coherent || e.home = home || !deviceAssigned home then .next s
    else if e.home = own then
      if e.moving then
        if e.next = some home then .next (setHome s page { e with home := home, moving := false, tombstone := some home, next := none }).settleFront else .next s
      else if weirCovers s page || reach s home ≠ .up then .next s
      else .next (setHome (flushFrame s page) page { e with moving := true, copies := [], next := some home })
    else if home = own then
      if reach s e.home ≠ .up then .next s
      else
      let s := if e.copy then s else installPage s page
      let s := setHome s page { e with home := own, copy := false, copies := [], tombstone := none, held := [], next := none }
      .next (e.held.foldl (fun (s : State) r => takeRequest r.source r.op r.addr r.size r.value s) s).settleFront
    else if here && e.next ≠ some home then .next (setHome s page { e with next := some home, copy := false })
    else if here && reach s e.home ≠ .up then .next s
    else
      let s := { s with posted := s.posted.filter fun p => p.frame ≠ page || p.lost }
      .next (setHome s page { e with home := home, copy := false, next := none }).settleFront

/-- TOMBSTONE_FORWARD: held request `n` goes on to the new home, after every earlier one of its source (R397). -/
def execTombstoneForward (page n : Nat) (s : State) : Out :=
  match tfind page s.homes with
  | none => .next s
  | some e =>
    match e.tombstone, nth? e.held n with
    | some dev, some r =>
      if s.service.phase ≠ .running || reach s dev ≠ .up || (e.held.take n).any fun x => x.source = r.source then .next s
      else .next ((setHome s page { e with held := dropNth e.held n }).report (.forwarded dev r.addr))
    | _, _ => .next s

/-- TOMBSTONE_REMOVE: every device has confirmed the new home (R397). -/
def execTombstoneRemove (page : Nat) (s : State) : Out :=
  match tfind page s.homes with
  | none => .next s
  | some e => if s.service.phase = .running && e.held.isEmpty then .next (setHome s page { e with tombstone := none }) else .next s

/-! ## Links that fail (R398 to R401) -/

/-- A port begins to retrain, or has succeeded. -/
def retrainPort (s : State) (port : Nat) : State :=
  match s.scalePort port with
  | .up => { s with scaleUp := tset port (.retraining s.clock) s.scaleUp }
  | .retraining _ => (settleSending { s with scaleUp := tset port .up s.scaleUp }).settleFront
  | .down => s

/-- PORT_RETRAIN: a port begins to retrain, or has succeeded (R398). -/
def execPortRetrain (port : Nat) (s : State) : Out :=
  if numPorts ≤ port then .fault .noSuchUnit else .next (retrainPort s port)

/-- A write put among the runs of its agent and task: it joins one whose bytes it meets or overlaps, and with it any that this one then meets. -/
def joinRun : Posted → List Posted → List Posted
  | p, [] => [p]
  | p, q :: l =>
    let a := p.va.toNat
    let b := q.va.toNat
    if p.agent = q.agent && p.task = q.task && a ≤ b + q.bytes && b ≤ a + p.bytes then
      let lo := min a b
      joinRun { p with va := BitVec.ofNat 64 lo, bytes := max (a + p.bytes) (b + q.bytes) - lo } l
    else q :: joinRun p l

/-- Contiguous runs of the writes of each agent. -/
def joinRuns (ps : List Posted) : List Posted := ps.foldl (fun l p => joinRun p l) []

/-- Every request to a device that free values say was answered by now, among those that have left (R398, R399, log entry 4): its posted writes and the packets whose sender waits for no status.
The records of packets that were refused, then what is still outstanding. -/
def settleAnswers (s : State) (dev : Nat) : State :=
  let keeps : List Posted → Nat → List Posted := fun l n =>
    (l.zipIdx.filter fun p => p.1.peer ≠ dev || p.1.lost || p.1.waiting || (Config.free (n + p.2)).getLsbD 0).map Prod.fst
  let n := s.freeCtr
  let s := { s with posted := keeps s.posted n, freeCtr := n + s.posted.length }
  settlePackets s dev

/-- The sender of a packet sleeps for its answer on its units, and no record that the answer refers to still waits (R400). -/
def answersNow (s : State) (r : Renq) : Bool :=
  Renq.of s r.sender r && !s.recordsWait && match (s.hart r.sender).status with
    | .sleeping .answer _ => true
    | .sleeping _ _ | .empty | .ready | .halted | .stopped => false

/-- A peer is declared down: its own record first, then one for each run of uncertain writes and each uncertain packet; an acknowledged `renq` ends with status 3 (R399, R400). -/
def declareDown (s : State) (port dev : Nat) : State :=
  let s := { s.linkRecord 3 port dev 0 none none 0 with peersDown := tset dev port s.peersDown }
  let s := settleAnswers s dev
  let mine : Posted → Bool := fun p => p.peer = dev && !p.lost
  let s := (joinRuns (s.posted.filter mine)).foldl (fun (s : State) p => s.linkRecord 1 port dev p.va p.agent p.task p.bytes) s
  let s := { s with posted := (s.posted.filter fun p => !(mine p && p.gone)).map fun p => if mine p then { p with lost := true } else p }
  let open_ : Renq → Bool := fun r => r.dest = dev && r.answer.isNone
  let s := (s.renqs.filter open_).foldl (fun (s : State) r => s.linkRecord 2 port dev r.va (some r.sender) r.task 64) s
  let s := { s with renqs := (s.renqs.filter fun r => !open_ r || (r.ack && !r.gone)).map fun r => if open_ r then { r with answer := some 3 } else r }
  (s.renqs.foldl (fun (s : State) r =>
    if r.dest = dev && r.answer = some 3 && answersNow s r then answerWith s r 3 else s) s).settleFront

/-- PORT_DOWN: a retrain has failed, and every peer that no port reaches any more is declared down with the port (R398, R399). -/
def execPortDown (port : Nat) (s : State) : Out :=
  if numPorts ≤ port then .fault .noSuchUnit
  else match s.scalePort port with
    | .retraining _ =>
      let s := { s with scaleUp := tset port .down s.scaleUp }
      let lost := s.routes.filter fun r => r.2.contains port && (tfind r.1 s.peersDown).isNone && r.2.all fun p => numPorts ≤ p || s.scalePort p = .down
      .next (lost.foldl (fun (s : State) r => declareDown s port r.1) s)
    | .up | .down => .next s

/-- PEER_COME_BACK: a peer that was declared down is reached again over the first of its ports (R401). -/
def execPeerComeBack (dev : Nat) (s : State) : Out :=
  if (tfind dev s.peersDown).isNone then .next s
  else match routeOf s dev with
    | [] => .next s
    | p :: r =>
      let up := (p :: r).any fun x => s.scalePort x = .up
      .next (settleSending { s with
        peersDown := tdrop dev s.peersDown
        scaleUp := if up then s.scaleUp else tset p .up s.scaleUp }).settleFront

end Sys2Proof.Machine
end

