-- ==== Sys2Proof/Machine/Sha.lean ====
section
/-! DEFINITION. SHA-256 of measurements and the CRC-32 of journal records, which R404 and R406 name (PRESUMED from FIPS 180-4 and IEEE 802.3, log entry 54). -/

namespace Sys2Proof.Machine

/-! ## SHA-256 -/

/-- The round constants: the first 32 bits of the fractions of the cube roots of the first 64 primes. -/
def shaK : List (BitVec 32) :=
  [0x428a2f98, 0x71374491, 0xb5c0fbcf, 0xe9b5dba5, 0x3956c25b, 0x59f111f1, 0x923f82a4, 0xab1c5ed5] ++
  [0xd807aa98, 0x12835b01, 0x243185be, 0x550c7dc3, 0x72be5d74, 0x80deb1fe, 0x9bdc06a7, 0xc19bf174] ++
  [0xe49b69c1, 0xefbe4786, 0x0fc19dc6, 0x240ca1cc, 0x2de92c6f, 0x4a7484aa, 0x5cb0a9dc, 0x76f988da] ++
  [0x983e5152, 0xa831c66d, 0xb00327c8, 0xbf597fc7, 0xc6e00bf3, 0xd5a79147, 0x06ca6351, 0x14292967] ++
  [0x27b70a85, 0x2e1b2138, 0x4d2c6dfc, 0x53380d13, 0x650a7354, 0x766a0abb, 0x81c2c92e, 0x92722c85] ++
  [0xa2bfe8a1, 0xa81a664b, 0xc24b8b70, 0xc76c51a3, 0xd192e819, 0xd6990624, 0xf40e3585, 0x106aa070] ++
  [0x19a4c116, 0x1e376c08, 0x2748774c, 0x34b0bcb5, 0x391c0cb3, 0x4ed8aa4a, 0x5b9cca4f, 0x682e6ff3] ++
  [0x748f82ee, 0x78a5636f, 0x84c87814, 0x8cc70208, 0x90befffa, 0xa4506ceb, 0xbef9a3f7, 0xc67178f2]

/-- The initial hash value: the first 32 bits of the fractions of the square roots of the first eight primes. -/
def shaInit : List (BitVec 32) := [0x6a09e667, 0xbb67ae85, 0x3c6ef372, 0xa54ff53a, 0x510e527f, 0x9b05688c, 0x1f83d9ab, 0x5be0cd19]

/-- A word of the message schedule from the ones before it, the latest first. -/
def shaWord (ws : List (BitVec 32)) : BitVec 32 :=
  let x := nth 0 ws 14
  let y := nth 0 ws 1
  let s0 := x.rotateRight 7 ^^^ x.rotateRight 18 ^^^ x >>> 3
  let s1 := y.rotateRight 17 ^^^ y.rotateRight 19 ^^^ y >>> 10
  nth 0 ws 15 + s0 + nth 0 ws 6 + s1

/-- The message schedule of a block of sixteen words, latest first. -/
def shaSchedule (block : List (BitVec 32)) : List (BitVec 32) :=
  (List.range 48).foldl (fun ws _ => shaWord ws :: ws) block.reverse

/-- One round on the eight working variables. -/
def shaRound (v : List (BitVec 32)) (kw : BitVec 32) : List (BitVec 32) :=
  match v with
  | [a, b, c, d, e, f, g, h] =>
    let s1 := e.rotateRight 6 ^^^ e.rotateRight 11 ^^^ e.rotateRight 25
    let t1 := h + s1 + ((e &&& f) ^^^ (~~~e &&& g)) + kw
    let s0 := a.rotateRight 2 ^^^ a.rotateRight 13 ^^^ a.rotateRight 22
    let t2 := s0 + ((a &&& b) ^^^ (a &&& c) ^^^ (b &&& c))
    [t1 + t2, a, b, c, d + t1, e, f, g]
  | _ => v

/-- One block taken into a hash value. -/
def shaBlock (h block : List (BitVec 32)) : List (BitVec 32) :=
  let v := (List.zipWith (· + ·) shaK (shaSchedule block).reverse).foldl shaRound h
  List.zipWith (· + ·) h v

/-- A value's bytes, the most significant first. -/
def bigEndian (n v : Nat) : List Byte := (bytesOf n v).reverse

/-- A message with its padding, in whole blocks of 64 bytes. -/
def shaPadded (m : List Byte) : List Byte :=
  m ++ [0x80] ++ List.replicate ((119 - m.length % 64) % 64) 0 ++ bigEndian 8 (8 * m.length)

/-- The number that bytes stand for, the most significant first. -/
def bigNumber (bs : List Byte) : Nat := bs.foldl (fun n b => 256 * n + b.toNat) 0

/-- SHA-256 of a message. -/
def sha256 (m : List Byte) : BitVec 256 :=
  let p := shaPadded m
  let ws : List (BitVec 32) := (List.range (p.length / 4)).map fun k => BitVec.ofNat 32 (bigNumber ((p.drop (4 * k)).take 4))
  let h := (List.range (p.length / 64)).foldl (fun h k => shaBlock h ((ws.drop (16 * k)).take 16)) shaInit
  BitVec.ofNat 256 (h.foldl (fun n w => 2 ^ 32 * n + w.toNat) 0)

/-- A measurement extended: SHA-256 of the register and the digest, one behind the other (R406). -/
def extended (m digest : BitVec 256) : BitVec 256 := sha256 (bigEndian 32 m.toNat ++ bigEndian 32 digest.toNat)

/-! ## CRC-32 -/

/-- One bit of the CRC's division. -/
def crcBit (c : BitVec 32) : BitVec 32 := if c.getLsbD 0 then c >>> 1 ^^^ 0xEDB88320#32 else c >>> 1

/-- CRC-32 of bytes. -/
def crc32 (bs : List Byte) : BitVec 32 :=
  ~~~(bs.foldl (fun c b => (List.range 8).foldl (fun c _ => crcBit c) (c ^^^ b.setWidth 32)) (BitVec.allOnes 32))

end Sys2Proof.Machine
end

