-- ==== Sys2Proof/Machine/Boot.lean ====
section
/-! DEFINITION. Boot, firmware and service: the journal, the configuration table, the Dyke windows, attestation and repair (R402 to R410). -/

namespace Sys2Proof.Machine

/-! ## The journal (R404, R405) -/

/-- Records of 32 bytes that the ring of 4 MiB holds. -/
def journalSize : Nat := 131072

/-- A measurement register extended (R406). -/
def extendMeas (v : Service) (n : Nat) (digest : BitVec 256) : Service :=
  { v with meas := vset v.meas n (extended (vget 0 v.meas n) digest) }

/-- The number that a journal record, a table or an image is known by. -/
def recordNumber (r : Journal) : Nat := 4 * (r.step + 8 * r.state + 64 * (r.detail + 2 ^ 64 * r.boot))
def tableNumber (w : Vector Word 8) : Nat := 4 * w.toList.foldr (fun (x : Word) n => x.toNat + 2 ^ 64 * n) 0 + 1
def imageNumber (n : Nat) : Nat := 4 * n + 2
def romNumber : Nat := 3

/-- The CRC of a record's first 28 bytes, the most significant byte of each doubleword first, so that the CRC is what comes after them (R404; DEDUCED, log entry 54). -/
def recordCrc (step state boot detail : Nat) : BitVec 32 :=
  crc32 (bigEndian 8 (2 ^ 48 * step + 2 ^ 40 * state) ++ bigEndian 8 boot ++ bigEndian 8 detail ++ bigEndian 4 0)

/-- A record whose CRC fails. -/
def Journal.torn (r : Journal) : Bool := r.crc ≠ recordCrc r.step r.state r.boot r.detail

/-- A record written by the boot under way; MEAS3 takes it. -/
def writeJournal (v : Service) (step state detail : Nat) : Service :=
  let r : Journal := ⟨step, state, v.boot, detail, recordCrc step state v.boot detail⟩
  let j := v.flash.journal ++ [r]
  let v := { v with flash := { v.flash with journal := j.drop (j.length - journalSize) } }
  extendMeas v 3 (Config.digest (recordNumber r))

/-- The STATE of the last record that a boot wrote for a step; a torn record reads as 1. -/
def lastState (v : Service) (boot step : Nat) : Option Nat :=
  ((v.flash.journal.filter fun r => r.boot = boot && r.step = step).getLast?).map fun r => if r.torn then 1 else r.state

/-- The steps that have an alternative, and the one that can be skipped. -/
def hasAlternative (step : Nat) : Bool := step = 2 || step = 4
def skippable (step : Nat) : Bool := step = 3

/-- A step begins in the mode that the previous boot's record leaves it, or is skipped. -/
def beginStep (v : Service) (step : Nat) : Service :=
  let record := fun (st : Nat) => { writeJournal v step st 0 with phase := .booting step }
  match lastState v (v.boot - 1) step with
  | none | some 2 | some 3 => record 1
  | some st =>
    if st = 1 && hasAlternative step then record 4
    else if skippable step then record 3
    else { v with phase := .recovery }

/-! ## The configuration table (R402) -/

def tableWidth (w : Vector Word 8) : Nat := (vget 0 w 0).toNat % 2 ^ 4
def tableColumn (w : Vector Word 8) : Nat := (vget 0 w 0).toNat / 2 ^ 8 % 2 ^ 8
def tableStandby (w : Vector Word 8) : Nat := (vget 0 w 0).toNat / 2 ^ 16 % 2 ^ 8
/-- Bit r: core k has role r. -/
def tableRole (w : Vector Word 8) (k r : Nat) : Bool := (vget 0 w 1).getLsbD (5 * k + r)

/-- The fields of a copy pass the checks. -/
def tableLegal (w : Vector Word 8) : Bool :=
  let n := tableWidth w
  let a := tableColumn w
  let b := tableStandby w
  2 ≤ n && n ≤ 8 && a + n ≤ 256 && b + n ≤ 256 && (a + n ≤ b || b + n ≤ a) &&
  ((List.range 8).all fun k => k < n || (List.range 5).all fun r => !tableRole w k r) &&
  ((List.range 5).all fun r => (List.range n).any fun k => tableRole w k r) &&
  (vget 0 w 0).toNat / 2 ^ 24 % 2 ^ 8 = 0 && (vget 0 w 0).toNat / 2 ^ 4 % 2 ^ 4 = 0 && (vget 0 w 1).toNat / 2 ^ 40 = 0 &&
  [4, 5, 6, 7].all fun k => vget 0 w k = 0

/-- The first copy whose signature verifies and whose fields pass. -/
def chosenTable (t : FlashTables) : Option (Vector Word 8) :=
  let good : Option (Vector Word 8 × Nat) → Option (Vector Word 8) := fun c => match c with
    | some (w, sig) => if Config.signatureGood sig w.toList && tableLegal w then some w else none
    | none => none
  match good t.tableA with
  | some w => some w
  | none => good t.tableB

/-- The boot core starts: a new boot number, the measurements at 0, the table, and step 1. -/
def startBoot (v : Service) (b : BootInput) : Service :=
  let tables := b.tables.getD v.flash.tables
  let v := { v with boot := v.boot + 1, flash := { v.flash with tables := tables }, meas := Vector.replicate 8 0 }
  let v := extendMeas v 0 (Config.digest romNumber)
  match chosenTable tables with
  | none => { v with phase := .recovery }
  | some w =>
    let v := { v with table := some w, column := tableColumn w, standby := tableStandby w, width := tableWidth w }
    beginStep (extendMeas v 1 (Config.digest (tableNumber w))) 1

/-! ## The steps (R405) -/

/-- Every Dyke window fixed until the next power-on (R403). -/
def lockDyke (v : Service) : Service := { v with dyke := v.dyke.map fun w => (w.1, w.2 ||| 1) }

/-- What a boot step does; nothing where it cannot end. Krany assigns an identifier below 200,000 (R392). -/
def bootWork (s : State) (step : Nat) (alternative : Bool) (b : BootInput) : Option State :=
  let v := s.service
  match step with
  | 2 =>
    if b.badChannels.isEmpty then some s
    else if alternative then
      some { s with service := { v with retired := v.retired ++ b.badChannels.map fun c => firstChannel + c } }
    else none
  | 3 => some { s with scaleUp := (b.ports.filter fun p => p < numPorts).map fun p => (p, PortState.up) }
  | 4 =>
    let off := match v.table with
      | some w => (vget 0 w (if alternative then 3 else 2)).toNat
      | none => 0
    match tfind off v.flash.tables.images, decide (b.devid.toNat % 2 ^ 18 < 200000) with
    | none, _ | _, false => none
    | some n, true => some { s with
        links := { s.links with devid := b.devid &&& 0x1FFFFFFF#64 }
        routes := (b.routes.filter fun r => r.1 < 200000).map fun r => (r.1, r.2.filter fun p => p < numPorts)
        service := extendMeas { v with firmwareImage := some n } 2 (Config.digest (imageNumber n)) }
  | 5 => some { s with service := lockDyke v }
  | 6 => some { s with service := { v with host := .up } }
  | _ => some s

/-- The step under way ends, with its record. -/
def endBootStep (s : State) (step : Nat) (b : BootInput) : State :=
  match bootWork s step (lastState s.service s.service.boot step = some 4) b with
  | none => s
  | some s => { s with service := writeJournal s.service step 2 0 }

/-- Step 2 goes on to a stack, and step 3 to a port: a record of the same STATE with its number (R404; DEDUCED, log entry 54). -/
def trainNext (v : Service) (step state unit : Nat) : Service :=
  if (step = 2 && unit < 32) || (step = 3 && unit < numPorts) then writeJournal v step state unit else v

/-- An occurrence of POWER_ON in a boot step: one that has its last record gives way to the next step or to Krany, and else it trains its next unit or ends. -/
def bootStep (s : State) (step : Nat) (b : BootInput) : State :=
  let v := s.service
  match lastState v v.boot step with
  | some 2 | some 3 => { s with service := if 6 ≤ step then { v with phase := .running } else beginStep v (step + 1) }
  | st => match b.training with
    | some n => { s with service := trainNext v step (st.getD 1) n }
    | none => endBootStep s step b

/-- POWER_ON: the boot starts, and each further occurrence takes it on by one record or one step (R402, R404, R405). -/
def execPowerOn (b : BootInput) (s : State) : Out :=
  match s.service.phase with
  | .off => .next { s with service := startBoot s.service b }
  | .booting k => .next (bootStep s k b)
  | .running | .recovery => .next s

/-- The record that was being written is torn: its CRC fails. -/
def tearLast (j : List Journal) : List Journal :=
  match j.getLast? with
  | some r => j.dropLast ++ [{ r with crc := ~~~recordCrc r.step r.state r.boot r.detail }]
  | none => j

/-- POWER_LOSS: only flash, the record of retired units and the host's memory are left; the record of a boot step may be torn (R404). -/
def execPowerLoss (torn : Bool) (s : State) : Out :=
  let v := s.service
  let booting := match v.phase with
    | .booting _ => true
    | .off | .running | .recovery => false
  let journal := if torn && booting then tearLast v.flash.journal else v.flash.journal
  .next { State.reset with
    freeCtr := s.freeCtr
    cur := s.cur
    agenda := s.agenda
    turn := s.turn
    mem := s.mem.filter fun c => 2 ^ 47 ≤ c.1 && c.1 < 2 ^ 48
    reports := s.reports
    service := { Service.fresh with
      boot := v.boot
      flash := { v.flash with journal := journal }
      retired := v.retired
      signature := v.signature
      owner := v.owner } }

/-! ## Dyke windows, attestation and firmware (R403, R406, R407) -/

/-- DYKE_WRITE: register `n` mod 2 of window `n` / 2; a locked window ignores it, and with the power off nothing writes it (R403). -/
def execDykeWrite (n : Nat) (v : Word) (s : State) : Out :=
  if 32 ≤ n then .fault .noSuchUnit
  else if s.service.phase = .off then .next s
  else
    let w := vget (0, 0) s.service.dyke (n / 2)
    if w.2.getLsbD 0 then .next s
    else
      let w := if n % 2 = 0 then (v &&& ~~~0xFFE#64, w.2) else (w.1, v &&& ~~~0xFF8#64)
      .next { s with service := { s.service with dyke := vset s.service.dyke (n / 2) w } }

/-- What Krany has extended MEAS5 to MEAS7 with by now: the spec gives neither when nor what, so each takes a free digest before it is reported (R406; DESIGN CHOICE, log entry 54). -/
def kranyMeasures (s : State) : State :=
  { s with
    freeCtr := s.freeCtr + 3
    service := (List.range 3).foldl (fun v k => extendMeas v (5 + k) (Config.kranyDigest (s.freeCtr + k))) s.service }

/-- ATTEST_CHALLENGE: the measurements and the requester's nonce, signed (R406). -/
def execAttestChallenge (nonce : Nat) (s : State) : Out :=
  if s.service.phase ≠ .running then .next s
  else
    let s := kranyMeasures s
    let m := s.service.meas
    .next (s.report (.attestation m (nonce % 2 ^ 256) (Config.attest m.toList (nonce % 2 ^ 256))))

/-- The roles in the order in which they move: telemetry, link management, fault service, scheduling, command processing. -/
def rollOrder : List Nat := [4, 3, 1, 2, 0]

/-- No class U queue has a packet to fetch. -/
def urgentIdle (s : State) : Bool :=
  s.queues.all fun p => !(p.2.opened && p.2.class_ = 0 && p.2.rd < p.2.wmax)

/-- The Dyke windows of two columns exchanged; which two they are is not stated, and free values choose them (R407; log entry 4). -/
def exchangeWindows (s : State) : State :=
  let i := (Config.free s.freeCtr).toNat % 16
  let j := (i + 1 + (Config.free (s.freeCtr + 1)).toNat % 15) % 16
  let d := s.service.dyke
  let d := vset (vset d i (vget (0, 0) s.service.dyke j)) j (vget (0, 0) s.service.dyke i)
  { s with freeCtr := s.freeCtr + 2, service := { s.service with dyke := d } }

/-- The columns and their windows change places. -/
def swapColumns (s : State) : State :=
  exchangeWindows { s with service := { s.service with rolled := [], column := s.service.standby, standby := s.service.column } }

/-- FIRMWARE_ROLL: the image is checked and measured, then one role moves at each occurrence; after the last the columns change places (R407). -/
def execFirmwareRoll (image : Nat) (s : State) : Out :=
  let v := s.service
  if v.phase ≠ .running then .next s
  else match v.rolled with
    | [] =>
      if Config.imageGood image then
        .next { s with service := extendMeas { v with firmwareImage := some image, rolled := [nth 0 rollOrder 0] } 4 (Config.digest (imageNumber image)) }
      else .next s
    | _ :: _ =>
      let role := nth 0 rollOrder v.rolled.length
      if role ≠ 0 then .next { s with service := { v with rolled := role :: v.rolled } }
      else if urgentIdle s then .next (swapColumns s)
      else .next s

/-! ## Retiring units (R408) -/

/-- The number of a unit among the enabled ones; a stack and a link lane have none. -/
def unitNumber : ModuleUnit → Option Nat
  | .cluster n => if n < 32 then some n else none
  | .block n => if n < 256 then some (32 + n) else none
  | .core n => if n < 2048 then some (288 + n) else none
  | .slice n => if n < 256 then some (firstSlice + n) else none
  | .pseudoChannel n => if n < 32 * 384 then some (firstChannel + n) else none
  | .stack _ | .lane _ => none

/-- A running task holds the unit. -/
def unitHeld (s : State) (u : Nat) : Bool := s.tasks.any fun p => p.2.holds && (declaredUnits s p.1 p.2).contains u

/-- The scheduler frees a unit as it would for a class H newcomer. -/
def freeUnit (s : State) (u : Nat) : State :=
  s.tasks.foldl (fun (s : State) p =>
    if p.2.holds && p.2.decidedAt.isNone && (declaredUnits s p.1 p.2).contains u then decideTask s p.1 p.2 none 250 false else s) s

/-- Every line of a slice written back. -/
def flushSlice (s : State) (n : Nat) : State :=
  (s.mere.filter fun l => standingSlice s.service.retired (sliceOf l.no) = n).foldl (fun (s : State) l => s.evictMere l.no) s

def setUnits (s : State) (retired draining : List Nat) : State :=
  { s with service := { s.service with retired := retired, draining := draining } }

/-- A unit that tasks declare: it drains first, and is retired once no task holds it; saved tasks on a retired cluster or block are launched again without it. -/
def retireHeld (s : State) (u : Nat) : State :=
  let v := s.service
  if v.retired.contains u then s
  else if unitHeld s u then
    if v.draining.contains u then s else freeUnit (setUnits s v.retired (v.draining ++ [u])) u
  else
    let s := setUnits s (v.retired ++ [u]) (v.draining.erase u)
    if 288 ≤ u then s
    else s.tasks.foldl (fun (s : State) p =>
      if p.2.phase = .saved && (declaredUnits s p.1 p.2).contains u then relaunch s p.1 p.2 u else s) s

/-- The frames of a table and of those below it, and the frames that its leaves give a task; a page that a mapping of Krany's moved elsewhere is not at its leaf's. -/
def namedFrames (s : State) (task : Nat) : Nat → Nat → Nat → List Nat
  | 0, _, _ => []
  | level + 1, table, base => table / 4096 :: (List.range 512).flatMap fun k =>
    let e := s.homeWord (table + 8 * k)
    let f := placeOf (Pte.frame e)
    let va := base + k * levelSize level
    if !Pte.bit e 0 || e &&& Pte.reserved ≠ 0 then []
    else if Pte.bit e 7 then
      ((List.range (levelSize level / 4096)).filter fun j => (mappedEntry task (va / 4096 + j) s.maps).isNone).map fun j => f / 4096 + j
    else namedFrames s task level f va

/-- A page or a table of a task lies in the pseudo-channel. -/
def channelUsed (s : State) (u : Nat) : Bool :=
  (s.maps.any fun m => !frameEnabled [u] (placeOf (Pte.frame m.2.2) / 4096)) ||
  s.tasks.any fun p => p.2.phase ≠ .done && (namedFrames s p.1 5 p.2.root 0).any fun f => !frameEnabled [u] f

/-- A pseudo-channel is retired once its pages have been moved (R295); until then no page comes to it. -/
def retireChannel (s : State) (u : Nat) : State :=
  let v := s.service
  if v.retired.contains u then s
  else if channelUsed s u then (if v.draining.contains u then s else setUnits s v.retired (v.draining ++ [u]))
  else setUnits s (v.retired ++ [u]) (v.draining.erase u)

/-- UNIT_RETIRE: a unit is retired or restored, a pseudo-channel never restored (R408). A stack retrains alone while its accesses wait, and a lane is replaced as its port retrains. -/
def execUnitRetire (u : ModuleUnit) (back : Bool) (s : State) : Out :=
  match u with
  | .stack n => if n < 32 then .next s else .fault .noSuchUnit
  | .lane p => if back then (if p < numPorts then .next s else .fault .noSuchUnit) else if p < numPorts then .next (retrainPort s p) else .fault .noSuchUnit
  | .cluster _ | .block _ | .core _ | .slice _ | .pseudoChannel _ =>
    match unitNumber u with
    | none => .fault .noSuchUnit
    | some k =>
      let v := s.service
      if back then .next (if firstChannel ≤ k then s else setUnits s (v.retired.filter fun x => x ≠ k) (v.draining.erase k))
      else match u with
        | .slice n => .next (if v.retired.contains k then s else setUnits (flushSlice s n) (v.retired ++ [k]) v.draining)
        | .pseudoChannel _ => .next (retireChannel s k)
        | _ => .next (retireHeld s k)

/-! ## Soft errors and temperature (R409, R410) -/

/-- A line of HBM, or of the SRAM of a bank or a core. -/
def lineExists (line : Nat) : Bool := line < 2 ^ 36 || (scratchBase ≤ 64 * line && 64 * line < controlBase)

/-- Krany's own data: a line in an enabled window that task agents may not read (R403; DEDUCED, log entry 54). -/
def kranyLine (s : State) (line : Nat) : Bool :=
  s.service.dyke.toList.any fun w => dykeHolds (64 * line) w && !w.2.getLsbD 1

/-- Krany starts again on the standby column, from the image that runs (R407, R409). -/
def restartKrany (s : State) : State :=
  let v := match s.service.firmwareImage with
    | some n => extendMeas s.service 4 (Config.digest (imageNumber n))
    | none => s.service
  swapColumns { s with service := v }

/-- SCRUB_UNCORRECTABLE: the line is reported with the count of corrected errors, and the next task that reads it is stopped; a line of Krany's own data makes it start again on the standby column (R409).
How many errors were corrected since the last report is a free value (log 4). -/
def execScrubUncorrectable (line : Nat) (s : State) : Out :=
  if !lineExists line then .fault .noSuchUnit
  else
    let v := s.service
    let n := v.corrected + (Config.free s.freeCtr).toNat
    let poison := if v.poison.contains line then v.poison else v.poison ++ [line]
    let t := { s.bumpFree with service := { v with poison := poison, corrected := n }, reports := s.reports ++ [.corrected n, .uncorrectable line] }
    .next (if v.phase = .running && kranyLine s line then restartKrany t else t)

/-- THERMAL_TRIP: at 110 °C every task completes with cause 4, and the module enters recovery mode (R410); with the power off nothing happens. -/
def execThermalTrip (s : State) : Out :=
  if s.service.phase = .off then .next s
  else
    let s := endAllTasks s 4
    .next { s with service := { s.service with phase := .recovery, host := .down } }

end Sys2Proof.Machine
end

