-- ==== Sys2Proof/Machine/Branch.lean ====
section
/-! DEFINITION. Branches and jumps (R84 to R88). -/

namespace Sys2Proof.Machine

/-- The target of a branch: an offset in parcels from the branch's own address (R41). -/
def branchTarget {n : Nat} (h : Hart) (off : BitVec n) : Word := h.pc + parcels off

/-- A conditional branch (R84): a branch not taken goes to the next instruction. -/
def branchOp {n : Nat} (i : Instr) (off : BitVec n) (c : Hart → Bool) (s : State) : Out :=
  issue i s fun h => if c h then retireTo i [] (branchTarget h off) s else retire i [] s

/-- A jump with an optional link (R85). -/
def jumpOp {n : Nat} (i : Instr) (off : BitVec n) (link : List Reg) (s : State) : Out :=
  issue i s fun h => retireTo i (link.map fun r => (r, h.pc + BitVec.ofNat 64 i.length)) (branchTarget h off) s

/-- A register-indirect jump (R86): an odd target traps on the jump itself, and nothing is written. -/
def jumpRegister (i : Instr) (d : Reg) (target : Hart → Word) (s : State) : Out :=
  issue i s fun h =>
    let t := target h
    if t.getLsbD 0 then trapHere i .misalignment t s
    else retireTo i [(d, h.pc + BitVec.ofNat 64 i.length)] t s

/-- `beq`, R84. -/
def execBeq (a b : Reg) (off : BitVec 12) (s : State) : Out := branchOp (.beq a b off) off (fun h => h.reg a = h.reg b) s
/-- `bne`, R84. -/
def execBne (a b : Reg) (off : BitVec 12) (s : State) : Out := branchOp (.bne a b off) off (fun h => h.reg a ≠ h.reg b) s
/-- `blt`, R84. -/
def execBlt (a b : Reg) (off : BitVec 12) (s : State) : Out := branchOp (.blt a b off) off (fun h => (h.reg a).slt (h.reg b)) s
/-- `bge`, R84. -/
def execBge (a b : Reg) (off : BitVec 12) (s : State) : Out := branchOp (.bge a b off) off (fun h => !(h.reg a).slt (h.reg b)) s
/-- `bltn`, R84. -/
def execBltn (a b : Reg) (off : BitVec 12) (s : State) : Out := branchOp (.bltn a b off) off (fun h => (h.reg a).ult (h.reg b)) s
/-- `bgen`, R84. -/
def execBgen (a b : Reg) (off : BitVec 12) (s : State) : Out := branchOp (.bgen a b off) off (fun h => !(h.reg a).ult (h.reg b)) s
/-- `bz`, R84. -/
def execBz (a : Reg) (off : BitVec 12) (s : State) : Out := branchOp (.bz a off) off (fun h => h.reg a = 0) s
/-- `bnz`, R84. -/
def execBnz (a : Reg) (off : BitVec 12) (s : State) : Out := branchOp (.bnz a off) off (fun h => h.reg a ≠ 0) s

/-- `jmp`, R85. -/
def execJmp (off : BitVec 25) (s : State) : Out := jumpOp (.jmp off) off [] s
/-- `jal`, R85: the link register is s1. -/
def execJal (off : BitVec 25) (s : State) : Out := jumpOp (.jal off) off [1] s
/-- `jalr`, R86. -/
def execJalr (d a : Reg) (off : BitVec 14) (s : State) : Out :=
  jumpRegister (.jalr d a off) d (fun h => h.reg a + sext off) s

/-- `loop`, R87. -/
def execLoop (d : Reg) (off : BitVec 14) (s : State) : Out :=
  issue (.loop d off) s fun h =>
    let n := h.reg d - 1
    if n ≠ 0 then retireTo (.loop d off) [(d, n)] (branchTarget h off) s
    else retire (.loop d off) [(d, n)] s

end Sys2Proof.Machine
end

