-- ==== Sys2Proof/Machine/Cells.lean ====
section
/-! DEFINITION. The meaning of every cell word: a firing on a tile (R102), or an instruction over row registers on an epilogue engine (R136). -/

namespace Sys2Proof.Machine

/-- A cell word without a prefix. -/
def cellOp (i : Instr) (s : State) : Out := asFiring i s (runRow i .implied 4)

/-- `vmov`, R129. -/
def execVmov (t1 t0 : Tgt) (a : Src) (s : State) : Out := cellOp (.vmov t1 t0 a) s
/-- `vadd`, R116. -/
def execVadd (y : Ty) (t1 t0 : Tgt) (b a : Src) (s : State) : Out := cellOp (.vadd y t1 t0 b a) s
/-- `vsub`, R116. -/
def execVsub (y : Ty) (t1 t0 : Tgt) (b a : Src) (s : State) : Out := cellOp (.vsub y t1 t0 b a) s
/-- `vmul`, R116. -/
def execVmul (y : Ty) (t1 t0 : Tgt) (b a : Src) (s : State) : Out := cellOp (.vmul y t1 t0 b a) s
/-- `vmulh`, R116. -/
def execVmulh (y : Ty) (t1 t0 : Tgt) (b a : Src) (s : State) : Out := cellOp (.vmulh y t1 t0 b a) s
/-- `vfma`, R116. -/
def execVfma (y : Ty) (t1 t0 : Tgt) (b a : Src) (s : State) : Out := cellOp (.vfma y t1 t0 b a) s
/-- `vmin`, R116. -/
def execVmin (y : Ty) (t1 t0 : Tgt) (b a : Src) (s : State) : Out := cellOp (.vmin y t1 t0 b a) s
/-- `vmax`, R116. -/
def execVmax (y : Ty) (t1 t0 : Tgt) (b a : Src) (s : State) : Out := cellOp (.vmax y t1 t0 b a) s
/-- `vabs`, R116. -/
def execVabs (y : Ty) (t1 t0 : Tgt) (a : Src) (s : State) : Out := cellOp (.vabs y t1 t0 a) s
/-- `vneg`, R116. -/
def execVneg (y : Ty) (t1 t0 : Tgt) (a : Src) (s : State) : Out := cellOp (.vneg y t1 t0 a) s
/-- `vand`, R117. -/
def execVand (t1 t0 : Tgt) (b a : Src) (s : State) : Out := cellOp (.vand t1 t0 b a) s
/-- `vor`, R117. -/
def execVor (t1 t0 : Tgt) (b a : Src) (s : State) : Out := cellOp (.vor t1 t0 b a) s
/-- `vxor`, R117. -/
def execVxor (t1 t0 : Tgt) (b a : Src) (s : State) : Out := cellOp (.vxor t1 t0 b a) s
/-- `vshl`, R117. -/
def execVshl (t1 t0 : Tgt) (b a : Src) (s : State) : Out := cellOp (.vshl t1 t0 b a) s
/-- `vshr`, R117. -/
def execVshr (t1 t0 : Tgt) (b a : Src) (s : State) : Out := cellOp (.vshr t1 t0 b a) s
/-- `vsra`, R117. -/
def execVsra (t1 t0 : Tgt) (b a : Src) (s : State) : Out := cellOp (.vsra t1 t0 b a) s
/-- `vcmpeq`, R117. -/
def execVcmpeq (y : Ty) (t1 t0 : Tgt) (b a : Src) (s : State) : Out := cellOp (.vcmpeq y t1 t0 b a) s
/-- `vcmplt`, R117. -/
def execVcmplt (y : Ty) (t1 t0 : Tgt) (b a : Src) (s : State) : Out := cellOp (.vcmplt y t1 t0 b a) s
/-- `vcmple`, R117. -/
def execVcmple (y : Ty) (t1 t0 : Tgt) (b a : Src) (s : State) : Out := cellOp (.vcmple y t1 t0 b a) s
/-- `vsel`, R117. -/
def execVsel (t1 t0 : Tgt) (b a : Src) (s : State) : Out := cellOp (.vsel t1 t0 b a) s
/-- `vcvt`, R121. -/
def execVcvt (y : Ty) (t1 t0 : Tgt) (a : Src) (s : State) : Out := cellOp (.vcvt y t1 t0 a) s
/-- `vpack`, R122. -/
def execVpack (y : Ty) (t1 t0 : Tgt) (b a : Src) (s : State) : Out := cellOp (.vpack y t1 t0 b a) s
/-- `vunpk`, R122. -/
def execVunpk (y : Ty) (t1 t0 : Tgt) (b a : Src) (s : State) : Out := cellOp (.vunpk y t1 t0 b a) s
/-- `vscale`, R124. -/
def execVscale (y : Ty) (t1 t0 : Tgt) (b a : Src) (s : State) : Out := cellOp (.vscale y t1 t0 b a) s
/-- `vrcp`, R125. -/
def execVrcp (t1 t0 : Tgt) (a : Src) (s : State) : Out := cellOp (.vrcp t1 t0 a) s
/-- `vrsq`, R125. -/
def execVrsq (t1 t0 : Tgt) (a : Src) (s : State) : Out := cellOp (.vrsq t1 t0 a) s
/-- `vsqrt`, R125. -/
def execVsqrt (t1 t0 : Tgt) (a : Src) (s : State) : Out := cellOp (.vsqrt t1 t0 a) s
/-- `vexp2`, R125. -/
def execVexp2 (t1 t0 : Tgt) (a : Src) (s : State) : Out := cellOp (.vexp2 t1 t0 a) s
/-- `vlog2`, R125. -/
def execVlog2 (t1 t0 : Tgt) (a : Src) (s : State) : Out := cellOp (.vlog2 t1 t0 a) s
/-- `vacc`, R126. -/
def execVacc (y : Ty) (t1 t0 : Tgt) (b a : Src) (s : State) : Out := cellOp (.vacc y t1 t0 b a) s
/-- `vred`, R127. -/
def execVred (y : Ty) (t1 t0 : Tgt) (a : Src) (s : State) : Out := cellOp (.vred y t1 t0 a) s
/-- `vscan`, R128. -/
def execVscan (y : Ty) (t1 t0 : Tgt) (a : Src) (s : State) : Out := cellOp (.vscan y t1 t0 a) s
/-- `vsteer`, R129. -/
def execVsteer (t1 t0 : Tgt) (b a : Src) (s : State) : Out := cellOp (.vsteer t1 t0 b a) s
/-- `vmerge`, R130. -/
def execVmerge (y : Ty) (t1 t0 : Tgt) (b a : Src) (s : State) : Out := cellOp (.vmerge y t1 t0 b a) s
/-- `vgate`, R129. -/
def execVgate (t1 t0 : Tgt) (b a : Src) (s : State) : Out := cellOp (.vgate t1 t0 b a) s
/-- `vshuf`, R129. -/
def execVshuf (t1 t0 : Tgt) (b a : Src) (s : State) : Out := cellOp (.vshuf t1 t0 b a) s
/-- `vbcast`, R129. -/
def execVbcast (t1 t0 : Tgt) (b a : Src) (s : State) : Out := cellOp (.vbcast t1 t0 b a) s
/-- `vidx`, R129. -/
def execVidx (t1 t0 : Tgt) (b a : Src) (s : State) : Out := cellOp (.vidx t1 t0 b a) s
/-- `vdrop`, R129. -/
def execVdrop (t1 t0 : Tgt) (a : Src) (s : State) : Out := cellOp (.vdrop t1 t0 a) s
/-- `esc`, R132. -/
def execEsc (entry : Fin 4) (t1 t0 : Tgt) (a : Src) (s : State) : Out := cellOp (.esc entry t1 t0 a) s
/-- `vcfgt`, R119. -/
def execVcfgt (y : Ty) (t1 t0 : Tgt) (a : Src) (s : State) : Out := cellOp (.vcfgt y t1 t0 a) s

end Sys2Proof.Machine
end

