-- ==== Sys2Proof/Machine/Float.lean ====
section
/-! DEFINITION. Scalar floating point and conversions (R77 to R83). -/

namespace Sys2Proof.Machine

/-- The format of a scalar operation, R77. -/
def scalarFmt : ScalarFmt → FloatFmt
  | .f32 => floatFmt .f32
  | .f64 => floatFmt .f64

/-- The rounding of a scalar instruction: RHD takes its element index from ox6 and its iteration from ox7 (R83). -/
def scalarRounding (r : Rnd) (h : Hart) : Rounding :=
  ⟨r, rhdHash (lo32 (h.oxr 6)) (lo32 (h.oxr 7))⟩

/-- The low bits of a register at a format's width. -/
def floatBits (f : FloatFmt) (v : Word) : Nat := v.toNat % 2 ^ f.bits

/-- An operation of two sources, rounded once (R78); the result is zero-extended. -/
def floatOp (i : Instr) (op : FloatFmt → Rounding → Bool → Nat → Nat → Nat × Flags) (r : Rnd) (f : ScalarFmt)
    (d a b : Reg) (s : State) : Out :=
  computeFlags i s d fun h =>
    let m := scalarFmt f
    op m (scalarRounding r h) false (floatBits m (h.reg a)) (floatBits m (h.reg b))

/-- `fadd`, R78. -/
def execFadd (r : Rnd) (f : ScalarFmt) (d a b : Reg) (s : State) : Out := floatOp (.fadd r f d a b) FloatFmt.add r f d a b s
/-- `fsub`, R78. -/
def execFsub (r : Rnd) (f : ScalarFmt) (d a b : Reg) (s : State) : Out := floatOp (.fsub r f d a b) FloatFmt.sub r f d a b s
/-- `fmul`, R78. -/
def execFmul (r : Rnd) (f : ScalarFmt) (d a b : Reg) (s : State) : Out := floatOp (.fmul r f d a b) FloatFmt.mul r f d a b s
/-- `fdiv`, R78. -/
def execFdiv (r : Rnd) (f : ScalarFmt) (d a b : Reg) (s : State) : Out := floatOp (.fdiv r f d a b) FloatFmt.div r f d a b s
/-- `ffma`, R78: s[a] × s[b] + s[d] with one rounding. -/
def execFfma (r : Rnd) (f : ScalarFmt) (d a b : Reg) (s : State) : Out :=
  computeFlags (.ffma r f d a b) s d fun h =>
    let m := scalarFmt f
    m.fma (scalarRounding r h) false (floatBits m (h.reg a)) (floatBits m (h.reg b)) (floatBits m (h.reg d))
/-- `fsqrt`, R78. -/
def execFsqrt (r : Rnd) (f : ScalarFmt) (d a : Reg) (s : State) : Out :=
  computeFlags (.fsqrt r f d a) s d fun h =>
    let m := scalarFmt f
    m.sqrt (scalarRounding r h) false (floatBits m (h.reg a))
/-- `fmin`, R17 and R78. -/
def execFmin (f : ScalarFmt) (d a b : Reg) (s : State) : Out :=
  computeFlags (.fmin f d a b) s d fun h =>
    let m := scalarFmt f
    (m.min (floatBits m (h.reg a)) (floatBits m (h.reg b)), noFlags)
/-- `fmax`, R17 and R78. -/
def execFmax (f : ScalarFmt) (d a b : Reg) (s : State) : Out :=
  computeFlags (.fmax f d a b) s d fun h =>
    let m := scalarFmt f
    (m.max (floatBits m (h.reg a)) (floatBits m (h.reg b)), noFlags)

/-- Whether a predicate of R79 holds. -/
def predicate (p : FPred) (x y : FVal) : Bool :=
  match p with
  | .eq => eqVal x y
  | .lt => ltNum x y
  | .le => ltNum x y || eqVal x y
  | .un => x.isNaN || y.isNaN

/-- `fcmp`, R79: sets no flag. -/
def execFcmp (p : FPred) (f : ScalarFmt) (d a b : Reg) (s : State) : Out :=
  compute (.fcmp p f d a b) s d fun h =>
    let m := scalarFmt f
    if predicate p (m.unpack (floatBits m (h.reg a))) (m.unpack (floatBits m (h.reg b))) then 1 else 0

/-- A converted value as it is written: integers extend by their sign, floats with zeros (R81). -/
def writeNum (t : NumType) (x : Nat × Flags) : Nat × Flags :=
  match t with
  | .float _ => x
  | .int k => (((intFmt k).read x.1 % (2 ^ 64 : Nat)).toNat, x.2)

/-- A float converted to a destination type; the same type keeps the value, and a NaN into E3M5 sets NV there too (R20, R81). -/
def convertFloat (r : Rounding) (src : FloatType) (t : NumType) (v : Nat) : Nat × Flags :=
  let x := (floatFmt src).unpack v
  match t with
  | .float f =>
    if f = src then ((if x.isNaN then (floatFmt f).nanCode else v), flagIf (x.isNaN && !(floatFmt f).signed) flagNV)
    else (floatFmt f).convert r false x
  | .int k => toInt (intFmt k) r x

/-- An integer converted to a destination type (R81). -/
def convertInt (r : Rounding) (src : IntType) (t : NumType) (v : Nat) : Nat × Flags :=
  let x := (intFmt src).read v
  match t with
  | .float f => (floatFmt f).ofInt r false x
  | .int k => (intFmt k).clamp x

/-- `fcvt` with a float source, R80 and R81. -/
def execFcvt (r : Rnd) (src : FloatType) (t : NumType) (d a : Reg) (s : State) : Out :=
  computeFlags (.fcvt r src t d a) s d fun h =>
    writeNum t (convertFloat (scalarRounding r h) src t (floatBits (floatFmt src) (h.reg a)))

/-- `fcvt` with an integer source, R80 and R81. -/
def execFcvtInt (r : Rnd) (src : IntType) (t : NumType) (d a : Reg) (s : State) : Out :=
  computeFlags (.fcvtInt r src t d a) s d fun h =>
    writeNum t (convertInt (scalarRounding r h) src t (h.reg a).toNat)

/-- The one bit that `fclass` sets, R82. -/
def classBit (m : FloatFmt) (x : FVal) : Nat :=
  match x with
  | .nan => 8
  | .inf neg => if neg then 0 else 7
  | .fin neg k _ =>
    if k = 0 then (if neg then 3 else 4)
    else if k < 2 ^ m.mbits then (if neg then 2 else 5)
    else (if neg then 1 else 6)

/-- `fclass`, R82. -/
def execFclass (f : ScalarFmt) (d a : Reg) (s : State) : Out :=
  compute (.fclass f d a) s d fun h =>
    let m := scalarFmt f
    BitVec.ofNat 64 (2 ^ classBit m (m.unpack (floatBits m (h.reg a))))

end Sys2Proof.Machine
end

