-- ==== Sys2Proof/Machine/HForms.lean ====
section
/-! DEFINITION. H-forms: each has the effect of its expansion, with a length of 2 bytes (R44, R45).
The system H-forms stand with the system instructions. -/

namespace Sys2Proof.Machine

/-- A two-operand H-form: d with a, into d. -/
def shortOp (i : Instr) (f : (n : Nat) → BitVec n → BitVec n → BitVec n) (d a : HReg) (s : State) : Out :=
  compute i s (hreg d) fun h => f 64 (h.reg (hreg d)) (h.reg (hreg a))

/-- `add` in H-form, R45. -/
def execHAdd (d a : HReg) (s : State) : Out := shortOp (.hAdd d a) addB d a s
/-- `sub` in H-form, R45. -/
def execHSub (d a : HReg) (s : State) : Out := shortOp (.hSub d a) subB d a s
/-- `shl` in H-form, R45. -/
def execHShl (d a : HReg) (s : State) : Out := shortOp (.hShl d a) shlB d a s
/-- `shr` in H-form, R45. -/
def execHShr (d a : HReg) (s : State) : Out := shortOp (.hShr d a) shrB d a s
/-- `sra` in H-form, R45. -/
def execHSra (d a : HReg) (s : State) : Out := shortOp (.hSra d a) sraB d a s
/-- `min` in H-form, R45. -/
def execHMin (d a : HReg) (s : State) : Out := shortOp (.hMin d a) minB d a s
/-- `max` in H-form, R45. -/
def execHMax (d a : HReg) (s : State) : Out := shortOp (.hMax d a) maxB d a s
/-- `minn` in H-form, R45. -/
def execHMinn (d a : HReg) (s : State) : Out := shortOp (.hMinn d a) minnB d a s
/-- `maxn` in H-form, R45. -/
def execHMaxn (d a : HReg) (s : State) : Out := shortOp (.hMaxn d a) maxnB d a s
/-- `slt` in H-form, R45. -/
def execHSlt (d a : HReg) (s : State) : Out := shortOp (.hSlt d a) sltB d a s
/-- `sltn` in H-form, R45. -/
def execHSltn (d a : HReg) (s : State) : Out := shortOp (.hSltn d a) sltnB d a s
/-- `and` in H-form, R45. -/
def execHAnd (d a : HReg) (s : State) : Out := shortOp (.hAnd d a) (fun _ x y => x &&& y) d a s
/-- `or` in H-form, R45. -/
def execHOr (d a : HReg) (s : State) : Out := shortOp (.hOr d a) (fun _ x y => x ||| y) d a s
/-- `xor` in H-form, R45. -/
def execHXor (d a : HReg) (s : State) : Out := shortOp (.hXor d a) (fun _ x y => x ^^^ y) d a s
/-- `andn` in H-form, R45. -/
def execHAndn (d a : HReg) (s : State) : Out := shortOp (.hAndn d a) (fun _ x y => x &&& ~~~ y) d a s
/-- `mv`, R44: `add d, a, s0`. -/
def execHMv (d a : HReg) (s : State) : Out := compute (.hMv d a) s (hreg d) fun h => h.reg (hreg a)
/-- `addi` in H-form, R44. -/
def execHAddi (d a : HReg) (imm : BitVec 3) (s : State) : Out :=
  compute (.hAddi d a imm) s (hreg d) fun h => h.reg (hreg a) + sext imm
/-- `ldi` in H-form, R44. -/
def execHLdi (d : HReg) (imm : BitVec 7) (s : State) : Out := compute (.hLdi d imm) s (hreg d) fun _ => sext imm

/-- The address of an H-form access: an unsigned offset counted in units of its size. -/
def shortAddress (a : HReg) (off : BitVec 3) (n : Nat) (h : Hart) : Word :=
  h.reg (hreg a) + BitVec.ofNat 64 (n * off.toNat)

/-- `ld.d` in H-form, R44. -/
def execHLdD (d a : HReg) (off : BitVec 3) (s : State) : Out :=
  loadOp (.hLdD d a off) s .d .relaxed .thread false true (hreg d) (shortAddress a off 8)
/-- `st.d` in H-form, R44. -/
def execHStD (d a : HReg) (off : BitVec 3) (s : State) : Out :=
  storeOp (.hStD d a off) s .d .relaxed .thread true (shortAddress a off 8) fun h => h.reg (hreg d)
/-- `ld.w` in H-form, R44. -/
def execHLdW (d a : HReg) (off : BitVec 3) (s : State) : Out :=
  loadOp (.hLdW d a off) s .w .relaxed .thread false false (hreg d) (shortAddress a off 4)
/-- `st.w` in H-form, R44. -/
def execHStW (d a : HReg) (off : BitVec 3) (s : State) : Out :=
  storeOp (.hStW d a off) s .w .relaxed .thread false (shortAddress a off 4) fun h => h.reg (hreg d)

/-- `bz` in H-form, R44. -/
def execHBz (d : HReg) (off : BitVec 7) (s : State) : Out := branchOp (.hBz d off) off (fun h => h.reg (hreg d) = 0) s
/-- `bnz` in H-form, R44. -/
def execHBnz (d : HReg) (off : BitVec 7) (s : State) : Out := branchOp (.hBnz d off) off (fun h => h.reg (hreg d) ≠ 0) s
/-- `jmp` in H-form, R44. -/
def execHJmp (off : BitVec 11) (s : State) : Out := jumpOp (.hJmp off) off [] s
/-- `jalr` in H-form, R44 and R45: it links with pc + 2. -/
def execHJalr (d a : HReg) (s : State) : Out := jumpRegister (.hJalr d a) (hreg d) (fun h => h.reg (hreg a)) s

end Sys2Proof.Machine
end

