-- ==== Sys2Proof/Machine/Dispatch.lean ====
section
/-! DEFINITION. The meaning of every constructor of Instr: one direct call each. -/

namespace Sys2Proof.Machine

def exec (i : Instr) (s : State) : Host.Outcome State Fault Refusal :=
  match i with
  | .add w d a b => Sys2Proof.Machine.execAdd w d a b s
  | .sub w d a b => Sys2Proof.Machine.execSub w d a b s
  | .and d a b => Sys2Proof.Machine.execAnd d a b s
  | .or d a b => Sys2Proof.Machine.execOr d a b s
  | .xor d a b => Sys2Proof.Machine.execXor d a b s
  | .andn d a b => Sys2Proof.Machine.execAndn d a b s
  | .shl w d a b => Sys2Proof.Machine.execShl w d a b s
  | .shr w d a b => Sys2Proof.Machine.execShr w d a b s
  | .sra w d a b => Sys2Proof.Machine.execSra w d a b s
  | .min w d a b => Sys2Proof.Machine.execMin w d a b s
  | .max w d a b => Sys2Proof.Machine.execMax w d a b s
  | .minn w d a b => Sys2Proof.Machine.execMinn w d a b s
  | .maxn w d a b => Sys2Proof.Machine.execMaxn w d a b s
  | .slt w d a b => Sys2Proof.Machine.execSlt w d a b s
  | .sltn w d a b => Sys2Proof.Machine.execSltn w d a b s
  | .sel d a b => Sys2Proof.Machine.execSel d a b s
  | .mul w d a b => Sys2Proof.Machine.execMul w d a b s
  | .mulh w d a b => Sys2Proof.Machine.execMulh w d a b s
  | .mulhn w d a b => Sys2Proof.Machine.execMulhn w d a b s
  | .div w d a b => Sys2Proof.Machine.execDiv w d a b s
  | .divn w d a b => Sys2Proof.Machine.execDivn w d a b s
  | .rem w d a b => Sys2Proof.Machine.execRem w d a b s
  | .remn w d a b => Sys2Proof.Machine.execRemn w d a b s
  | .clz w d a => Sys2Proof.Machine.execClz w d a s
  | .ctz w d a => Sys2Proof.Machine.execCtz w d a s
  | .popc w d a => Sys2Proof.Machine.execPopc w d a s
  | .bext d a b => Sys2Proof.Machine.execBext d a b s
  | .bins d a b => Sys2Proof.Machine.execBins d a b s
  | .cellkey dx dy dz d a b => Sys2Proof.Machine.execCellkey dx dy dz d a b s
  | .addi d a imm => Sys2Proof.Machine.execAddi d a imm s
  | .andi d a imm => Sys2Proof.Machine.execAndi d a imm s
  | .ori d a imm => Sys2Proof.Machine.execOri d a imm s
  | .xori d a imm => Sys2Proof.Machine.execXori d a imm s
  | .shli w d a n => Sys2Proof.Machine.execShli w d a n s
  | .shri w d a n => Sys2Proof.Machine.execShri w d a n s
  | .srai w d a n => Sys2Proof.Machine.execSrai w d a n s
  | .ldi d imm => Sys2Proof.Machine.execLdi d imm s
  | .ldhi d a imm => Sys2Proof.Machine.execLdhi d a imm s
  | .beq a b off => Sys2Proof.Machine.execBeq a b off s
  | .bne a b off => Sys2Proof.Machine.execBne a b off s
  | .blt a b off => Sys2Proof.Machine.execBlt a b off s
  | .bge a b off => Sys2Proof.Machine.execBge a b off s
  | .bltn a b off => Sys2Proof.Machine.execBltn a b off s
  | .bgen a b off => Sys2Proof.Machine.execBgen a b off s
  | .bz a off => Sys2Proof.Machine.execBz a off s
  | .bnz a off => Sys2Proof.Machine.execBnz a off s
  | .jmp off => Sys2Proof.Machine.execJmp off s
  | .jal off => Sys2Proof.Machine.execJal off s
  | .jalr d a off => Sys2Proof.Machine.execJalr d a off s
  | .loop d off => Sys2Proof.Machine.execLoop d off s
  | .ld z o sc d a off => Sys2Proof.Machine.execLd z o sc d a off s
  | .lds z o sc d a off => Sys2Proof.Machine.execLds z o sc d a off s
  | .st z o sc d a off => Sys2Proof.Machine.execSt z o sc d a off s
  | .ldx z o sc scaled d a b => Sys2Proof.Machine.execLdx z o sc scaled d a b s
  | .stx z o sc scaled d a b => Sys2Proof.Machine.execStx z o sc scaled d a b s
  | .pref h scaled a b => Sys2Proof.Machine.execPref h scaled a b s
  | .ldxSx z o sc scaled d a b => Sys2Proof.Machine.execLdxSx z o sc scaled d a b s
  | .amoAdd z o sc d a b => Sys2Proof.Machine.execAmoAdd z o sc d a b s
  | .amoAnd z o sc d a b => Sys2Proof.Machine.execAmoAnd z o sc d a b s
  | .amoOr z o sc d a b => Sys2Proof.Machine.execAmoOr z o sc d a b s
  | .amoXor z o sc d a b => Sys2Proof.Machine.execAmoXor z o sc d a b s
  | .amoMin z o sc d a b => Sys2Proof.Machine.execAmoMin z o sc d a b s
  | .amoMax z o sc d a b => Sys2Proof.Machine.execAmoMax z o sc d a b s
  | .amoMinn z o sc d a b => Sys2Proof.Machine.execAmoMinn z o sc d a b s
  | .amoMaxn z o sc d a b => Sys2Proof.Machine.execAmoMaxn z o sc d a b s
  | .amoSwap z o sc d a b => Sys2Proof.Machine.execAmoSwap z o sc d a b s
  | .amoFadd z o sc d a b => Sys2Proof.Machine.execAmoFadd z o sc d a b s
  | .amoFmin z o sc d a b => Sys2Proof.Machine.execAmoFmin z o sc d a b s
  | .amoFmax z o sc d a b => Sys2Proof.Machine.execAmoFmax z o sc d a b s
  | .aredAdd z o sc a b => Sys2Proof.Machine.execAredAdd z o sc a b s
  | .aredAnd z o sc a b => Sys2Proof.Machine.execAredAnd z o sc a b s
  | .aredOr z o sc a b => Sys2Proof.Machine.execAredOr z o sc a b s
  | .aredXor z o sc a b => Sys2Proof.Machine.execAredXor z o sc a b s
  | .aredMin z o sc a b => Sys2Proof.Machine.execAredMin z o sc a b s
  | .aredMax z o sc a b => Sys2Proof.Machine.execAredMax z o sc a b s
  | .aredMinn z o sc a b => Sys2Proof.Machine.execAredMinn z o sc a b s
  | .aredMaxn z o sc a b => Sys2Proof.Machine.execAredMaxn z o sc a b s
  | .aredSwap z o sc a b => Sys2Proof.Machine.execAredSwap z o sc a b s
  | .aredFadd z o sc a b => Sys2Proof.Machine.execAredFadd z o sc a b s
  | .aredFmin z o sc a b => Sys2Proof.Machine.execAredFmin z o sc a b s
  | .aredFmax z o sc a b => Sys2Proof.Machine.execAredFmax z o sc a b s
  | .cas z o sc d a b => Sys2Proof.Machine.execCas z o sc d a b s
  | .incw z o sc d a b => Sys2Proof.Machine.execIncw z o sc d a b s
  | .fence o sc d => Sys2Proof.Machine.execFence o sc d s
  | .xfence sc paths d => Sys2Proof.Machine.execXfence sc paths d s
  | .waitvEq acq z sc d a b => Sys2Proof.Machine.execWaitvEq acq z sc d a b s
  | .waitvNe acq z sc d a b => Sys2Proof.Machine.execWaitvNe acq z sc d a b s
  | .waitvLt acq z sc d a b => Sys2Proof.Machine.execWaitvLt acq z sc d a b s
  | .waitvGe acq z sc d a b => Sys2Proof.Machine.execWaitvGe acq z sc d a b s
  | .warm d a => Sys2Proof.Machine.execWarm d a s
  | .wexp d a b => Sys2Proof.Machine.execWexp d a b s
  | .wwait d a b => Sys2Proof.Machine.execWwait d a b s
  | .wrd status d a => Sys2Proof.Machine.execWrd status d a s
  | .wdis a => Sys2Proof.Machine.execWdis a s
  | .cldec o sc d a b => Sys2Proof.Machine.execCldec o sc d a b s
  | .clpush o sc d a b => Sys2Proof.Machine.execClpush o sc d a b s
  | .clnext o sc => Sys2Proof.Machine.execClnext o sc s
  | .renq ack d a b => Sys2Proof.Machine.execRenq ack d a b s
  | .qbind off d a b => Sys2Proof.Machine.execQbind off d a b s
  | .launch d a b => Sys2Proof.Machine.execLaunch d a b s
  | .trig => Sys2Proof.Machine.execTrig s
  | .tkrec d a => Sys2Proof.Machine.execTkrec d a s
  | .tkplay d a => Sys2Proof.Machine.execTkplay d a s
  | .tkend d a => Sys2Proof.Machine.execTkend d a s
  | .tkstat counts d a => Sys2Proof.Machine.execTkstat counts d a s
  | .tkdrop d a => Sys2Proof.Machine.execTkdrop d a s
  | .tmset d a => Sys2Proof.Machine.execTmset d a s
  | .tmget d => Sys2Proof.Machine.execTmget d s
  | .msend d a b => Sys2Proof.Machine.execMsend d a b s
  | .mrecv nb d => Sys2Proof.Machine.execMrecv nb d s
  | .floor d => Sys2Proof.Machine.execFloor d s
  | .fljoin a => Sys2Proof.Machine.execFljoin a s
  | .nop => Sys2Proof.Machine.execNop s
  | .halt => Sys2Proof.Machine.execHalt s
  | .yield => Sys2Proof.Machine.execYield s
  | .brk => Sys2Proof.Machine.execBrk s
  | .trap n => Sys2Proof.Machine.execTrap n s
  | .eret => Sys2Proof.Machine.execEret s
  | .sysr d n => Sys2Proof.Machine.execSysr d n s
  | .sysw d n => Sys2Proof.Machine.execSysw d n s
  | .sleepc p a => Sys2Proof.Machine.execSleepc p a s
  | .rdcyc d => Sys2Proof.Machine.execRdcyc d s
  | .cpgo d => Sys2Proof.Machine.execCpgo d s
  | .cpmx d => Sys2Proof.Machine.execCpmx d s
  | .cpgath d a b => Sys2Proof.Machine.execCpgath d a b s
  | .cpscat d a b => Sys2Proof.Machine.execCpscat d a b s
  | .cpseal d => Sys2Proof.Machine.execCpseal d s
  | .cpwaitb n => Sys2Proof.Machine.execCpwaitb n s
  | .cpdisc a b => Sys2Proof.Machine.execCpdisc a b s
  | .cppre a b => Sys2Proof.Machine.execCppre a b s
  | .cpstr d a => Sys2Proof.Machine.execCpstr d a s
  | .cpfree a => Sys2Proof.Machine.execCpfree a s
  | .mxprog i32 unload a => Sys2Proof.Machine.execMxprog i32 unload a s
  | .mxmm deferred slot acc b => Sys2Proof.Machine.execMxmm deferred slot acc b s
  | .mxclr acc b => Sys2Proof.Machine.execMxclr acc b s
  | .mxwait all => Sys2Proof.Machine.execMxwait all s
  | .evacc bs acc v a => Sys2Proof.Machine.execEvacc bs acc v a s
  | .evld v a b => Sys2Proof.Machine.execEvld v a b s
  | .evst part v a b => Sys2Proof.Machine.execEvst part v a b s
  | .fork d a b => Sys2Proof.Machine.execFork d a b s
  | .rdz d a => Sys2Proof.Machine.execRdz d a s
  | .escr => Sys2Proof.Machine.execEscr s
  | .cfgld d a b => Sys2Proof.Machine.execCfgld d a b s
  | .cfgrun a b => Sys2Proof.Machine.execCfgrun a b s
  | .cfgpatch d a b => Sys2Proof.Machine.execCfgpatch d a b s
  | .cfgseam off a => Sys2Proof.Machine.execCfgseam off a s
  | .cfgsync sc => Sys2Proof.Machine.execCfgsync sc s
  | .cfgest a => Sys2Proof.Machine.execCfgest a s
  | .cfgspawn d a => Sys2Proof.Machine.execCfgspawn d a s
  | .cfgjoin d a => Sys2Proof.Machine.execCfgjoin d a s
  | .oxli x imm => Sys2Proof.Machine.execOxli x imm s
  | .oxmv x a => Sys2Proof.Machine.execOxmv x a s
  | .oxld x a off => Sys2Proof.Machine.execOxld x a off s
  | .pfx sat tgt2 srcC r z k => Sys2Proof.Machine.execPfx sat tgt2 srcC r z k s
  | .fadd r f d a b => Sys2Proof.Machine.execFadd r f d a b s
  | .fsub r f d a b => Sys2Proof.Machine.execFsub r f d a b s
  | .fmul r f d a b => Sys2Proof.Machine.execFmul r f d a b s
  | .ffma r f d a b => Sys2Proof.Machine.execFfma r f d a b s
  | .fdiv r f d a b => Sys2Proof.Machine.execFdiv r f d a b s
  | .fsqrt r f d a => Sys2Proof.Machine.execFsqrt r f d a s
  | .fmin f d a b => Sys2Proof.Machine.execFmin f d a b s
  | .fmax f d a b => Sys2Proof.Machine.execFmax f d a b s
  | .fcmp p f d a b => Sys2Proof.Machine.execFcmp p f d a b s
  | .fcvt r src dst d a => Sys2Proof.Machine.execFcvt r src dst d a s
  | .fcvtInt r src dst d a => Sys2Proof.Machine.execFcvtInt r src dst d a s
  | .fclass f d a => Sys2Proof.Machine.execFclass f d a s
  | .hAdd d a => Sys2Proof.Machine.execHAdd d a s
  | .hSub d a => Sys2Proof.Machine.execHSub d a s
  | .hAnd d a => Sys2Proof.Machine.execHAnd d a s
  | .hOr d a => Sys2Proof.Machine.execHOr d a s
  | .hXor d a => Sys2Proof.Machine.execHXor d a s
  | .hShl d a => Sys2Proof.Machine.execHShl d a s
  | .hShr d a => Sys2Proof.Machine.execHShr d a s
  | .hSra d a => Sys2Proof.Machine.execHSra d a s
  | .hMv d a => Sys2Proof.Machine.execHMv d a s
  | .hMin d a => Sys2Proof.Machine.execHMin d a s
  | .hMax d a => Sys2Proof.Machine.execHMax d a s
  | .hMinn d a => Sys2Proof.Machine.execHMinn d a s
  | .hMaxn d a => Sys2Proof.Machine.execHMaxn d a s
  | .hSlt d a => Sys2Proof.Machine.execHSlt d a s
  | .hSltn d a => Sys2Proof.Machine.execHSltn d a s
  | .hAndn d a => Sys2Proof.Machine.execHAndn d a s
  | .hAddi d a imm => Sys2Proof.Machine.execHAddi d a imm s
  | .hLdi d imm => Sys2Proof.Machine.execHLdi d imm s
  | .hLdD d a off => Sys2Proof.Machine.execHLdD d a off s
  | .hStD d a off => Sys2Proof.Machine.execHStD d a off s
  | .hLdW d a off => Sys2Proof.Machine.execHLdW d a off s
  | .hStW d a off => Sys2Proof.Machine.execHStW d a off s
  | .hBz d off => Sys2Proof.Machine.execHBz d off s
  | .hBnz d off => Sys2Proof.Machine.execHBnz d off s
  | .hJmp off => Sys2Proof.Machine.execHJmp off s
  | .hJalr d a => Sys2Proof.Machine.execHJalr d a s
  | .hNop => Sys2Proof.Machine.execHNop s
  | .hHalt => Sys2Proof.Machine.execHHalt s
  | .hYield => Sys2Proof.Machine.execHYield s
  | .hBrk => Sys2Proof.Machine.execHBrk s
  | .vmov t1 t0 a => Sys2Proof.Machine.execVmov t1 t0 a s
  | .vadd y t1 t0 b a => Sys2Proof.Machine.execVadd y t1 t0 b a s
  | .vsub y t1 t0 b a => Sys2Proof.Machine.execVsub y t1 t0 b a s
  | .vmul y t1 t0 b a => Sys2Proof.Machine.execVmul y t1 t0 b a s
  | .vmulh y t1 t0 b a => Sys2Proof.Machine.execVmulh y t1 t0 b a s
  | .vfma y t1 t0 b a => Sys2Proof.Machine.execVfma y t1 t0 b a s
  | .vmin y t1 t0 b a => Sys2Proof.Machine.execVmin y t1 t0 b a s
  | .vmax y t1 t0 b a => Sys2Proof.Machine.execVmax y t1 t0 b a s
  | .vabs y t1 t0 a => Sys2Proof.Machine.execVabs y t1 t0 a s
  | .vneg y t1 t0 a => Sys2Proof.Machine.execVneg y t1 t0 a s
  | .vand t1 t0 b a => Sys2Proof.Machine.execVand t1 t0 b a s
  | .vor t1 t0 b a => Sys2Proof.Machine.execVor t1 t0 b a s
  | .vxor t1 t0 b a => Sys2Proof.Machine.execVxor t1 t0 b a s
  | .vshl t1 t0 b a => Sys2Proof.Machine.execVshl t1 t0 b a s
  | .vshr t1 t0 b a => Sys2Proof.Machine.execVshr t1 t0 b a s
  | .vsra t1 t0 b a => Sys2Proof.Machine.execVsra t1 t0 b a s
  | .vcmpeq y t1 t0 b a => Sys2Proof.Machine.execVcmpeq y t1 t0 b a s
  | .vcmplt y t1 t0 b a => Sys2Proof.Machine.execVcmplt y t1 t0 b a s
  | .vcmple y t1 t0 b a => Sys2Proof.Machine.execVcmple y t1 t0 b a s
  | .vsel t1 t0 b a => Sys2Proof.Machine.execVsel t1 t0 b a s
  | .vcvt y t1 t0 a => Sys2Proof.Machine.execVcvt y t1 t0 a s
  | .vpack y t1 t0 b a => Sys2Proof.Machine.execVpack y t1 t0 b a s
  | .vunpk y t1 t0 b a => Sys2Proof.Machine.execVunpk y t1 t0 b a s
  | .vscale y t1 t0 b a => Sys2Proof.Machine.execVscale y t1 t0 b a s
  | .vrcp t1 t0 a => Sys2Proof.Machine.execVrcp t1 t0 a s
  | .vrsq t1 t0 a => Sys2Proof.Machine.execVrsq t1 t0 a s
  | .vsqrt t1 t0 a => Sys2Proof.Machine.execVsqrt t1 t0 a s
  | .vexp2 t1 t0 a => Sys2Proof.Machine.execVexp2 t1 t0 a s
  | .vlog2 t1 t0 a => Sys2Proof.Machine.execVlog2 t1 t0 a s
  | .vacc y t1 t0 b a => Sys2Proof.Machine.execVacc y t1 t0 b a s
  | .vred y t1 t0 a => Sys2Proof.Machine.execVred y t1 t0 a s
  | .vscan y t1 t0 a => Sys2Proof.Machine.execVscan y t1 t0 a s
  | .vsteer t1 t0 b a => Sys2Proof.Machine.execVsteer t1 t0 b a s
  | .vmerge y t1 t0 b a => Sys2Proof.Machine.execVmerge y t1 t0 b a s
  | .vgate t1 t0 b a => Sys2Proof.Machine.execVgate t1 t0 b a s
  | .vshuf t1 t0 b a => Sys2Proof.Machine.execVshuf t1 t0 b a s
  | .vbcast t1 t0 b a => Sys2Proof.Machine.execVbcast t1 t0 b a s
  | .vidx t1 t0 b a => Sys2Proof.Machine.execVidx t1 t0 b a s
  | .vdrop t1 t0 a => Sys2Proof.Machine.execVdrop t1 t0 a s
  | .esc entry t1 t0 a => Sys2Proof.Machine.execEsc entry t1 t0 a s
  | .vcfgt y t1 t0 a => Sys2Proof.Machine.execVcfgt y t1 t0 a s
  | .configFiring cl pos idx => Sys2Proof.Machine.execConfigFiring cl pos idx s
  | .tokenDelivery cl pos n => Sys2Proof.Machine.execTokenDelivery cl pos n s
  | .creditReturn cl pos n => Sys2Proof.Machine.execCreditReturn cl pos n s
  | .escapeDispatch cl n core => Sys2Proof.Machine.execEscapeDispatch cl n core s
  | .escapeQueueStart cl core slot => Sys2Proof.Machine.execEscapeQueueStart cl core slot s
  | .escapeReplyDelivery cl pos idx ticket => Sys2Proof.Machine.execEscapeReplyDelivery cl pos idx ticket s
  | .converge cl => Sys2Proof.Machine.execConverge cl s
  | .nodeStart node => Sys2Proof.Machine.execNodeStart node s
  | .stallDetect cl => Sys2Proof.Machine.execStallDetect cl s
  | .splitterDeal cl stage => Sys2Proof.Machine.execSplitterDeal cl stage s
  | .mergerTake cl stage => Sys2Proof.Machine.execMergerTake cl stage s
  | .stageHigh cl stage => Sys2Proof.Machine.execStageHigh cl stage s
  | .stageLow cl stage => Sys2Proof.Machine.execStageLow cl stage s
  | .stageFenceMerge cl stage => Sys2Proof.Machine.execStageFenceMerge cl stage s
  | .seamStitch cl port => Sys2Proof.Machine.execSeamStitch cl port s
  | .nodeReplace cl pos idx => Sys2Proof.Machine.execNodeReplace cl pos idx s
  | .portAccess cl port => Sys2Proof.Machine.execPortAccess cl port s
  | .portResponse cl port => Sys2Proof.Machine.execPortResponse cl port s
  | .wakeToken g => Sys2Proof.Machine.execWakeToken g s
  | .copyStart e => Sys2Proof.Machine.execCopyStart e s
  | .copyElement e n => Sys2Proof.Machine.execCopyElement e n s
  | .copyComplete e n => Sys2Proof.Machine.execCopyComplete e n s
  | .streamTileStart e n => Sys2Proof.Machine.execStreamTileStart e n s
  | .landingNotice blk slot => Sys2Proof.Machine.execLandingNotice blk slot s
  | .deferredEnter blk slot => Sys2Proof.Machine.execDeferredEnter blk slot s
  | .matrixFetchStart blk => Sys2Proof.Machine.execMatrixFetchStart blk s
  | .matrixCommandComplete blk => Sys2Proof.Machine.execMatrixCommandComplete blk s
  | .bankctlWrite cl bank v => Sys2Proof.Machine.execBankctlWrite cl bank v s
  | .bankSwitchComplete cl bank => Sys2Proof.Machine.execBankSwitchComplete cl bank s
  | .weirCountNotice n => Sys2Proof.Machine.execWeirCountNotice n s
  | .weirCredit n => Sys2Proof.Machine.execWeirCredit n s
  | .lineEviction cache line => Sys2Proof.Machine.execLineEviction cache line s
  | .pageMove task page frame => Sys2Proof.Machine.execPageMove task page frame s
  | .threadWake a => Sys2Proof.Machine.execThreadWake a s
  | .waitvReread a => Sys2Proof.Machine.execWaitvReread a s
  | .watchdogExpiry a => Sys2Proof.Machine.execWatchdogExpiry a s
  | .pageFaultResolved f pte home => Sys2Proof.Machine.execPageFaultResolved f pte home s
  | .ringRefill core => Sys2Proof.Machine.execRingRefill core s
  | .floorPublish => Sys2Proof.Machine.execFloorPublish s
  | .regroup core spare => Sys2Proof.Machine.execRegroup core spare s
  | .kick q v => Sys2Proof.Machine.execKick q v s
  | .resume q v => Sys2Proof.Machine.execResume q v s
  | .packetFetch q => Sys2Proof.Machine.execPacketFetch q s
  | .queuePoll q => Sys2Proof.Machine.execQueuePoll q s
  | .taskStart q dataFrame queueFrame queueVa => Sys2Proof.Machine.execTaskStart q dataFrame queueFrame queueVa s
  | .noopComplete q => Sys2Proof.Machine.execNoopComplete q s
  | .taskComplete t => Sys2Proof.Machine.execTaskComplete t s
  | .tokenReplenish q => Sys2Proof.Machine.execTokenReplenish q s
  | .scheduleDecision newcomer t => Sys2Proof.Machine.execScheduleDecision newcomer t s
  | .drainTimeout t => Sys2Proof.Machine.execDrainTimeout t s
  | .checkpoint t => Sys2Proof.Machine.execCheckpoint t s
  | .restore t => Sys2Proof.Machine.execRestore t s
  | .kill t => Sys2Proof.Machine.execKill t s
  | .debugHalt t => Sys2Proof.Machine.execDebugHalt t s
  | .debugStep a => Sys2Proof.Machine.execDebugStep a s
  | .debugResume t detach => Sys2Proof.Machine.execDebugResume t detach s
  | .hostAccess target write z v => Sys2Proof.Machine.execHostAccess target write z v s
  | .hostLinkRecovery back => Sys2Proof.Machine.execHostLinkRecovery back s
  | .hostLinkDown => Sys2Proof.Machine.execHostLinkDown s
  | .ownershipChange owner => Sys2Proof.Machine.execOwnershipChange owner s
  | .remoteRequest src op pa z v => Sys2Proof.Machine.execRemoteRequest src op pa z v s
  | .renqReceive src q packet => Sys2Proof.Machine.execRenqReceive src q packet s
  | .remoteReadMiss dev page => Sys2Proof.Machine.execRemoteReadMiss dev page s
  | .pageHandover page home => Sys2Proof.Machine.execPageHandover page home s
  | .tombstoneForward page n => Sys2Proof.Machine.execTombstoneForward page n s
  | .tombstoneRemove page => Sys2Proof.Machine.execTombstoneRemove page s
  | .portRetrain port => Sys2Proof.Machine.execPortRetrain port s
  | .portDown port => Sys2Proof.Machine.execPortDown port s
  | .registerWrite addr v => Sys2Proof.Machine.execRegisterWrite addr v s
  | .dykeWrite n v => Sys2Proof.Machine.execDykeWrite n v s
  | .powerOn b => Sys2Proof.Machine.execPowerOn b s
  | .attestChallenge nonce => Sys2Proof.Machine.execAttestChallenge nonce s
  | .firmwareRoll image => Sys2Proof.Machine.execFirmwareRoll image s
  | .unitRetire u back => Sys2Proof.Machine.execUnitRetire u back s
  | .scrubUncorrectable line => Sys2Proof.Machine.execScrubUncorrectable line s
  | .thermalTrip => Sys2Proof.Machine.execThermalTrip s
  | .illegalInstruction => Sys2Proof.Machine.execIllegalInstruction s
  | .faultUnresolvable f => Sys2Proof.Machine.execFaultUnresolvable f s
  | .queueOpen q desc => Sys2Proof.Machine.execQueueOpen q desc s
  | .hostSnoop line => Sys2Proof.Machine.execHostSnoop line s
  | .readCopyInvalidate page => Sys2Proof.Machine.execReadCopyInvalidate page s
  | .powerLoss torn => Sys2Proof.Machine.execPowerLoss torn s
  | .peerComeBack dev => Sys2Proof.Machine.execPeerComeBack dev s

end Sys2Proof.Machine
end

