-- ==== Sys2Proof/Machine/Turn.lean ====
section
/-! DEFINITION. The turns that the agenda names: a core's barrel, a sequencer, a tile, or an event of the device (log entry 1). -/

namespace Sys2Proof.Machine

/-- An agent issues its next instruction. -/
def issueNext (a : AgentId) (s : State) : Out :=
  let s := { s with cur := a }
  match fetchNext s with
  | .instr i => afterIssue a (exec i s)
  | .instead o => afterIssue a o

/-- A core's barrel picks a slot, and its thread issues, at most one in a cycle (R263). -/
def coreTurn (c : Nat) (s : State) : Out :=
  if numCores ≤ c then .fault .noSuchUnit
  else if (s.core c).issuedAt = some s.clock then .next s
  else match pickSlot s c with
    | some n => issueNext (.thread c n) (noteIssue s c n)
    | none => .next s

/-- A sequencer issues, at most one instruction in a cycle (R97). -/
def sequencerTurn (a : AgentId) (s : State) : Out :=
  match a with
  | .thread _ _ | .tile _ _ _ => .fault .noSuchUnit
  | .region _ | .matrix _ _ | .epilogue _ _ | .copySeq _ _ =>
    if !a.exists then .fault .noSuchUnit
    else if sequencerReady s a then issueNext a (noteSequencer s a)
    else .next s

/-- A tile fires at most one instruction (R106). -/
def tileTurn (cl pos : Nat) (s : State) : Out :=
  if numClusters ≤ cl || !isTile pos then .fault .noSuchUnit
  else if hasFired s cl pos then .next s
  else match arbitrate s cl pos with
    | (none, s) => .next s
    | (some idx, s) => match chosenInstr s cl pos idx with
      | some i => exec i { s with cur := .tile cl pos idx }
      | none => .next s

/-- An event is over: the steps of a debugger that it ends freeze their tasks again (R371), and the caches keep their capacities (R281). -/
def afterEvent (before : State) : Out → Out
  | .next s => .next (trimCaches (endSteps s (eventEnded before s)))
  | .fault f => .fault f
  | .refused r => .refused r

/-- One turn. -/
def takeTurn (t : Turn) (s : State) : Out :=
  match t with
  | .core c => coreTurn c s
  | .sequencer a => sequencerTurn a s
  | .tile cl pos => tileTurn cl pos s
  | .event e => if isEvent e then afterEvent s (exec e s) else .next s

/-- The turn that comes next, with the clock moved on to it and the cycles passed: the next item of the agenda, or with none left one more cycle and the standing turn. -/
def nextTurn (s : State) : Turn × State :=
  match s.agenda with
  | it :: r => (it.turn, { passCycles s it.dt with agenda := r, clock := s.clock + it.dt })
  | [] => (s.turn, { passCycles s 1 with clock := s.clock + 1 })

end Sys2Proof.Machine
end

