-- ==== Sys2Proof/Machine/Step.lean ====
section
/-! DEFINITION. One step of the module, and the state whose next step runs a given instruction. -/

namespace Sys2Proof.Machine

/-- One step: the agenda names the turn, and the turn runs one instruction, firing or event (log entry 1). -/
def step (s : State) : Host.Outcome State Fault Refusal :=
  takeTurn (nextTurn s).1 (nextTurn s).2

/-- `s` with the instruction of `nbits` bits `w` placed where the next step takes it (log entry 7). -/
def State.withFetchWord (s : State) (nbits w : Nat) : State :=
  placeNext s (bytesOf 8 (w % 2 ^ nbits)) (w % 2 ^ nbits)

end Sys2Proof.Machine
end

