-- ==== Sys2Proof/Safety.lean ====
section
/-! DEFINITION. The terms that claims use: what a safe run is, when an instruction may run, what the machine is after it, and what an agent sees of a byte. -/

namespace Sys2Proof.Safety

open Sys2Proof.Machine

/-! ## Runs -/

/-- The bytes of HBM, banks and local memories are in their canonical form. -/
def MemoryWf (s : State) : Prop := memWf s.mem = true

/-- A step that has a next state. -/
def Steps (s s' : State) : Prop := Machine.step s = .next s'

/-- A run from reset, one step after the other. -/
def Reachable (s : State) : Prop := ∃ n, Sys2Proof.core.run n Sys2Proof.core.reset = .next s

/-- A step stops only where it names a unit that the module does not have. -/
def StopsOnlyOnMissingUnits (s : State) : Prop := ∀ r, Machine.step s ≠ .refused r

/-! ## Registers across an access of memory -/

/-- A thread or sequencer without the marks that a departure of Trackway leaves on it (R382). -/
def unmarked (h : Hart) : Hart := { h with tkfell := 0, pendingTrap := none, laterTraps := [] }

/-- A core but for its L1 and the lines that Trackway pushed to it. -/
def bareCore (k : Core) : Core := { k with l1 := Cache.fresh, held := [] }
/-- A home segment but for its cache. -/
def bareSegment (g : Segment) : Segment := { g with cache := Cache.fresh }
/-- A matrix block but for the lines in its cache ways. -/
def bareBlock (k : Block) : Block := { k with ways := [] }
/-- A shared frame but for the peers that hold a read copy of it. -/
def bareHome (e : HomeEntry) : HomeEntry := { e with copies := [] }
/-- Everything that stands beside the agents, caches, memory, weir notices and recordings. -/
def bare (s : State) : State :=
  { s with harts := [], cores := [], segments := [], blocks := [], homes := [], mere := [], mem := [], notices := [], tracks := [] }

/-- What an access, a fence or a prefetch may change beside the registers of its instruction: bytes of memory, lines of caches, notices to weirs,
Trackway's records and marks, and which peers hold copies. Everything else of the machine stands. -/
structure OnlyMemory (s t : State) : Prop where
  rest : bare t = bare s
  harts : ∀ a, unmarked (t.hart a) = unmarked (s.hart a)
  cores : ∀ c, bareCore (t.core c) = bareCore (s.core c)
  segments : ∀ cl, bareSegment (t.segment cl) = bareSegment (s.segment cl)
  blocks : ∀ b, bareBlock (t.block b) = bareBlock (s.block b)
  homes : ∀ f, (tfind f t.homes).map bareHome = (tfind f s.homes).map bareHome

/-! ## Words -/

/-- What the word of an instruction stands for: an `amo` that names s0 is the `ared` of the same operation (R179), and any other instruction is itself. -/
def asDecoded : Instr → Instr
  | .amoAdd z o sc d a b => if d = 0 then .aredAdd z o sc a b else .amoAdd z o sc d a b
  | .amoAnd z o sc d a b => if d = 0 then .aredAnd z o sc a b else .amoAnd z o sc d a b
  | .amoOr z o sc d a b => if d = 0 then .aredOr z o sc a b else .amoOr z o sc d a b
  | .amoXor z o sc d a b => if d = 0 then .aredXor z o sc a b else .amoXor z o sc d a b
  | .amoMin z o sc d a b => if d = 0 then .aredMin z o sc a b else .amoMin z o sc d a b
  | .amoMax z o sc d a b => if d = 0 then .aredMax z o sc a b else .amoMax z o sc d a b
  | .amoMinn z o sc d a b => if d = 0 then .aredMinn z o sc a b else .amoMinn z o sc d a b
  | .amoMaxn z o sc d a b => if d = 0 then .aredMaxn z o sc a b else .amoMaxn z o sc d a b
  | .amoSwap z o sc d a b => if d = 0 then .aredSwap z o sc a b else .amoSwap z o sc d a b
  | .amoFadd z o sc d a b => if d = 0 then .aredFadd z o sc a b else .amoFadd z o sc d a b
  | .amoFmin z o sc d a b => if d = 0 then .aredFmin z o sc a b else .amoFmin z o sc d a b
  | .amoFmax z o sc d a b => if d = 0 then .aredFmax z o sc a b else .amoFmax z o sc d a b
  | i => i

/-! ## One instruction -/

/-- The running agent decodes the instruction (R46), its word is no illegal use (R65), and every register it names is one of the agent's (R43). -/
abbrev Legal (i : Instr) (s : State) : Prop := accepts s.cur i = true ∧ i.wellFormed = true ∧ fieldsOk s.cur i = true

/-- A legal instruction of an agent with no chain bound, whose registers are all registers (R60). -/
def MayRun (i : Instr) (s : State) : Prop := Legal i s ∧ s.me.chain = none

/-- The instruction has completed: its registers are written in order, s0 discarding its write, the pc is past it, and nothing else has changed. -/
def done (i : Instr) (ws : List (Reg × Word)) (s : State) : State :=
  s.setMe { s.me.setRegs ws with pc := s.me.pc + BitVec.ofNat 64 i.length }

/-- A completed instruction that also raised flags in FSTAT (R30). -/
def doneWith (i : Instr) (ws : List (Reg × Word)) (f : Flags) (s : State) : State :=
  done i ws (s.setMe { s.me with fstat := s.me.fstat ||| f })

/-- Wherever it may run, the instruction completes with `v` in `d`. -/
def Gives (i : Instr) (d : Reg) (v : Word) (s : State) : Prop := MayRun i s → exec i s = .next (done i [(d, v)] s)

/-- Wherever it may run, the instruction completes with `v` in `d` and raises the flags `f`. -/
def GivesWith (i : Instr) (d : Reg) (v : Word) (f : Flags) (s : State) : Prop :=
  MayRun i s → exec i s = .next (doneWith i [(d, v)] f s)

/-- A control transfer has completed: its registers are written, the pc is at the target, and the first one to the address that `clnext` linked has left codelet mode (R198). -/
def jumped (ws : List (Reg × Word)) (target : Word) (s : State) : State :=
  s.setMe { s.me.setRegs ws with pc := target, codelet := s.me.codelet && target ≠ s.me.codeRet }

/-- A thread has entered its handler (R207). -/
def trapped (c : TrapClass) (len : Nat) (epc eval : Word) (s : State) : State :=
  s.setMe { s.me with
    status := .ready
    epc := epc
    ecause := BitVec.ofNat 16 (c.code + 2 ^ 8 * len)
    eval := eval
    tmode := true
    pc := evenPc s.me.tvec }

/-- The running agent is a thread that a trap takes to its handler: it has one, and it is not in it (R207). -/
abbrev Handles (s : State) : Prop := s.cur.isThread = true ∧ s.me.tmode = false ∧ s.me.tvec ≠ 0

/-- The instruction sleeps: the pc still names it (R178, R213). -/
def asleep (w : Wait) (s : State) : State := s.setMe { s.me with status := .sleeping w s.clock }

/-! ## Numbers -/

/-- A finite number in units of 2^q, where q is no more than its exponent (R14). -/
def unitsOf (neg : Bool) (m : Nat) (e q : Int) : Int := (if neg then -1 else 1) * (m * 2 ^ (e - q).toNat : Nat)

/-- One number is less than another; the two zeros are equal, and a NaN is neither less nor more (R79). -/
def Below : FVal → FVal → Prop
  | .inf true, .inf false | .inf true, .fin _ _ _ | .fin _ _ _, .inf false => True
  | .fin n m e, .fin n' m' e' => unitsOf n m e (min e e') < unitsOf n' m' e' (min e e')
  | _, _ => False

/-- The magnitude of a code in units of the smallest subnormal, as if the exponent had no end (R14). -/
def codeUnits (f : FloatFmt) (c : Nat) : Nat :=
  if c < 2 ^ f.mbits then c else (2 ^ f.mbits + c % 2 ^ f.mbits) * 2 ^ (c / 2 ^ f.mbits - 1)

/-- The exponent of the smallest subnormal. -/
def leastExp (f : FloatFmt) : Int := 1 - f.bias - f.mbits

/-- How p/k units of 2^least compare with the exact magnitude m/j × 2^e. -/
def against (least : Int) (m j : Nat) (e : Int) (p k : Nat) : Ordering :=
  compare (p * j * 2 ^ (least - e).toNat) (k * m * 2 ^ (e - least).toNat)

/-- How they compare with the root of m/j × 2^e. -/
def againstRoot (least : Int) (m j : Nat) (e : Int) (p k : Nat) : Ordering :=
  compare (p * p * j * 2 ^ (2 * least - e).toNat) (k * k * m * 2 ^ (e - 2 * least).toNat)

/-- An exact magnitude, which `cmp` compares with p/k units, rounds to the code: an exact one to itself, and any other to one of its two neighbours,
as the rounding code says (R25, R26). -/
def RoundsTo (units : Nat → Nat) (r : Rounding) (neg : Bool) (cmp : Nat → Nat → Ordering) (code : Nat) : Prop :=
  ∃ lo, cmp (units lo) 1 ≠ .gt ∧ cmp (units (lo + 1)) 1 = .gt ∧ (cmp (units lo) 1 = .eq → code = lo) ∧
    (cmp (units lo) 1 = .lt →
      let nearest : Nat → Nat := fun tie => match cmp (units lo + units (lo + 1)) 2 with
        | .lt => lo + 1
        | .gt => lo
        | .eq => tie
      match r.rnd with
      | .rne => code = nearest (if lo % 2 = 0 then lo else lo + 1)
      | .rna => code = nearest (lo + 1)
      | .rtz => code = lo
      | .rdn => code = if neg then lo + 1 else lo
      | .rup => code = if neg then lo else lo + 1
      | .rod => code = if lo % 2 = 0 then lo + 1 else lo
      | .rhd => ∃ part, part < 2 ^ 16 ∧ code = (if r.hash < part then lo + 1 else lo) ∧
        let at_ : Nat → Nat := fun n => 2 ^ 16 * units lo + n * (units (lo + 1) - units lo)
        cmp (at_ part) (2 ^ 16) ≠ .gt ∧ cmp (at_ (part + 1)) (2 ^ 16) = .gt)

/-- A nonzero exact magnitude has been delivered in a format, rounded once: NX says whether the value differs from it,
and one that rounds beyond the largest finite value overflows (R28). -/
def Delivered (f : FloatFmt) (r : Rounding) (sat neg : Bool) (cmp : Nat → Nat → Ordering) (v : Nat × Flags) : Prop :=
  ∃ code, RoundsTo (codeUnits f) r neg cmp code ∧
    (code ≤ f.maxCode → v.1 = f.withSign neg code ∧ v.2.getLsbD 2 = false ∧ (v.2.getLsbD 0 = true ↔ cmp (codeUnits f code) 1 ≠ .eq)) ∧
    (f.maxCode < code → v = (f.withSign neg (f.overflowCode r.rnd sat neg), flagOF ||| flagNX))

/-- The exact sum of two finite numbers, rounded once; a zero sum of opposite signs is +0, and −0 under RDN (R78). -/
def RoundedSum (f : FloatFmt) (r : Rounding) (sat neg : Bool) (m : Nat) (e : Int) (neg' : Bool) (m' : Nat) (e' : Int) (v : Nat × Flags) : Prop :=
  let q := min e e'
  let t := unitsOf neg m e q + unitsOf neg' m' e' q
  (t ≠ 0 → Delivered f r sat (decide (t < 0)) (against (leastExp f) t.natAbs 1 q) v) ∧
  (t = 0 → v = (f.withSign (if neg = neg' then neg else r.rnd = .rdn) 0, noFlags))

/-- The magnitude m/j × 2^e, rounded once with the sign it is given; a zero keeps its sign. -/
def RoundedRatio (f : FloatFmt) (r : Rounding) (sat neg : Bool) (m j : Nat) (e : Int) (v : Nat × Flags) : Prop :=
  (m ≠ 0 → Delivered f r sat neg (against (leastExp f) m j e) v) ∧ (m = 0 → v = (f.withSign neg 0, noFlags))

/-- The canonical NaNs of R16; a NaN converted to FP4 gives 0 (R31) and to E3M5 0xFF (R20). -/
def canonicalNaN : FloatType → Nat
  | .f64 => 0x7FF8000000000000 | .f32 => 0x7FC00000 | .bf16 => 0x7FC0 | .f16 => 0x7E00
  | .e5m2 => 0x7E | .e4m3 => 0x7F | .fp4 => 0 | .e3m5 => 0xFF

/-- The largest finite magnitudes of R14 and R19. -/
def largestFinite : FloatType → Nat
  | .f64 => 0x7FEFFFFFFFFFFFFF | .f32 => 0x7F7FFFFF | .bf16 => 0x7F7F | .f16 => 0x7BFF
  | .e5m2 => 0x7B | .e4m3 => 0x7E | .fp4 => 0x7 | .e3m5 => 0xFE

/-- The magnitude of infinity, where the format has one. -/
def infinity : FloatType → Option Nat
  | .f64 => some 0x7FF0000000000000 | .f32 => some 0x7F800000 | .bf16 => some 0x7F80 | .f16 => some 0x7C00 | .e5m2 => some 0x7C
  | .e4m3 | .fp4 | .e3m5 => none

/-- An infinity delivered in a format: without an infinity, or saturating, the largest finite value with OF (R20, R31). -/
def Infinite (t : FloatType) (sat neg : Bool) (v : Nat × Flags) : Prop :=
  v = match infinity t, sat with
    | some c, false => ((floatFmt t).withSign neg c, noFlags)
    | some _, true | none, _ => ((floatFmt t).withSign neg (largestFinite t), flagOF)

/-- A number converted to a float format (R20, R31). -/
def Converted (t : FloatType) (r : Rounding) (sat : Bool) : FVal → Nat × Flags → Prop
  | .nan, v => v = (canonicalNaN t, if t = .fp4 then flagNZ else if t = .e3m5 then flagNV else noFlags)
  | .inf neg, v => if t = .e3m5 ∧ neg = true then v = (0xFF, flagNV) else Infinite t sat neg v
  | .fin neg m e, v => if t = .e3m5 ∧ neg = true ∧ m ≠ 0 then v = (0xFF, flagNV) else RoundedRatio (floatFmt t) r sat neg m 1 e v

/-- A number converted to an integer type: rounded to an integral value and then clamped (R31). -/
def Clamped (t : IntFmt) (r : Rounding) : FVal → Int × Flags → Prop
  | .nan, v => v = (0, flagNZ)
  | .inf neg, v => v = (if neg then t.least else t.greatest, flagOF)
  | .fin neg m e, v => ∃ k, RoundsTo id r neg (against 0 m 1 e) k ∧
    let x : Int := if neg then -(k : Int) else k
    v.1 = max t.least (min t.greatest x) ∧
    v.2 = if x < t.least ∨ t.greatest < x then flagOF ||| flagNX else if against 0 m 1 e k 1 = .eq then noFlags else flagNX

/-- A magnitude that `cmp` compares lies strictly between two others. -/
def Between (lo hi cmp : Nat → Nat → Ordering) : Prop :=
  ∀ p k, 0 < k → (lo p k ≠ .gt → cmp p k = .lt) ∧ (hi p k ≠ .lt → cmp p k = .gt)

/-- The cell coordinate of a position on a grid of cells of m × 2^e, moved by an offset: none outside 0 to 2^21 − 1 (R76). -/
def CellAt (m : Nat) (e : Int) (x : FVal) (d : Delta) (c : Option Nat) : Prop :=
  match x with
  | .fin n m' e' => ∃ k : Int,
      let q := min e e'
      let h := unitsOf false m e q
      let v := unitsOf n m' e' q
      let at_ := k + match d with | .zero => 0 | .plus => 1 | .minus => -1
      k * h ≤ v ∧ v < (k + 1) * h ∧ c = if 0 ≤ at_ ∧ at_ < 2 ^ 21 then some at_.toNat else none
  | .inf _ | .nan => c = none

/-! ## Memory -/

/-- The little-endian value of `n` bytes from `a` on. -/
def valueAt (f : Nat → Byte) (a n : Nat) : Nat := ((List.range n).map fun k => (f (a + k)).toNat * 2 ^ (8 * k)).sum

/-- What a store of the low `n` bytes of `v` at `a` makes of the bytes of memory. -/
def stored (f : Nat → Byte) (a n v : Nat) (x : Nat) : Byte :=
  if a ≤ x ∧ x < a + n then BitVec.ofNat 8 (v / 2 ^ (8 * (x - a))) else f x

/-- The address and number of bytes of every load, store, atomic and value wait. -/
def accessOf (h : Hart) : Instr → Option (Word × Nat)
  | .ld z _ _ _ a off | .lds z _ _ _ a off | .st z _ _ _ a off =>
    some (h.reg a + off.signExtend 64 * BitVec.ofNat 64 (sizeBytes z), sizeBytes z)
  | .ldx z _ _ sx _ a b | .ldxSx z _ _ sx _ a b | .stx z _ _ sx _ a b =>
    some (h.reg a + h.reg b * BitVec.ofNat 64 (if sx then sizeBytes z else 1), sizeBytes z)
  | .hLdD _ a off | .hStD _ a off => some (h.reg (Fin.ofNat 32 a.val) + off.setWidth 64 * 8, 8)
  | .hLdW _ a off | .hStW _ a off => some (h.reg (Fin.ofNat 32 a.val) + off.setWidth 64 * 4, 4)
  | .oxld _ a off => some (h.reg a + off.signExtend 64 * 8, 8)
  | .amoAdd z _ _ _ a _ | .amoAnd z _ _ _ a _ | .amoOr z _ _ _ a _ | .amoXor z _ _ _ a _ | .amoMin z _ _ _ a _
  | .amoMax z _ _ _ a _ | .amoMinn z _ _ _ a _ | .amoMaxn z _ _ _ a _ | .amoSwap z _ _ _ a _ | .amoFadd z _ _ _ a _
  | .amoFmin z _ _ _ a _ | .amoFmax z _ _ _ a _ | .aredAdd z _ _ a _ | .aredAnd z _ _ a _ | .aredOr z _ _ a _
  | .aredXor z _ _ a _ | .aredMin z _ _ a _ | .aredMax z _ _ a _ | .aredMinn z _ _ a _ | .aredMaxn z _ _ a _
  | .aredSwap z _ _ a _ | .aredFadd z _ _ a _ | .aredFmin z _ _ a _ | .aredFmax z _ _ a _ | .cas z _ _ _ a _
  | .incw z _ _ _ a _ | .waitvEq _ z _ _ a _ | .waitvNe _ z _ _ a _ | .waitvLt _ z _ _ a _ | .waitvGe _ z _ _ a _ =>
    some (h.reg a, widthBytes z)
  | _ => none

/-- What the access of such an instruction does with the bytes. -/
def accessKind : Instr → Access
  | .ld _ _ _ _ _ _ | .lds _ _ _ _ _ _ | .ldx _ _ _ _ _ _ _ | .ldxSx _ _ _ _ _ _ _ | .hLdD _ _ _ | .hLdW _ _ _ | .oxld _ _ _
  | .waitvEq _ _ _ _ _ _ | .waitvNe _ _ _ _ _ _ | .waitvLt _ _ _ _ _ _ | .waitvGe _ _ _ _ _ _ => .read
  | .st _ _ _ _ _ _ | .stx _ _ _ _ _ _ _ | .hStD _ _ _ | .hStW _ _ _ => .write
  | _ => .update

/-- Only `ld.d` and `st.d` reach the registers of the banks (R284). -/
def isPlainD : Instr → Bool
  | .ld .d _ _ _ _ _ | .st .d _ _ _ _ _ | .hLdD _ _ _ | .hStD _ _ _ => true
  | _ => false

/-- Where the instruction's access lands, with the checks of R90. -/
def landing (i : Instr) (s : State) : Option (Except AddrFault Place) :=
  (accessOf s.me i).map fun p => resolve s s.cur s.me.task p.1 p.2 (accessKind i) (isPlainD i)

/-- The access lands at a bank or a local memory, at this address of the device window. -/
def AtWindow (i : Instr) (s : State) (addr : Nat) : Prop :=
  (∃ c, landing i s = some (.ok (.localMem c addr))) ∨ ∃ b k, landing i s = some (.ok (.bank b k addr))

/-- The access lands in memory whose home is this module. -/
def AtMemory (i : Instr) (s : State) (pa : Nat) (coh : Bool) : Prop :=
  ∃ sd shared, landing i s = some (.ok (.memory pa coh sd shared)) ∧ siteOf s pa shared = .here

/-- The access lands in a bank, a local memory or memory of this module. -/
def Lands (i : Instr) (s : State) : Prop := (∃ a, AtWindow i s a) ∨ ∃ pa coh, AtMemory i s pa coh

/-- The access lands in memory of this module, outside the coherent regime, and no recording of Trackway is kept. -/
def AtPlainMemory (i : Instr) (s : State) (pa : Nat) : Prop := AtMemory i s pa false ∧ s.tracks = []

/-- No cache of the die holds the byte dirty. -/
def CleanOnDie (s : State) (x : Nat) : Prop :=
  let clean : List Line → Prop := fun ls => ∀ l, findLine (x / 64) ls = some l → l.dirty.getLsbD (x % 64) = false
  (∀ c, clean (s.l1 c).lines) ∧ (∀ cl, clean (s.seg cl).lines) ∧ ∀ b, clean (s.block b).ways

/-- No push into the running agent's core waits for an acquire in the byte's line. -/
def Unheld (s : State) (x : Nat) : Prop := ∀ c sl, s.cur = .thread c sl → ∀ h ∈ (s.core c).held, h.no ≠ x / 64

/-- Every byte that a core, a segment cache or a home shows is as it was, and so is memory behind the homes, and no weir hears of anything. -/
structure SameBytes (s t : State) : Prop where
  l1 : ∀ c x, t.l1Byte c x = s.l1Byte c x
  seg : ∀ cl x, t.segByte cl x = s.segByte cl x
  home : ∀ x, t.homeByte x = s.homeByte x
  mem : t.mem = s.mem
  notices : t.notices = s.notices

/-- The packet at an address, in a bank, a local memory or memory of this module: the state after the release and the write-back of its line, and the eight words then read (R199). -/
def PacketRead (s : State) (sc : Scope) (va : Word) (t : State) (ws : List Word) : Prop :=
  let words : (Nat → Byte) → Nat → List Word := fun f a => (List.range 8).map fun k => BitVec.ofNat 64 (valueAt f (a + 8 * k) 8)
  let at_ := resolve s s.cur s.me.task va 64 .read false
  (∃ addr, ((∃ b k, at_ = .ok (.bank b k addr)) ∨ ∃ c, at_ = .ok (.localMem c addr)) ∧ t = s.release s.cur sc ∧ ws = words t.backing addr) ∨
  ∃ pa coh sd shared, at_ = .ok (.memory pa coh sd shared) ∧ siteOf s pa shared = .here ∧
    t = (s.release s.cur sc).cleanLine (pa / 64) ∧ ws = words t.homeByte pa

/-! ## Cell tiles -/

/-- An instruction of the running context of a tile, with its prefix and shape: its region runs, its generator bound is not reached (R110)
and no register that it names has a write pending (R102, R105). -/
structure Placed (s : State) (cl pos idx : Nat) (i : Instr) (k : TileContext) (p : Prefix) (c : CellShape) : Prop where
  active : tileActive s cl = true
  context : contextOf s cl pos = some k
  slot : k.instr idx = some (i, p)
  shape : cellShape i = some c
  bound : isGenerator c p = true → vget 0 (s.tile cl pos).counts idx < iterations s cl
  registers : ∀ n ∈ regsOf c p, regPending (s.tile cl pos) n = false

/-- The results of a firing on their way: a slot or register gets its own after the latency, a link after the hop as well (R105). -/
def flightsOf (s : State) (cl pos idx latency : Nat) (sends : List (Tgt × Token)) : List Flight :=
  sends.filterMap fun x =>
    let arrival := fun (d : Dest) (hop : Nat) => some ⟨s.clock + latency + hop, d, x.2, idx⟩
    match x.1 with
    | .slotA n => arrival (.slotA n.val) 0
    | .slotB n => arrival (.slotB n.val) 0
    | .slotC n => arrival (.slotC n.val) 0
    | .reg n => arrival (.reg n.val) 0
    | .link l => arrival (.link l) (hopOf s cl pos l)
    | .done => arrival .done 0
    | .none => none

/-- A firing has consumed `takes` and sent `sends`: its results are in flight, each link sent to has one credit less, `done` and the count of firings have gone up,
and registers, threads, memory and every other tile stand but for credits that return (R103 to R105, R113, R134). -/
structure Fired (s u : State) (cl pos idx : Nat) (counts : Bool) (takes : List (Nat × Src)) (sends : List (Tgt × Token)) (flights : List Flight) (f : Flags) : Prop where
  harts : u.harts = s.harts
  mem : u.mem = s.mem
  blocks : u.blocks = s.blocks
  others : ∀ c p, (c, p) ≠ (cl, pos) → { u.tile c p with creditsDue := [] } = { s.tile c p with creditsDue := [] }
  registers : (u.tile cl pos).v = (s.tile cl pos).v
  flights : (u.tile cl pos).flights = (s.tile cl pos).flights ++ flights
  counts : ∀ n, vget 0 (u.tile cl pos).counts n = vget 0 (s.tile cl pos).counts n + if n = idx ∧ counts = true then 1 else 0
  waits : vget 0 (u.tile cl pos).waits idx = 0
  flags : (u.tile cl pos).flags = (s.tile cl pos).flags ||| f
  slotA : ∀ n, vget none (u.tile cl pos).slotA n = if n = idx ∧ (0, Src.tok) ∈ takes then none else vget none (s.tile cl pos).slotA n
  slotB : ∀ n, vget none (u.tile cl pos).slotB n = if n = idx ∧ (1, Src.tok) ∈ takes then none else vget none (s.tile cl pos).slotB n
  slotC : ∀ n, vget none (u.tile cl pos).slotC n = if n = idx ∧ (2, Src.tok) ∈ takes then none else vget none (s.tile cl pos).slotC n
  fifo : ∀ l, (∀ n, (n, Src.link l) ∉ takes) → vget [] (u.tile cl pos).fifo l.code = vget [] (s.tile cl pos).fifo l.code
  credits : ∀ l, vget 0 (u.tile cl pos).credits l.code = vget 0 (s.tile cl pos).credits l.code - (sends.filter fun x => x.1 = .link l).length
  done : (u.tile cl pos).doneCount = (s.tile cl pos).doneCount + (sends.filter fun x => x.1 = .done).length
  progress : (u.region (leadOf s cl)).progress = s.clock

/-! ## Units that the module does not have -/

/-- The instruction is an event that names a unit beyond those of R1: a thread, block, bank, port, queue, channel or frame whose number no such unit bears. -/
def namesNoUnit : Instr → Prop
  | .queueOpen q _ | .kick q _ | .resume q _ | .renqReceive _ q _ | .hostAccess (.kickPage q _) _ _ _ => 4096 ≤ q
  | .threadWake a | .waitvReread a | .watchdogExpiry a => a.exists = false
  | .seamStitch cl n | .portAccess cl n | .portResponse cl n => 32 ≤ cl ∨ 32 ≤ n
  | .bankctlWrite cl bank _ | .bankSwitchComplete cl bank => 32 ≤ cl ∨ 256 ≤ bank
  | .landingNotice blk slot => 256 ≤ blk ∨ 8 ≤ slot
  | .streamTileStart e n => 288 ≤ e ∨ 16 ≤ n
  | .escapeQueueStart _ _ slot => 16 ≤ slot
  | .regroup core spare => 2048 ≤ core ∨ 2048 ≤ spare
  | .ringRefill core => 2048 ≤ core
  | .lineEviction cache _ => 2337 ≤ cache
  | .pageMove _ _ frame => Pte.backed (4096 * frame) = false
  | .portRetrain port | .portDown port => 48 ≤ port
  | .dykeWrite n _ => 32 ≤ n
  | .unitRetire (.cluster n) _ | .unitRetire (.stack n) _ => 32 ≤ n
  | .unitRetire (.block n) _ | .unitRetire (.slice n) _ => 256 ≤ n
  | .unitRetire (.core n) _ => 2048 ≤ n
  | .unitRetire (.pseudoChannel n) _ => 12288 ≤ n
  | .unitRetire (.lane n) _ => 48 ≤ n
  | .scrubUncorrectable line => lineExists line = false
  | _ => False

end Sys2Proof.Safety
end

