-- ==== Sys2Proof/Certificates/Slice0/Obligations.lean ====
section
/-! DEFINITION. What this row states of the model, each a proposition that the provers prove. -/

section Claims

open Sys2Proof Sys2Proof.Machine Sys2Proof.Safety

/-! ## Integer operations (R67 to R74) -/

/-- R67, the 64-bit forms: each writes its result to d and changes nothing else but the pc.
R67, the counts: `clz` and `ctz` give 0 to 64 and name the highest and the lowest 1 bit of s[a], and `popc` counts the 1 bits. -/
def Obligations.IntegerResults : Prop :=
  (∀ (s : State) (d a b : Reg),
      let x := s.me.reg a
      let y := s.me.reg b
      Gives (.add .d d a b) d (x + y) s ∧
      Gives (.sub .d d a b) d (x - y) s ∧
      Gives (.and d a b) d (x &&& y) s ∧
      Gives (.or d a b) d (x ||| y) s ∧
      Gives (.xor d a b) d (x ^^^ y) s ∧
      Gives (.andn d a b) d (x &&& ~~~ y) s ∧
      Gives (.shl .d d a b) d (x <<< (y.toNat % 64)) s ∧
      Gives (.shr .d d a b) d (x >>> (y.toNat % 64)) s ∧
      Gives (.sra .d d a b) d (x.sshiftRight (y.toNat % 64)) s ∧
      Gives (.min .d d a b) d (if x.toInt ≤ y.toInt then x else y) s ∧
      Gives (.max .d d a b) d (if y.toInt ≤ x.toInt then x else y) s ∧
      Gives (.minn .d d a b) d (if x.toNat ≤ y.toNat then x else y) s ∧
      Gives (.maxn .d d a b) d (if y.toNat ≤ x.toNat then x else y) s ∧
      Gives (.slt .d d a b) d (if x.toInt < y.toInt then 1 else 0) s ∧
      Gives (.sltn .d d a b) d (if x.toNat < y.toNat then 1 else 0) s ∧
      Gives (.mul .d d a b) d (BitVec.ofNat 64 (x.toNat * y.toNat)) s ∧
      (∃ v : Word, 2 ^ 64 * v.toInt ≤ x.toInt * y.toInt ∧ x.toInt * y.toInt < 2 ^ 64 * (v.toInt + 1) ∧
        Gives (.mulh .d d a b) d v s) ∧
      (∃ v : Word, 2 ^ 64 * v.toNat ≤ x.toNat * y.toNat ∧ x.toNat * y.toNat < 2 ^ 64 * (v.toNat + 1) ∧
        Gives (.mulhn .d d a b) d v s)) ∧
  (∀ (s : State) (d a : Reg),
      let x := (s.me.reg a).toNat
      (∃ v : Nat, v ≤ 64 ∧ (x = 0 → v = 64) ∧ (x ≠ 0 → v < 64 ∧ 2 ^ (63 - v) ≤ x ∧ x < 2 ^ (64 - v)) ∧
        Gives (.clz .d d a) d (BitVec.ofNat 64 v) s) ∧
      (∃ v : Nat, v ≤ 64 ∧ (x = 0 → v = 64) ∧ (x ≠ 0 → v < 64 ∧ x % 2 ^ v = 0 ∧ x / 2 ^ v % 2 = 1) ∧
        Gives (.ctz .d d a) d (BitVec.ofNat 64 v) s) ∧
      (∃ v : Nat, v = ((List.range 64).map fun k => x / 2 ^ k % 2).sum ∧ Gives (.popc .d d a) d (BitVec.ofNat 64 v) s))

/-- R68: a W form computes on bits [31:0] of its sources at 32 bits and sign-extends the result. -/
def Obligations.WordForms : Prop :=
  ∀ (s : State) (d a b : Reg),
    let x : BitVec 32 := (s.me.reg a).setWidth 32
    let y : BitVec 32 := (s.me.reg b).setWidth 32
    let out : BitVec 32 → Word := fun v => v.signExtend 64
    Gives (.add .w d a b) d (out (x + y)) s ∧
    Gives (.sub .w d a b) d (out (x - y)) s ∧
    Gives (.shl .w d a b) d (out (x <<< (y.toNat % 32))) s ∧
    Gives (.shr .w d a b) d (out (x >>> (y.toNat % 32))) s ∧
    Gives (.sra .w d a b) d (out (x.sshiftRight (y.toNat % 32))) s ∧
    Gives (.min .w d a b) d (out (if x.toInt ≤ y.toInt then x else y)) s ∧
    Gives (.max .w d a b) d (out (if y.toInt ≤ x.toInt then x else y)) s ∧
    Gives (.minn .w d a b) d (out (if x.toNat ≤ y.toNat then x else y)) s ∧
    Gives (.maxn .w d a b) d (out (if y.toNat ≤ x.toNat then x else y)) s ∧
    Gives (.slt .w d a b) d (if x.toInt < y.toInt then 1 else 0) s ∧
    Gives (.sltn .w d a b) d (if x.toNat < y.toNat then 1 else 0) s ∧
    Gives (.mul .w d a b) d (out (BitVec.ofNat 32 (x.toNat * y.toNat))) s ∧
    Gives (.div .w d a b) d (out (if y = 0 then BitVec.allOnes 32 else x.sdiv y)) s ∧
    Gives (.divn .w d a b) d (out (if y = 0 then BitVec.allOnes 32 else x / y)) s ∧
    Gives (.rem .w d a b) d (out (if y = 0 then x else x.srem y)) s ∧
    Gives (.remn .w d a b) d (out (if y = 0 then x else x % y)) s ∧
    (∃ v : BitVec 32, 2 ^ 32 * v.toInt ≤ x.toInt * y.toInt ∧ x.toInt * y.toInt < 2 ^ 32 * (v.toInt + 1) ∧
      Gives (.mulh .w d a b) d (out v) s) ∧
    (∃ v : BitVec 32, 2 ^ 32 * v.toNat ≤ x.toNat * y.toNat ∧ x.toNat * y.toNat < 2 ^ 32 * (v.toNat + 1) ∧
      Gives (.mulhn .w d a b) d (out v) s) ∧
    (∃ v : Nat, v ≤ 32 ∧ (x = 0 → v = 32) ∧ (x ≠ 0 → v < 32 ∧ 2 ^ (31 - v) ≤ x.toNat ∧ x.toNat < 2 ^ (32 - v)) ∧
      Gives (.clz .w d a) d (BitVec.ofNat 64 v) s) ∧
    (∃ v : Nat, v ≤ 32 ∧ (x = 0 → v = 32) ∧ (x ≠ 0 → v < 32 ∧ x.toNat % 2 ^ v = 0 ∧ x.toNat / 2 ^ v % 2 = 1) ∧
      Gives (.ctz .w d a) d (BitVec.ofNat 64 v) s) ∧
    (∃ v : Nat, v = ((List.range 32).map fun k => x.toNat / 2 ^ k % 2).sum ∧ Gives (.popc .w d a) d (BitVec.ofNat 64 v) s)

/-- R69: division truncates toward zero, the remainder has the sign of the dividend, and s[a] = div × s[b] + rem for a nonzero divisor;
a zero divisor gives all ones and the dividend, and the most negative value ÷ −1 gives itself and 0. None of them traps or sets a flag. -/
def Obligations.Division : Prop :=
  ∀ (s : State) (d a b : Reg),
    let x := s.me.reg a
    let y := s.me.reg b
    (∃ q r : Word, Gives (.div .d d a b) d q s ∧ Gives (.rem .d d a b) d r s ∧
      (y = 0 → q = BitVec.allOnes 64 ∧ r = x) ∧
      (y ≠ 0 → x = q * y + r ∧ r.toInt.natAbs < y.toInt.natAbs ∧ (r = 0 ∨ (r.toInt < 0 ↔ x.toInt < 0))) ∧
      (x.toInt = -2 ^ 63 → y.toInt = -1 → q = x ∧ r = 0) ∧
      (y ≠ 0 → ¬ (x.toInt = -2 ^ 63 ∧ y.toInt = -1) → q.toInt = x.toInt.tdiv y.toInt)) ∧
    (∃ q r : Word, Gives (.divn .d d a b) d q s ∧ Gives (.remn .d d a b) d r s ∧
      (y = 0 → q = BitVec.allOnes 64 ∧ r = x) ∧
      (y ≠ 0 → x.toNat = q.toNat * y.toNat + r.toNat ∧ r.toNat < y.toNat)) ∧
    (let x : BitVec 32 := x.setWidth 32
     let y : BitVec 32 := y.setWidth 32
     (∃ q r : BitVec 32, Gives (.div .w d a b) d (q.signExtend 64) s ∧ Gives (.rem .w d a b) d (r.signExtend 64) s ∧
       (y = 0 → q = BitVec.allOnes 32 ∧ r = x) ∧
       (y ≠ 0 → x = q * y + r ∧ r.toInt.natAbs < y.toInt.natAbs ∧ (r = 0 ∨ (r.toInt < 0 ↔ x.toInt < 0))) ∧
       (x.toInt = -2 ^ 31 → y.toInt = -1 → q = x ∧ r = 0) ∧
       (y ≠ 0 → ¬ (x.toInt = -2 ^ 31 ∧ y.toInt = -1) → q.toInt = x.toInt.tdiv y.toInt)) ∧
     (∃ q r : BitVec 32, Gives (.divn .w d a b) d (q.signExtend 64) s ∧ Gives (.remn .w d a b) d (r.signExtend 64) s ∧
       (y = 0 → q = BitVec.allOnes 32 ∧ r = x) ∧
       (y ≠ 0 → x.toNat = q.toNat * y.toNat + r.toNat ∧ r.toNat < y.toNat)))

/-- R70: bit by bit, `bext` takes the field of s[a] that s[b] names, and `bins` puts the low bits of s[a] into that field of s[d].
R71: `sel` chooses by the old value of d; with d = s0 nothing but the pc changes. -/
def Obligations.FieldsAndSelect : Prop :=
  (∀ (s : State) (d a b : Reg),
      let pos := (s.me.reg b).toNat % 64
      let len := min ((s.me.reg b).toNat / 2 ^ 8 % 2 ^ 7) 64
      (∃ v : Word, Gives (.bext d a b) d v s ∧
        ∀ k, k < 64 → v.getLsbD k = (decide (k < len ∧ pos + k ≤ 63) && (s.me.reg a).getLsbD (pos + k))) ∧
      (∃ v : Word, Gives (.bins d a b) d v s ∧
        ∀ k, k < 64 → v.getLsbD k = if pos ≤ k ∧ k < pos + len then (s.me.reg a).getLsbD (k - pos) else (s.me.reg d).getLsbD k)) ∧
  (∀ (s : State) (d a b : Reg),
      Gives (.sel d a b) d (if s.me.reg d ≠ 0 then s.me.reg a else s.me.reg b) s ∧
      (MayRun (.sel 0 a b) s → exec (.sel 0 a b) s = .next (s.setMe { s.me with pc := s.me.pc + 4 })))

/-- R72, R73 and R74: the immediate forms. -/
def Obligations.ImmediateForms : Prop :=
  ∀ (s : State) (d a : Reg) (imm : BitVec 15) (n : BitVec 6),
    let x := s.me.reg a
    let w : BitVec 32 := x.setWidth 32
    Gives (.addi d a imm) d (x + imm.signExtend 64) s ∧
    Gives (.andi d a imm) d (x &&& imm.signExtend 64) s ∧
    Gives (.ori d a imm) d (x ||| imm.signExtend 64) s ∧
    Gives (.xori d a imm) d (x ^^^ imm.signExtend 64) s ∧
    Gives (.ldi d imm) d (imm.signExtend 64) s ∧
    Gives (.ldhi d a imm) d (x <<< 15 ||| imm.setWidth 64) s ∧
    Gives (.shli .d d a n) d (x <<< n.toNat) s ∧
    Gives (.shri .d d a n) d (x >>> n.toNat) s ∧
    Gives (.srai .d d a n) d (x.sshiftRight n.toNat) s ∧
    Gives (.shli .w d a n) d ((w <<< n.toNat).signExtend 64) s ∧
    Gives (.shri .w d a n) d ((w >>> n.toNat).signExtend 64) s ∧
    Gives (.srai .w d a n) d ((w.sshiftRight n.toNat).signExtend 64) s

/-! ## The spatial hash (R75, R76) -/

/-- R76: where h is not a positive finite number, or a coordinate is NaN, `cellkey` gives all ones and raises NV;
otherwise it raises no flag, and gives the bits of the three cell coordinates interleaved, or all ones where one of them is outside 0 to 2^21 − 1. -/
def Obligations.SpatialHash : Prop :=
  ∀ (s : State) (dx dy dz : Delta) (d a b : Reg),
    let f := floatFmt .f32
    let h := f.unpack (s.me.oxr 0).toNat
    let x := f.unpack (s.me.reg a).toNat
    let y := f.unpack ((s.me.reg a).toNat / 2 ^ 32)
    let z := f.unpack (s.me.reg b).toNat
    let i : Instr := .cellkey dx dy dz d a b
    let good : Prop := ∃ m e, h = .fin false m e ∧ m ≠ 0
    ((¬ good ∨ x = .nan ∨ y = .nan ∨ z = .nan) → GivesWith i d (BitVec.allOnes 64) flagNV s) ∧
    (∀ m e, h = .fin false m e → m ≠ 0 → x ≠ .nan → y ≠ .nan → z ≠ .nan →
      ∃ cx cy cz, CellAt m e x dx cx ∧ CellAt m e y dy cy ∧ CellAt m e z dz cz ∧
        ((cx = none ∨ cy = none ∨ cz = none) → GivesWith i d (BitVec.allOnes 64) noFlags s) ∧
        (∀ p q r, cx = some p → cy = some q → cz = some r → ∃ v : Word, GivesWith i d v noFlags s ∧ v.getLsbD 63 = false ∧
          ∀ k, k < 21 → v.getLsbD (3 * k) = p.testBit k ∧ v.getLsbD (3 * k + 1) = q.testBit k ∧ v.getLsbD (3 * k + 2) = r.testBit k))

/-! ## Scalar floating point (R77 to R83) -/

/-- R78: the exact sum, difference, product, quotient or root of finite numbers, or a × b + d, rounded once under rnd, in the low bits of d with zeros above, and its flags in FSTAT.
R17: a minimum or maximum gives the smaller or the larger number, with −0 below +0, the other operand of a NaN, and the canonical NaN of two.
R16 and R78: a NaN operand gives the canonical NaN and no flag; ∞ − ∞, 0 × ∞, 0/0, ∞/∞ and the root of a negative value give it with NV;
a finite nonzero value over a zero gives ∞ and no flag. -/
def Obligations.FloatArithmetic : Prop :=
  (∀ (s : State) (r : Rnd) (f : ScalarFmt) (d a b : Reg),
      let m := scalarFmt f
      let x := (s.me.reg a).toNat % 2 ^ m.bits
      let y := (s.me.reg b).toNat % 2 ^ m.bits
      let z := (s.me.reg d).toNat % 2 ^ m.bits
      let rd : Rounding := ⟨r, rhdHash ((s.me.oxr 6).setWidth 32) ((s.me.oxr 7).setWidth 32)⟩
      let out : Instr → Nat × Flags → Prop := fun i v => GivesWith i d (BitVec.ofNat 64 v.1) v.2 s
      out (.fadd r f d a b) (m.add rd false x y) ∧
      out (.fsub r f d a b) (m.sub rd false x y) ∧
      out (.fmul r f d a b) (m.mul rd false x y) ∧
      out (.fdiv r f d a b) (m.div rd false x y) ∧
      out (.ffma r f d a b) (m.fma rd false x y z) ∧
      out (.fsqrt r f d a) (m.sqrt rd false x) ∧
      out (.fmin f d a b) (m.min x y, noFlags) ∧
      out (.fmax f d a b) (m.max x y, noFlags) ∧
      (let below : FVal → FVal → Prop := fun p q => Below p q ∨ ∃ e e', p = .fin true 0 e ∧ q = .fin false 0 e'
       let p := m.unpack x
       let q := m.unpack y
       let is : Nat → Nat → Prop := fun least greatest => m.min x y = least ∧ m.max x y = greatest
       let nan := canonicalNaN (match f with
         | .f32 => .f32
         | .f64 => .f64)
       (p = .nan → q = .nan → is nan nan) ∧ (p = .nan → q ≠ .nan → is y y) ∧ (p ≠ .nan → q = .nan → is x x) ∧
       (below p q → is x y) ∧ (below q p → is y x) ∧ (p ≠ .nan → q ≠ .nan → ¬ below p q → ¬ below q p → x = y ∧ is x x)) ∧
      (∀ n k e, m.unpack x = .fin n k e →
        (k = 0 → m.sqrt rd false x = (m.withSign n 0, noFlags)) ∧
        (k ≠ 0 → n = false → Delivered m rd false false (againstRoot (leastExp m) k 1 e) (m.sqrt rd false x)) ∧
        ∀ n' k' e', m.unpack y = .fin n' k' e' →
          RoundedSum m rd false n k e n' k' e' (m.add rd false x y) ∧
          RoundedSum m rd false n k e (!n') k' e' (m.sub rd false x y) ∧
          RoundedRatio m rd false (n != n') (k * k') 1 (e + e') (m.mul rd false x y) ∧
          (k' ≠ 0 → RoundedRatio m rd false (n != n') k k' (e - e') (m.div rd false x y)) ∧
          ∀ n'' k'' e'', m.unpack z = .fin n'' k'' e'' →
            RoundedSum m rd false (n != n') (k * k') (e + e') n'' k'' e'' (m.fma rd false x y z))) ∧
  (∀ (s : State) (r : Rnd) (f : ScalarFmt) (d a b : Reg),
      let m := scalarFmt f
      let x := m.unpack ((s.me.reg a).toNat % 2 ^ m.bits)
      let y := m.unpack ((s.me.reg b).toNat % 2 ^ m.bits)
      let nan := BitVec.ofNat 64 (canonicalNaN (match f with
        | .f32 => .f32
        | .f64 => .f64))
      ((x = .nan ∨ y = .nan) →
        GivesWith (.fadd r f d a b) d nan noFlags s ∧ GivesWith (.fsub r f d a b) d nan noFlags s ∧
        GivesWith (.fmul r f d a b) d nan noFlags s ∧ GivesWith (.fdiv r f d a b) d nan noFlags s) ∧
      (∀ n, x = .inf n → y = .inf (!n) → GivesWith (.fadd r f d a b) d nan flagNV s) ∧
      (∀ n, x = .inf n → y = .inf n → GivesWith (.fsub r f d a b) d nan flagNV s) ∧
      (∀ n n' e, x = .inf n → y = .fin n' 0 e → GivesWith (.fmul r f d a b) d nan flagNV s) ∧
      (∀ n n', x = .inf n → y = .inf n' → GivesWith (.fdiv r f d a b) d nan flagNV s) ∧
      (∀ n n' e e', x = .fin n 0 e → y = .fin n' 0 e' → GivesWith (.fdiv r f d a b) d nan flagNV s) ∧
      (∀ n n' k e e', x = .fin n k e → k ≠ 0 → y = .fin n' 0 e' →
        GivesWith (.fdiv r f d a b) d (BitVec.ofNat 64 (m.withSign (n != n') m.infCode)) noFlags s) ∧
      (∀ k e, x = .fin true k e → k ≠ 0 → GivesWith (.fsqrt r f d a) d nan flagNV s))

/-- R79 and R82: `fcmp` writes 1 when its predicate holds of the two numbers and 0 when it does not, `.un` alone holding on a NaN, and `fclass` writes a mask with exactly one of bits 0 to 8; neither sets a flag. -/
def Obligations.CompareAndClassify : Prop :=
  ∀ (s : State) (p : FPred) (f : ScalarFmt) (d a b : Reg),
    let m := scalarFmt f
    let x := m.unpack ((s.me.reg a).toNat % 2 ^ m.bits)
    let y := m.unpack ((s.me.reg b).toNat % 2 ^ m.bits)
    (∃ v : Bool, Gives (.fcmp p f d a b) d (if v then 1 else 0) s ∧
      ((x = .nan ∨ y = .nan) → v = (p == .un)) ∧
      (x ≠ .nan → y ≠ .nan → (v = true ↔ match p with
        | .eq => ¬ Below x y ∧ ¬ Below y x
        | .lt => Below x y
        | .le => ¬ Below y x
        | .un => False))) ∧
    (∃ k : Nat, k < 9 ∧ Gives (.fclass f d a) d (BitVec.ofNat 64 (2 ^ k)) s ∧
      (x = .nan ↔ k = 8) ∧ (x = .inf true ↔ k = 0) ∧ (x = .inf false ↔ k = 7) ∧
      ((∃ e, x = .fin true 0 e) ↔ k = 3) ∧ ((∃ e, x = .fin false 0 e) ↔ k = 4) ∧
      ((∃ j e, x = .fin true j e ∧ j ≠ 0 ∧ j < 2 ^ m.mbits) ↔ k = 2) ∧
      ((∃ j e, x = .fin false j e ∧ j ≠ 0 ∧ j < 2 ^ m.mbits) ↔ k = 5) ∧
      ((∃ j e, x = .fin true j e ∧ 2 ^ m.mbits ≤ j) ↔ k = 1) ∧
      ((∃ j e, x = .fin false j e ∧ 2 ^ m.mbits ≤ j) ↔ k = 6))

/-- R80, R81, R20 and R31: conversions. A float to another float type is rounded once under rnd, without saturate, and to its own is itself, a NaN becoming the canonical one;
a float to an integer is rounded to an integral value and then clamped, a NaN giving 0 with NZ; an integer to a float is rounded once;
an integer to an integer is clamped to the range, with OF when it was. A signed result is sign-extended and any other zero-extended. -/
def Obligations.Conversions : Prop :=
  ∀ (s : State) (r : Rnd) (src : FloatType) (k : IntType) (d a : Reg),
    let v := (s.me.reg a).toNat % 2 ^ (floatFmt src).bits
    let rd : Rounding := ⟨r, rhdHash ((s.me.oxr 6).setWidth 32) ((s.me.oxr 7).setWidth 32)⟩
    let x := (floatFmt src).unpack v
    (∀ t : NumType, ∃ n f, GivesWith (.fcvt r src t d a) d (BitVec.ofNat 64 n) f s ∧ (n, f) = writeNum t (convertFloat rd src t v)) ∧
    (∃ n f, GivesWith (.fcvt r src (.float src) d a) d (BitVec.ofNat 64 n) f s ∧
      (x ≠ .nan → (n, f) = (v, noFlags)) ∧ (x = .nan → (n, f) = (canonicalNaN src, if src = .e3m5 then flagNV else noFlags))) ∧
    (∀ t : FloatType, t ≠ src → ∃ n f, GivesWith (.fcvt r src (.float t) d a) d (BitVec.ofNat 64 n) f s ∧ Converted t rd false x (n, f)) ∧
    (∃ n f, GivesWith (.fcvt r src (.int k) d a) d (BitVec.ofInt 64 n) f s ∧ Clamped (intFmt k) rd x (n, f)) ∧
    (∀ j : IntType,
      let x := (intFmt k).read (s.me.reg a).toNat
      let t := intFmt j
      let y := if x < t.least then t.least else if t.greatest < x then t.greatest else x
      GivesWith (.fcvtInt r k (.int j) d a) d (BitVec.ofInt 64 y) (if y = x then noFlags else flagOF) s) ∧
    (∀ g : FloatType,
      let x := (intFmt k).read (s.me.reg a).toNat
      ∃ n f, (n, f) = (floatFmt g).ofInt rd false x ∧ GivesWith (.fcvtInt r k (.float g) d a) d (BitVec.ofNat 64 n) f s ∧
        Converted g rd false (.fin (decide (x < 0)) x.natAbs 0) (n, f))

/-! ## Branches, jumps and H-forms (R84 to R88, R44, R45) -/

/-- R84: a branch goes to pc + 2 × sext(off12) when its condition holds, and to the next instruction otherwise.
R85, R86 and R87: `jmp` and `jal` jump by twice their offset, `jal` linking in s1; `jalr` jumps to s[a] as it was before d takes the link,
an odd target trapping on the `jalr` itself with nothing written; `loop` counts d down and jumps until it reaches 0. -/
def Obligations.BranchesAndJumps : Prop :=
  (∀ (s : State) (a b : Reg) (off : BitVec 12),
      let x := s.me.reg a
      let y := s.me.reg b
      let go : Instr → Prop → Prop := fun i c =>
        MayRun i s → (c → exec i s = .next (jumped [] (s.me.pc + 2 * off.signExtend 64) s)) ∧ (¬ c → exec i s = .next (done i [] s))
      go (.beq a b off) (x = y) ∧
      go (.bne a b off) (x ≠ y) ∧
      go (.blt a b off) (x.toInt < y.toInt) ∧
      go (.bge a b off) (y.toInt ≤ x.toInt) ∧
      go (.bltn a b off) (x.toNat < y.toNat) ∧
      go (.bgen a b off) (y.toNat ≤ x.toNat) ∧
      go (.bz a off) (x = 0) ∧
      go (.bnz a off) (x ≠ 0)) ∧
  (∀ (s : State) (d a : Reg) (off : BitVec 25) (off14 : BitVec 14),
      (MayRun (.jmp off) s → exec (.jmp off) s = .next (jumped [] (s.me.pc + 2 * off.signExtend 64) s)) ∧
      (MayRun (.jal off) s → exec (.jal off) s = .next (jumped [(1, s.me.pc + 4)] (s.me.pc + 2 * off.signExtend 64) s)) ∧
      (MayRun (.jalr d a off14) s →
        let t := s.me.reg a + off14.signExtend 64
        (t.toNat % 2 = 0 → exec (.jalr d a off14) s = .next (jumped [(d, s.me.pc + 4)] t s)) ∧
        (t.toNat % 2 = 1 → exec (.jalr d a off14) s = .next (enterTrap s s.cur .misalignment 4 s.me.pc t) ∧
          (Handles s → exec (.jalr d a off14) s = .next (trapped .misalignment 4 s.me.pc t s)))) ∧
      (MayRun (.loop d off14) s →
        let n := s.me.reg d - 1
        (n ≠ 0 → exec (.loop d off14) s = .next (jumped [(d, n)] (s.me.pc + 2 * off14.signExtend 64) s)) ∧
        (n = 0 → exec (.loop d off14) s = .next (done (.loop d off14) [(d, 0)] s))))

/-- R44 and R45: an H-form has the effect of its 64-bit expansion, with a next instruction 2 bytes on. -/
def Obligations.ShortForms : Prop :=
  ∀ (s : State) (d a : HReg) (i3 : BitVec 3) (i7 : BitVec 7) (i11 : BitVec 11),
    let rd : Reg := Fin.ofNat 32 d.val
    let x := s.me.reg rd
    let y := s.me.reg (Fin.ofNat 32 a.val)
    let gives : Instr → Word → Prop := fun i v =>
      MayRun i s → exec i s = .next (s.setMe { s.me.setReg rd v with pc := s.me.pc + 2 })
    let go : Instr → Bool → Prop := fun i c =>
      MayRun i s → exec i s = .next (if c then jumped [] (s.me.pc + 2 * i7.signExtend 64) s else s.setMe { s.me with pc := s.me.pc + 2 })
    gives (.hAdd d a) (x + y) ∧ gives (.hSub d a) (x - y) ∧
    gives (.hAnd d a) (x &&& y) ∧ gives (.hOr d a) (x ||| y) ∧
    gives (.hXor d a) (x ^^^ y) ∧ gives (.hAndn d a) (x &&& ~~~ y) ∧
    gives (.hShl d a) (x <<< (y.toNat % 64)) ∧ gives (.hShr d a) (x >>> (y.toNat % 64)) ∧
    gives (.hSra d a) (x.sshiftRight (y.toNat % 64)) ∧
    gives (.hMv d a) y ∧
    gives (.hMin d a) (if x.toInt ≤ y.toInt then x else y) ∧ gives (.hMax d a) (if y.toInt ≤ x.toInt then x else y) ∧
    gives (.hMinn d a) (if x.toNat ≤ y.toNat then x else y) ∧ gives (.hMaxn d a) (if y.toNat ≤ x.toNat then x else y) ∧
    gives (.hSlt d a) (if x.toInt < y.toInt then 1 else 0) ∧ gives (.hSltn d a) (if x.toNat < y.toNat then 1 else 0) ∧
    gives (.hAddi d a i3) (y + i3.signExtend 64) ∧ gives (.hLdi d i7) (i7.signExtend 64) ∧
    go (.hBz d i7) (x == 0) ∧ go (.hBnz d i7) (x != 0) ∧
    (MayRun (.hJmp i11) s → exec (.hJmp i11) s = .next (jumped [] (s.me.pc + 2 * i11.signExtend 64) s)) ∧
    (MayRun (.hJalr d a) s → y.toNat % 2 = 0 → exec (.hJalr d a) s = .next (jumped [(rd, s.me.pc + 2)] y s)) ∧
    (MayRun (.hJalr d a) s → y.toNat % 2 = 1 → Handles s →
      exec (.hJalr d a) s = .next (trapped .misalignment 2 s.me.pc y s)) ∧
    (MayRun .hNop s → exec .hNop s = .next (s.setMe { s.me with pc := s.me.pc + 2 }))

/-! ## Traps (R65, R206, R207) -/

/-- R65 and R98: an instruction of an agent that does not decode it, an illegal use, or one naming a register that the agent lacks
takes the illegal-instruction trap and changes nothing else; on a thread with a handler EPC names it and EVAL holds the 32 bits at pc.
R207: `brk` and `trap n` take their traps with the return address after them, classes 7 and 8, and n in EVAL;
`eret` returns to EPC and leaves the handler, and a `renq.ack` that it returns past waits for its answer no more. An address that a register gives the pc loses its bit 0, there and at the handler's entry (log entry 45).
R207 and R97: a trap of a thread in its handler or without one, and every trap of a sequencer, stops the agent with a record of the class, the return address and the value. -/
def Obligations.Traps : Prop :=
  (∀ (i : Instr) (s : State), (encodeWord i).isSome = true → (cellShape i).isNone = true → ¬ Legal i s →
      exec i s = .next (enterTrap s s.cur .illegal i.length s.me.pc (bitsAtPc s)) ∧
      (Handles s → exec i s = .next (trapped .illegal i.length s.me.pc (bitsAtPc s) s))) ∧
  (∀ (s : State) (n : BitVec 10),
      (MayRun .brk s → Handles s → s.service.debugger = false →
        exec .brk s = .next (trapped .breakpoint 4 (s.me.pc + 4) 0 s)) ∧
      (MayRun .hBrk s → Handles s → s.service.debugger = false →
        exec .hBrk s = .next (trapped .breakpoint 2 (s.me.pc + 2) 0 s)) ∧
      (MayRun (.trap n) s → Handles s → exec (.trap n) s = .next (trapped .trap 4 (s.me.pc + 4) (n.setWidth 64) s)) ∧
      (MayRun .eret s → s.me.tmode = true → exec .eret s = .next ((s.setMe { s.me with tmode := false, pc := evenPc s.me.epc, codelet := s.me.codelet && evenPc s.me.epc ≠ s.me.codeRet }).passOver s.cur)) ∧
      (MayRun .eret s → s.me.tmode = false → exec .eret s = .next (enterTrap s s.cur .illegal 4 s.me.pc (bitsAtPc s)))) ∧
  (∀ (s : State) (c : TrapClass) (len : Nat) (epc eval : Word),
      (s.cur.isThread = false ∨ s.me.tmode = true ∨ s.me.tvec = 0) →
      let t := enterTrap s s.cur c len epc eval
      (t.hart s.cur).status = .stopped ∧ (t.hart s.cur).stop = some ⟨c.code, epc, eval⟩ ∧
      (t.hart s.cur).pc = s.me.pc ∧ (t.hart s.cur).x = s.me.x ∧ t.mem = s.mem ∧
      ∀ b, b ≠ s.cur → t.hart b = s.hart b)

/-! ## System instructions and registers (R208 to R212) -/

/-- R208: `nop` and, on a sequencer, `yield` change only the pc; on a thread `yield` also notes the slots that are ready; `rdcyc` reads the chip clock.
R209: a thread that holds no block, outside codelet mode and not serving an escape, leaves its slot empty, with no register kept;
a sequencer halts past the instruction, a region sequencer changing nothing else but that a controller node on it ends with status 0 and its run with it (DEDUCED, log entry 50); a thread in codelet mode or an escape thread takes the illegal-instruction trap.
R210 and R198: `sleepc` is illegal in codelet mode; outside it, it goes on once the clock has reached s[a], and sleeps before that; with `.p` a promise not later than s[a] of a copy that has not completed traps, with that promise. -/
def Obligations.SystemControl : Prop :=
  (∀ (s : State) (d : Reg),
      (MayRun .nop s → exec .nop s = .next (done .nop [] s)) ∧
      Gives (.rdcyc d) d (BitVec.ofNat 64 s.clock) s ∧
      (s.cur.isThread = false → MayRun .yield s → exec .yield s = .next (done .yield [] s)) ∧
      (s.cur.isThread = false → MayRun .hYield s → exec .hYield s = .next (done .hYield [] s)) ∧
      (∀ c sl, s.cur = .thread c sl →
        let t := s.setMe { s.me with yielded := readyOthers s c sl }
        (MayRun .yield s → exec .yield s = .next (done .yield [] t)) ∧
        (MayRun .hYield s → exec .hYield s = .next (done .hYield [] t)))) ∧
  (∀ (i : Instr) (s : State), i = .halt ∨ i = .hHalt → MayRun i s →
      (s.cur.isThread = true → s.me.codelet = false → s.me.held = [] → (∀ a b c d, s.me.origin ≠ .escape a b c d) →
        ∃ t, exec i s = .next t ∧ t.hart s.cur = { Hart.fresh with lastIssue := s.me.lastIssue } ∧ t.mem = s.mem) ∧
      (∀ cl, s.cur = .region cl → (s.region cl).node = none →
        exec i s = .next (s.setMe { s.me with status := .halted, pc := s.me.pc + BitVec.ofNat 64 i.length })) ∧
      (∀ cl m x, s.cur = .region cl → (s.region cl).node = some m → s.node m = some x → x.parent = none → ∃ t x', exec i s = .next t ∧
        t.node m = some x' ∧ x'.phase = .ended 0 ∧ (t.region cl).run = none) ∧
      (s.cur.isThread = false → ∃ t, exec i s = .next t ∧ t.hart s.cur = { s.me with status := .halted, pc := s.me.pc + BitVec.ofNat 64 i.length }) ∧
      (s.cur.isThread = true → (s.me.codelet = true ∨ ∃ a b c d, s.me.origin = .escape a b c d) →
        exec i s = .next (enterTrap s s.cur .illegal i.length s.me.pc (bitsAtPc s)))) ∧
  (∀ (s : State) (p : Bool) (a : Reg),
      MayRun (.sleepc p a) s →
      (s.me.codelet = true → exec (.sleepc p a) s = .next (enterTrap s s.cur .illegal 4 s.me.pc (bitsAtPc s))) ∧
      (s.me.codelet = false →
      (s.clock < (s.me.reg a).toNat → exec (.sleepc p a) s = .next (asleep (.clock (s.me.reg a)) s)) ∧
      ((s.me.reg a).toNat ≤ s.clock → (p = false ∨ ∀ c v, (c, v) ∈ s.me.promises → (s.me.reg a).toNat < v.toNat) →
        exec (.sleepc p a) s = .next (done (.sleepc p a) [] s)) ∧
      ((s.me.reg a).toNat ≤ s.clock → p = true → Handles s → ∀ c v, (c, v) ∈ s.me.promises → v.toNat ≤ (s.me.reg a).toNat →
        ∃ c' v', (c', v') ∈ s.me.promises ∧ v'.toNat ≤ v.toNat ∧ exec (.sleepc p a) s = .next (trapped .promise 4 (s.me.pc + 4) v' s))))

/-- R211: what `sysr` reads on a thread, and that a number not listed is an illegal instruction.
R211, R30 and R154: what `sysw` writes on a thread: read-only registers ignore it, FSTAT and TKFELL are cleared where a 1 is written,
and MXBLK takes only the handle of a block that the thread holds.
R211, R212 and R163: the system registers that sequencers have, and those of the epilogue: EMODE, the constants, the counters and the masks, k0 reading all ones.
WTRIP and STRSTAT are cleared where a 1 is written, on every agent; a register that a sequencer lacks is an illegal instruction there and changes nothing else of it. -/
def Obligations.SystemRegisters : Prop :=
  (∀ (s : State) (d : Reg) (c sl : Nat), s.cur = .thread c sl →
      let h := s.me
      let reads : BitVec 10 → Word → Prop := fun n v => Gives (.sysr d n) d v s
      reads 0x000 (BitVec.ofNat 64 (sl + 16 * c)) ∧ reads 0x001 (BitVec.ofNat 64 c) ∧ reads 0x002 (BitVec.ofNat 64 (c / 64)) ∧ reads 0x004 (BitVec.ofNat 64 s.clock) ∧
      reads 0x005 (h.fstat.setWidth 64) ∧ reads 0x006 h.lookahead ∧ reads 0x007 h.vtime ∧ reads 0x008 h.tvec ∧
      reads 0x009 h.epc ∧ reads 0x00A (h.ecause.setWidth 64) ∧ reads 0x00B h.eval ∧ reads 0x00C h.escr ∧
      reads 0x00D (BitVec.ofNat 64 ((if h.tmode then 1 else 0) + if h.codelet then 2 else 0)) ∧ reads 0x00E h.wdog ∧
      (∀ n : Fin 8, reads (BitVec.ofNat 10 (0x010 + n.val)) (h.oxr n)) ∧
      reads 0x018 (s.segment (c / 64)).wtrip ∧ reads 0x01A (s.core c).clovf ∧
      (∀ t, s.myTask = some t → reads 0x003 t.args) ∧ reads 0x01B (h.tkfell.setWidth 64) ∧ reads 0x01C h.mxblk ∧
      (∀ n : BitVec 10, 0x01D ≤ n.toNat ∨ n.toNat = 0x00F → MayRun (.sysr d n) s →
        exec (.sysr d n) s = .next (enterTrap s s.cur .illegal 4 h.pc (bitsAtPc s)))) ∧
  (∀ (s : State) (d : Reg) (c sl : Nat), s.cur = .thread c sl →
      let h := s.me
      let v := s.me.reg d
      let writes : BitVec 10 → Hart → Prop := fun n h' =>
        MayRun (.sysw d n) s → exec (.sysw d n) s = .next (s.setMe { h' with pc := h.pc + 4 })
      (∀ n : BitVec 10, n.toNat ∈ [0x000, 0x001, 0x002, 0x003, 0x004, 0x007, 0x00A, 0x00D, 0x01A] → writes n h) ∧
      writes 0x005 { h with fstat := h.fstat &&& ~~~ (v.setWidth 5) } ∧
      writes 0x006 { h with lookahead := v } ∧ writes 0x008 { h with tvec := v } ∧ writes 0x009 { h with epc := v } ∧
      writes 0x00B { h with eval := v } ∧ writes 0x00C { h with escr := v } ∧ writes 0x00E { h with wdog := v } ∧
      (∀ n : Fin 8, writes (BitVec.ofNat 10 (0x010 + n.val)) { h with ox := h.ox.set n v }) ∧
      writes 0x01B { h with tkfell := h.tkfell &&& ~~~ (v.setWidth 16) } ∧
      (v.toNat ∈ h.held → writes 0x01C { h with mxblk := v }) ∧
      (v.toNat ∉ h.held → MayRun (.sysw d 0x01C) s →
        exec (.sysw d 0x01C) s = .next (enterTrap s s.cur .illegal 4 h.pc (bitsAtPc s)))) ∧
  (∀ (s : State) (d : Reg),
      let v := s.me.reg d
      let reads : BitVec 10 → Word → Prop := fun n w => Gives (.sysr d n) d w s
      let writes : BitVec 10 → State → Prop := fun n t => MayRun (.sysw d n) s → exec (.sysw d n) s = .next (done (.sysw d n) [] t)
      let refused : Instr → Prop := fun i => MayRun i s →
        exec i s = .next (stopAgent s s.cur ⟨TrapClass.illegal.code, s.me.pc, bitsAtPc s⟩)
      let seg := s.segment s.cur.cluster
      let eng := s.engine s.cur.engine
      let maskNo : Fin 8 → Nat → BitVec 10 := fun n high => BitVec.ofNat 10 ((if n.val < 4 then 0x028 else 0x038) + 2 * n.val + high)
      reads 0x018 seg.wtrip ∧ reads 0x019 (eng.strstat.setWidth 64) ∧
      writes 0x018 (s.setSegment s.cur.cluster { seg with wtrip := seg.wtrip &&& ~~~v }) ∧
      writes 0x019 (s.setEngine s.cur.engine { eng with strstat := eng.strstat &&& ~~~(v.setWidth 16) }) ∧
      (s.cur.isThread = false →
        (∀ cl b, (s.cur = .matrix cl b → reads 0x000 (BitVec.ofNat 64 (0x8400 + 0x1000 * b))) ∧
          (s.cur = .epilogue cl b → reads 0x000 (BitVec.ofNat 64 (0x8800 + 0x1000 * b))) ∧
          (s.cur = .copySeq cl b → reads 0x000 (BitVec.ofNat 64 (0x8C00 + 0x1000 * b))) ∧
          (s.cur = .region cl → reads 0x000 0x8000)) ∧
        reads 0x002 (BitVec.ofNat 64 s.cur.cluster) ∧ reads 0x004 (BitVec.ofNat 64 s.clock) ∧ reads 0x005 (s.me.fstat.setWidth 64) ∧
        (∀ k t, s.me.task = some k → s.task k = some t → reads 0x003 t.args) ∧
        (∀ n : Fin 8, reads (BitVec.ofNat 10 (0x010 + n.val)) (s.me.oxr n) ∧
          writes (BitVec.ofNat 10 (0x010 + n.val)) (s.setMe { s.me with ox := s.me.ox.set n v })) ∧
        writes 0x005 (s.setMe { s.me with fstat := s.me.fstat &&& ~~~ (v.setWidth 5) }) ∧
        (∀ n : BitVec 10, n.toNat ∈ [0x000, 0x002, 0x003, 0x004] → writes n s) ∧
        (∀ n : BitVec 10, n.toNat = 0x001 ∨ 0x006 ≤ n.toNat ∧ n.toNat ≤ 0x00E ∨ 0x01A ≤ n.toNat ∧ n.toNat ≤ 0x01F ∨
            0x034 ≤ n.toNat ∧ n.toNat < 0x040 ∨ 0x048 ≤ n.toNat ∨ (n.toNat = 0x00F ∨ 0x020 ≤ n.toNat) ∧ (∀ cl b, s.cur ≠ .epilogue cl b) →
          refused (.sysr d n) ∧ refused (.sysw d n))) ∧
      (∀ cl b, s.cur = .epilogue cl b →
        let e := s.epilogue (blockNo cl b)
        let takes : BitVec 10 → Epilogue → Prop := fun n e' => writes n (s.setEpilogue (blockNo cl b) e')
        reads 0x00F (e.emode.setWidth 64) ∧
        (v.toNat < 2 ^ 6 → v.toNat % 4 ≠ 3 → takes 0x00F { e with emode := v.setWidth 6 }) ∧
        (2 ^ 6 ≤ v.toNat ∨ v.toNat % 4 = 3 → refused (.sysw d 0x00F)) ∧
        (∀ n : Fin 8, reads (BitVec.ofNat 10 (0x020 + n.val)) ((e.c.get n).setWidth 64) ∧
          takes (BitVec.ofNat 10 (0x020 + n.val)) { e with c := e.c.set n (v.setWidth 32) }) ∧
        (∀ n : Fin 4, reads (BitVec.ofNat 10 (0x030 + n.val)) ((e.i.get n).setWidth 64) ∧
          takes (BitVec.ofNat 10 (0x030 + n.val)) { e with i := e.i.set n (v.setWidth 32) }) ∧
        reads 0x028 (BitVec.allOnes 64) ∧ reads 0x029 (BitVec.allOnes 64) ∧ takes 0x028 e ∧ takes 0x029 e ∧
        (∀ n : Fin 8, n ≠ 0 →
          reads (maskNo n 0) ((e.k.get n).extractLsb' 0 64) ∧ reads (maskNo n 1) ((e.k.get n).extractLsb' 64 64) ∧
          takes (maskNo n 0) { e with k := e.k.set n ((e.k.get n).extractLsb' 64 64 ++ v) } ∧
          takes (maskNo n 1) { e with k := e.k.set n (v ++ (e.k.get n).extractLsb' 0 64) })))

/-! ## Virtual time (R201 to R203, R274, R275) -/

/-- R201 and R276: the reads and writes of virtual time. -/
def Obligations.VirtualTime : Prop :=
  ∀ (s : State) (d a : Reg),
    let x := s.me.reg a
    let fl := s.service.floor
    let v := if s.me.joined ∧ x.toNat < fl.toNat then fl else x
    (MayRun (.tmset d a) s → exec (.tmset d a) s = .next (done (.tmset d a) [(d, v)] (s.setMe { s.me with vtime := v }))) ∧
    Gives (.tmget d) d s.me.vtime s ∧
    Gives (.floor d) d fl s ∧
    (MayRun (.fljoin a) s → exec (.fljoin a) s = .next (done (.fljoin a) [] (s.setMe { s.me with
      joined := x.toNat % 2 = 1
      vtime := if x.toNat % 2 = 1 ∧ s.me.vtime.toNat < fl.toNat then fl else s.me.vtime })))

/-- R202: `msend` puts one message at the end of the inbox of a declared core with room, stamped no earlier than the joined sender's virtual time,
and writes the stamp to d; a full inbox makes it sleep, and a core that the task did not declare is a protection trap with the whole register in EVAL (log entry 52).
R202: `mrecv` takes the message of the least timestamp, the first to arrive among equals, when it is at or below floor + LOOKAHEAD, which saturates;
it writes the stamp to d and then the payload to s3 to s5, in this order (log entry 43), and moves VTIME up. In codelet mode `mrecv` without `.nb` is illegal. With none to take, `mrecv.nb` writes all ones and `mrecv` sleeps. -/
def Obligations.Messages : Prop :=
  (∀ (s : State) (d a b : Reg) (t : Task), MayRun (.msend d a b) s → s.myTask = some t →
      let i : Instr := .msend d a b
      let c := (s.me.reg a).toNat % 2 ^ 11
      let ts := if s.me.joined ∧ (s.me.reg b).toNat < s.me.vtime.toNat then s.me.vtime else s.me.reg b
      (t.hasCore c = true → (s.core c).inbox.length < 256 →
        exec i s = .next (done i [(d, ts)]
          (s.setCore c { s.core c with inbox := (s.core c).inbox ++ [⟨ts, s.me.reg 3, s.me.reg 4, s.me.reg 5⟩] }))) ∧
      (t.hasCore c = true → 256 ≤ (s.core c).inbox.length → exec i s = .next (asleep (.inbox c) s)) ∧
      (t.hasCore c = false → Handles s → exec i s = .next (trapped .protection 4 s.me.pc (s.me.reg a) s))) ∧
  (∀ (s : State) (nb : Bool) (d : Reg) (c sl : Nat), s.cur = .thread c sl → MayRun (.mrecv nb d) s →
      let i : Instr := .mrecv nb d
      let q := (s.core c).inbox
      let top := min (s.service.floor.toNat + s.me.lookahead.toNat) (2 ^ 64 - 1)
      (nb = false → s.me.codelet = true → exec i s = .next (enterTrap s s.cur .illegal 4 s.me.pc (bitsAtPc s))) ∧
      ((nb = true ∨ s.me.codelet = false) →
      ((∀ m ∈ q, top < m.stamp.toNat) →
        exec i s = .next (if nb then done i [(d, BitVec.allOnes 64)] s else asleep .message s)) ∧
      (∀ (p r : List Message) (m : Message), q = p ++ m :: r → m.stamp.toNat ≤ top →
        (∀ x ∈ p, m.stamp.toNat < x.stamp.toNat) → (∀ x ∈ r, m.stamp.toNat ≤ x.stamp.toNat) →
        exec i s = .next (done i [(d, m.stamp), (3, m.p0), (4, m.p1), (5, m.p2)]
          ((s.setCore c { s.core c with inbox := p ++ r }).setMe { s.me with
            vtime := if s.me.vtime.toNat < m.stamp.toNat then m.stamp else s.me.vtime })))))

/-- R275, with the cut in the cycle of publication (log entry 20): in a cycle that is a multiple of 32 the floor becomes the least of the virtual times
of the joined threads that are in a slot and neither asleep in `mrecv` nor woken in it with no issue since and of the stamps of the messages in every inbox, or all ones,
those of a saved task counting as those of a task on the cores (R203, R276); nothing else changes.
In any other cycle nothing does. -/
def Obligations.FloorPublish : Prop :=
  ∀ (s : State),
    let counts : Hart → Prop := fun h => h.joined = true ∧ h.receiving = false ∧ h.status ≠ .empty ∧ h.status ≠ .halted ∧ ∀ since, h.status ≠ .sleeping .message since
    let counted : Hart → Prop := fun h => counts h ∧ ((∃ p ∈ s.harts, p.2 = h) ∨ ∃ x ∈ s.saves, ∃ p ∈ x.2.harts, p.2 = h)
    let waiting : Message → Prop := fun m => (∃ p ∈ s.cores, m ∈ p.2.inbox) ∨ ∃ x ∈ s.saves, ∃ p ∈ x.2.cores, m ∈ p.2.inbox
    (s.clock % 32 ≠ 0 → exec .floorPublish s = .next s) ∧
    (s.clock % 32 = 0 → ∃ v : Word,
      exec .floorPublish s = .next { s with service := { s.service with floor := v, floorAt := some s.clock } } ∧
      (∀ h, counted h → v.toNat ≤ h.vtime.toNat) ∧ (∀ m, waiting m → v.toNat ≤ m.stamp.toNat) ∧
      (v = BitVec.allOnes 64 ∨ (∃ h, counted h ∧ h.vtime = v) ∨ ∃ m, waiting m ∧ m.stamp = v))

/-! ## Memory (R89 to R96, R179 to R187, R284) -/

/-- R90 and R206: of every load, store, atomic and value wait, an address whose bits [63:57] differ from bit 56 is a protection trap,
and after that check an unaligned one is a misalignment trap; nothing is written and EVAL holds the address.
R90 and R206: an access that a page entry or the device window refuses takes the protection trap with nothing written,
and one of a page that is not present sleeps for Krany's fault service with nothing written. -/
def Obligations.AddressFaults : Prop :=
  (∀ (i : Instr) (s : State) (va : Word) (n : Nat), accessOf s.me i = some (va, n) → MayRun i s → Handles s → s.me.codelet = false →
      let canon := ∀ k, 56 ≤ k → k < 64 → va.getLsbD k = va.getLsbD 56
      (¬ canon → exec i s = .next (trapped .protection i.length s.me.pc va s)) ∧
      (canon → va.toNat % n ≠ 0 → exec i s = .next (trapped .misalignment i.length s.me.pc va s))) ∧
  (∀ (i : Instr) (s : State) (va : Word) (n : Nat), accessOf s.me i = some (va, n) → MayRun i s → s.me.codelet = false →
      (landing i s = some (.error .protection) → Handles s → exec i s = .next (trapped .protection i.length s.me.pc va s)) ∧
      (landing i s = some (.error .page) → exec i s = .next (asleep (.page va) s)))

/-- R89, R94, R179 and R181: every load, store and atomic whose access lands completes, writing no register but its own,
and leaves every other agent, FSTAT and the clock as they were. -/
def Obligations.AccessesComplete : Prop :=
  ∀ (i : Instr) (s : State), (accessOf s.me i).isSome = true → MayRun i s → Lands i s →
    (∀ q z sc d a b, i ≠ .waitvEq q z sc d a b ∧ i ≠ .waitvNe q z sc d a b ∧ i ≠ .waitvLt q z sc d a b ∧ i ≠ .waitvGe q z sc d a b) →
    (∀ x a off, i ≠ .oxld x a off) →
    ∃ t ws, exec i s = .next t ∧ ws.map Prod.fst = writes i ∧ OnlyMemory (done i ws s) t

/-- R89, R94, R44 and R284: a relaxed load in the device window completes with the bytes at its address, little-endian,
sign-extended by `lds` and `ldx.sx` and zero-extended by the others, and changes nothing else but the pc.
R89, R94, R44 and R284: a relaxed store in the device window writes the low bytes of s[d] at its address, little-endian,
and changes no other byte; beside the bytes, the pc and the notices that go to weirs, nothing changes. -/
def Obligations.WindowAccesses : Prop :=
  (∀ (s : State) (addr : Nat) (z : Size) (sc : Scope) (d a b : Reg) (off : BitVec 8) (sx : Bool) (hd ha : HReg) (o3 : BitVec 3),
      let loads : Instr → Reg → Size → Bool → Prop := fun i d z signed =>
        AtWindow i s addr →
          let n := sizeBytes z
          let m := valueAt s.backing addr n
          Gives i d (if signed ∧ 2 ^ (8 * n - 1) ≤ m then BitVec.ofInt 64 (m - 2 ^ (8 * n)) else BitVec.ofNat 64 m) s
      loads (.ld z .relaxed sc d a off) d z false ∧
      loads (.lds z .relaxed sc d a off) d z true ∧
      loads (.ldx z .relaxed sc sx d a b) d z false ∧
      loads (.ldxSx z .relaxed sc sx d a b) d z true ∧
      loads (.hLdD hd ha o3) (Fin.ofNat 32 hd.val) .d false ∧
      loads (.hLdW hd ha o3) (Fin.ofNat 32 hd.val) .w false) ∧
  (∀ (s : State) (addr : Nat) (z : Size) (sc : Scope) (d a b : Reg) (off : BitVec 8) (sx : Bool) (hd ha : HReg) (o3 : BitVec 3),
      let stores : Instr → Reg → Nat → Prop := fun i d n =>
        AtWindow i s addr → MayRun i s → ∃ m q, exec i s = .next (done i [] { s with mem := m, notices := q }) ∧
          ∀ x, memRead m x = stored s.backing addr n (s.me.reg d).toNat x
      stores (.st z .relaxed sc d a off) d (sizeBytes z) ∧
      stores (.stx z .relaxed sc sx d a b) d (sizeBytes z) ∧
      stores (.hStD hd ha o3) (Fin.ofNat 32 hd.val) 8 ∧
      stores (.hStW hd ha o3) (Fin.ofNat 32 hd.val) 4)

/-- R91 and R92: a relaxed load at thread or core scope of a thread reads the bytes that its L1 shows, and one of a sequencer those of its segment cache;
it changes no byte that any core, segment cache or home shows, and no agent but by the pc and d.
R92: a relaxed store at thread or core scope of a thread is performed in its L1: its core shows the bytes at once,
and no other core, no segment cache and no home shows a change.
R92: a relaxed access at group or device scope of an agent whose caches do not hold the line is performed at the home:
a load reads the home's bytes and changes none that a home shows, and a store changes the home's bytes and no others of the home.
What the spec leaves open in it is the model's choice (log entry 5). -/
def Obligations.CachedAccesses : Prop :=
  (∀ (s : State) (pa : Nat) (z : Size) (sc : Scope) (d a b : Reg) (off : BitVec 8) (sx : Bool), sc = .thread ∨ sc = .core →
      let shows : Nat → Byte := match s.cur with
        | .thread c _ => s.l1Byte c
        | q => s.segByte q.cluster
      let loads : Instr → Bool → Prop := fun i signed =>
        AtPlainMemory i s pa → MayRun i s →
          let n := sizeBytes z
          let m := valueAt shows pa n
          let v := if signed ∧ 2 ^ (8 * n - 1) ≤ m then BitVec.ofInt 64 (m - 2 ^ (8 * n)) else BitVec.ofNat 64 m
          ∃ t, exec i s = .next t ∧ OnlyMemory (done i [(d, v)] s) t ∧
            (∀ c x, t.l1Byte c x = s.l1Byte c x) ∧ (∀ cl x, t.segByte cl x = s.segByte cl x) ∧ ∀ x, t.homeByte x = s.homeByte x
      loads (.ld z .relaxed sc d a off) false ∧
      loads (.lds z .relaxed sc d a off) true ∧
      loads (.ldx z .relaxed sc sx d a b) false ∧
      loads (.ldxSx z .relaxed sc sx d a b) true) ∧
  (∀ (s : State) (pa : Nat) (z : Size) (sc : Scope) (d a b : Reg) (off : BitVec 8) (sx : Bool) (c sl : Nat),
      sc = .thread ∨ sc = .core → s.cur = .thread c sl →
      let stores : Instr → Prop := fun i =>
        AtPlainMemory i s pa → MayRun i s → ∃ t, exec i s = .next t ∧ OnlyMemory (done i [] s) t ∧
          (∀ x, t.l1Byte c x = stored (s.l1Byte c) pa (sizeBytes z) (s.me.reg d).toNat x) ∧
          (∀ c' x, c' ≠ c → t.l1Byte c' x = s.l1Byte c' x) ∧
          (∀ cl x, t.segByte cl x = s.segByte cl x) ∧ ∀ x, t.homeByte x = s.homeByte x
      stores (.st z .relaxed sc d a off) ∧ stores (.stx z .relaxed sc sx d a b)) ∧
  (∀ (s : State) (pa : Nat) (z : Size) (sc : Scope) (d a : Reg) (off : BitVec 8), sc = .group ∨ sc = .device →
      findLine (pa / 64) (s.seg s.cur.cluster).lines = none →
      (∀ c sl, s.cur = .thread c sl → findLine (pa / 64) (s.l1 c).lines = none) →
      (AtPlainMemory (.ld z .relaxed sc d a off) s pa → MayRun (.ld z .relaxed sc d a off) s →
        ∃ t, exec (.ld z .relaxed sc d a off) s = .next t ∧
          OnlyMemory (done (.ld z .relaxed sc d a off) [(d, BitVec.ofNat 64 (valueAt s.homeByte pa (sizeBytes z)))] s) t ∧
          ∀ x, t.homeByte x = s.homeByte x) ∧
      (AtPlainMemory (.st z .relaxed sc d a off) s pa → MayRun (.st z .relaxed sc d a off) s →
        ∃ t, exec (.st z .relaxed sc d a off) s = .next t ∧ OnlyMemory (done (.st z .relaxed sc d a off) [] s) t ∧
          ∀ x, t.homeByte x = stored s.homeByte pa (sizeBytes z) (s.me.reg d).toNat x))

/-- R179, R180 and R181: a relaxed atomic in the device window writes its new value at its address, no other byte changes, and `d` receives the old value;
`ared` writes no register, and a `cas` that does not compare equal writes no byte. -/
def Obligations.AtomicResults : Prop :=
  ∀ (s : State) (addr : Nat) (z : Width) (sc : Scope) (d a b : Reg),
    let n := widthBytes z
    let w := 8 * n
    let m := valueAt s.backing addr n
    let v := (s.me.reg b).toNat % 2 ^ w
    let signed : Nat → Int := fun x => if 2 ^ (w - 1) ≤ x then (x : Int) - 2 ^ w else x
    let fmt := floatFmt (match z with | .w => .f32 | .d => .f64)
    let writes : Instr → List (Reg × Word) → Nat → Prop := fun i ws r =>
      AtWindow i s addr → MayRun i s → ∃ m' q, exec i s = .next (done i ws { s with mem := m', notices := q }) ∧
        ∀ x, memRead m' x = stored s.backing addr n r x
    let both : Instr → Instr → Nat → Prop := fun i j r => writes i [(d, BitVec.ofNat 64 m)] r ∧ writes j [] r
    both (.amoAdd z .relaxed sc d a b) (.aredAdd z .relaxed sc a b) ((m + v) % 2 ^ w) ∧
    both (.amoAnd z .relaxed sc d a b) (.aredAnd z .relaxed sc a b) (m &&& v) ∧
    both (.amoOr z .relaxed sc d a b) (.aredOr z .relaxed sc a b) (m ||| v) ∧
    both (.amoXor z .relaxed sc d a b) (.aredXor z .relaxed sc a b) (m ^^^ v) ∧
    both (.amoMin z .relaxed sc d a b) (.aredMin z .relaxed sc a b) (if signed m ≤ signed v then m else v) ∧
    both (.amoMax z .relaxed sc d a b) (.aredMax z .relaxed sc a b) (if signed v ≤ signed m then m else v) ∧
    both (.amoMinn z .relaxed sc d a b) (.aredMinn z .relaxed sc a b) (if m ≤ v then m else v) ∧
    both (.amoMaxn z .relaxed sc d a b) (.aredMaxn z .relaxed sc a b) (if v ≤ m then m else v) ∧
    both (.amoSwap z .relaxed sc d a b) (.aredSwap z .relaxed sc a b) v ∧
    both (.amoFadd z .relaxed sc d a b) (.aredFadd z .relaxed sc a b) (fmt.add ⟨.rne, 0⟩ false m v).1 ∧
    both (.amoFmin z .relaxed sc d a b) (.aredFmin z .relaxed sc a b) (fmt.min m v) ∧
    both (.amoFmax z .relaxed sc d a b) (.aredFmax z .relaxed sc a b) (fmt.max m v) ∧
    (m = (s.me.reg d).toNat % 2 ^ w → writes (.cas z .relaxed sc d a b) [(d, BitVec.ofNat 64 m)] v) ∧
    (m ≠ (s.me.reg d).toNat % 2 ^ w → AtWindow (.cas z .relaxed sc d a b) s addr → Gives (.cas z .relaxed sc d a b) d (BitVec.ofNat 64 m) s) ∧
    writes (.incw z .relaxed sc d a b) [(d, BitVec.ofNat 64 m)] (if v ≤ m then 0 else m + 1)

/-- R96: `oxli` and `oxmv` write one ox register; `oxld` writes it with the doubleword at s[a] + 8 × off: in the device window, or as the L1 of the thread
(the segment cache of a sequencer) shows it in memory of this module, caches being all that changes besides, and no byte that any core, segment cache or home shows;
wherever its access lands, it completes and writes that one register, memory and every byte of a home that no cache holds dirty standing.
R95: `pref` completes whatever its address is, with no trap and no register written, and changes no memory value:
outside the coherent regime no byte that any core, segment cache or home shows changes, and no recording;
in it, too, memory and every byte of a home that no cache holds dirty stand. -/
def Obligations.ExtensionAndPrefetch : Prop :=
  (∀ (s : State) (x : Fin 8) (a : Reg) (imm : BitVec 15) (addr : Nat),
      let puts : Instr → Word → Prop := fun i v =>
        MayRun i s → exec i s = .next (s.setMe { s.me with ox := s.me.ox.set x v, pc := s.me.pc + 4 })
      puts (.oxli x imm) (imm.signExtend 64) ∧
      puts (.oxmv x a) (s.me.reg a) ∧
      (AtWindow (.oxld x a imm) s addr → puts (.oxld x a imm) (BitVec.ofNat 64 (valueAt s.backing addr 8))) ∧
      (let shows : Nat → Byte := match s.cur with
          | .thread c _ => s.l1Byte c
          | q => s.segByte q.cluster
        let loaded : Word → State → Prop := fun v t => OnlyMemory (s.setMe { s.me with ox := s.me.ox.set x v, pc := s.me.pc + 4 }) t
        MayRun (.oxld x a imm) s →
          (AtPlainMemory (.oxld x a imm) s addr → ∃ t, exec (.oxld x a imm) s = .next t ∧ loaded (BitVec.ofNat 64 (valueAt shows addr 8)) t ∧ SameBytes s t) ∧
          (Lands (.oxld x a imm) s → ∃ t v, exec (.oxld x a imm) s = .next t ∧ loaded v t ∧
            t.mem = s.mem ∧ ∀ y, CleanOnDie s y → t.homeByte y = s.homeByte y))) ∧
  (∀ (s : State) (h : Hint) (sx : Bool) (a b : Reg), MayRun (.pref h sx a b) s →
      ∃ t, exec (.pref h sx a b) s = .next t ∧ OnlyMemory (done (.pref h sx a b) [] s) t ∧
        t.mem = s.mem ∧ (∀ x, CleanOnDie s x → t.homeByte x = s.homeByte x) ∧
        (s.tracks = [] → (∀ pa sd shared, resolve s s.cur s.me.task (s.me.reg a + s.me.reg b) 1 .read false ≠ .ok (.memory pa true sd shared)) →
          SameBytes s t ∧ t.tracks = s.tracks))

/-- R185 and R186: `fence` and `xfence` complete and write 0 below system scope; at system scope they write 0, 1 or 2,
and leave none of its posted writes outstanding, where no posted write of the agent for its task, and for `xfence` none of a completion that it acquired, waits for a port that retrains,
the host link is not in recovery (R390) and no record of a lost write still waits to be written (R400).
R93: after a release fence at group or device scope of a thread, the home shows every byte that its L1 or its segment cache held dirty.
R93 and R326: after an acquire fence at device scope of a thread that holds no pushed line, its core shows the home's byte
wherever neither its L1 nor its segment cache holds that byte dirty.
What the spec leaves open in it is the model's choice (log entry 5). -/
def Obligations.Fences : Prop :=
  (∀ (s : State) (i : Instr) (sc : Scope) (d : Reg), MayRun i s →
      let mine : Posted → Prop := fun p => p.agent = some s.cur ∧ p.task = s.me.task ∧ p.gone = false
      let awaited : Posted → Prop := fun p => mine p ∨ (∃ m, i = .xfence sc m d) ∧ s.cur ∈ p.acquired
      ((∃ o, i = .fence o sc d) ∨ ∃ m, i = .xfence sc m d) →
      (sc ≠ .system → ∃ t, exec i s = .next t ∧ OnlyMemory (done i [(d, 0)] s) t) ∧
      (sc = .system → (∀ p ∈ s.posted, awaited p → p.lost = false → reach s p.peer ≠ .retraining) →
        s.service.host ≠ .recovery → s.recordsWait = false →
        ∃ t n, exec i s = .next t ∧ n ≤ 2 ∧ (n = 0 ↔ ∀ p ∈ s.posted, mine p → p.lost = false) ∧
          OnlyMemory (done i [(d, BitVec.ofNat 64 n)] { s with posted := s.posted.filter fun p => decide (¬ mine p) }) t)) ∧
  (∀ (s : State) (sc : Scope) (d : Reg) (c sl : Nat), sc = .group ∨ sc = .device → s.cur = .thread c sl →
      MayRun (.fence .release sc d) s →
      let dirty : Cache → Nat → Option Byte := fun k x => match findLine (x / 64) k.lines with
        | some l => if l.dirty.getLsbD (x % 64) then some (lineByte l.data (x % 64)) else none
        | none => none
      ∃ t, exec (.fence .release sc d) s = .next t ∧
        ∀ x, t.homeByte x = match dirty (s.l1 c) x, dirty (s.seg (c / 64)) x with
          | some v, _ => v
          | none, some v => v
          | none, none => s.homeByte x) ∧
  (∀ (s : State) (d : Reg) (c sl : Nat), s.cur = .thread c sl → MayRun (.fence .acquire .device d) s → (s.core c).held = [] →
      let clean : Cache → Nat → Prop := fun k x => match findLine (x / 64) k.lines with
        | some l => l.dirty.getLsbD (x % 64) = false
        | none => True
      ∃ t, exec (.fence .acquire .device d) s = .next t ∧
        ∀ x, clean (s.l1 c) x → clean (s.seg (c / 64)) x → t.l1Byte c x = s.homeByte x)

/-- R187 and R198: `waitv` completes with the value at its address once the comparison holds, a 32-bit value zero-extended (the model's choice, log entry 52), and sleeps otherwise; in codelet mode it is illegal.
The value is that of the device window, or at thread and core scope the one that the agent's nearest cache shows of memory; at any scope it is some value that the comparison was decided on.
Nothing else changes but what the caches hold: without the acquire, at thread and core scope in memory, no byte that any core, segment cache or home shows,
and below system scope memory stands, and so does every byte of a home that no cache holds dirty and, with the acquire, no push into the core has brought. -/
def Obligations.ValueWaits : Prop :=
  ∀ (s : State) (addr : Nat) (z : Width) (sc : Scope) (d a b : Reg),
    let n := widthBytes z
    let m := valueAt s.backing addr n
    let v := (s.me.reg b).toNat % 2 ^ (8 * n)
    let signed : Nat → Int := fun x => if 2 ^ (8 * n - 1) ≤ x then (x : Int) - 2 ^ (8 * n) else x
    let shows : Nat → Byte := match s.cur with
      | .thread c _ => s.l1Byte c
      | q => s.segByte q.cluster
    let waits : (Bool → Instr) → (Nat → Prop) → Prop := fun form holds => ∀ q,
      let i := form q
      let stands : State → Prop := fun t => sc ≠ .system → t.mem = s.mem ∧ ∀ x, CleanOnDie s x → (q = true → Unheld s x) → t.homeByte x = s.homeByte x
      let ends : Nat → State → Prop := fun m t => OnlyMemory (done i [(d, BitVec.ofNat 64 m)] s) t ∧ stands t
      let sleeps : State → Prop := fun t => (∃ line, OnlyMemory (asleep (.value line) s) t) ∧ stands t
      MayRun i s →
        (s.me.codelet = true → exec i s = .next (enterTrap s s.cur .illegal 4 s.me.pc (bitsAtPc s))) ∧
        (s.me.codelet = false → AtWindow i s addr →
          (holds m → q = false → exec i s = .next (done i [(d, BitVec.ofNat 64 m)] s)) ∧
          (holds m → ∃ t, exec i s = .next t ∧ ends m t) ∧
          (¬ holds m → ∃ line, exec i s = .next (asleep (.value line) s))) ∧
        (s.me.codelet = false → AtPlainMemory i s addr → sc = .thread ∨ sc = .core →
          (holds (valueAt shows addr n) → ∃ t, exec i s = .next t ∧ ends (valueAt shows addr n) t ∧ (q = false → SameBytes s t)) ∧
          (¬ holds (valueAt shows addr n) → ∃ t, exec i s = .next t ∧ sleeps t ∧ SameBytes s t)) ∧
        (s.me.codelet = false → Lands i s → ∃ t m, exec i s = .next t ∧ (holds m ∧ ends m t ∨ ¬ holds m ∧ sleeps t))
    waits (fun q => .waitvEq q z sc d a b) (fun m => m = v) ∧
    waits (fun q => .waitvNe q z sc d a b) (fun m => m ≠ v) ∧
    waits (fun q => .waitvLt q z sc d a b) (fun m => signed m < signed v) ∧
    waits (fun q => .waitvGe q z sc d a b) (fun m => signed v ≤ signed m)

/-! ## Weirs (R188 to R193, R301 to R307) -/

/-- R188: a weir instruction that names a weir of a cluster that the task did not declare is a protection trap, and EVAL holds the whole reference (the model's choice, log entry 52).
R192, R193 and R198: the wait, the reads and the disarming of a declared weir.
`wwait` is illegal in codelet mode, answers all ones where ACT is not 1, sleeps while GEN is s[b] and otherwise writes GEN. -/
def Obligations.WeirReads : Prop :=
  (∀ (s : State) (i : Instr) (d a b : Reg) (q : Bool) (t : Task), MayRun i s → Handles s → s.me.codelet = false → s.myTask = some t →
      i ∈ [.warm d a, .wexp d a b, .wwait d a b, .wrd q d a, .wdis a] →
      t.hasCluster ((s.me.reg a).toNat / 2 ^ 6 % 2 ^ 5) = false →
      exec i s = .next (trapped .protection 4 s.me.pc (s.me.reg a) s)) ∧
  (∀ (s : State) (d a b : Reg) (t : Task), s.myTask = some t →
      let cl := (s.me.reg a).toNat / 2 ^ 6 % 2 ^ 5
      let n := 64 * cl + (s.me.reg a).toNat % 2 ^ 6
      let w := s.weir n
      let act := (vget 0 w.desc 3).toNat % 8
      t.hasCluster cl = true →
      Gives (.wrd false d a) d (BitVec.ofInt 64 w.bal) s ∧
      (∃ v : Word, Gives (.wrd true d a) d v s ∧ v.toNat % 2 ^ 16 = w.par.toNat ∧ v.toNat / 2 ^ 16 % 2 ^ 16 = w.gen.toNat ∧
        v.getLsbD 34 = w.pastEnd ∧ v.getLsbD 35 = w.late ∧ v.getLsbD 36 = (vget 0 w.desc 3).getLsbD 8 ∧
        v.toNat / 2 ^ 37 % 8 = (vget 0 w.desc 3).toNat / 2 ^ 5 % 8 ∧ v.toNat / 2 ^ 40 = act ∧
        (w.state = .idle ↔ v.toNat / 2 ^ 32 % 4 = 0) ∧ (w.state = .armed ↔ v.toNat / 2 ^ 32 % 4 = 1) ∧
        (w.state = .tripped ↔ v.toNat / 2 ^ 32 % 4 = 2)) ∧
      (MayRun (.wdis a) s → exec (.wdis a) s = .next (done (.wdis a) [] (s.setWeir n { w with state := .idle }))) ∧
      (MayRun (.wwait d a b) s →
        (s.me.codelet = true → exec (.wwait d a b) s = .next (enterTrap s s.cur .illegal 4 s.me.pc (bitsAtPc s))) ∧
        (s.me.codelet = false →
          (act ≠ 1 → exec (.wwait d a b) s = .next (done (.wwait d a b) [(d, BitVec.allOnes 64)] s)) ∧
          (act = 1 → w.gen = (s.me.reg b).setWidth 16 → exec (.wwait d a b) s = .next (asleep (.weir n w.gen) s)) ∧
          (act = 1 → w.gen ≠ (s.me.reg b).setWidth 16 →
            ∃ u, exec (.wwait d a b) s = .next u ∧ OnlyMemory (done (.wwait d a b) [(d, w.gen.setWidth 64)] s) u))))

/-- R189, R190 and R191: `warm` captures the descriptor and arms the weir with BAL and PAR of ox2, and `d` receives the old GEN;
it trips at once when PAR and BAL are 0, and is over its end when PAR is 0 and BAL is negative.
R190: `wexp` adds to BAL and takes one from PAR of an armed weir with expectations left; an amount past 2^47 − 1, a weir that is not armed and one with none left
answer 3, 1 and 2 and change nothing. The last expectation of a balance that is then 0 trips the weir. -/
def Obligations.WeirBalance : Prop :=
  (∀ (s : State) (d a : Reg) (task : Nat) (t : Task) (win : List (Nat × Nat)), MayRun (.warm d a) s →
      s.me.task = some task → s.task task = some t →
      let ox := fun n => s.me.oxr n
      let cl := (s.me.reg a).toNat / 2 ^ 6 % 2 ^ 5
      let n := 64 * cl + (s.me.reg a).toNat % 2 ^ 6
      let bal : Int := if (ox 2).toNat % 2 ^ 48 < 2 ^ 47 then ((ox 2).toNat % 2 ^ 48 : Nat) else ((ox 2).toNat % 2 ^ 48 : Nat) - 2 ^ 48
      let par := (ox 2).toNat / 2 ^ 48
      let old := s.weir n
      t.hasCluster cl = true →
      (armLegal s.me = false → exec (.warm d a) s = .next (enterTrap s s.cur .illegal 4 s.me.pc (bitsAtPc s))) ∧
      (armLegal s.me = true → armWindow s t task cl (ox 0) (ox 1) ((ox 3).getLsbD 9) = .ok win →
        ∃ u, exec (.warm d a) s = .next u ∧ (∀ x, unmarked (u.hart x) = unmarked ((done (.warm d a) [(d, old.gen.setWidth 64)] s).hart x)) ∧
          (par ≠ 0 ∨ bal ≠ 0 ∨ (ox 3).toNat % 8 < 2 → u.harts = (done (.warm d a) [(d, old.gen.setWidth 64)] s).harts ∧ u.mem = s.mem) ∧
          let w := u.weir n
          w.window = win ∧ w.task = some task ∧ w.late = false ∧ w.desc = #v[ox 0, ox 1, ox 2, ox 3, ox 4] ∧
          ((par ≠ 0 ∨ 0 < bal) → w.state = .armed ∧ w.bal = bal ∧ w.par.toNat = par ∧ w.gen = old.gen ∧ w.pastEnd = false) ∧
          (par = 0 → bal < 0 → w.state = .armed ∧ w.bal = bal ∧ w.gen = old.gen ∧ w.pastEnd = true) ∧
          (par = 0 → bal = 0 → w.gen = old.gen + 1 ∧ w.bal = 0 ∧ w.pastEnd = false ∧
            w.state = (if (ox 3).getLsbD 8 then .armed else .tripped) ∧ (u.segment cl).wtrip.getLsbD (n % 64) = true))) ∧
  (∀ (s : State) (d a b : Reg) (t : Task), MayRun (.wexp d a b) s → s.myTask = some t →
      let cl := (s.me.reg a).toNat / 2 ^ 6 % 2 ^ 5
      let n := 64 * cl + (s.me.reg a).toNat % 2 ^ 6
      let w := s.weir n
      let v := (s.me.reg b).toNat
      let gives : Word → Prop := fun x => exec (.wexp d a b) s = .next (done (.wexp d a b) [(d, x)] s)
      t.hasCluster cl = true →
      (2 ^ 47 ≤ v → gives 3) ∧
      (v < 2 ^ 47 → w.state ≠ .armed → gives 1) ∧
      (v < 2 ^ 47 → w.state = .armed → w.par = 0 → gives 2) ∧
      (v < 2 ^ 47 → w.state = .armed → w.par ≠ 0 → -2 ^ 47 ≤ w.bal → w.bal + v < 2 ^ 47 →
        ∃ u, exec (.wexp d a b) s = .next u ∧ (∀ x, unmarked (u.hart x) = unmarked ((done (.wexp d a b) [(d, 0)] s).hart x)) ∧
          (w.par ≠ 1 ∨ w.bal + v ≠ 0 ∨ (vget 0 w.desc 3).toNat % 8 < 2 → u.harts = (done (.wexp d a b) [(d, 0)] s).harts ∧ u.mem = s.mem) ∧
          ((w.par ≠ 1 ∨ 0 < w.bal + v) → u.weir n = { w with bal := w.bal + v, par := w.par - 1 }) ∧
          (w.par = 1 → w.bal + v < 0 → u.weir n = { w with bal := w.bal + v, par := 0, pastEnd := true }) ∧
          (w.par = 1 → w.bal + v = 0 → w.pastEnd = false → (u.weir n).gen = w.gen + 1 ∧
            (u.segment cl).wtrip.getLsbD (n % 64) = true)))

/-! ## Codelets (R195 to R198, R271, R272) -/

/-- R197: a relaxed `cldec` takes its counter down by s[b], or by 1 where b is s0, and pushes the codelet to its core when the counter crosses zero;
a push that finds the ring and the overflow queue full makes it sleep with the counter as it was. A trap leaves the whole reference in EVAL (the model's choice, log entry 52). -/
def Obligations.CodeletCounters : Prop :=
  ∀ (s : State) (sc : Scope) (d a b : Reg) (t : Task), MayRun (.cldec .relaxed sc d a b) s → s.myTask = some t →
    let i : Instr := .cldec .relaxed sc d a b
    let ref := s.me.reg a
    let core := ref.toNat / 2 ^ 16 % 2 ^ 11
    let off := ref.toNat % 2 ^ 16
    let addr := 0xFF00000040000000 + core * 0x10000 + off
    let old : Word := BitVec.ofNat 64 (valueAt s.backing addr 8)
    let new := old - (if b = 0 then 1 else s.me.reg b)
    let k := s.core core
    let crosses := 0 < old.toInt ∧ new.toInt ≤ 0
    (t.hasCore core = false → Handles s → exec i s = .next (trapped .protection 4 s.me.pc ref s)) ∧
    (t.hasCore core = true → off % 8 ≠ 0 → Handles s → exec i s = .next (trapped .misalignment 4 s.me.pc ref s)) ∧
    (t.hasCore core = true → off % 8 = 0 → 0x6100 ≤ off → off + 16 ≤ 0xC000 →
      (¬ crosses → ∃ m, exec i s = .next (done i [(d, new)] { s with mem := m }) ∧
        ∀ x, memRead m x = stored s.backing addr 8 new.toNat x) ∧
      (crosses → k.overflow = [] → k.ring.length < 1024 → ∃ m,
        exec i s = .next (done i [(d, new)] ({ s with mem := m }.setCore core { k with
          ring := k.ring ++ [Codelet.mk (BitVec.ofNat 64 (valueAt s.backing (addr + 8) 8)) ref none] })) ∧
        ∀ x, memRead m x = stored s.backing addr 8 new.toNat x) ∧
      (crosses → (k.overflow = [] ∧ k.ring.length = 1024 ∨ k.overflow ≠ [] ∧ k.overflow.length < 65536) →
        ∃ u, exec i s = .next u ∧ (∀ x, unmarked (u.hart x) = unmarked ((done i [(d, new)] s).hart x)) ∧
          (u.core core).overflow = k.overflow ++ [Codelet.mk (BitVec.ofNat 64 (valueAt s.backing (addr + 8) 8)) ref none] ∧
          (u.core core).overflowed = k.overflowed + 1) ∧
      (crosses → k.overflow.length = 65536 → exec i s = .next (asleep (.overflow core) s)))

/-- R197 and R198: a relaxed `clpush` puts s[a] and s[b] at the end of the core's ring, or of its overflow queue once that is in use;
a relaxed `clnext` takes the oldest entry, writes the argument to s3 and the link to s1, enters the codelet and sets codelet mode;
it sleeps when there is none, and in codelet mode it is illegal. A core that the task did not declare is a protection trap with the whole register in EVAL (log entry 52), and the codelet begins at the even address of its entry (log entry 45). -/
def Obligations.CodeletPushAndNext : Prop :=
  ∀ (s : State) (sc : Scope) (d a b : Reg) (t : Task), s.myTask = some t →
    let core := (s.me.reg d).toNat % 2 ^ 11
    let k := s.core core
    let entry : Codelet := ⟨s.me.reg a, s.me.reg b, none⟩
    let push : Instr := .clpush .relaxed sc d a b
    (MayRun push s →
      (t.hasCore core = false → Handles s → exec push s = .next (trapped .protection 4 s.me.pc (s.me.reg d) s)) ∧
      (t.hasCore core = true → k.overflow = [] → k.ring.length < 1024 →
        exec push s = .next (done push [] (s.setCore core { k with ring := k.ring ++ [entry] }))) ∧
      (t.hasCore core = true → k.overflow ≠ [] → k.overflow.length < 65536 →
        ∃ u, exec push s = .next u ∧ (∀ x, unmarked (u.hart x) = unmarked ((done push [] s).hart x)) ∧ (u.core core).overflow = k.overflow ++ [entry]) ∧
      (t.hasCore core = true → k.overflow.length = 65536 → exec push s = .next (asleep (.overflow core) s))) ∧
    (∀ c sl, s.cur = .thread c sl → MayRun (.clnext .relaxed sc) s →
      (s.me.codelet = true → exec (.clnext .relaxed sc) s = .next (enterTrap s s.cur .illegal 4 s.me.pc (bitsAtPc s))) ∧
      (s.me.codelet = false → (s.core c).ring = [] → (s.core c).overflow = [] →
        exec (.clnext .relaxed sc) s = .next (asleep .codelet s)) ∧
      (s.me.codelet = false → (∀ p ∈ s.harts, ∀ n, p.2.status ≠ .sleeping .codelet n) →
        ∀ e r, (s.core c).ring = e :: r → e.acquire = none → (s.core c).waitingPushes = [] →
        exec (.clnext .relaxed sc) s = .next ((s.setCore c { s.core c with ring := r }).setMe { s.me.setRegs [(3, e.arg), (1, s.me.pc + 4)] with
          pc := evenPc e.entry, codelet := true, codeRet := s.me.pc + 4 })))

/-! ## Packets, triggers and chains (R60, R199, R200) -/

/-- R199: `launch` releases at device scope and reads the packet; into an open queue that is not full it places it at the write index, kicks and writes that index to d, and otherwise it writes all ones and places nothing.
A packet that is placed lies in its slot with the low 16 bits of the index as its stamp and its other bytes as they were read, and the queue fetches.
`trig` releases at system scope and marks the task of the agent that runs it.
R199 and R393: `renq` reads its packet after a release at system scope. To a queue of its own device it places it, or answers 1 where the queue is full, 2 where it is in error
and 4 where it is not permitted. To a peer that a port reaches it sends it with a credit, and with `.ack` sleeps for the answer; without a credit it sleeps with nothing released or read;
with `.ack` at a pc whose packet is out already it sleeps and sends nothing. Where no port reaches the peer it answers 3, after a link error record if the peer was declared down or no status reports the failure,
and it sleeps while that record is not written yet (R399, R400). Without `.ack` it writes 0.
What the spec leaves open in it is the model's choice (log entry 4). -/
def Obligations.LaunchAndTrigger : Prop :=
  (∀ (s : State) (d a b : Reg) (n : Nat) (t : Task), s.me.task = some n → s.task n = some t →
      (∀ u ws, MayRun (.launch d a b) s → PacketRead s .device (s.me.reg a) u ws →
        let i : Instr := .launch d a b
        let q := (s.me.reg b).toNat % 2 ^ 12
        let k := s.queue q
        let mine := k.opened = true ∧ (vget 0 k.desc 4).toNat = t.root
        (¬ mine ∨ k.wmax = k.rd + 2 ^ ((vget 0 k.desc 1).toNat % 16) → exec i s = .next (done i [(d, BitVec.allOnes 64)] u)) ∧
        (mine → k.wmax < k.rd + 2 ^ ((vget 0 k.desc 1).toNat % 16) → exec i s = .next (done i [(d, BitVec.ofNat 64 k.wmax)] (placePacket u q ws)))) ∧
      (∀ u q ws, ws.length = 8 →
        let k := u.queue q
        k.opened = true → k.wmax < k.rd + 2 ^ ((vget 0 k.desc 1).toNat % 16) →
        let v := placePacket u q ws
        v.queue q = { k with wmax := k.wmax + 1, state := if k.state = .error then .error else .fetching } ∧
        (∀ p, p ≠ q → v.queue p = u.queue p) ∧ v.tasks = u.tasks ∧
        ∀ pa, rootPlace u k.root (vget 0 k.desc 0 + BitVec.ofNat 64 (64 * (k.wmax % 2 ^ ((vget 0 k.desc 1).toNat % 16)))) .write = .ok (pa, false) → pa % 64 = 0 → pa < 2 ^ 47 →
          ∀ j, j < 64 → v.homeByte (pa + j) =
            if j < 2 then BitVec.ofNat 8 (k.wmax / 2 ^ (8 * j)) else BitVec.ofNat 8 ((nth 0 ws (j / 8)).toNat / 2 ^ (8 * (j % 8)))) ∧
      (MayRun .trig s → exec .trig s = .next (done .trig [] ((s.release s.cur .system).setTask n { t with trig := true })))) ∧
  (∀ (s : State) (ack : Bool) (d a b : Reg) (t : State) (ws : List Word), MayRun (.renq ack d a b) s → PacketRead s .system (s.me.reg b) t ws →
      let i : Instr := .renq ack d a b
      let va := s.me.reg b
      let mine : Prop := ack = true ∧ ∃ r ∈ s.renqs, r.sender = s.cur ∧ r.ack = true ∧ r.gone = false ∧ r.pc = s.me.pc ∧ r.task = s.me.task ∧ r.handler = s.me.tmode
      let sent : Option Nat → Bool → Renq := fun status waiting =>
        ⟨(s.me.reg a).toNat % 2 ^ 18, (s.me.reg a).toNat / 2 ^ 18 % 2 ^ 12, Vector.ofFn fun j => nth 0 ws j.val, s.cur, s.me.task, va, ack, d, i, s.me.pc, status, false, s.me.tmode, waiting⟩
      (mine → exec i s = .next (asleep .answer s)) ∧
      (¬ mine →
      let dest := (s.me.reg a).toNat % 2 ^ 18
      let q := (s.me.reg a).toNat / 2 ^ 18 % 2 ^ 12
      let k := s.queue q
      let permitted : Prop := k.opened = true ∧ (k.remote = true ∨ openTo k s.myTask = true)
      let answers : Nat → State → Prop := fun n t' =>
        (ack = true ∨ n = 0 → exec i s = .next (done i [(d, BitVec.ofNat 64 n)] t')) ∧
        (ack = false → ∃ u, exec i s = .next u ∧ ∀ x, unmarked (u.hart x) = unmarked ((done i [(d, 0)] t').hart x))
      (dest = s.ownDevice →
        (¬ permitted → answers 4 t) ∧
        (permitted → k.state = .error → answers 2 t) ∧
        (permitted → k.state ≠ .error → k.wmax = k.rd + k.size → answers 1 t) ∧
        (permitted → k.state ≠ .error → k.wmax < k.rd + k.size → answers 0 (placePacket t q ws))) ∧
      (dest ≠ s.ownDevice → reach s dest ≠ .down →
        (∀ n, tfind dest s.renqCredits = some (n + 1) →
          let u := { t with
            renqCredits := tset dest n t.renqCredits
            renqs := t.renqs ++ [sent none (decide (reach s dest ≠ .up))] }
          exec i s = .next (if ack then asleep .answer u else done i [(d, 0)] u)) ∧
        (tfind dest s.renqCredits = some 0 → exec i s = .next (asleep (.packetSlot dest) s)) ∧
        (tfind dest s.renqCredits = none → ∃ m, m ≤ 16 ∧
          (m = 0 → exec i s = .next (asleep (.packetSlot dest) s.bumpFree)) ∧
          (m ≠ 0 → exec i s = exec i { s.bumpFree with renqCredits := tset dest m s.renqCredits }))) ∧
      (dest ≠ s.ownDevice → reach s dest = .down →
        (ack = false → exec i s = .next (done i [(d, 0)] (renqFailed t dest va))) ∧
        (ack = true →
          let u := if tfind dest t.peersDown = none then t else renqFailed t dest va
          (u.recordsWait = false → exec i s = .next (done i [(d, 3)] u)) ∧
          (u.recordsWait = true → exec i s = .next (asleep .answer { u with renqs := u.renqs ++ [sent (some 3) false] }))))))

/-- R200 and R265: `qbind` binds sides that are free to cores of its stripe whose number differs by 1 and writes 0; a core that is none of those answers 1. A side is taken, which answers 2,
when a thread of this core is bound on it, or a thread of that neighbour is bound to another core on the side that faces this one. A thread that is bound already takes the new binding as a whole (log entry 52).
`qbind.off` unbinds once the output queue is empty, with the status 0 of log entry 52, and sleeps before.
R60 and R273, on `add`: under a bound chain s28 as a source is the oldest entry of the core's chain queue, which it takes, and s29 as the destination puts the result
at the end of the downstream core's, to be taken 4 cycles on, or up to 12 where a regroup has parted the cores; it sleeps with nothing taken while the one is empty or the other full, and s28 as a destination is illegal. -/
def Obligations.Chains : Prop :=
  (∀ (s : State) (d a b : Reg) (c sl : Nat), s.cur = .thread c sl →
      let side : Word → Option Nat := fun v => if v = BitVec.allOnes 64 then none else some v.toNat
      let near : Option Nat → Prop := fun n => ∀ x, n = some x → c / 256 = x / 256 ∧ (x = c + 1 ∨ c = x + 1)
      let up := side (s.me.reg a)
      let down := side (s.me.reg b)
      let i : Instr := .qbind false d a b
      let bound : Nat → Option Nat × Option Nat → Prop := fun k e => ∃ n h, (AgentId.thread k n, h) ∈ s.harts ∧ h.chain = some e
      let upTaken : Prop := ∃ u, up = some u ∧ ((∃ e, bound c e ∧ e.1 ≠ none) ∨ ∃ e x, bound u e ∧ e.2 = some x ∧ x ≠ c)
      let downTaken : Prop := ∃ w, down = some w ∧ ((∃ e, bound c e ∧ e.2 ≠ none) ∨ ∃ e x, bound w e ∧ e.1 = some x ∧ x ≠ c)
      (Legal i s → (s.me.chain = none ∨ ∀ r ∈ [d, a, b], r ≠ 28 ∧ r ≠ 29) →
        (¬ (near up ∧ near down) → exec i s = .next (done i [(d, 1)] s)) ∧
        (near up → near down → upTaken ∨ downTaken →
          exec i s = .next (done i [(d, 2)] s)) ∧
        (near up → near down → ¬ upTaken → ¬ downTaken →
          exec i s = .next (s.setMe { s.me.setReg d 0 with pc := s.me.pc + 4, chain := some (up, down) }))) ∧
      (∀ u v, Legal (.qbind true d 0 0) s → s.me.chain = some (u, v) → d ≠ 28 → d ≠ 29 →
        ((∀ n, v = some n → (s.core n).chain = []) →
          exec (.qbind true d 0 0) s = .next (s.setMe { s.me.setReg d 0 with pc := s.me.pc + 4, chain := none })) ∧
        (∀ n, v = some n → (s.core n).chain ≠ [] → exec (.qbind true d 0 0) s = .next (asleep .chainDrain s)))) ∧
  (∀ (s : State) (b : Reg) (c sl n : Nat) (u : Option Nat) (v : Word) (due : Nat) (r : List (Word × Nat)),
      s.cur = .thread c sl → s.me.chain = some (some n, u) → b ≠ 28 → b ≠ 29 →
      let take : Instr := .add .d 5 28 b
      let pass : Instr := .add .d 29 28 b
      ((s.core c).chain = [] → exec take s = .next (asleep .chainInput s)) ∧
      ((s.core c).chain = (v, due) :: r → s.clock < due → exec take s = .next (asleep .chainInput s)) ∧
      ((s.core c).chain = (v, due) :: r → due ≤ s.clock →
        exec take s = .next (done take [(5, v + s.me.reg b)] (s.setCore c { s.core c with chain := r }))) ∧
      (∀ m, u = some m → m ≠ c → (s.core c).chain = (v, due) :: r → due ≤ s.clock →
        (8 ≤ (s.core m).chain.length → exec pass s = .next (asleep .chainOutput s)) ∧
        ((s.core m).chain.length < 8 → ∃ first f, s.clock + 4 ≤ first ∧ first ≤ s.clock + 12 ∧
          ((s.core c).physical = none → (s.core m).physical = none → c / 256 = m / 256 → (m = c + 1 ∨ c = m + 1) → first = s.clock + 4) ∧
          exec pass s = .next (done pass [] { (s.setCore c { s.core c with chain := r }).setCore m
            { s.core m with chain := (s.core m).chain ++ [(v + s.me.reg b, first)] } with freeCtr := f }))) ∧
      exec (.add .d 28 b b) s = .next (enterTrap s s.cur .illegal 4 s.me.pc (bitsAtPc s)))

/-! ## Trackway (R204, R205, R373, R374) -/

/-- R204 and R374: the answers of the Trackway instructions of a thread, and what each makes of the recording that it names.
R205, R373 and R374: `tkstat` writes the status word or the counter word of the recording, and 0 where there is none. -/
def Obligations.Trackway : Prop :=
  (∀ (s : State) (d a : Reg) (c sl n : Nat), s.cur = .thread c sl → s.me.task = some n →
      let id := (s.me.reg a).toNat % 16
      let t := s.track n id
      let start := s.me.oxr 0
      let len := s.me.oxr 1
      let answers : Instr → Word → Prop := fun i v => MayRun i s → exec i s = .next (done i [(d, v)] s)
      let leaves : Instr → (Track → Prop) → Prop := fun i p => MayRun i s → ∃ u, exec i s = .next u ∧ OnlyMemory (done i [(d, 0)] s) u ∧ p (u.track n id)
      let mine := (tfind (c, sl) t.parts).isSome
      ((start.toNat % 4096 ≠ 0 ∨ len.toNat % 4096 ≠ 0 ∨ len = 0) → answers (.tkrec d a) 1) ∧
      (badRange start len = false → recordersFull s n id c = false →
        (t.state = .none ∨ t.state = .recorded → leaves (.tkrec d a) fun u =>
          u.state = .recording ∧ u.base = start.toNat ∧ u.len = len.toNat ∧ u.entries = [] ∧ u.parts = [((c, sl), 0)]) ∧
        (t.state = .recording → ¬ (t.base = start.toNat ∧ t.len = len.toNat) → answers (.tkrec d a) 2) ∧
        (t.state = .recording → t.base = start.toNat → t.len = len.toNat → leaves (.tkrec d a) fun u =>
          u.state = .recording ∧ u.entries = t.entries ∧ (tfind (c, sl) u.parts).isSome)) ∧
      ((s.me.oxr 2).toNat / 2 ^ 17 ≠ 0 → MayRun (.tkplay d a) s →
        exec (.tkplay d a) s = .next (enterTrap s s.cur .illegal 4 s.me.pc (bitsAtPc s))) ∧
      ((s.me.oxr 2).toNat / 2 ^ 17 = 0 → t.state = .none → mine = false → answers (.tkplay d a) 4) ∧
      ((s.me.oxr 2).toNat / 2 ^ 17 = 0 → t.state = .recorded → mine = false → leaves (.tkplay d a) fun u =>
        u.state = .playing ∧ u.threshold = (s.me.oxr 2).toNat % 2 ^ 16 ∧ u.trapEnable = (s.me.oxr 2).getLsbD 16 ∧ u.deps = 0 ∧ u.fell = false ∧
        u.entries = t.entries ∧ u.parts = [((c, sl), 0)]) ∧
      ((s.me.oxr 2).toNat / 2 ^ 17 = 0 → t.state = .recording → mine = false → MayRun (.tkplay d a) s →
        exec (.tkplay d a) s = .next (asleep (.recording id) s)) ∧
      (t.state = .none → answers (.tkend d a) 4) ∧
      (t.state ≠ .none → mine = false → answers (.tkend d a) 0) ∧
      (∀ k, t.state ≠ .none → t.parts = [((c, sl), k)] → leaves (.tkend d a) fun u => u.state = .recorded ∧ u.parts = [] ∧ u.entries = t.entries) ∧
      (t.state = .none → answers (.tkdrop d a) 4) ∧
      (t.state ≠ .none → leaves (.tkdrop d a) fun u => u.state = .none)) ∧
  (∀ (s : State) (d a : Reg) (c sl n : Nat), s.cur = .thread c sl → s.me.task = some n →
      let t := s.track n ((s.me.reg a).toNat % 16)
      (t.state = .none → Gives (.tkstat false d a) d 0 s ∧ Gives (.tkstat true d a) d 0 s) ∧
      (t.state ≠ .none → t.deps < 2 ^ 16 → t.iters < 2 ^ 16 → t.usedp < 2 ^ 16 → t.entries.length < 2 ^ 32 → t.pushed < 2 ^ 32 →
        (∃ v : Word, Gives (.tkstat false d a) d v s ∧
          v.toNat % 4 = (match t.state with | .none => 0 | .recording => 1 | .recorded => 2 | .playing => 3) ∧
          v.getLsbD 2 = t.fell ∧ v.getLsbD 3 = t.spill ∧ v.getLsbD 4 = t.lost ∧
          v.toNat / 2 ^ 16 % 2 ^ 16 = t.deps ∧ v.toNat / 2 ^ 32 = t.entries.length) ∧
        ∃ v : Word, Gives (.tkstat true d a) d v s ∧
          v.toNat % 2 ^ 16 = t.iters ∧ v.toNat / 2 ^ 16 % 2 ^ 16 = t.usedp ∧ v.toNat / 2 ^ 32 = t.pushed))

/-! ## Copies (R139 to R152) -/

/-- R140 and R145 to R148: a copy instruction with a legal descriptor puts its command at the end of the engine's queue, with the ox registers, the task's next copy number
and the batch that is open, and writes a promise; a full queue makes it sleep, an illegal descriptor is an illegal instruction,
and a gather or scatter of no rows is complete at once.
R149 to R151: sealing and waiting for batches, the range commands, freed-slot streams and their notices.
What the spec leaves open in it is the model's choice (log entry 11). -/
def Obligations.CopyInstructions : Prop :=
  (∀ (s : State) (d a b : Reg) (t : Nat), s.me.task = some t →
      let e := s.cur.engine
      let k := s.engine e
      let legal : Bool → Bool := fun landing => CopyDesc.legal s.me.ox s.cur.cluster landing
      let rows := (s.me.reg b).toNat % 2 ^ 16
      let issues : Instr → CopyKind → Bool → Prop := fun i kind landing => MayRun i s →
        (legal landing = false → exec i s = .next (enterTrap s s.cur .illegal 4 s.me.pc (bitsAtPc s))) ∧
        (legal landing = true → 32 ≤ k.queue.length → exec i s = .next (asleep .copyQueue s)) ∧
        (legal landing = true → k.queue.length < 32 → ∃ u c p, exec i s = .next u ∧ u.mem = s.mem ∧
          c.kind = kind ∧ c.desc = s.me.ox ∧ c.owner = s.cur ∧ c.task = t ∧ c.number = tget 0 t k.counts ∧ c.next = 0 ∧ c.id = CopyId.mk e k.serial ∧
          u.engine e = { k with queue := k.queue ++ [c], serial := k.serial + 1, counts := tset t ((tget 0 t k.counts + 1) % 2 ^ 32) k.counts } ∧
          u.hart s.cur = { s.me.setReg d p with
            pc := s.me.pc + 4, openBatch := s.me.openBatch ++ [c.id], promises := s.me.promises ++ [(c.id, p)] } ∧
          ∀ x, x ≠ s.cur → u.hart x = s.hart x)
      let empty : Instr → Prop := fun i => MayRun i s →
        (legal false = false → exec i s = .next (enterTrap s s.cur .illegal 4 s.me.pc (bitsAtPc s))) ∧
        (legal false = true → 32 ≤ k.queue.length → exec i s = .next (asleep .copyQueue s)) ∧
        (legal false = true → k.queue.length < 32 → ∃ u p, exec i s = .next u ∧ u.mem = s.mem ∧ u.harts = (done i [(d, p)] s).harts ∧
          u.engine e = { k with counts := tset t ((tget 0 t k.counts + 1) % 2 ^ 32) k.counts })
      issues (.cpgo d) .tile false ∧
      issues (.cpmx d) .landing true ∧
      (rows ≠ 0 → issues (.cpgath d a b) (.gather (s.me.reg a) rows) false ∧ issues (.cpscat d a b) (.scatter (s.me.reg a) rows) false) ∧
      (rows = 0 → empty (.cpgath d a b) ∧ empty (.cpscat d a b))) ∧
  (∀ (s : State) (d a b : Reg) (n : BitVec 5) (t : Nat), s.me.task = some t →
      let h := s.me
      let e := s.cur.engine
      let k := s.engine e
      let slots := (s.me.reg a).toNat
      let legal := CopyDesc.legal s.me.ox s.cur.cluster false
      let isOpen : Nat → Prop := fun n => ∃ c ∈ k.queue ++ k.running, (∃ q, c.kind = .stream q) ∧ c.stream = n
      let ranges : Instr → CopyKind → Prop := fun i kind => MayRun i s →
        (32 ≤ k.queue.length → exec i s = .next (asleep .copyQueue s)) ∧
        (k.queue.length < 32 → ∃ u c, exec i s = .next u ∧ u.mem = s.mem ∧ c.kind = kind ∧ c.owner = s.cur ∧
          u.engine e = { k with queue := k.queue ++ [c], serial := k.serial + 1 } ∧
          u.hart s.cur = { h with pc := h.pc + 4, openBatch := h.openBatch ++ [c.id] })
      (MayRun (.cpseal d) s →
        (16 ≤ h.sealedBatches.length → exec (.cpseal d) s = .next (asleep .sealed s)) ∧
        (h.sealedBatches.length < 16 → exec (.cpseal d) s = .next (s.setMe { h.setReg d h.nextBatch with
          pc := h.pc + 4
          openBatch := []
          sealedBatches := if h.openBatch = [] then h.sealedBatches else h.sealedBatches ++ [(h.nextBatch.toNat, h.openBatch)]
          nextBatch := h.nextBatch + 1 }))) ∧
      (MayRun (.cpwaitb n) s →
        (h.codelet = true → exec (.cpwaitb n) s = .next (enterTrap s s.cur .illegal 4 h.pc (bitsAtPc s))) ∧
        (h.codelet = false → n.toNat < h.sealedBatches.length → exec (.cpwaitb n) s = .next (asleep (.batches n.toNat) s)) ∧
        (h.codelet = false → h.sealedBatches.length ≤ n.toNat → exec (.cpwaitb n) s = .next (done (.cpwaitb n) [] s))) ∧
      ranges (.cpdisc a b) (.discard (h.reg a) (h.reg b)) ∧
      ranges (.cppre a b) (.prefetch (h.reg a) (h.reg b)) ∧
      (MayRun (.cpfree a) s → exec (.cpfree a) s = .next (done (.cpfree a) [] { s with freed := s.freed ++ [slots % 2 ^ 13] })) ∧
      (MayRun (.cpstr d a) s →
        ((legal = false ∨ slots = 0 ∨ 256 < slots) → exec (.cpstr d a) s = .next (enterTrap s s.cur .illegal 4 h.pc (bitsAtPc s))) ∧
        (legal = true → 0 < slots → slots ≤ 256 →
          ((∀ n, n < 16 → isOpen n) → exec (.cpstr d a) s = .next (asleep .streams s)) ∧
          (∀ m, m < 16 → ¬ isOpen m → (∀ n, n < m → isOpen n) →
            (32 ≤ k.queue.length → exec (.cpstr d a) s = .next (asleep .copyQueue s)) ∧
            (k.queue.length < 32 → ∃ u c, exec (.cpstr d a) s = .next u ∧
              c.kind = .stream slots ∧ c.desc = s.me.ox ∧ c.stream = m ∧ c.started = min slots (CopyDesc.ext s.me.ox 3) ∧ c.freed = 0 ∧
              (u.engine e).queue = k.queue ++ [c] ∧
              u.hart s.cur = { h.setReg d (BitVec.ofNat 64 (16 * e + m)) with pc := h.pc + 4, openBatch := h.openBatch ++ [c.id] })))))

/-! ## Matrix commands (R153 to R160) -/

/-- R153 to R160: a matrix instruction of the sequencer of a block, or of a thread whose MXBLK it holds, puts its command at the end of the block's queue,
sleeps while there is no room, and is illegal with a descriptor or program that the spec refuses; each is illegal on a thread whose MXBLK names no block that it holds.
`mxprog.off` queues its command whatever operations s[a] holds (log entry 23), and `mxmm` without `.def` takes no account of the slot bits of its word (log entry 52).
`mxwait` completes when the block's queue is empty, but for a step of a debugger that finds a sequencer of the block stopped (R371). -/
def Obligations.MatrixQueueing : Prop :=
  (∀ (s : State) (a b : Reg) (n : Fin 8) (acc : Fin 4) (off i32 : Bool), s.cur.isThread = true → s.me.mxblk.toNat ∉ s.me.held →
    ∀ i ∈ [Instr.mxprog i32 off a, .mxmm off n acc b, .mxclr acc b, .mxwait off], MayRun i s →
      exec i s = .next (enterTrap s s.cur .illegal 4 s.me.pc (bitsAtPc s))) ∧
  ∀ (s : State) (a b : Reg) (acc : Fin 4) (i32 : Bool) (blk t : Nat), s.me.task = some t →
    ((∃ cl n, s.cur = .matrix cl n ∧ blk = 8 * cl + n) ∨ (s.cur.isThread = true ∧ s.me.mxblk.toNat = blk ∧ blk ∈ s.me.held)) →
    let k := s.block blk
    let room := k.queue.length < 4 ∧ k.releases = []
    let cmd : MatrixOp → MatrixCmd := fun op => ⟨op, s.cur, t, false, false, [], [], none, none, none, [], [], []⟩
    let illegal : Instr → Prop := fun i => MayRun i s → exec i s = .next (enterTrap s s.cur .illegal 4 s.me.pc (bitsAtPc s))
    let queues : Instr → MatrixOp → Prop := fun i op => MayRun i s →
      (room → exec i s = .next (done i [] (s.setBlock blk { k with queue := k.queue ++ [cmd op] }))) ∧
      (¬ room → exec i s = .next (asleep .matrixQueue s))
    let desc : MatrixDesc := #v[s.me.oxr 0, s.me.oxr 1, s.me.oxr 2, s.me.oxr 3, s.me.oxr 4, s.me.oxr 5]
    let fits := desc.legal = true ∧ programFits (programAhead k) desc = true
    (microLegal (s.me.reg a) = true → queues (.mxprog i32 false a) (.program i32 (s.me.reg a))) ∧
    (microLegal (s.me.reg a) = false → illegal (.mxprog i32 false a)) ∧
    queues (.mxprog i32 true a) .unload ∧
    queues (.mxclr acc b) (.fill acc.val ((s.me.reg b).setWidth 32)) ∧
    (∀ n : Fin 8, fits → queues (.mxmm false n acc b) (.multiply acc.val desc)) ∧
    (∀ (n : Fin 8) (deferred : Bool), ¬ fits → illegal (.mxmm deferred n acc b)) ∧
    (∀ n : Fin 8, fits → MayRun (.mxmm true n acc b) s →
      let q := (s.me.reg b).toNat % 16
      let slot := vget ⟨none, 0, 0, false⟩ k.slots n.val
      (slot.cmd.isSome = true → exec (.mxmm true n acc b) s = .next (asleep (.deferredSlot n.val) s)) ∧
      (slot.cmd = none → slot.landed < q → exec (.mxmm true n acc b) s = .next (done (.mxmm true n acc b) [] (s.setBlock blk
        { k with slots := vset k.slots n.val { slot with cmd := some (cmd (.multiply acc.val desc)), need := q, released := false } }))) ∧
      (slot.cmd = none → q ≤ slot.landed → room → ∃ u, exec (.mxmm true n acc b) s = .next u ∧ u.harts = (done (.mxmm true n acc b) [] s).harts ∧
        (u.block blk).queue = k.queue ++ [cmd (.multiply acc.val desc)] ∧
        (vget ⟨none, 0, 0, false⟩ (u.block blk).slots n.val).landed = slot.landed - q ∧
        (vget ⟨none, 0, 0, false⟩ (u.block blk).slots n.val).cmd = none) ∧
      (slot.cmd = none → q ≤ slot.landed → ¬ room → exec (.mxmm true n acc b) s = .next (done (.mxmm true n acc b) [] (s.setBlock blk { k with
        slots := vset k.slots n.val ⟨some (cmd (.multiply acc.val desc)), q, slot.landed - q, true⟩
        releases := k.releases ++ [n.val] })))) ∧
    (∀ all, MayRun (.mxwait all) s →
      let idle := k.queue = [] ∧ k.releases = [] ∧ (all = true → ∀ n, n < 8 → (vget ⟨none, 0, 0, false⟩ k.slots n).cmd = none)
      (s.me.codelet = true → exec (.mxwait all) s = .next (enterTrap s s.cur .illegal 4 s.me.pc (bitsAtPc s))) ∧
      (s.me.codelet = false → idle → stepStopped s blk = false → exec (.mxwait all) s = .next (done (.mxwait all) [] s)) ∧
      (s.me.codelet = false → ¬ idle ∨ stepStopped s blk = true → exec (.mxwait all) s = .next (asleep (.matrixIdle all) s)))

/-! ## The epilogue engine (R136, R163 to R166) -/

/-- R164 to R166: `evacc` takes an accumulator row once no command on it is queued, with the two scales where it is a float one, and changes EMODE's row;
`evld` loads eight lines into a row register and `evst` stores a row's elements; each completes when its accesses do. The slot handle of `evld` is s[b] modulo 2^13 (log entry 11).
R56, R136 and R137: a cell word over row registers whose sources are rows, constants, lanes or zero and whose targets are distinct row registers or none
writes what its opcode computes on the elements of EMODE to its targets, raises its flags and changes nothing else; any other use is illegal.
With its prefix it is one instruction of 8 bytes.
What the spec leaves open in it is the model's choice (log entry 24). -/
def Obligations.Epilogue : Prop :=
  (∀ (s : State) (cl n : Nat) (acc : Fin 4) (v : Fin 16) (a b : Reg) (bs : Bool) (part : Part), s.cur = .epilogue cl n →
      let blk := 8 * cl + n
      let e := s.epilogue blk
      let row := (s.me.reg a).toNat % 128
      let x : Row := tget 0 row (vget [] (s.block blk).acc acc.val)
      let i : Instr := .evacc bs acc v a
      (MayRun i s → accumulatorBusy (s.block blk) acc.val = true → exec i s = .next (asleep (.accumulator acc.val) s)) ∧
      (MayRun i s → accumulatorBusy (s.block blk) acc.val = false →
        ((bs = false ∨ vget false (s.block blk).accInt acc.val = true) →
          exec i s = .next (done i [] (s.setEpilogue blk { e with v := e.v.set v x, row := row }))) ∧
        (bs = true → vget false (s.block blk).accInt acc.val = false → ∃ (y : Row) (f : Flags),
          exec i s = .next (doneWith i [] f (s.setEpilogue blk { e with v := e.v.set v y, row := row })) ∧
          ∀ j, j < 128 → bitsAt y.toNat (32 * j) 32 = (bandScaled (e.c.get 0) (e.c.get 1) row j (bitsAt x.toNat (32 * j) 32)).1)) ∧
      (∀ m t, MayRun (.evld v a b) s → linesRead s blk (s.me.reg a) 8 = .ok (m, t) →
        exec (.evld v a b) s = .next (done (.evld v a b) []
          (let u := t.setEpilogue blk { t.epilogue blk with v := (t.epilogue blk).v.set v (BitVec.ofNat 4096 m) }
           if b = 0 then u else { u with freed := u.freed ++ [(s.me.reg b).toNat % 2 ^ 13] }))) ∧
      (MayRun (.evst part v a b) s → canonical (s.me.reg a) = true →
        let first := match part with | .hi => 2048 | .whole | .lo => 0
        let len := match part with | .whole => 4096 | .lo | .hi => 2048
        let count := len / e.w
        let given := (s.me.reg b).toNat
        let stored := if b = 0 ∨ count ≤ given then count else given
        let zf := CopyDesc.zf s.me.ox
        let value := bitsAt (e.v.get v).toNat first len % 2 ^ (stored * e.w)
        ∀ t, (s.me.reg a).toNat % (e.w / 8) = 0 →
          bytesWrite s blk (s.me.reg a) (if zf then len / 8 else stored * e.w / 8) value 9 = .ok t →
          ∃ u, exec (.evst part v a b) s = .next u ∧ u.harts = (done (.evst part v a b) [] t).harts ∧ u.mem = t.mem ∧ u.mere = t.mere ∧
            u.blocks = t.blocks ∧ u.epilogue blk = { t.epilogue blk with stores := e.stores + 1 })) ∧
  (∀ (s : State) (i : Instr) (cl n : Nat) (shape : CellShape), s.cur = .epilogue cl n → MayRun i s → cellShape i = some shape →
      let e := s.epilogue (8 * cl + n)
      (rowOp e i .implied = none → exec i s = .next (enterTrap s s.cur .illegal 4 s.me.pc (bitsAtPc s))) ∧
      (∀ f x y r, laneOf i = some f → widthOk i e.w = true → unusedFieldOk i = true →
        e.source shape.a = some x → e.source? shape.b = some y →
        (∀ g ∈ [shape.t0, shape.t1], g = .none ∨ ∃ m, g = .reg m) → (shape.t0 = shape.t1 → shape.t0 = .none) →
        r = f (e.lanes .implied) x y 0 →
        let high := r.high.getD r.low
        let put : Tgt → Nat → Vector Row 16 → Vector Row 16 := fun g w vs => match g with
          | .reg m => vs.set m (BitVec.ofNat 4096 w)
          | _ => vs
        exec i s = .next (doneWith i [] r.flags (s.setEpilogue (8 * cl + n) { e with v := put shape.t1 high (put shape.t0 r.low e.v) }))) ∧
      (∀ sat t2 c rnd z k e' f, MayRun (.pfx sat t2 c rnd z k) s → nextWord s = .ok (some i) → rowOp e i ⟨sat, t2, c, rnd, z, k⟩ = some (e', f) →
        exec (.pfx sat t2 c rnd z k) s = .next ((s.setEpilogue (8 * cl + n) e').setMe { s.me with fstat := s.me.fstat ||| f, pc := s.me.pc + 8 })) ∧
      (∀ sat t2 c rnd z k, MayRun (.pfx sat t2 c rnd z k) s → (nextWord s = .ok none ∨ (nextWord s = .ok (some i) ∧ rowOp e i ⟨sat, t2, c, rnd, z, k⟩ = none)) →
        exec (.pfx sat t2 c rnd z k) s = .next (enterTrap s s.cur .illegal 4 s.me.pc (bitsAtPc s))))

/-! ## Blocks and escapes (R132, R133, R167 to R170) -/

/-- R167: `fork` of a declared block that no other thread holds, with its table in a local memory, starts the three sequencers at the table's entries with the pointer in s14
and leaves the block held; a block of another thread, or one whose sequencers still run, makes it sleep, and one that the task did not declare is a protection trap.
An entry's bit 0 is taken as 0 (log entry 45), and EVAL of that trap is s[b] (log entry 52).
What the spec leaves open in it is the model's choice (log entry 38). -/
def Obligations.Forking : Prop :=
  ∀ (s : State) (d a b : Reg) (c sl addr m : Nat) (t : Task), s.cur = .thread c sl → MayRun (.fork d a b) s → s.myTask = some t →
    let n := (s.me.reg b).toNat % 8
    let blk := 8 * (c / 64) + n
    let word : Nat → Word := fun k => BitVec.ofNat 64 (valueAt (s.release s.cur .cluster).backing (addr + 8 * k) 8)
    let quiet : AgentId → Prop := fun x => (s.hart x).status = .empty ∨ (s.hart x).status = .halted ∨ (s.hart x).status = .stopped
    let roles : List AgentId := [.matrix (blk / 8) (blk % 8), .epilogue (blk / 8) (blk % 8), .copySeq (blk / 8) (blk % 8)]
    (t.hasBlock (c / 64) n = false → Handles s → exec (.fork d a b) s = .next (trapped .protection 4 s.me.pc (s.me.reg b) s)) ∧
    (t.hasBlock (c / 64) n = true → (∀ h, (s.block blk).holder = some h → h = (c, sl)) → (∀ x ∈ roles, quiet x) →
      (∀ k, k < 4 → resolve s s.cur s.me.task (s.me.reg a + BitVec.ofNat 64 (8 * k)) 8 .read false = .ok (.localMem m (addr + 8 * k))) →
      ∃ u, exec (.fork d a b) s = .next u ∧
        unmarked (u.hart s.cur) = unmarked { s.me.setReg d (BitVec.ofNat 64 blk) with
          pc := s.me.pc + 4, mxblk := BitVec.ofNat 64 blk, held := if blk ∈ s.me.held then s.me.held else s.me.held ++ [blk] } ∧
        (u.block blk).holder = some (c, sl) ∧ (u.block blk).forked = true ∧ (u.block blk).stopped = false ∧ (u.block blk).discarded = false ∧
        ∀ k x, (x, k) ∈ roles.zipIdx →
          unmarked (u.hart x) = { Hart.fresh with
            status := if word k = 0 then .halted else .ready
            task := s.me.task
            pc := evenPc (word k)
            lastIssue := (s.hart x).lastIssue
            x := Hart.fresh.x.set 14 (word 3) }) ∧
    (t.hasBlock (c / 64) n = true → ((∃ h, (s.block blk).holder = some h ∧ h ≠ (c, sl)) ∨ ∃ x ∈ roles, ¬ quiet x) → exec (.fork d a b) s = .next (asleep (.forkBlock blk) s))

/-- R168 and R170: `rdz` is illegal in codelet mode; of a block that the thread does not hold it writes all ones; of one whose sequencers, copies and queue are done it acquires at cluster scope,
writes the flags of the three sequencers and the marks DISC and STOP, and gives the block up, a later `xfence` of the thread waiting for their posted writes (R185); and it sleeps before that,
or where a debugger steps it and finds a sequencer stopped (R371). `escr` is illegal outside an escape thread; in one that holds no block
it returns the payload s3 to s6 to its ticket, 8 cycles on at the earliest, and leaves the slot empty, no other agent changing but by the marks of Trackway. -/
def Obligations.RendezvousAndReturn : Prop :=
  ∀ (s : State) (d a : Reg) (c sl : Nat), s.cur = .thread c sl →
    let blk := (s.me.reg a).toNat
    let roles : List AgentId := [.matrix (blk / 8) (blk % 8), .epilogue (blk / 8) (blk % 8), .copySeq (blk / 8) (blk % 8)]
    let i : Instr := .rdz d a
    (MayRun i s →
      (s.me.codelet = true → exec i s = .next (enterTrap s s.cur .illegal 4 s.me.pc (bitsAtPc s))) ∧
      (s.me.codelet = false → blk ∉ s.me.held → exec i s = .next (done i [(d, BitVec.allOnes 64)] s)) ∧
      (s.me.codelet = false → blk ∈ s.me.held → blockQuiet s blk = false ∨ stepStopped s blk = true → exec i s = .next (asleep (.rendezvous blk) s)) ∧
      (s.me.codelet = false → blk ∈ s.me.held → blockQuiet s blk = true → stepStopped s blk = false → ∃ v : Word,
        (∀ k, k < 64 → v.getLsbD k =
          if k < 5 then roles.any fun x => (s.hart x).fstat.getLsbD k
          else if k = 5 then (s.block blk).discarded
          else if k = 6 then (s.block blk).stopped else false) ∧
        ∃ u ps, exec i s = .next u ∧
          (ps.length = s.posted.length ∧ ∀ p q, (p, q) ∈ s.posted.zip ps →
            { q with acquired := p.acquired } = p ∧ ∀ x, x ∈ q.acquired ↔ x ∈ p.acquired ∨ (x = s.cur ∧ p.lost = false ∧ ∃ w ∈ roles, p.agent = some w)) ∧
          OnlyMemory (done i [(d, v)] (({ s with posted := ps }.setBlock blk { s.block blk with holder := none, forked := false }).setMe
            { s.me with held := s.me.held.filter fun n => n ≠ blk })) u)) ∧
    (MayRun .escr s →
      ((∀ p q x y, s.me.origin ≠ .escape p q x y) → exec .escr s = .next (enterTrap s s.cur .illegal 4 s.me.pc (bitsAtPc s))) ∧
      (∀ cl pos entry ticket, s.me.origin = .escape cl pos entry ticket → s.me.held = [] → ∃ u, exec .escr s = .next u ∧
        u.hart s.cur = { Hart.fresh with lastIssue := s.me.lastIssue } ∧ (∀ x, x ≠ s.cur → unmarked (u.hart x) = unmarked (s.hart x)) ∧
        (u.tile cl pos).tickets = (s.tile cl pos).tickets.map fun k =>
          if k.entry = entry ∧ k.ticket = ticket ∧ k.reply = none then
            { k with reply := some (s.me.reg 6 ++ s.me.reg 5 ++ s.me.reg 4 ++ s.me.reg 3, s.clock + 8, (s.tile cl pos).nextReply) }
          else k))

/-! ## Configuration (R171 to R177, R245) -/

/-- R172 to R177: what the configuration instructions of a region sequencer answer, start and wait for.
R172, R242 to R245: what a load that succeeds leaves in its slot. Every tile that a record names has the record's context there and every other tile of the stitched group an empty one;
the other slots stand. The region of the sequencer has the image's escape entries, stages and port records, BASE of a record bound to an argument slot being that argument, read in the records' order after them, plus its offset (R288),
and the other regions of the group have no tables in the slot.
What the spec leaves open in it is the model's choice (log entries 34 and 35). -/
def Obligations.RegionControl : Prop :=
  (∀ (s : State) (d a b : Reg) (cl : Nat) (off : Bool), s.cur = .region cl →
      let r := s.region cl
      let va := s.me.reg a
      (MayRun (.cfgld d a b) s → canonical va = true → va.toNat % 64 ≠ 0 → slotRuns s (stitchedGroup s cl) ((s.me.reg b).toNat % 8) = false →
        exec (.cfgld d a b) s = .next (enterTrap s s.cur .misalignment 4 s.me.pc va)) ∧
      (∀ t, MayRun (.cfgld d a b) s → loadImage s cl va ((s.me.reg b).toNat % 8) = .loaded t →
        exec (.cfgld d a b) s = .next (done (.cfgld d a b) [(d, 0)] t)) ∧
      (∀ w t, MayRun (.cfgld d a b) s → loadImage s cl va ((s.me.reg b).toNat % 8) = .failed w t →
        exec (.cfgld d a b) s = .next (done (.cfgld d a b) [(d, w)] t)) ∧
      (MayRun (.cfgrun a b) s → r.run = none → r.lead = none → r.node = none → (∀ x ∈ stitchedGroup s cl, x = cl) →
        ∃ u run, exec (.cfgrun a b) s = .next u ∧ (u.region cl).run = some run ∧ run.slot = va.toNat % 8 ∧ s.clock + 3 ≤ run.start ∧
          run.n = Vector.ofFn (fun k => (s.me.reg b).toNat / 2 ^ (16 * k.val) % 2 ^ 16) ∧ run.node = none ∧
          (u.hart s.cur).status = .sleeping .run s.clock ∧ (u.hart s.cur).x = s.me.x ∧ (u.hart s.cur).pc = s.me.pc) ∧
      (MayRun (.cfgrun a b) s → (r.run.isSome = true ∨ r.lead.isSome = true ∨ r.node.isSome = true) → exec (.cfgrun a b) s = .next (asleep .run s)) ∧
      (MayRun (.cfgpatch d a b) s →
        let pos := va.toNat % 2 ^ 8
        let idx := va.toNat / 2 ^ 8 % 2 ^ 4
        let slot := va.toNat / 2 ^ 12 % 2 ^ 3
        let col := va.toNat / 2 ^ 15 % 2 ^ 2
        let at_ := columnCluster cl col
        (at_ ∉ stitchedGroup s cl →
          exec (.cfgpatch d a b) s = .next (done (.cfgpatch d a b) [(d, loadStatus 10 pos idx slot col)] s)) ∧
        (at_ ∈ stitchedGroup s cl →
        (patchStatus s at_ pos idx slot (s.me.reg b) ≠ 0 →
          exec (.cfgpatch d a b) s = .next (done (.cfgpatch d a b) [(d, patchStatus s at_ pos idx slot (s.me.reg b))] s)) ∧
        (patchStatus s at_ pos idx slot (s.me.reg b) = 0 → slotRuns s [at_] slot = false →
          ∃ u, exec (.cfgpatch d a b) s = .next u ∧ u.harts = (done (.cfgpatch d a b) [(d, 0)] s).harts ∧
            vget 0 (vget TileContext.fresh (u.tile at_ pos).contexts slot).slots idx = s.me.reg b) ∧
        (patchStatus s at_ pos idx slot (s.me.reg b) = 0 → slotRuns s [at_] slot = true →
          vget 0 (vget TileContext.fresh (s.tile at_ pos).contexts slot).slots idx ≠ 0 → (s.tile at_ pos).draining = none →
          ∃ u x, exec (.cfgpatch d a b) s = .next u ∧ u.harts = (asleep .patch s).harts ∧ (u.tile at_ pos).draining = some x ∧
            x.idx = idx ∧ x.ctx = slot ∧ x.word = s.me.reg b ∧ x.issuer = s.cur ∧ x.dest = d))) ∧
      (MayRun (.cfgseam off a) s →
        let mask : BitVec 32 := va.setWidth 32
        (onEdge cl mask = true → exec (.cfgseam off a) s = .next (enterTrap s s.cur .illegal 4 s.me.pc (bitsAtPc s))) ∧
        (onEdge cl mask = false → (∀ k, mask.getLsbD k = true → r.stitched.getLsbD k = !off) →
          exec (.cfgseam off a) s = .next (done (.cfgseam off a) [] (s.setRegion cl { r with seamAsk := none }))) ∧
        (onEdge cl mask = false → (∃ k, mask.getLsbD k = true ∧ r.stitched.getLsbD k = off) →
          ∃ ask, exec (.cfgseam off a) s = .next (asleep .seam (s.setRegion cl { r with seamAsk := some ask })))) ∧
      (∀ sc, MayRun (.cfgsync sc) s → s.service.host ≠ .recovery → (∀ p ∈ s.posted, p.agent ≠ some s.cur) → ∃ u, ∃ f : Nat → Flags, exec (.cfgsync sc) s = .next u ∧
        (u.hart s.cur).pc = s.me.pc + 4 ∧ (u.hart s.cur).x = s.me.x ∧
        (∀ x ∈ stitchedGroup s cl, (u.hart (.region x)).fstat = (s.hart (.region x)).fstat ||| f x ∧
          ∀ k, k < 5 → (f x).getLsbD k = s.tiles.any fun p => p.1.1 = x && p.2.flags.getLsbD k) ∧
        ∀ p ∈ u.tiles, p.1.1 ∈ stitchedGroup s cl → p.2.flags = 0) ∧
      (∀ n t, MayRun (.cfgest a) s → s.me.task = some n → s.task n = some t →
        exec (.cfgest a) s = .next (done (.cfgest a) [] (s.setTask n { t with estimate := min va.toNat (2 ^ 32 - 1), estimateAt := s.clock }))) ∧
      (MayRun (.cfgjoin d a) s →
        (s.node va.toNat = none → exec (.cfgjoin d a) s = .next (done (.cfgjoin d a) [(d, BitVec.allOnes 64)] s)) ∧
        (∀ x, s.node va.toNat = some x → x.spawner = some s.cur → some x.task = s.me.task →
          (∀ w, x.phase = .ended w → exec (.cfgjoin d a) s = .next (done (.cfgjoin d a) [(d, w)] s)) ∧
          (x.phase = .waiting ∨ x.phase = .running → exec (.cfgjoin d a) s = .next (asleep (.join va.toNat) s)))) ∧
      (∀ n t desc s', MayRun (.cfgspawn d a) s → s.me.task = some n → s.task n = some t →
        readNode s s.cur s.me.task va [] 4 = .ok (desc, s') →
        (nodeLegal t desc = false → ∃ u x, exec (.cfgspawn d a) s = .next u ∧ u.harts = (done (.cfgspawn d a) [(d, BitVec.ofNat 64 s.nextNode)] s').harts ∧
          u.node s'.nextNode = some x ∧ x.phase = .ended 1) ∧
        (nodeLegal t desc = true →
        (nodeRoom s desc = false → exec (.cfgspawn d a) s = .next (asleep .spawn s)) ∧
        (nodeRoom s desc = true → ∃ u x, exec (.cfgspawn d a) s = .next u ∧ u.harts = (done (.cfgspawn d a) [(d, BitVec.ofNat 64 s.nextNode)] s').harts ∧
          u.node s'.nextNode = some x ∧ x.desc = desc ∧ x.task = n ∧ x.spawner = some s.cur ∧ x.phase = .waiting)))) ∧
  (∀ (s s1 s2 s3 s4 t : State) (va : Word) (cl slot : Nat) (h tables : List Word) (recs ports : List (List Word)), slot < 8 →
      let reg := AgentId.region cl
      let task := (s.hart reg).task
      let args := ((task.bind s.task).map Task.args).getD 0
      let nt := (nth 0 h 0).toNat % 2 ^ 16
      let np := (nth 0 h 0).toNat / 2 ^ 16 % 2 ^ 16
      let ns := (nth 0 h 0).toNat / 2 ^ 32 % 2 ^ 4
      let context : TileContext → Nat → Tile → Prop := fun c n x => vget TileContext.fresh x.contexts n = c
      let place : TileContext → Nat × Nat := fun c => (columnCluster cl c.col, c.pos)
      let record : List Word → Vector Word 8 := fun r => Vector.ofFn fun k => nth 0 r k.val
      readLines s reg task va 1 = .ok (h, s1) →
      readLines s1 reg task (va + 64) 3 = .ok (tables, s2) →
      readRecords s2 reg task (va + 256) 3 nt = .ok (recs, s3) →
      readRecords s3 reg task (va + BitVec.ofNat 64 (256 + 192 * nt)) 1 np = .ok (ports, s4) →
      loadImage s cl va slot = .loaded t →
      (∀ r ∈ recs, context (contextOfRecord r) slot (t.tile (place (contextOfRecord r)).1 (place (contextOfRecord r)).2)) ∧
      (∀ x ∈ stitchedGroup s cl, ∀ pos, (∀ r ∈ recs, place (contextOfRecord r) ≠ (x, pos)) → context TileContext.fresh slot (t.tile x pos)) ∧
      (∀ x pos n, n ≠ slot → context (vget TileContext.fresh (s.tile x pos).contexts n) n (t.tile x pos)) ∧
      (∀ x ∈ stitchedGroup s cl, x ≠ cl → vget none (t.region x).loaded slot = none) ∧
      ∃ l, vget none (t.region cl).loaded slot = some l ∧
        (∀ n : Fin 4, l.escapes.get n = ⟨nth 0 tables (2 * n.val), (nth 0 tables (2 * n.val + 1)).toNat % 2 ^ 5,
          (nth 0 tables (2 * n.val + 1)).getLsbD 8, (nth 0 tables (2 * n.val + 1)).getLsbD 9⟩) ∧
        l.stages = (tables.drop 8).take ns ∧ l.tiles = recs.map (fun r => place (contextOfRecord r)) ∧
        l.ports.map Prod.fst = ports.map (fun r => recordPort cl (record r)) ∧
        ∃ u : Nat → State, u 0 = s4 ∧ ∀ n (bound : n < ports.length) (held : n < l.ports.length), let r := record ports[n]
          (PortRec.arg r = false → u (n + 1) = u n ∧ (l.ports[n]).2 = r) ∧
          (PortRec.arg r = true → ∃ v, agentRead (u n) reg task (args + BitVec.ofNat 64 (8 * PortRec.argslot r)) 8 = .ok (v, u (n + 1)) ∧
            (l.ports[n]).2 = r.set 0 (BitVec.ofNat 64 v + BitVec.ofInt 64 (PortRec.offset r))))

/-! ## Cell tiles (R100 to R135) -/

/-- R102 to R105, R110 and R112: an instruction that computes elements, whose token sources hold landed data tokens and whose targets can accept,
fires: it consumes its tokens and sends what its opcode computes on the elements to tgt0, tgt1 and tgt2, due after its latency,
with the tag of its first token and LAST if any token has it. Without a landed token in one of its sources nothing happens.
R113, R116, R117, R122, R127 and R129: what the opcodes compute in each active element, as numbers modulo 2^w or in the element format,
and what an inactive element gets.
It covers every opcode of `laneOf`: `vmov`, `vadd`, `vsub`, `vmul`, `vmulh`, `vfma`, `vmin`, `vmax`, `vabs`, `vneg`, `vand`, `vor`, `vxor`, `vshl`, `vshr`, `vsra`, `vcmpeq`, `vcmplt`, `vcmple`,
`vsel`, `vcvt`, `vpack`, `vunpk`, `vscale`, `vrcp`, `vrsq`, `vsqrt`, `vexp2`, `vlog2`, `vred`, `vscan`, `vshuf`, `vbcast` and `vidx`.
R113, R116, R117, R121, R122, R124, R125 and R128 in the float flavour: every finite result is the exact one rounded once under the rounding code with the element's hash, and a NaN operand gives the canonical NaN.
`vcvt` and `vpack` convert as R31 says, `vscale` multiplies by the element's E3M5 byte of B or by a power of two, `vscan` adds in FP32 under RNE in ascending order,
the special values of `vrcp`, `vrsq`, `vsqrt`, `vexp2` and `vlog2` are those of R125's table, and their other results are rounded once, but at FP32 to one of the two values that bracket the exact one;
2 to an integer and the logarithm of a power of two are so rounded exactly, and any other power and logarithm from a number between its two neighbours of that kind.
What the spec leaves open in it is the model's choice (log entries 37 and 52). -/
def Obligations.LaneFirings : Prop :=
  (∀ (s : State) (cl pos idx : Nat) (i : Instr) (k : TileContext) (p : Prefix) (c : CellShape) (g : Lanes → Nat → Nat → Nat → LaneOut),
      s.cur = .tile cl pos idx → Placed s cl pos idx i k p c → laneOf i = some g →
      let t := s.tile cl pos
      let xs := lettered c p
      let v := fun n x => sourceValue s k t idx (n, x)
      let r := g (tileLanes s cl k t p) (v 0 c.a) ((c.b.map (v 1)).getD 0) (if c.c then v 2 p.srcC else 0)
      let ks := consumedTokens s t idx (onlyTokens xs)
      let token : Nat → Token := fun n =>
        ⟨BitVec.ofNat 256 n, false, ks.any Token.last, match ks with
          | x :: _ => x.tag
          | [] => BitVec.ofNat 16 (vget 0 t.counts idx)⟩
      let sends := [(c.t0, token r.low), (c.t1, token (r.high.getD r.low)), (p.tgt2, token r.low)]
      (configSource s t idx xs = none → (∀ x ∈ onlyTokens xs, (landedToken s t idx x.1 x.2).isSome = true) → (∀ x ∈ sends, canAccept t x.1 = true) →
        ∃ u, exec i s = .next u ∧ Fired s u cl pos idx true (onlyTokens xs) sends (flightsOf s cl pos idx c.latency sends) r.flags ∧
          (u.tile cl pos).contexts = t.contexts ∧ (u.tile cl pos).tickets = t.tickets) ∧
      (configSource s t idx xs = none → (∃ x ∈ onlyTokens xs, landedToken s t idx x.1 x.2 = none) → exec i s = .next s) ∧
      (configSource s t idx xs = none → (∃ x ∈ sends, canAccept t x.1 = false) → exec i s = .next s)) ∧
  (∀ (c : Lanes) (a b d e : Nat), (c.w = 8 ∨ c.w = 16 ∨ c.w = 32) → (c.bits = 256 ∨ c.bits = 4096) → e < c.bits / c.w →
      let w := c.w
      let elem : Nat → Nat := fun v => v / 2 ^ (w * e) % 2 ^ w
      let x := elem a
      let y := elem b
      let z := elem d
      let signed : Nat → Int := fun v => (BitVec.ofNat w v).toInt
      let mod : Int → Nat := fun v => (v % (2 ^ w : Int)).toNat
      let clip : Int → Int → Int → Int := fun lo hi v => max lo (min hi v)
      let half : Int := 2 ^ (w - 1)
      let gives : (Lanes → Nat → Nat → Nat → LaneOut) → Nat → Prop := fun f n => elem (f c a b d).low = n ∧ (f c a b d).high = none
      let fmt := floatFmt (if w = 8 then (if c.f8 then .e5m2 else .e4m3) else if w = 16 then (if c.f16 then .f16 else .bf16) else .f32)
      let r : Rounding := ⟨c.rnd, c.hash e⟩
      let ones := 2 ^ w - 1
      (c.active e = true →
        (c.sat = false → ∀ y' : Ty, y' = .i ∨ y' = .n →
          gives (laneAdd y') ((x + y) % 2 ^ w) ∧ gives (laneSub y') (mod (x - y)) ∧ gives (laneMul y') (x * y % 2 ^ w) ∧
          gives (laneFma y') ((x * y + z) % 2 ^ w) ∧ gives (laneNeg y') (mod (-x)) ∧ gives (laneAbs .i) (mod (signed x).natAbs)) ∧
        (c.sat = true →
          gives (laneAdd .i) (mod (clip (-half) (half - 1) (signed x + signed y))) ∧ gives (laneAdd .n) (min ones (x + y)) ∧
          gives (laneSub .i) (mod (clip (-half) (half - 1) (signed x - signed y))) ∧ gives (laneSub .n) (x - y) ∧
          gives (laneMul .i) (mod (clip (-half) (half - 1) (signed x * signed y))) ∧ gives (laneMul .n) (min ones (x * y)) ∧
          gives (laneFma .n) (min ones (x * y + z)) ∧ gives (laneNeg .i) (mod (clip (-half) (half - 1) (-signed x)))) ∧
        gives (laneMulh .i) (mod (signed x * signed y / 2 ^ w)) ∧ gives (laneMulh .n) (x * y / 2 ^ w) ∧
        gives (laneChoose false .n) (min x y) ∧ gives (laneChoose true .n) (max x y) ∧
        gives (laneChoose false .i) (if signed y < signed x then y else x) ∧ gives (laneChoose true .i) (if signed x < signed y then y else x) ∧
        gives laneAnd (x &&& y) ∧ gives laneOr (x ||| y) ∧ gives laneXor (x ^^^ y) ∧
        gives laneShl (x * 2 ^ y % 2 ^ w) ∧ gives laneShr (x / 2 ^ y) ∧ gives laneSra (mod (signed x / 2 ^ y)) ∧
        gives (laneCmpeq .n) (if x = y then ones else 0) ∧ gives (laneCmplt .n) (if x < y then ones else 0) ∧ gives (laneCmple .n) (if x ≤ y then ones else 0) ∧
        gives (laneCmplt .i) (if signed x < signed y then ones else 0) ∧ gives (laneCmple .i) (if signed x ≤ signed y then ones else 0) ∧
        gives laneSel (if z ≠ 0 then x else y) ∧
        gives laneShuf (if y < c.bits / w then a / 2 ^ (w * y) % 2 ^ w else 0) ∧
        gives laneBcast (if b % 2 ^ w < c.bits / w then a / 2 ^ (w * (b % 2 ^ w)) % 2 ^ w else 0) ∧
        gives laneIdx ((a % 2 ^ w + e * (b % 2 ^ w)) % 2 ^ w) ∧
        gives (laneAdd .f) ((fmt.add r c.sat x y).1 % 2 ^ w) ∧ gives (laneSub .f) ((fmt.sub r c.sat x y).1 % 2 ^ w) ∧
        gives (laneMul .f) ((fmt.mul r c.sat x y).1 % 2 ^ w) ∧ gives (laneFma .f) ((fmt.fma r c.sat x y z).1 % 2 ^ w) ∧
        gives (laneChoose false .f) (fmt.min x y % 2 ^ w) ∧ gives (laneChoose true .f) (fmt.max x y % 2 ^ w) ∧
        gives laneRcp ((fmt.rcp r c.sat x).1 % 2 ^ w) ∧ gives laneSqrt ((fmt.sqrt r c.sat x).1 % 2 ^ w)) ∧
      (c.active e = false →
        ∀ f ∈ [laneAdd .i, laneSub .n, laneMul .f, laneMulh .i, laneFma .f, laneChoose true .i, laneAbs .i, laneNeg .f, laneAnd, laneShl, laneCmplt .n, laneSel,
          laneCvt .f, laneScale .f, laneRcp, laneScan .n, laneShuf, laneBcast, laneIdx], gives f (if c.z then 0 else x)) ∧
      (c.sat = false → (laneRed .n c a b d).low = ((List.range (c.bits / w)).map fun j => if c.active j then a / 2 ^ (w * j) % 2 ^ w else 0).sum % 2 ^ w) ∧
      (w ≠ 8 → c.sat = false → ∀ j, j < 2 * (c.bits / w) →
        (laneNarrow .n c a b d).low / 2 ^ (w / 2 * j) % 2 ^ (w / 2) =
          (if j < c.bits / w then a / 2 ^ (w * j) else b / 2 ^ (w * (j - c.bits / w))) % 2 ^ (w / 2)) ∧
      (w ≠ 8 → elem (laneWiden .n c a b d).low = a / 2 ^ (w / 2 * e) % 2 ^ (w / 2) ∧
        (laneWiden .n c a b d).high.map elem = some (a / 2 ^ (w / 2 * (c.bits / w + e)) % 2 ^ (w / 2)))) ∧
  (∀ (c : Lanes) (a b d e : Nat), (c.w = 8 ∨ c.w = 16 ∨ c.w = 32) → (c.bits = 256 ∨ c.bits = 4096) → e < c.bits / c.w → c.active e = true →
      let w := c.w
      let n := c.bits / w
      let at_ : Nat → Nat → Nat := fun v j => v / 2 ^ (w * j) % 2 ^ w
      let bytes : FloatType := if c.f8 then .e5m2 else .e4m3
      let halves : FloatType := if c.f16 then .f16 else .bf16
      let t : FloatType := if w = 8 then bytes else if w = 16 then halves else .f32
      let other : FloatType := if w = 8 then (if c.f8 then .e4m3 else .e5m2) else if c.f16 then .bf16 else .f16
      let f := floatFmt t
      let r : Rounding := ⟨c.rnd, c.hash e⟩
      let x := at_ a e
      let p := f.unpack x
      let q := f.unpack (at_ b e)
      let is : (Lanes → Nat → Nat → Nat → LaneOut) → (Nat × Flags → Prop) → Prop := fun l P =>
        let o := l c a b d
        ∃ v, P v ∧ at_ o.low e = v.1 ∧ o.high = none ∧ o.flags ||| v.2 = o.flags
      let code : Nat → Nat × Flags → Prop := fun k v => v = (k, noFlags)
      let nan := code (canonicalNaN t)
      let invalid : Nat × Flags → Prop := fun v => v = (canonicalNaN t, flagNV)
      let infinite := Infinite t false
      let truth : (Lanes → Nat → Nat → Nat → LaneOut) → Prop → Prop := fun l h => (h → is l (code (2 ^ w - 1))) ∧ (¬ h → is l (code 0))
      let equal : Prop := p ≠ .nan ∧ q ≠ .nan ∧ ¬ Below p q ∧ ¬ Below q p
      let special : (Lanes → Nat → Nat → Nat → LaneOut) → Bool → (Rounding → Nat × Flags → Prop) → Prop := fun l neg P =>
        ∃ r' : Rounding, (if w = 32 then r' = ⟨.rtz, 0⟩ ∨ r' = ⟨if neg then .rdn else .rup, 0⟩ else r' = r) ∧ is l (P r')
      let least := leastExp f
      -- signs and comparisons
      (p = .nan → is (laneAbs .f) nan ∧ is (laneNeg .f) nan) ∧
      (p ≠ .nan → is (laneAbs .f) (code (x % 2 ^ (w - 1))) ∧ is (laneNeg .f) (code ((x + 2 ^ (w - 1)) % 2 ^ w))) ∧
      truth (laneCmpeq .f) equal ∧ truth (laneCmplt .f) (Below p q) ∧ truth (laneCmple .f) (Below p q ∨ equal) ∧
      -- arithmetic
      ((p = .nan ∨ q = .nan) → is (laneAdd .f) nan ∧ is (laneSub .f) nan ∧ is (laneMul .f) nan ∧ is (laneFma .f) nan) ∧
      (∀ s k g s' k' g', p = .fin s k g → q = .fin s' k' g' →
        is (laneAdd .f) (RoundedSum f r c.sat s k g s' k' g') ∧ is (laneSub .f) (RoundedSum f r c.sat s k g (!s') k' g') ∧
        is (laneMul .f) (RoundedRatio f r c.sat (s != s') (k * k') 1 (g + g')) ∧
        ∀ s'' k'' g'', f.unpack (at_ d e) = .fin s'' k'' g'' → is (laneFma .f) (RoundedSum f r c.sat (s != s') (k * k') (g + g') s'' k'' g'')) ∧
      -- conversions
      (let i := (BitVec.ofNat w x).toInt
       is (laneCvt .i) (Converted t r c.sat (.fin (decide (i < 0)) i.natAbs 0)) ∧ is (laneCvt .n) (Converted t r c.sat (.fin false x 0))) ∧
      (∃ i g, Clamped ⟨w, true⟩ r p (i, g) ∧ is (laneCvt .f) fun v => v = ((i % (2 ^ w : Int)).toNat, g)) ∧
      (w ≠ 32 → is (laneCvt .r) (Converted other r c.sat p)) ∧
      (w ≠ 8 → let small := if w = 32 then halves else bytes
        (∀ j, j < 2 * n → ∃ v, Converted small ⟨c.rnd, c.hash j⟩ c.sat (f.unpack (if j < n then at_ a j else at_ b (j - n))) v ∧
          (laneNarrow .f c a b d).low / 2 ^ (w / 2 * j) % 2 ^ (w / 2) = v.1) ∧
        (let wide : Nat → Nat → Prop := fun j v => Converted t ⟨.rne, 0⟩ false ((floatFmt small).unpack (a / 2 ^ (w / 2 * j) % 2 ^ (w / 2))) (v, noFlags)
         wide e (at_ (laneWiden .f c a b d).low e) ∧ ∃ v, (laneWiden .f c a b d).high = some v ∧ wide (n + e) (at_ v e))) ∧
      -- scaling
      (let m := 256 / w
       let scale := b / 2 ^ (256 * (e / m) + 8 * (e % m / 8)) % 2 ^ 8
       let k := scale % 32 + if scale < 32 then 0 else 32
       let g : Int := if scale < 32 then -7 else (scale / 32 : Nat) - 8
       ((p = .nan ∨ scale = 0xFF) → is (laneScale .f) nan) ∧
       (scale ≠ 0xFF → (∀ s, p = .inf s → is (laneScale .f) (if k = 0 then invalid else infinite s)) ∧
         ∀ s k' g', p = .fin s k' g' → is (laneScale .f) (RoundedRatio f r c.sat s (k' * k) 1 (g' + g)))) ∧
      (let k := (BitVec.ofNat 8 b).toInt
       (p = .nan → is (laneScale .r) nan) ∧ (∀ s, p = .inf s → is (laneScale .r) (infinite s)) ∧
       ∀ s k' g, p = .fin s k' g → is (laneScale .r) (RoundedRatio f r c.sat s k' 1 (g + k))) ∧
      -- special functions
      (p = .nan → is laneRcp nan ∧ is laneRsq nan ∧ is laneSqrt nan ∧ is laneExp2 nan ∧ is laneLog2 nan) ∧
      (∀ s, p = .inf s → is laneRcp (code (f.withSign s 0)) ∧ is laneRsq (if s then invalid else code 0) ∧ is laneSqrt (if s then invalid else infinite false) ∧
        is laneExp2 (if s then code 0 else infinite false) ∧ is laneLog2 (if s then invalid else infinite false)) ∧
      (∀ s g, p = .fin s 0 g → is laneRcp (infinite s) ∧ is laneRsq (infinite s) ∧ is laneSqrt (code (f.withSign s 0)) ∧ is laneLog2 (infinite true)) ∧
      (∀ s k g, p = .fin s k g → k ≠ 0 → special laneRcp s fun r' => Delivered f r' c.sat s (against least 1 k (-g))) ∧
      (∀ k g, p = .fin true k g → k ≠ 0 → is laneRsq invalid ∧ is laneSqrt invalid ∧ is laneLog2 invalid) ∧
      (∀ k g, p = .fin false k g → k ≠ 0 →
        special laneRsq false (fun r' => Delivered f r' c.sat false (againstRoot least 1 k (-g))) ∧
        is laneSqrt (Delivered f r c.sat false (againstRoot least k 1 g)) ∧
        (∀ j : Nat, k = 2 ^ j → let z := g + j
          special laneLog2 (decide (z < 0)) fun r' => RoundedRatio f r' c.sat (decide (z < 0)) z.natAbs 1 0) ∧
        (∀ j : Nat, 2 ^ j < k → k < 2 ^ (j + 1) → let z := g + j
          special laneLog2 (decide (z < 0)) fun r' v => ∃ cmp,
            Between (against least (min z.natAbs (z + 1).natAbs) 1 0) (against least (max z.natAbs (z + 1).natAbs) 1 0) cmp ∧ Delivered f r' c.sat (decide (z < 0)) cmp v)) ∧
      (∀ s k g (z : Int), p = .fin s k g → let u := unitsOf s k g (min g 0)
        let unit := unitsOf false 1 0 (min g 0)
        (u = z * unit → special laneExp2 false fun r' => Delivered f r' c.sat false (against least 1 1 z)) ∧
        (z * unit < u → u < (z + 1) * unit → special laneExp2 false fun r' v => ∃ cmp,
          Between (against least 1 1 z) (against least 1 1 (z + 1)) cmp ∧ Delivered f r' c.sat false cmp v)) ∧
      -- running sums
      (let term : Nat → Nat := fun j => if c.active j then at_ a j else 0
       let signed : Nat → Int := fun j => (BitVec.ofNat w (term j)).toInt
       let clipped : Int → Int → (Nat → Int) → Int → Prop := fun lo hi h v =>
         ∃ g : Nat → Int, g 0 = h 0 ∧ (∀ j, g (j + 1) = max lo (min hi (g j + h (j + 1)))) ∧ v = g e
       (c.sat = false → ∀ y : Ty, y = .i ∨ y = .n → is (laneScan y) (code (((List.range (e + 1)).map term).sum % 2 ^ w))) ∧
       (c.sat = true → (∃ v, clipped (-2 ^ (w - 1)) (2 ^ (w - 1) - 1) signed v ∧ at_ (laneScan .i c a b d).low e = (v % (2 ^ w : Int)).toNat) ∧
         ∃ v, clipped 0 (2 ^ w - 1) (fun j => (term j : Int)) v ∧ at_ (laneScan .n c a b d).low e = v.toNat) ∧
       ∃ h g : Nat → Nat, (∀ j, Converted .f32 ⟨.rne, 0⟩ false (if c.active j then f.unpack (at_ a j) else .fin false 0 0) (h j, noFlags)) ∧
         g 0 = h 0 ∧ (∀ j, g (j + 1) = ((floatFmt .f32).add ⟨.rne, 0⟩ false (g j) (h (j + 1))).1) ∧
         is (laneScan .f) (Converted t r c.sat ((floatFmt .f32).unpack (g e)))))

/-- R126, R129 and R130: where the routing opcodes send A, or B: `vsteer` to tgt1 or tgt0 by B, `vgate` and `vdrop` to all targets or, at an end, an empty end token,
`vmerge` one of its two sources, by C, by age, or by tag; `vcfgt.r` sends A as a config token; and `vacc` adds A to its register, and sends the sum at an end.
What the spec leaves open in it is the model's choice (log entries 37 and 46). -/
def Obligations.RoutingFirings : Prop :=
  ∀ (s : State) (cl pos idx : Nat) (i : Instr) (k : TileContext) (p : Prefix) (c : CellShape),
    s.cur = .tile cl pos idx → Placed s cl pos idx i k p c →
    let t := s.tile cl pos
    let xs := lettered c p
    let v := fun n x => sourceValue s k t idx (n, x)
    let landed := fun (n : Nat) (x : Src) => isTokenSource x = true → (landedToken s t idx n x).isSome = true
    let sourceB := c.b.getD .zero
    let token : List (Nat × Src) → Nat × Src → Token := fun takes x => resultToken t idx (consumedTokens s t idx (onlyTokens takes)) (v x.1 x.2)
    let targets := [c.t0, c.t1, p.tgt2]
    let fires : List (Nat × Src) → List (Tgt × Token) → List Flight → Flags → Prop := fun takes sends more f =>
      (∀ x ∈ sends, canAccept t x.1 = true) → ∃ u, exec i s = .next u ∧
        Fired s u cl pos idx true (onlyTokens takes) sends (flightsOf s cl pos idx c.latency sends ++ more) f
    let a := token xs (0, c.a)
    let b := v 1 sourceB % 2 ^ k.w
    let ends : Prop := ∃ x, landedToken s t idx 0 c.a = some x ∧ x.token.last = true
    let atEnd : List (Tgt × Token) := targets.map fun g => (g, ⟨0, false, true, a.tag⟩)
    configSource s t idx xs = none →
    ((∀ x ∈ xs, landed x.1 x.2) →
      (∀ t1 t0 b' a', i = .vsteer t1 t0 b' a' → fires xs [(if b ≠ 0 then t1 else t0, a)] [] 0) ∧
      (∀ t1 t0 b' a', i = .vgate t1 t0 b' a' →
        (b ≠ 0 → fires xs (targets.map fun g => (g, a)) [] 0) ∧ (b = 0 → ends → fires xs atEnd [] 0) ∧ (b = 0 → ¬ ends → fires xs [] [] 0)) ∧
      (∀ t1 t0 a', i = .vdrop t1 t0 a' → (ends → fires xs atEnd [] 0) ∧ (¬ ends → fires xs [] [] 0)) ∧
      (∀ t1 t0 a', i = .vcfgt .r t1 t0 a' → fires xs (targets.map fun g => (g, { a with config := true, last := false })) [] 0)) ∧
    (∀ t1 t0 b' a', i = .vmerge .r t1 t0 b' a' → landed 2 p.srcC →
      let x : Nat × Src := if v 2 p.srcC % 2 ^ k.w ≠ 0 then (1, sourceB) else (0, c.a)
      landed x.1 x.2 → fires [x, (2, p.srcC)] (targets.map fun g => (g, token [x, (2, p.srcC)] x)) [] 0) ∧
    (∀ t1 t0 b' a' x, i = .vmerge .n t1 t0 b' a' → (x = (0, c.a) ∨ x = (1, sourceB)) →
      let y : Nat × Src := if x = (0, c.a) then (1, sourceB) else (0, c.a)
      ∀ m, landedToken s t idx x.1 x.2 = some m →
        (∀ m', landedToken s t idx y.1 y.2 = some m' → m.at_ < m'.at_ ∨ (x.1 = 0 ∧ m.at_ = m'.at_)) →
        fires [x] (targets.map fun g => (g, token [x] x)) [] 0) ∧
    (∀ t1 t0 b' a' x m, i = .vmerge .i t1 t0 b' a' → (x = (0, c.a) ∨ x = (1, sourceB)) → landedToken s t idx x.1 x.2 = some m →
      let q := vget 0 t.mergeTag idx
      m.token.tag = q → (x.1 = 1 → ∀ m', landedToken s t idx 0 c.a = some m' → m'.token.tag ≠ q) →
      (∀ g ∈ targets, canAccept t g = true) → ∃ u, exec i s = .next u ∧
        Fired s u cl pos idx true (onlyTokens [x]) (targets.map fun g => (g, token [x] x))
          (flightsOf s cl pos idx 1 (targets.map fun g => (g, token [x] x))) 0 ∧
        vget 0 (u.tile cl pos).mergeTag idx = q + 1) ∧
    (∀ y t1 t0 n a' m, i = .vacc y t1 t0 (.v n) a' → landedToken s t idx 0 c.a = some m →
      let r := laneAcc y (tileLanes s cl k t p) (t.v.get n).toNat m.token.payload.toNat
      let write : Payload → List Flight := fun w => [⟨s.clock + 2, .reg n.val, ⟨w, false, false, 0⟩, idx⟩]
      (m.token.last = false → fires [(0, c.a)] [] (write (BitVec.ofNat 256 r.1)) r.2) ∧
      (m.token.last = true → fires [(0, c.a)] (targets.map fun g => (g, ⟨BitVec.ofNat 256 r.1, false, true, m.token.tag⟩)) (write 0) r.2))

/-- R118, R119 and R131 to R133: a config token at the head of a source is forwarded unchanged to every slot and link target after the opcode's latency; `vcfgt.n` takes its constants from one,
where its mask has bit 4j, and forwards it to tgt1; and `esc` parks a data token under its next free ticket, waits without one, and forwards a config token
once it has no ticket outstanding, due after the latency of `esc` (log entry 46).
What the spec leaves open in it is the model's choice (log entries 26 and 37). -/
def Obligations.ConfigAndEscapeFirings : Prop :=
  ∀ (s : State) (cl pos idx : Nat) (i : Instr) (k : TileContext) (p : Prefix) (c : CellShape), Placed s cl pos idx i k p c →
    let t := s.tile cl pos
    let forwards : Instr → Nat × Src → Token → List Tgt → State → Prop := fun op x m ts u =>
      let sends := (ts.filter fun g => match g with
        | .slotA _ | .slotB _ | .slotC _ | .link _ => true
        | .reg _ | .done | .none => false).map fun g => (g, m)
      exec op s = .next u ∧ Fired s u cl pos idx false [x] sends (flightsOf s cl pos idx c.latency sends) 0
    let accepted : List Tgt → Prop := fun ts => ∀ g ∈ ts, canAccept t g = true
    (∀ n x m, configSource s t idx (lettered c p) = some (n, x, m) → accepted [c.t0, c.t1, p.tgt2] →
      (∀ t1 t0 a, i ≠ .vcfgt .n t1 t0 a) → (∀ e t1 t0 a, i ≠ .esc e t1 t0 a) →
      ∃ u, forwards (.configFiring cl pos idx) (n, x) m [c.t0, c.t1, p.tgt2] u ∧ (u.tile cl pos).contexts = t.contexts) ∧
    (s.cur = .tile cl pos idx → ∀ t1 t0 a m, i = .vcfgt .n t1 t0 a → landedToken s t idx 0 a = some m →
      let fence : Prop := m.token = ⟨0, true, true, 0xFFFF⟩
      (m.token.config = false → accepted [t0, p.tgt2] → ∃ u, exec i s = .next u ∧
        Fired s u cl pos idx true [(0, a)] [(t0, m.token), (p.tgt2, m.token)] (flightsOf s cl pos idx 1 [(t0, m.token), (p.tgt2, m.token)]) 0) ∧
      (m.token.config = true → fence → accepted [t1] → ∃ u, forwards i (0, a) m.token [t1] u ∧ (u.tile cl pos).contexts = t.contexts) ∧
      (m.token.config = true → ¬ fence → accepted [t1] → constsQuiet k t = true → ∃ u k', forwards i (0, a) m.token [t1] u ∧
        contextOf u cl pos = some k' ∧
        ∀ j, k'.consts.get j = if p.k = 0 ∨ (k.masks.get p.k).getLsbD (4 * j.val) = true then BitVec.ofNat 32 (m.token.payload.toNat / 2 ^ (32 * j.val)) else k.consts.get j)) ∧
    (s.cur = .tile cl pos idx → ∀ (e : Fin 4) t1 t0 a m task, i = .esc e t1 t0 a → regionTask s cl = some task → landedToken s t idx 0 a = some m →
      let pool := (escapeEntry s cl e).pool
      let held : Nat → Prop := fun n => ∃ q ∈ t.tickets, q.entry = e.val ∧ q.ticket = n
      let first := vget 0 k.nextTicket e.val
      (m.token.config = false → ∀ n, n < pool → ¬ held ((first + n) % pool) → (∀ j, j < n → held ((first + j) % pool)) →
        let ticket := (first + n) % pool
        ∃ u, exec i s = .next u ∧ Fired s u cl pos idx true [(0, a)] [] [] 0 ∧
          (u.tile cl pos).tickets = t.tickets ++ [⟨idx, e.val, ticket, t.nextOrder, m.token, none⟩] ∧
          (u.segment cl).parked = (s.segment cl).parked ++ [⟨task, cl, pos, idx, e.val, ticket, m.token.payload, m.token.tag⟩]) ∧
      (m.token.config = false → (∀ n, n < pool → held ((first + n) % pool)) → exec i s = .next s) ∧
      (m.token.config = true → (∀ q ∈ t.tickets, q.entry ≠ e.val) → accepted [t0, t1, p.tgt2] → ∃ u, forwards i (0, a) m.token [t0, t1, p.tgt2] u) ∧
      (m.token.config = true → (∃ q ∈ t.tickets, q.entry = e.val) → exec i s = .next s))

/-! ## Tokens, credits and escapes on their way (R101, R103, R105, R133, R268, R269) -/

/-- R101, R103 and R105: a due result with no earlier one to the same place is delivered to its slot, register or input FIFO, or to the port, stage or block
that its link leads to, and one that is not due stays; a due credit counts, unless the cluster's task is held (R366, R370); and a reply whose turn it is becomes a data token of latency 1 for every target of its `esc`,
with the tag and LAST of the parked token, and frees its ticket, but not into a slot that the tile has consumed in this cycle (R104): a held result keeps the cycle in which it was due (log entry 46), and a reply may come in the cycle of a firing (log entry 52).
R268 and R269: a parked escape goes to the candidate core with the most slots, where a thread starts at the handler of its entry with the payload in s3 to s6,
the tag in s7, where it came from in s8, ARGS in s30 and its stack in s2; with no slot it waits in the queue of its class; and a free slot takes the head of a queue. Bit 0 of the handler's address is taken as 0 (log entry 45).
What the spec leaves open in it is the model's choice (log entries 13 and 37). -/
def Obligations.TokensAndEscapes : Prop :=
  (∀ (s : State) (cl pos n idx ticket : Nat),
      let t := s.tile cl pos
      (∀ f, nth? t.flights n = some f → s.clock < f.due → exec (.tokenDelivery cl pos n) s = .next s) ∧
      (∀ f, nth? t.flights n = some f → f.due ≤ s.clock → (∀ g ∈ t.flights.take n, g.dest ≠ f.dest) →
        ∃ u, exec (.tokenDelivery cl pos n) s = .next u ∧ u.harts = s.harts ∧ (u.tile cl pos).flights = dropNth t.flights n ∧
          (∀ m, f.dest = .slotA m → (u.tile cl pos).slotA = vset t.slotA m (some ⟨f.token, f.due⟩)) ∧
          (∀ m, f.dest = .slotB m → (u.tile cl pos).slotB = vset t.slotB m (some ⟨f.token, f.due⟩)) ∧
          (∀ m, f.dest = .slotC m → (u.tile cl pos).slotC = vset t.slotC m (some ⟨f.token, f.due⟩)) ∧
          (∀ m, f.dest = .reg m → (u.tile cl pos).v = vset t.v m f.token.payload) ∧
          (∀ l, f.dest = .link l →
            (∀ c p l' hop, linkEnd s cl pos l = .fifo c p l' hop →
              vget [] (u.tile c p).fifo l'.code = vget [] (s.tile c p).fifo l'.code ++ [⟨f.token, f.due⟩]) ∧
            (∀ p, linkEnd s cl pos l = .port p → (u.port p).input = (s.port p).input ++ [⟨f.token, f.due⟩]) ∧
            (∀ blk p, linkEnd s cl pos l = .block blk p → p < 8 → headProduct s blk = none →
              vget [] (u.block blk).ports p = vget [] (s.block blk).ports p ++ [⟨f.token, f.due⟩]) ∧
            (∀ lead k g, linkEnd s cl pos l = .stageIn lead k → stageOf s lead k = some g →
              ∃ g', stageOf u lead k = some g' ∧ g'.input = g.input ++ [⟨f.token, f.due⟩]) ∧
            (∀ lead k r g, linkEnd s cl pos l = .stageExit lead k r → r < 8 → stageOf s lead k = some g →
              ∃ g', stageOf u lead k = some g' ∧ vget [] g'.exits r = vget [] g.exits r ++ [⟨f.token, f.due⟩]))) ∧
      (∀ l due, nth? t.creditsDue n = some (l, due) →
        (s.clock < due → exec (.creditReturn cl pos n) s = .next s) ∧
        (clusterHeld s cl = true → exec (.creditReturn cl pos n) s = .next s) ∧
        (due ≤ s.clock → clusterHeld s cl = false → exec (.creditReturn cl pos n) s = .next (s.setTile cl pos
          { t with creditsDue := dropNth t.creditsDue n, credits := vset t.credits l (vget 0 t.credits l + 1) }))) ∧
      (∀ k c v due back ts, t.tickets.find? (fun k => k.idx = idx && k.ticket = ticket) = some k → contextOf s cl pos = some c →
        k.reply = some (v, due, back) → replyTargets c idx = some ts → due ≤ s.clock → tileActive s cl = true →
        replyTurn t (escapeEntry s cl (Fin.ofNat 4 k.entry)).ordered k back = true →
        (∀ g ∈ ts, canAccept t g = true ∧ ∀ m, g = .reg m → regPending t m = false) →
        (t.lastFired = some s.clock → (∃ g ∈ ts, justConsumed t g = true) → exec (.escapeReplyDelivery cl pos idx ticket) s = .next s) ∧
        ((t.lastFired = some s.clock → ∀ g ∈ ts, justConsumed t g = false) → ∃ u, exec (.escapeReplyDelivery cl pos idx ticket) s = .next u ∧ u.harts = s.harts ∧ u.mem = s.mem ∧
          (u.tile cl pos).tickets = t.tickets.filter (fun m => m ≠ k) ∧
          (u.tile cl pos).flights = t.flights ++ flightsOf s cl pos idx 1 (ts.map fun g => (g, ⟨v, false, k.token.last, k.token.tag⟩))))) ∧
  (∀ (s : State) (cl n core slot : Nat),
      let g := s.segment cl
      let starts : Escape → Nat → Nat → State → Prop := fun e c sl u => ∀ t l, s.task e.task = some t → loadedOf s e.cl = some l →
        let h := u.hart (.thread c sl)
        h.status = .ready ∧ h.task = some e.task ∧ h.pc = evenPc (vget ⟨0, 0, false, false⟩ l.escapes e.entry).handler ∧ h.tvec = t.tvec ∧
        h.origin = .escape e.cl e.pos e.entry e.ticket ∧
        h.reg 6 ++ h.reg 5 ++ h.reg 4 ++ h.reg 3 = e.payload ∧ h.reg 7 = e.tag.setWidth 64 ∧
        h.reg 8 = BitVec.ofNat 64 (e.ticket + 2 ^ 4 * e.entry + 2 ^ 8 * e.pos + 2 ^ 16 * e.cl) ∧ h.reg 30 = t.args ∧
        h.reg 2 = BitVec.ofNat 64 (0xFF00000040000000 + c * 0x10000 + 0xC400 + 1024 * sl)
      (∀ e, nth? g.parked n = some e → taskRuns s e.task = true →
        (∀ c sl r, bestCore s e (candidates s e) = some c → dispatchSlots s e.task c = sl :: r →
          ∃ u, exec (.escapeDispatch cl n c) s = .next u ∧ starts e c sl u ∧ u.mem = s.mem ∧
            u.segment cl = { g with parked := dropNth g.parked n } ∧ ∀ x, x ≠ .thread c sl → u.hart x = s.hart x) ∧
        (bestCore s e (candidates s e) = none →
          (isClassU s e.task = true → g.reserved.length < 64 → exec (.escapeDispatch cl n core) s =
            .next (s.setSegment cl { g with parked := dropNth g.parked n, reserved := g.reserved ++ [e] })) ∧
          (isClassU s e.task = false → g.escapes.length < 256 → exec (.escapeDispatch cl n core) s =
            .next (s.setSegment cl { g with parked := dropNth g.parked n, escapes := g.escapes ++ [e] })) ∧
          (isClassU s e.task = false → 256 ≤ g.escapes.length → exec (.escapeDispatch cl n core) s = .next s))) ∧
      (slot < 16 → ∀ e r, headTakes s e core slot = true →
        (g.reserved = e :: r → ∃ u, exec (.escapeQueueStart cl core slot) s = .next u ∧ starts e core slot u ∧ u.segment cl = { g with reserved := r }) ∧
        (g.reserved = [] → g.escapes = e :: r →
          ∃ u, exec (.escapeQueueStart cl core slot) s = .next u ∧ starts e core slot u ∧ u.segment cl = { g with escapes := r })))

/-! ## Stages, seams and patches (R174, R175, R252 to R255) -/

/-- R253 to R255: the splitter deals the head of its input, or a fence that it owes, to the replica whose turn it is, the merger takes from the exits in turn,
and a dwell mark of 256 cycles starts a change of the number of active replicas, which the merger ends when every one has sent its fence.
R174 and R175: a sluice port that both sides ask to stitch is stitched on both with 4 credits each, one that both ask to unstitch is once its links are empty;
and a drained node takes its new word, which completes the `cfgpatch`. Nothing of this happens while the task of a cluster concerned is held (R366, R370).
What the spec leaves open in it is the model's choice (log entries 26 and 37). -/
def Obligations.StagesAndSeams : Prop :=
  (∀ (s : State) (cl k : Nat) (g : Stage), stageOf s cl k = some g → tileActive s cl = true → g.creditsDue = [] → (g.output = [] ∨ g.drainCredits = 0) →
      let gave : State → Nat → Nat → TileContext → Token → Prop := fun u c p x m =>
        vget [] (u.tile c p).fifo x.entryLink.code = vget [] (s.tile c p).fifo x.entryLink.code ++ [⟨m, s.clock + 2⟩]
      (∀ c p x, replicaTile s cl k g.splitPos TileContext.entry = some (c, p, x) → g.fencesLeft = 0 → g.splitPos < 8 → vget 0 g.entryCredits g.splitPos ≠ 0 →
        ∀ m r, g.input = m :: r → m.at_ ≤ s.clock →
        ∃ u g', exec (.splitterDeal cl k) s = .next u ∧ gave u c p x m.token ∧ stageOf u cl k = some g' ∧ g'.input = r ∧
          g'.splitPos = (g.splitPos + 1) % dealCount g ∧ vget 0 g'.entryCredits g.splitPos = vget 0 g.entryCredits g.splitPos - 1 ∧ g'.output = g.output) ∧
      (∀ c p x, g.fencesLeft ≠ 0 → replicaTile s cl k (g.active - g.fencesLeft) TileContext.entry = some (c, p, x) →
        vget 0 g.entryCredits (g.active - g.fencesLeft) ≠ 0 →
        ∃ u g', exec (.splitterDeal cl k) s = .next u ∧ gave u c p x ⟨0, true, true, 0xFFFF⟩ ∧ stageOf u cl k = some g' ∧
          g'.fencesLeft = g.fencesLeft - 1 ∧ g'.splitPos = 0 ∧ g'.input = g.input) ∧
      (∀ m, exitHead s g g.mergePos = some m → g.mergePos < 8 → (isFence m = false ∨ g.changing = none) →
        (g.output.length < 64 → g.drainCredits = 0 → ∃ u g', exec (.mergerTake cl k) s = .next u ∧ stageOf u cl k = some g' ∧
          g'.output = g.output ++ [⟨m, s.clock⟩] ∧ g'.mergePos = (g.mergePos + 1) % g.active ∧
          vget [] g'.exits g.mergePos = (vget [] g.exits g.mergePos).drop 1 ∧ g'.input = g.input) ∧
        (g.output = [] → g.drainCredits ≠ 0 → ∃ u, exec (.mergerTake cl k) s = .next u ∧
          let d := StageEntry.drain g.entry
          let c := columnCluster cl d.1
          vget [] (u.tile c d.2.1).fifo d.2.2.code = vget [] (s.tile c d.2.1).fifo d.2.2.code ++ [⟨m, s.clock + 2⟩]) ∧
        (64 ≤ g.output.length → exec (.mergerTake cl k) s = .next s)) ∧
      (g.changing = none →
        (g.active < StageEntry.placed g.entry → (∃ n, g.highSince = some n ∧ n + 256 ≤ s.clock) → ∃ u g', exec (.stageHigh cl k) s = .next u ∧
          stageOf u cl k = some g' ∧ g'.changing = some (g.active + 1) ∧ g'.fencesLeft = g.active ∧ g'.active = g.active ∧ g'.input = g.input ∧
          ∀ l p c, loadedOf s cl = some l → p ∈ l.tiles → contextOf s p.1 p.2 = some c → c.inStage = true → c.stage = k → c.replica = g.active →
            (u.tile p.1 p.2).slotA = Vector.replicate 16 none ∧ (u.tile p.1 p.2).v = (s.tile p.1 p.2).v) ∧
        (1 < g.active → (∃ n, g.lowSince = some n ∧ n + 256 ≤ s.clock) → ∃ u g', exec (.stageLow cl k) s = .next u ∧
          stageOf u cl k = some g' ∧ g'.changing = some (g.active - 1) ∧ g'.fencesLeft = g.active ∧ g'.active = g.active ∧ g'.input = g.input)) ∧
      (∀ n, g.changing = some n → (∀ r, r < g.active → ∃ m, exitHead s g r = some m ∧ isFence m = true) →
        ∃ u g', exec (.stageFenceMerge cl k) s = .next u ∧ stageOf u cl k = some g' ∧ g'.active = n ∧ g'.changing = none ∧ g'.mergePos = 0 ∧
          ∀ r, r < g.active → r < 8 → vget [] g'.exits r = (vget [] g.exits r).drop 1) ∧
      (∀ c p l r, linkSource s c p l = .stageEntry cl k r → stageOf (returnCredit s c p l) cl k = some { g with creditsDue := [(r, s.clock + 1)] })) ∧
  (∀ (s : State) (cl cl' port : Nat), cl < 32 → port < 32 →
      let west : Bool := port < 16
      let row := port % 16
      let l : Link := if west then .west else .east
      let l' : Link := if west then .east else .west
      let port' := if west then 16 + row else row
      let pos := if west then 16 * row else 16 * row + 15
      let pos' := if west then 16 * row + 15 else 16 * row
      let flipped : State → Bool → Prop := fun u on =>
        (u.region cl).stitched.getLsbD port = on ∧ (u.region cl').stitched.getLsbD port' = on ∧
        (∀ n, n < 32 → n ≠ port → (u.region cl).stitched.getLsbD n = (s.region cl).stitched.getLsbD n) ∧
        vget 0 (u.tile cl pos).credits l.code = (if on then 4 else 0) ∧ vget 0 (u.tile cl' pos').credits l'.code = if on then 4 else 0
      acrossSluice cl l = some cl' →
      let runs : Nat → Prop := fun c => clusterHeld s c = false
      (¬ runs cl ∨ ¬ runs cl' → exec (.seamStitch cl port) s = .next s) ∧
      (runs cl → runs cl' → seamAsks s cl port = some false → seamAsks s cl' port' = some false → ∃ u, exec (.seamStitch cl port) s = .next u ∧ flipped u true) ∧
      (runs cl → runs cl' → seamAsks s cl port = some true → seamAsks s cl' port' = some true → linkEmpty s cl pos l = true → linkEmpty s cl' pos' l' = true →
        ∃ u, exec (.seamStitch cl port) s = .next u ∧ flipped u false) ∧
      (seamAsks s cl port = none → exec (.seamStitch cl port) s = .next s) ∧
      (∀ c p d, (s.tile c p).draining = some d → ¬ runs c → exec (.nodeReplace c p d.idx) s = .next s) ∧
      (∀ c p d, (s.tile c p).draining = some d → runs c → d.ctx < 8 → d.idx < 16 → (s.hart d.issuer).chain = none → drained (s.tile c p) d = true →
        ∃ u, exec (.nodeReplace c p d.idx) s = .next u ∧ (u.tile c p).draining = none ∧
          vget 0 (vget TileContext.fresh (u.tile c p).contexts d.ctx).slots d.idx = d.word ∧
          u.hart d.issuer = { (s.hart d.issuer).setReg d.dest 0 with status := .ready, wokenAt := some s.clock, pc := (s.hart d.issuer).pc + 4 }))

/-! ## Runs, nodes and memory ports (R173, R246 to R251, R261, R289 to R291, R297) -/

/-- R246, R247, R249, R250 and R261: a converged run ends and completes its `cfgrun`, or ends its node with status 0 or LEFT; a waiting leaf whose region is free starts its run,
and an inner node its children; a run without progress for 65,536 cycles ends with cause 4, its region frozen.
What the spec leaves open in it is the model's choice (log entry 36). -/
def Obligations.RunsAndNodes : Prop :=
  ∀ (s : State) (cl node : Nat),
    let r := s.region cl
    let a := AgentId.region cl
    let left := tokensLeft s cl
    (∀ run, r.run = some run → r.frozen = false → r.failed = none → regionRuns s cl = true →
      (converged s cl = true →
        (run.node = none → (s.hart a).chain = none → ∃ u, exec (.converge cl) s = .next u ∧ (u.region cl).run = none ∧ (u.region cl).lastConverged = some s.clock ∧
          u.hart a = { s.hart a with status := .ready, wokenAt := some s.clock, pc := (s.hart a).pc + 4 }) ∧
        (∀ m x, run.node = some m → s.node m = some x → x.parent = none → ∃ u x', exec (.converge cl) s = .next u ∧ (u.region cl).run = none ∧
          u.node m = some x' ∧ x'.phase = .ended (if left then 0x100 else 0))) ∧
      (converged s cl = false → exec (.converge cl) s = .next s ∧
        (run.node = none → (contextPorts s cl).all (fun p => (s.port p).fault.isNone && !portWaits s p) = true →
          (∀ p ∈ s.tiles, p.1.1 ∈ run.group → p.2.tickets = []) →
          (s.clock < r.progress + 65536 → exec (.stallDetect cl) s = .next s) ∧
          (r.progress + 65536 ≤ s.clock → ∃ u, exec (.stallDetect cl) s = .next u ∧ (u.region cl).frozen = true ∧
            (u.region cl).failed = some (4, left) ∧ ((s.hart a).status ≠ .stopped → (u.hart a).status = .halted) ∧ (u.hart a).x = (s.hart a).x)))) ∧
    (∀ x, s.node node = some x → taskRuns s x.task = true → x.phase = .waiting →
      (nodeKind x.desc = 3 → nodeCluster x.desc = cl → r.run = none → r.lead = none → r.node = some node → othersIdle s cl = true → nodeLoaded x.desc = true →
        (nodeGated x.desc = true → r.stepCredits = 0 → exec (.nodeStart node) s = .next s) ∧
        ((nodeGated x.desc = false ∨ r.stepCredits ≠ 0) → ∃ u run, exec (.nodeStart node) s = .next u ∧ u.node node = some { x with phase := .running } ∧
          (u.region cl).run = some run ∧ run.slot = nodeSlot x.desc ∧ run.node = some node ∧ s.clock + 3 ≤ run.start ∧ (nodeGated x.desc = true → (u.region cl).stepCredits = r.stepCredits - 1) ∧
          run.n = Vector.ofFn fun k => (nodeCount x.desc).toNat / 2 ^ (16 * k.val) % 2 ^ 16)) ∧
      (nodeKind x.desc ≠ 3 → (nodeKind x.desc = 1 → nodeRuns x.desc ≠ 0) → exec (.nodeStart node) s = .next (s.setNode node { x with phase := .running })))

/-- R289 to R291 and R297: a streaming port makes its accesses in loop order, a read filling its buffer and a write taking a token, its buffer leaves for the tile
token by token against credits, and a frozen port or copy makes its failing access again when a wake token comes.
R140, R145, R150 and R152: a copy starts while fewer than four run; its next element is read, converted and written, a clipped one only credited;
a complete one raises its flags in its agent's FSTAT and leaves its batch; and a notice starts the next tile of its stream or is marked in STRSTAT.
What the spec leaves open in it is the model's choice (log entries 11 and 26). -/
def Obligations.PortsAndCopies : Prop :=
  (∀ (s : State) (cl n : Nat), cl < 32 → n < 32 →
      let p := 32 * cl + n
      let x := s.port p
      let task := regionTask s cl
      (∀ r, x.record = some r → x.fault = none → portActive s cl = true → PortRec.cls r ≠ 1 → x.next < portTotal r →
        let va := streamAddress r x.next
        (PortRec.wr r = false → twoTokens s cl task va = false → x.owed.length < 64 →
          ∀ v t, genRead s cl task va 32 false = .done v t → ∃ u, exec (.portAccess cl n) s = .next u ∧ u.mem = t.mem ∧
            u.port p = { x with
              next := x.next + 1
              buffer := x.buffer ++ [⟨BitVec.ofNat 256 v, false, x.next + 1 = portTotal r, BitVec.ofNat 16 x.next⟩]
              owed := x.owed ++ [1] }) ∧
        (PortRec.wr r = false → twoTokens s cl task va = false → x.owed.length < 64 →
          ∀ cause fcode, genRead s cl task va 32 false = .fault cause fcode → ∃ u f, exec (.portAccess cl n) s = .next u ∧
            (u.port p).fault = some f ∧ f.va = va ∧ f.cause = cause ∧ f.state = 1 ∧ (u.port p).next = x.next ∧ u.mem = s.mem) ∧
        (PortRec.wr r = true → PortRec.aop r = 0 → twoTokens s cl task va = false → x.first = none → ∀ k rest, x.input = k :: rest → k.at_ ≤ s.clock →
          genWriteCheck s cl task va 32 = .done 0 s → ∃ u, exec (.portAccess cl n) s = .next u ∧
            u.mem = (genWrite s cl task va 32 k.token.payload.toNat).mem ∧ u.mere = (genWrite s cl task va 32 k.token.payload.toNat).mere ∧
            u.port p = { x with next := x.next + 1, input := rest, first := none }) ∧
        (PortRec.wr r = true → PortRec.aop r = 0 → selfDescribing s cl task va = true → ∀ k rest, x.input = k :: rest → k.at_ ≤ s.clock →
          (x.first = none → ∃ u, exec (.portAccess cl n) s = .next u ∧ u.mem = s.mem ∧ u.port p = { x with input := rest, first := some k.token }) ∧
          (∀ a, x.first = some a → genWriteCheck s cl task va 64 = .done 0 s →
            let b := packBlock (PortRec.sdcode r) a.payload.toNat k.token.payload.toNat
            ∃ u, exec (.portAccess cl n) s = .next u ∧ u.mem = (genWrite s cl task va 64 b).mem ∧ u.mere = (genWrite s cl task va 64 b).mere ∧
              u.port p = { x with next := x.next + 1, input := rest, first := none }))) ∧
      (∀ k rest, x.buffer = k :: rest → portActive s cl = true → x.credits + (x.creditsDue.filter fun d => d ≤ s.clock).length ≠ 0 →
        let pos := if n < 16 then n else 240 + n % 16
        let l : Link := if n < 16 then .north else .south
        ∃ u, exec (.portResponse cl n) s = .next u ∧ (u.port p).buffer = rest ∧ u.mem = s.mem ∧
          vget [] (u.tile cl pos).fifo l.code = vget [] (s.tile cl pos).fifo l.code ++ [⟨k, s.clock + 1⟩]) ∧
      (clusterHeld s cl = true → exec (.wakeToken (.port p)) s = .next s) ∧
      (∀ f, x.fault = some f → f.state = 1 → (f.cause = 1 ∨ f.cause = 4) → clusterHeld s cl = false → ∃ u, exec (.wakeToken (.port p)) s = .next u ∧
        u.port p = { x with fault := some { f with state := 2 } }) ∧
      (x.fault = none → exec (.wakeToken (.port p)) s = .next s) ∧
      (∀ e m c f, nth? (s.engine e).running m = some c → c.record = some f → f.state = 1 → f.cause = 1 → taskRuns s c.task = true →
        let y := copyStepEarly s e { c with record := some { f with state := 2 } }
        exec (.wakeToken (.copy e m)) s = .next (putCopy y.1 e m y.2))) ∧
  (∀ (s : State) (e n : Nat),
      let k := s.engine e
      let cl := engineCluster e
      (∀ c r, k.queue = c :: r → taskRuns s c.task = true →
        (k.running.length < 4 → exec (.copyStart e) s = .next (s.setEngine e { k with queue := r, running := k.running ++ [c] })) ∧
        (4 ≤ k.running.length → exec (.copyStart e) s = .next s)) ∧
      (∀ c, nth? k.running n = some c → c.record = none → taskRuns s c.task = true → c.early = [] → c.held = [] →
        (c.kind = .tile → c.next < c.total →
          (∀ va len w v t, c.reads = [(va, len)] → CopyDesc.pairs c.desc = false → CopyDesc.esz c.desc ≠ 4 → c.clipped c.place.1 = false → c.strays cl = false → c.targets cl = [w] →
            genRead s cl (some c.task) va len false = .done v t →
            genWriteCheck t cl (some c.task) w (CopyDesc.dstBytes c.desc) = .done 0 t →
            let y := copyConvert c.desc c.next c.number v
            ∃ u c', exec (.copyElement e n) s = .next u ∧ u.mem = (genWrite t cl (some c.task) w (CopyDesc.dstBytes c.desc) y.1).mem ∧
              nth? (u.engine e).running n = some c' ∧ c'.next = c.next + 1 ∧ c'.flags = c.flags ||| y.2 ∧ c'.held = [] ∧ c'.desc = c.desc) ∧
          (c.allClipped = true → CopyDesc.zf c.desc = false → ∃ u c', exec (.copyElement e n) s = .next u ∧ u.mem = s.mem ∧
            nth? (u.engine e).running n = some c' ∧ c'.next = c.next + 1 ∧ c'.flags = c.flags)) ∧
        (c.total ≤ c.next → ∃ u, exec (.copyComplete e n) s = .next u ∧ (u.engine e).running = dropNth k.running n ∧ (u.engine e).queue = k.queue ∧
          (c.id ∈ (s.hart c.owner).openBatch → (u.hart c.owner).fstat = (s.hart c.owner).fstat ||| c.flags ∧
            (u.hart c.owner).openBatch = (s.hart c.owner).openBatch.filter (fun x => x ≠ c.id)) ∧
          (c.kind = .landing → CopyDesc.mc c.desc = true → u.landings = s.landings ++
            ((List.range 8).filter fun b => (CopyDesc.mask c.desc).testBit b).map fun b => (8 * cl + b, CopyDesc.slot c.desc)))) ∧
      (e < 288 → n < 16 → (16 * e + n) ∈ s.freed → ∀ c q, k.queue = [] → k.running = [c] → c.kind = .stream q → c.stream = n →
        ∃ u, exec (.streamTileStart e n) s = .next u ∧ u.freed = s.freed.erase (16 * e + n) ∧
          (c.freed < c.started → u.engine e = { k with running := [{ c with
            freed := c.freed + 1
            started := if c.started < CopyDesc.ext c.desc 3 then c.started + 1 else c.started }] }) ∧
          (c.started ≤ c.freed → u.engine e = { k with strstat := k.strstat ||| BitVec.ofNat 16 (2 ^ n) })))

/-- R157 to R161: a landing counts in its slot or releases the slot's command; a released command enters the queue when an entry is free;
the head product fetches its operands once every block of its MCAST has one at its head, for all of them an operand that all of them name (R161), or stops the sequencer where R310 refuses one; and the head command takes effect and leaves the queue. On a cluster whose task is held no command enters a queue and no landing counts (R366, R370).
R190, R286, R301 and R303: a write of another mode makes a bank busy until the switch completes, which clears it and changes its mode, but not while the cluster's task is held (R366, R370); and a notice or credit that reaches
an armed weir of its task lowers the balance by its bytes, one of another state is late, and one for a task that a save or a debugger holds waits.
What the spec leaves open in it is the model's choice (log entries 17, 23 and 49). -/
def Obligations.MatrixAndBanks : Prop :=
  (∀ (s : State) (blk n : Nat), blk < 256 → n < 8 →
      let k := s.block blk
      let slot := vget ⟨none, 0, 0, false⟩ k.slots n
      (clusterHeld s (blk / 8) = true → exec (.landingNotice blk n) s = .next s ∧ exec (.deferredEnter blk n) s = .next s) ∧
      ((blk, n) ∈ s.landings → clusterHeld s (blk / 8) = false →
        (slot.cmd = none ∨ slot.released = true ∨ slot.landed + 1 < slot.need → ∃ u, exec (.landingNotice blk n) s = .next u ∧
          u.landings = s.landings.erase (blk, n) ∧ u.block blk = { k with slots := vset k.slots n { slot with landed := slot.landed + 1 } }) ∧
        (∀ c, slot.cmd = some c → slot.released = false → slot.need ≤ slot.landed + 1 → k.queue.length < 4 → k.releases = [] →
          ∃ u, exec (.landingNotice blk n) s = .next u ∧ u.landings = s.landings.erase (blk, n) ∧ (u.block blk).queue = k.queue ++ [c] ∧
            vget ⟨none, 0, 0, false⟩ (u.block blk).slots n = ⟨none, slot.need, slot.landed + 1 - slot.need, false⟩)) ∧
      (∀ r c, clusterHeld s (blk / 8) = false → k.releases = n :: r → slot.cmd = some c → k.queue.length < 4 → ∃ u, exec (.deferredEnter blk n) s = .next u ∧
        (u.block blk).queue = k.queue ++ [c] ∧ (vget ⟨none, 0, 0, false⟩ (u.block blk).slots n).cmd = none ∧ u.harts = s.harts) ∧
      (∀ c r acc d, k.queue = c :: r → c.op = .multiply acc d → c.fetching = false → c.rowsA = none → c.rowsB = none → taskRuns s c.task = true →
        MatrixDesc.mcast d = 0 → MatrixDesc.kind d false ≠ 2 → MatrixDesc.kind d true ≠ 2 →
        (∀ as bs, fetchRows s blk c d false = .ok as → fetchRows s blk c d true = .ok bs → ∃ u sa sb, exec (.matrixFetchStart blk) s = .next u ∧
          u.block blk = { k with queue := { c with met := true, sharedA := sa, sharedB := sb, fetching := true, rowsA := some as, rowsB := some bs } :: r } ∧ u.harts = s.harts ∧ u.mem = s.mem) ∧
        (∀ va, fetchRows s blk c d false = .error va → ∃ u, exec (.matrixFetchStart blk) s = .next u ∧ (u.block blk).queue = [] ∧ (u.block blk).stopped = true ∧
          (u.hart (.matrix (blk / 8) (blk % 8))).status = .stopped)) ∧
      (∀ c r acc d, k.queue = c :: r → c.op = .multiply acc d → c.fetching = false → c.met = false → taskRuns s c.task = true →
        MatrixDesc.kind d false ≠ 2 → MatrixDesc.kind d true ≠ 2 →
        let group := ((List.range 8).filter fun b => (MatrixDesc.mcast d).testBit b).map fun b => 8 * (blk / 8) + b
        let same : Bool → Prop := fun b => ∀ m ∈ group, ∀ m' ∈ group, ∀ c1 c2 a1 a2 d1 d2, headProduct s m = some (c1, a1, d1) → headProduct s m' = some (c2, a2, d2) →
          sameOperand m m' d1 d2 b = true
        ((∃ m ∈ group, headProduct s m = none) → exec (.matrixFetchStart blk) s = .next s) ∧
        (blk ∈ group → (∀ m ∈ group, ∃ c' acc' d', headProduct s m = some (c', acc', d') ∧ c'.met = false ∧ MatrixDesc.mcast d' = MatrixDesc.mcast d ∧ c'.rowsA = none ∧ c'.rowsB = none) →
          ∀ as bs, fetchRows s blk c d false = .ok as → fetchRows s blk c d true = .ok bs → ∃ u, exec (.matrixFetchStart blk) s = .next u ∧
            ∀ m ∈ group, ∃ c' r', (u.block m).queue = c' :: r' ∧ c'.met = true ∧ (same false → c'.rowsA = some as) ∧ (same true → c'.rowsB = some bs))) ∧
      (∀ c r, k.queue = c :: r → taskRuns s c.task = true →
        (∀ i32 ops, c.op = .program i32 ops → exec (.matrixCommandComplete blk) s = .next (s.setBlock blk { k with queue := r, program := some (i32, ops) })) ∧
        (c.op = .unload → exec (.matrixCommandComplete blk) s = .next (s.setBlock blk { k with queue := r, program := none })) ∧
        (∀ acc pattern, acc < 4 → c.op = .fill acc pattern → ∃ u, exec (.matrixCommandComplete blk) s = .next u ∧ u.harts = s.harts ∧ (u.block blk).queue = r ∧
          ∀ row j, row < 128 → j < 128 → (tget 0 row (vget [] (u.block blk).acc acc)).toNat / 2 ^ (32 * j) % 2 ^ 32 = pattern.toNat) ∧
        (∀ acc d as bs, acc < 4 → c.op = .multiply acc d → c.fetching = true → k.program = none → MatrixDesc.kind d false ≠ 2 → MatrixDesc.kind d true ≠ 2 →
          c.rowsA = some as → c.rowsB = some bs →
          let y := productRows d (cellRule d none s.freeCtr) (c.inflight.getD 0) (MatrixDesc.groups d) as bs (vget [] k.acc acc)
          let a := AgentId.matrix (blk / 8) (blk % 8)
          ∃ u, exec (.matrixCommandComplete blk) s = .next u ∧ (u.block blk).queue = r ∧ vget [] (u.block blk).acc acc = y.1 ∧
            (u.hart a).fstat = (s.hart a).fstat ||| y.2 ∧ (u.hart a).x = (s.hart a).x ∧ u.mem = s.mem))) ∧
  (∀ (s : State) (cl bank n : Nat) (v : Word), cl < 32 → bank < 256 →
      let blk := 8 * cl + bank / 32
      let x := vget Bank.fresh (s.block blk).banks (bank % 32)
      let after : State → Bank := fun u => vget Bank.fresh (u.block blk).banks (bank % 32)
      let base := 0xFF00000000000000 + (32 * blk + bank % 32) * 0x20000
      (∀ m, modeOf v = some m →
        (x.mode ≠ m → x.busy = none → clusterHeld s cl = false → ∃ u, exec (.bankctlWrite cl bank v) s = .next u ∧ after u = { x with busy := some m } ∧ u.harts = s.harts ∧ u.mem = s.mem) ∧
        (x.mode = m ∨ x.busy ≠ none → exec (.bankctlWrite cl bank v) s = .next s)) ∧
      (clusterHeld s cl = true → exec (.bankctlWrite cl bank v) s = .next s ∧ exec (.bankSwitchComplete cl bank) s = .next s) ∧
      (∀ m, x.busy = some m → switchHeld s (32 * blk + bank % 32) = false → clusterHeld s cl = false → ∃ u, exec (.bankSwitchComplete cl bank) s = .next u ∧
        after u = ⟨m, none, [], if x.mode = .fifo then x.entries.length else 0⟩ ∧
        (m ≠ .cacheWay → ∀ a, base ≤ a → a < base + 0x20000 → u.backing a = 0) ∧
        (x.mode ≠ .cacheWay → ∀ a, a < base ∨ base + 0x20000 ≤ a → u.backing a = s.backing a)) ∧
      (∀ k event,
        ((event = .weirCountNotice n ∧ nth? s.notices n = some k ∧ ∀ m ∈ s.notices.take n, ¬ (m.weir = k.weir ∧ m.source = k.source ∧ m.task = k.task)) ∨
          (event = .weirCredit n ∧ nth? s.credits n = some k)) →
        let w := s.weir k.weir
        (∀ m t, k.task = some m → s.task m = some t →
          t.phase = .saving ∨ t.phase = .saved ∨ (t.phase = .running ∧ t.debugHalted = true ∧ t.stepping = none) → exec event s = .next s) ∧
        (w.task = k.task → (∀ m t, k.task = some m → s.task m = some t →
            t.phase ≠ .saving ∧ t.phase ≠ .saved ∧ (t.phase = .running → t.debugHalted = true → t.stepping ≠ none)) →
        (w.state = .armed → (w.par ≠ 0 ∨ w.bal ≠ k.bytes) → -(2 ^ 47) ≤ w.bal - k.bytes → w.bal < 2 ^ 47 → ∃ u, exec event s = .next u ∧
          (u.weir k.weir).bal = w.bal - k.bytes ∧ (u.weir k.weir).state = .armed ∧ (u.weir k.weir).gen = w.gen ∧ u.harts = s.harts ∧
          ((u.weir k.weir).pastEnd = true ↔ w.pastEnd = true ∨ (w.par = 0 ∧ w.bal < k.bytes))) ∧
        (w.state = .armed → w.par = 0 → w.bal = k.bytes → w.pastEnd = false → ∃ u, exec event s = .next u ∧
          (u.weir k.weir).gen = w.gen + 1 ∧ (Weir.periodic w = false → (u.weir k.weir).state = .tripped) ∧
          (Weir.periodic w = true → (u.weir k.weir).state = .armed ∧ (u.weir k.weir).bal = Weir.startBal w ∧ (u.weir k.weir).par = Weir.startPar w)) ∧
        (w.state ≠ .armed → ∃ u, exec event s = .next u ∧ u.weir k.weir = { w with late := true } ∧ u.harts = s.harts))))

/-! ## Waking, faults and caches (R65, R182, R187, R206, R264, R271, R295, R297, R387, R395) -/

/-- R65, R187, R206, R264, R297 and R393: a sleeper whose condition holds is Ready again, and one whose condition does not hold sleeps on; a returned credit wakes a sender, and an answer, which comes over a port that is up (R398), completes its `renq.ack`;
a status that has come already is taken, 3 only once its record is written (R400); a sleeping `waitv` reads its location again, completes where the comparison holds, a 32-bit value zero-extended (log entry 52),
and otherwise sleeps on from when it first slept; a thread that slept longer than WDOG takes the watchdog trap; a page that Krany maps makes its faulting agent Ready, an entry that R293 calls malformed is none of Krany's,
a page that it cannot map is a page-fault trap; and a word that is no instruction is an illegal-instruction trap.
The length in ECAUSE is that of the instruction's first parcel, and a free value where that cannot be read (log entry 32).
What the spec leaves open in it is the model's choice (log entries 4 and 27). -/
def Obligations.WakingAndFaults : Prop :=
  ∀ (s : State) (a : AgentId), a.exists = true →
    let h := s.hart a
    let trapsAt : Instr → TrapClass → Word → Prop := fun event c eval =>
      ∃ len f, (len = 2 ∨ len = 4) ∧
        (∀ lo, fetchParcel { s with cur := a } h.pc = .ok lo → f = s.freeCtr ∧ len = if lo % 2 = 1 then 4 else 2) ∧
        exec event s = .next (enterTrap { s with freeCtr := f } a c len h.pc eval)
    (∀ w since, h.status = .sleeping w since → agentRuns s a = true →
      let ready := s.setHart a { h with status := .ready, wokenAt := some s.clock, receiving := decide (w = .message) }
      (w ≠ .codelet → w ≠ .answer → (∀ dest, w ≠ .packetSlot dest) →
        (waitOver s a since w = true → exec (.threadWake a) s = .next ready) ∧
        (waitOver s a since w = false → exec (.threadWake a) s = .next s)) ∧
      (∀ dest, w = .packetSlot dest → tget 0 dest s.renqCredits ≠ 0 → exec (.threadWake a) s = .next ready) ∧
      (w = .answer → ∀ r, s.renqs.find? (fun r => r.sender = a && r.ack && !r.gone && r.pc = h.pc && r.task = h.task && r.handler = h.tmode) = some r → h.chain = none →
        let answered : State → Word → Prop := fun u v => exec (.threadWake a) s = .next u ∧ u.renqs = s.renqs.erase r ∧
          u.hart a = { h.setReg r.dest_ v with status := .ready, wokenAt := some s.clock, pc := h.pc + BitVec.ofNat 64 r.instr.length }
        (r.answer = none → reach s r.dest ≠ .up → exec (.threadWake a) s = .next s) ∧
        (r.answer = none → reach s r.dest = .up → s.renqs.count r = 1 → ∃ u v, answered u v ∧ (v = 0 ∨ v = 1 ∨ v = 2 ∨ v = 4) ∧
          u.renqCredits = tset r.dest (tget 0 r.dest s.renqCredits + 1) s.renqCredits) ∧
        (∀ n, r.answer = some n → n ≠ 3 ∨ s.recordsWait = false → ∃ u, answered u (BitVec.ofNat 64 n) ∧ u.renqCredits = s.renqCredits) ∧
        (r.answer = some 3 → s.recordsWait = true → exec (.threadWake a) s = .next s)) ∧
      (a.isThread = true →
        (h.wdog ≠ 0 → h.wdog.toNat < s.clock - since → trapsAt (.watchdogExpiry a) .watchdog (BitVec.ofNat 64 (s.clock - since))) ∧
        (h.wdog = 0 ∨ s.clock - since ≤ h.wdog.toNat → exec (.watchdogExpiry a) s = .next s)) ∧
      (∀ l z sc d x y addr, w = .value l → h.codelet = false →
        let t : State := { ready with cur := a }
        let n := widthBytes z
        let m := valueAt s.backing addr n
        let v := (h.reg y).toNat % 2 ^ (8 * n)
        let signed : Nat → Int := fun k => if 2 ^ (8 * n - 1) ≤ k then (k : Int) - 2 ^ (8 * n) else k
        let rereads : Instr → Prop → Prop := fun i holds => instrOf s a = some i → MayRun i t → AtWindow i t addr →
          (holds → exec (.waitvReread a) s = .next { done i [(d, BitVec.ofNat 64 m)] t with cur := s.cur }) ∧
          (¬ holds → ∃ l', exec (.waitvReread a) s =
            .next (s.setHart a { h with status := .sleeping (.value l') since, wokenAt := some s.clock, receiving := false }))
        rereads (.waitvEq false z sc d x y) (m = v) ∧ rereads (.waitvNe false z sc d x y) (m ≠ v) ∧
        rereads (.waitvLt false z sc d x y) (signed m < signed v) ∧ rereads (.waitvGe false z sc d x y) (signed v ≤ signed m)) ∧
      (∀ va t, w = .page va → h.task = some t →
        (∀ pte : Word, pte.getLsbD 0 = false ∨ pte.getLsbD 7 = false ∨ pte &&& Pte.reserved ≠ 0 → exec (.pageFaultResolved (.agent a) pte none) s = .next s) ∧
        (∀ pte : Word, pte.getLsbD 0 = true → pte.getLsbD 7 = true → pte.getLsbD 8 = false → pte &&& Pte.reserved = 0 → Pte.backed (Pte.frame pte) = true →
          frameEnabled s.closedUnits (Pte.frame pte / 4096) = true → inWindowRange va.toNat = false →
          exec (.pageFaultResolved (.agent a) pte none) s =
            .next { ready with maps := (t, va.toNat % 2 ^ 57 / 4096, pte) :: s.maps.filter fun m => !(m.1 = t && m.2.1 = va.toNat % 2 ^ 57 / 4096) }) ∧
        trapsAt (.faultUnresolvable (.agent a)) .pageFault va)) ∧
    (h.status = .ready → exec (.threadWake a) s = .next s) ∧
    exec .illegalInstruction s = .next (enterTrap s s.cur .illegal (if (bitsAtPc s).getLsbD 0 then 4 else 2) s.me.pc (bitsAtPc s))

/-- R182, R271, R295, R387 and R395: an overflow entry moves to the ring, unless the cluster's task is held; a line leaves a cache, the dirty bytes of an L1 to the segment cache, those of a segment cache to the home,
and those of the mere to the memory behind it, where a dirty host line stays while the host link is not up (R390); a page of a task, of whatever size, moves to new frames with its bytes,
and its address then leads there, but a frame that holds the root of a table does not move, nor a part of a larger page (log entry 28); a snoop takes a host line from the mere; and an invalidation drops the read copy of a shared page.
What the spec leaves open in it is the model's choice (log entry 40). -/
def Obligations.RefillsAndMoves : Prop :=
  ∀ (s : State) (core line : Nat),
    let dirty : Cache → Nat → Option Byte := fun k x => match findLine (x / 64) k.lines with
      | some l => if l.dirty.getLsbD (x % 64) then some (lineByte l.data (x % 64)) else none
      | none => none
    let mine : Nat → Prop := fun x => x / 64 = line
    let leaves : Prop := 2 ^ 41 ≤ line → s.service.host = .up ∨ ∀ l, findLine line s.mere = some l → l.dirty = 0
    let written : State → Prop := fun u =>
      (∀ x, x / 64 ≠ line → u.homeByte x = s.homeByte x) ∧
      ∀ l k, findLine line s.mere = some l → k < 64 → l.dirty.getLsbD k = true → u.backing (64 * line + k) = lineByte l.data k
    (core < 2048 → ∀ c r, (s.core core).overflow = c :: r → (s.core core).ring.length < 1024 → (s.core core).waitingPushes = [] →
      (clusterHeld s (core / 64) = true → exec (.ringRefill core) s = .next s) ∧
      (clusterHeld s (core / 64) = false → (∀ n, (s.core core).lastRefill = some n → n + 4 ≤ s.clock) → exec (.ringRefill core) s = .next (s.setCore core
        { s.core core with ring := (s.core core).ring ++ [c], overflow := r, lastRefill := some s.clock })) ∧
      (∀ n, (s.core core).lastRefill = some n → s.clock < n + 4 → exec (.ringRefill core) s = .next s)) ∧
    (leaves → ∃ u, exec (.lineEviction 2080 line) s = .next u ∧ findLine line u.mere = none ∧ u.harts = s.harts ∧ written u) ∧
    (¬ leaves → exec (.lineEviction 2080 line) s = .next s) ∧
    (∀ cl, cl < 32 → ∃ u, exec (.lineEviction (2048 + cl) line) s = .next u ∧ findLine line (u.segment cl).cache.lines = none ∧ u.harts = s.harts ∧
      ∀ x, (mine x → u.homeByte x = (dirty (s.segment cl).cache x).getD (s.homeByte x)) ∧ (¬ mine x → u.homeByte x = s.homeByte x)) ∧
    (core < 2048 → (s.core core).held = [] → ∃ u, exec (.lineEviction core line) s = .next u ∧ findLine line (u.core core).l1.lines = none ∧ u.harts = s.harts ∧
      ∀ x, u.homeByte x = s.homeByte x ∧ (mine x → u.segByte (core / 64) x = (dirty (s.core core).l1 x).getD (s.segByte (core / 64) x)) ∧
        (¬ mine x → u.segByte (core / 64) x = s.segByte (core / 64) x)) ∧
    (∀ task t page frame pa e, s.task task = some t → page < 2 ^ 45 → frame < 2 ^ 30 →
      translate s task t.root (4096 * page) = .ok (pa, e) → (2 ^ 47 ≤ pa → s.service.host = .up) →
      let n := pageFrames s task t.root (4096 * page)
      let old := pa / 4096 / n * n
      let new := frame / n * n
      let v := (List.range n).foldl (fun w k => flushFrame (flushFrame w (old + k)) (new + k)) s
      let among : Nat → Nat → Prop := fun first x => first ≤ x / 4096 ∧ x / 4096 < first + n
      (framesMovable s old n = false → exec (.pageMove task page frame) s = .next s) ∧
      (framesMovable s old n = true → frame - new = pa / 4096 - old → (∀ k, k < n → frameEnabled s.closedUnits (new + k) = true) →
      ∃ u e', exec (.pageMove task page frame) s = .next u ∧ u.harts = s.harts ∧ u.task task = some t ∧
        translate u task t.root (4096 * page) = .ok (4096 * frame, e') ∧
        ((∀ x ∈ tableEntries v old n, ¬ among old x.at_ ∧ ¬ among new x.at_) →
          ∀ k, k < 4096 * n → u.backing (4096 * new + k) = v.backing (4096 * old + k)))) ∧
    (2 ^ 41 ≤ line → leaves → ∃ u, exec (.hostSnoop line) s = .next u ∧ findLine line u.mere = none ∧ u.harts = s.harts ∧ written u) ∧
    (line < 2 ^ 41 → exec (.hostSnoop line) s = .next s) ∧
    (∀ page e, tfind page s.homes = some e → e.copy = true → e.home ≠ s.ownDevice → reach s e.home = .up →
      ∃ u, exec (.readCopyInvalidate page) s = .next u ∧ tfind page u.homes = some { e with copy := false } ∧ unmarked u.me = unmarked s.me)

/-! ## Queues and tasks (R258, R279, R280, R351 to R371) -/

/-- R351, R353, R356 and R362: opening a queue, a kick past WMAX, a kick past the ring, RESUME, the poll at the next multiple of 2,500 cycles (log entry 6), and a token each 250,000 cycles.
R353 to R356 and R390: the packet at RD is read, or waits where its memory lies behind a link that is not up; one whose stamp is not RD's low 16 bits leaves the queue waiting;
a bad field puts it into its error state; a good one is accepted, RD advances, and a no-op completes as soon as its barrier allows.
What the spec leaves open in it is the model's choice (log entry 14). -/
def Obligations.QueuesAndPackets : Prop :=
  (∀ (s : State) (q : Nat) (v : Word) (desc : Vector Word 5), q < 4096 →
      let k := s.queue q
      let w := v.toNat
      (s.service.phase = .running → k.opened = false → queueLegal desc = true → exec (.queueOpen q desc) s = .next (s.setQueue q
        { Queue.fresh with opened := true, desc := desc, tokenSince := s.clock, balance := (vget 0 desc 1).toNat / 2 ^ 8 % 2 ^ 8 })) ∧
      (k.opened = true → exec (.queueOpen q desc) s = .next s) ∧
      (s.service.host = .up → k.opened = true →
        (w ≤ k.wmax → exec (.kick q v) s = .next s) ∧
        (k.wmax < w → k.state = .error → exec (.kick q v) s = .next (s.setQueue q { k with wmax := w })) ∧
        (k.wmax < w → k.state ≠ .error → w ≤ k.rd + 2 ^ ((vget 0 k.desc 1).toNat % 16) → exec (.kick q v) s = .next (s.setQueue q { k with wmax := w, state := .fetching })) ∧
        (k.wmax < w → k.state ≠ .error → k.rd + 2 ^ ((vget 0 k.desc 1).toNat % 16) < w →
          ∃ u, exec (.kick q v) s = .next u ∧ u.queue q = { k with state := .error } ∧ u.tasks = s.tasks) ∧
        (k.state = .error → k.rd ≤ w → w ≤ k.wmax →
          exec (.resume q v) s = .next (s.setQueue q { k with rd := w, state := if w = k.wmax then .idle else .fetching })) ∧
        (k.state ≠ .error ∨ w < k.rd ∨ k.wmax < w → exec (.resume q v) s = .next s)) ∧
      (s.service.host = .recovery → exec (.kick q v) s = .next { s with service := { s.service with heldKicks := s.service.heldKicks ++ [(q, false, v)] } }) ∧
      (k.state = .waiting →
        (k.pollSince / 2500 < s.clock / 2500 → exec (.queuePoll q) s = .next (s.setQueue q { k with state := .fetching })) ∧
        (s.clock / 2500 ≤ k.pollSince / 2500 → exec (.queuePoll q) s = .next s)) ∧
      (k.opened = true → k.tokenSince + 250000 ≤ s.clock → exec (.tokenReplenish q) s = .next (s.setQueue q { k with
        balance := if k.balance < (vget 0 k.desc 1).toNat / 2 ^ 8 % 2 ^ 8 then k.balance + 1 else k.balance
        tokenSince := k.tokenSince + 250000 }))) ∧
  (∀ (s : State) (q : Nat) (p : List Word),
      let k := s.queue q
      let head := (nth 0 p 0).toNat
      let type := head / 2 ^ 16 % 2 ^ 8
      (s.service.phase = .running → k.opened = true → k.state = .fetching → k.pending = none → k.rd < k.wmax →
        (rootWords s k.root (k.slot k.rd) 8 = .error .waits → exec (.packetFetch q) s = .next s) ∧
        (∀ f, f ≠ .waits → rootWords s k.root (k.slot k.rd) 8 = .error f →
          ∃ u, exec (.packetFetch q) s = .next u ∧ u.queue q = { k with state := .error } ∧ u.tasks = s.tasks) ∧
        (rootWords s k.root (k.slot k.rd) 8 = .ok p →
          (head % 2 ^ 16 ≠ k.rd % 2 ^ 16 → exec (.packetFetch q) s = .next (s.setQueue q { k with state := .waiting, pollSince := s.clock })) ∧
          (head % 2 ^ 16 = k.rd % 2 ^ 16 →
            (∀ e, packetError p = some e → ∃ u, exec (.packetFetch q) s = .next u ∧ u.queue q = { k with state := .error } ∧ u.tasks = s.tasks) ∧
            (packetError p = none → type = 0 ∨ (∃ t, readLaunch s q p = .ok t) → ∃ u t, exec (.packetFetch q) s = .next u ∧
              u.queue q = { k with rd := k.rd + 1, pending := some s.nextTask, state := if k.rd + 1 = k.wmax then .idle else .fetching } ∧
              u.nextTask = s.nextTask + 1 ∧ u.task s.nextTask = some t ∧ (type = 0 → t.noop = true ∧ t.queue = q ∧ t.index = k.rd ∧ t.phase = .accepted) ∧
              (type = 1 → readLaunch s q p = .ok t)) ∧
            (packetError p = none → type ≠ 0 →
              (readLaunch s q p = .error none → exec (.packetFetch q) s = .next s) ∧
              ∀ off cause, readLaunch s q p = .error (some (off, cause)) →
                ∃ u, exec (.packetFetch q) s = .next u ∧ u.queue q = { k with state := .error } ∧ u.tasks = s.tasks)))) ∧
      (∀ n t, pendingTask s q = some (n, t) → s.task n = some t → t.queue = q → t.noop = true → t.phase = .accepted →
        let free : Prop := t.flag 24 = true → (t.flag 25 = false → ∀ x ∈ s.tasks, x.2.queue = q → x.2.index < t.index → x.2.phase = .done) ∧
          (t.flag 25 = true → ∀ x ∈ s.tasks, x.2.queue = q → x.2.index + 1 = t.index → x.2.trig = true ∨ x.2.phase = .done)
        (free → ∃ u, exec (.noopComplete q) s = .next u ∧ u.task n = some { t with phase := .done, stepping := none, heldSince := none } ∧ (u.queue q).pending ≠ some n ∧
          u.harts = s.harts) ∧
        (¬ free → exec (.noopComplete q) s = .next s)))

/-- R267, R358 to R361, R390 and R412: a launch whose units are free starts: its task runs with the variant chosen, its queue may go on, and each persistent thread j of T
starts with j, T, ARGS and its stack. It starts wherever its image can be read, whatever the fresh frames hold, and its variant loads no contexts; with contexts, as their loads go.
One with no variant completes with cause 1, one with a variant that declares a retired unit with cause 2, one whose image is invalid, has a variant past LEN or a table that names a slot twice with cause 3 (R411, R413), and one whose image holds uncorrectable data with cause 6 (R409);
a read that waits for a link, or for a page that Krany has not mapped, holds the start back (log entry 15), also with a retired unit. Bit 0 of an entry is taken as 0 (log entry 45). -/
def Obligations.TasksStart : Prop :=
  ∀ (s : State) (q n dataFrame queueFrame : Nat) (queueVa : Word) (t : Task),
    s.service.phase = .running → pendingTask s q = some (n, t) → s.task n = some t → t.phase = .accepted → t.noop = false → barrierOpen s t = true → t.waitPage = none → t.pageLost = false →
    let i : Instr := .taskStart q dataFrame queueFrame queueVa
    let root := (s.queue t.queue).root
    let image := vget 0 t.packet 1
    let variants := imageVariants s t
    let ends : Nat → Prop := fun cause => ∃ u t', exec i s = .next u ∧ u.task n = some t' ∧ t'.phase = .done ∧ t'.cause = cause
    let starts : Nat → Prop := fun k => ∃ u t', exec i s = .next u ∧ u.task n = some t' ∧ t'.phase = .running ∧ t'.variant = some k ∧ t'.desc = t.desc ∧
      t'.estimate = (t.word 21).toNat % 2 ^ 32 ∧ (u.queue t.queue).pending ≠ some n ∧
      ∀ cl mask rs j, t.cores = [(cl, mask, rs)] →
        let cores := ((List.range 64).filter fun c => mask.getLsbD c).map fun c => 64 * cl + c
        let total := (t.word 1).toNat / 2 ^ 48
        cores ≠ [] → j < total →
        let h := u.hart (.thread (nth 0 cores (j % cores.length)) (j / cores.length))
        h.status = .ready ∧ h.task = some n ∧ h.pc = evenPc (t.word 5) ∧ h.tvec = t.tvec ∧ h.reg 3 = BitVec.ofNat 64 j ∧ h.reg 4 = BitVec.ofNat 64 total ∧
        h.reg 30 = t.args ∧ h.reg 2 = t.word 6 + BitVec.ofNat 64 ((j + 1) * ((t.word 7).toNat % 2 ^ 32))
    let retired : Prop := ∃ u ∈ declaredUnits s n t, u ∈ s.service.retired
    (variants = .error .waits → retired ∨ mayStart s n t = true → exec i s = .next s) ∧
    (∀ f, f ≠ .waits → variants = .error f → retired ∨ mayStart s n t = true → ends (if f = .poisoned then 6 else 3)) ∧
    (retired → ∀ vs, variants = .ok vs → ends (if chooseVariant s t vs = none then 1 else 2)) ∧
    (¬ retired → mayStart s n t = false → exec i s = .next s) ∧
    (¬ retired → mayStart s n t = true → ∀ ss vs, t.image = some ss → variants = .ok vs →
      (chooseVariant s t vs = none → ends 1) ∧
      (∀ k v, chooseVariant s t vs = some (k, v) → (∀ x, x < 2592 → v.needs x = true → x ∉ s.service.draining) →
        framesGood s t ss dataFrame queueFrame queueVa = true →
        let fresh : Nat → Prop := fun x => ∃ y ∈ ss, y.1 = 5 ∧ dataFrame ≤ x / 4096 ∧ x / 4096 < dataFrame + sectionPages y.2.2.1
        let readable : State → Prop := fun w => ∀ y ∈ ss, ∀ m, m < sectionPages (if y.1 = 6 then v.cfgSize else y.2.2.1) →
          let src := image + if y.1 = 6 then v.cfgOff else y.2.1
          (y.1 ∈ [1, 2, 3, 4, 6] → ∃ p, walk w ((src.toNat + 4096 * m) % 2 ^ 57) 5 root = .ok p ∧ Pte.permits p.2 .read = true) ∧
          (y.1 = 5 → ∃ bytes, sectionPage w root src y.2.2.1.toNat m = .ok bytes)
        let left := vacate s n t
        let out := startSteps s n t ss k v dataFrame queueFrame queueVa
        ((∀ w maps, OnlyMemory left w → (∀ x, ¬ fresh x → w.homeByte x = left.homeByte x) → readable { w with maps := maps }) →
          findSection 6 ss = none ∨ v.cfgSize = 0 → starts k) ∧
        (∀ va, out = .waits va → exec i s = .next (s.setTask n { t with waitPage := some va })) ∧
        (out = .later → exec i s = .next s) ∧
        (∀ cause, out = .refused cause → ends cause) ∧
        ∀ u', out = .started u' → starts k))

/-- R258, R279, R280, R359, R362 to R371: a task that has ended completes with what it left on its units, a killed one with cause 4; the scheduler decides by the table of R363, again for a newcomer
with a shorter limit, and once more when a drain runs out; a checkpoint saves a task and a restore lets it go on; a spare core stands for a retired one, and with no spare the task is launched again
on the units left, or ended with cause 2 where they are too few (the model's choice, log entry 51); and a debugger halts, steps and resumes a task, the cycles for which it stood still counting for no sleep.
What the spec leaves open in it is the model's choice (log entries 12, 16, 17, 18 and 39). -/
def Obligations.TaskLife : Prop :=
  ∀ (s : State) (n x : Nat) (t : Task), s.task n = some t →
    let decides : Nat → Bool → Action := fun l late =>
      if late = false ∧ t.debugHalted = false ∧ remaining s t ≤ l then .drain
      else if t.checkpointable = true ∧ saveCost s n t ≤ l then .checkpoint
      else if t.restartable = true then .kill
      else if t.checkpointable = true then .checkpoint
      else .drain
    let held : Prop := t.phase = .running ∨ t.phase = .saving
    let moved : AgentId → Hart := fun x => match t.heldSince, t.hasCluster x.cluster with
      | some since, true => laterHart (s.clock - since) (s.hart x)
      | _, _ => s.hart x
    let ends : Instr → Nat → Prop := fun i cause => ∃ u t', exec i s = .next u ∧ u.task n = some t' ∧ t'.phase = .done ∧ t'.cause = cause
    (t.phase = .running → t.debugHalted = false ∨ t.stopped = true → t.stopped = true ∨ taskEnded s n t = true →
      ∃ u t', exec (.taskComplete n) s = .next u ∧ u.task n = some t' ∧ t'.phase = .done ∧ t'.cause = t.cause ∧ t'.left = t.left ∧
        (t'.discarded = true ↔ ∃ c ∈ s.cores, t.hasCore c.1 = true ∧ codeletCount c.2 ≠ 0) ∧
        (t'.streamsLeft = true ↔ ∃ c ∈ copiesOf s.engines n, streamOf c = true ∧ c.next < c.total) ∧ n ∉ u.saves.map Prod.fst) ∧
    (t.phase = .running → t.stopped = false → taskEnded s n t = false → exec (.taskComplete n) s = .next s) ∧
    (held ∨ t.phase = .saved → ends (.kill n) 4) ∧
    (∀ y, x ≠ n → s.task x = some y → mayPreempt s y = true → held → overlaps y t = true → classOf s y < classOf s t →
      let l := if classOf s y = 0 then 25 else 250
      (x ∈ t.finalFor → exec (.scheduleDecision x n) s = .next s) ∧
      (x ∉ t.finalFor → t.decidedAt = none ∨ t.finalDrain = true ∨ (t.action = .drain ∧ 2500 * l < t.limit) →
      ∃ u, exec (.scheduleDecision x n) s = .next u ∧ u.harts = s.harts ∧
        u.task n = some { t with action := decides l false, decidedAt := some s.clock, limit := 2500 * l, finalDrain := false, preempter := some x } ∧
        (y.spent = false → (u.queue y.queue).balance = (s.queue y.queue).balance - y.ptok))) ∧
    (∀ k, t.decidedAt = some k → held → t.action = .drain → t.finalDrain = false → k + t.limit ≤ s.clock →
      ∃ u, exec (.drainTimeout n) s = .next u ∧ u.harts = s.harts ∧
        u.task n = some { t with action := decides (t.limit / 2500) true, decidedAt := some s.clock, limit := t.limit / 2500 * 2500 }) ∧
    (held → t.stopped = false → t.checkpointable = true → t.finalDrain = false → t.waitPage = none → t.pageLost = false →
      (areaPlace s n t (t.word 23) .write = .error .page → exec (.checkpoint n) s = .next (s.setTask n { t with waitPage := some (t.word 23) })) ∧
      ∀ at_ t1, areaPlace s n t (t.word 23) .write = .ok at_ →
      let s1 := freezeTask s n t
      s1.task n = some t1 → ∀ len, areaRead s1 n t1 (t1.word 23 + 64) = .ok len →
      (len.toNat < bodyBytes s1 n t1 →
        (t1.restartable = true → ends (.checkpoint n) 4) ∧
        (t1.restartable = false → ∃ u t', exec (.checkpoint n) s = .next u ∧ u.task n = some t' ∧ t'.phase = .running ∧ t'.action = .drain ∧ t'.finalDrain = true ∧
          t'.finalFor = t1.preempter.toList ++ t1.finalFor)) ∧
      (bodyBytes s1 n t1 ≤ len.toNat →
        areaFault s1 n t1 (t1.word 23) (((t1.word 23).toNat % 4096 + 128 + bodyBytes s1 n t1 + 4095) / 4096) = none →
        ∃ u t', exec (.checkpoint n) s = .next u ∧ u.task n = some t' ∧ t'.phase = .saved ∧ t'.savedAt = s1.clock ∧
          tfind n u.saves = some (snapshot s1 n t1) ∧
          ∀ a, t1.hasCluster a.cluster = true → u.hart a = { Hart.fresh with lastIssue := (s1.hart a).lastIssue })) ∧
    (t.phase = .saved → t.waitPage = none → mayStart s n t = true →
      (t.pageLost = false → areaRead s n t (t.word 23) = .error .page → exec (.restore n) s = .next (s.setTask n { t with waitPage := some (t.word 23) })) ∧
      ∀ h, areaRead s n t (t.word 23) = .ok h →
      (headerValid h = false → ends (.restore n) 4) ∧
      (∀ p, headerValid h = true → tfind n s.saves = some p → p.engines = [] → (p.harts.map Prod.fst).Nodup → ∃ u, exec (.restore n) s = .next u ∧
        u.task n = some { t with phase := .running, estimateAt := s.clock, heldSince := if t.debugHalted then some s.clock else none, decidedAt := none, finalDrain := false } ∧ tfind n u.saves = none ∧
        ∀ x ∈ p.harts, ∃ k : Option Nat, (k = x.2.lastIssue ∨ k = (s.hart x.1).lastIssue) ∧ (∀ m, x.2.lastIssue = some m → ∃ m', k = some m' ∧ m ≤ m') ∧
          u.hart x.1 = { x.2 with
            lastIssue := k
            status := match x.2.status with
              | .sleeping w _ => .sleeping w s.clock
              | st => st })) ∧
    (∀ core spare p, core < 2048 → spare < 2048 → t.phase = .saved → t.hasCore core = true → s.saves = [(n, p)] →
      (288 + (tget Core.fresh core p.cores).physical.getD core) ∈ s.service.retired →
      (core / 64 = spare / 64 → (288 + spare) ∉ s.service.retired → inColumn s spare = false → standsIn s spare = false → t.hasCore spare = false →
        ∃ u p', exec (.regroup core spare) s = .next u ∧ tfind n u.saves = some p' ∧ (tget Core.fresh core p'.cores).physical = some spare) ∧
      ((∀ k, k < 64 → isSpare s t core (64 * (core / 64) + k) = false) →
        (stillFits s t (t.word 1) (withoutCore core t.cores) = false → ends (.regroup core spare) 2) ∧
        (stillFits s t (t.word 1) (withoutCore core t.cores) = true → ∃ u t', exec (.regroup core spare) s = .next u ∧ u.task n = some t' ∧ t'.phase = .accepted ∧ t'.relaunched = true ∧ t'.hasCore core = false ∧ u.saves = []))) ∧
    (t.phase = .running →
      (t.debugHalted = false → ∃ u, exec (.debugHalt n) s = .next u ∧ u.service.debugger = true ∧ 
        u.task n = some { t with debugHalted := true, stepping := none, heldSince := if t.heldSince.isSome && t.stepping.isNone then t.heldSince else some s.clock }) ∧
      (∀ a, (s.hart a).task = some n → t.debugHalted = true → t.stepping = none → (s.hart a).status = .ready →
        (t.heldSince = none → exec (.debugStep a) s = .next (s.setTask n { t with stepping := some a })) ∧
        (t.heldSince.isSome = true → ∃ u, exec (.debugStep a) s = .next u ∧ u.task n = some { t with stepping := some a, heldSince := some s.clock } ∧
          ∀ x, u.hart x = moved x))) ∧
    (∀ detach, ∃ u, exec (.debugResume n detach) s = .next u ∧ u.service.debugger = (s.service.debugger && !detach) ∧
      u.task n = some { t with debugHalted := false, stepping := none, heldSince := if t.phase = .running then none else t.heldSince } ∧
      ∀ x, u.hart x = if t.phase = .running then moved x else s.hart x)

/-! ## Host, peers and service (R352, R387 to R410) -/

/-- R352, R387 to R390: while its link is up the host reads and writes device memory at the home, its own memory, and the registers of its windows; while it is down every access waits, a kick among them, and so they do in recovery, but that recovery holds kicks,
the host lines that are dirty in the mere, and the writes of the front end to host memory with the notices that follow them, all of which apply when the link returns, and its failure ends every task with cause 4; a change of owner clears device memory and closes every queue.
What the spec leaves open in it is the model's choice (log entries 31, 33 and 42). -/
def Obligations.HostLink : Prop :=
  ∀ (s : State) (pa off q : Nat) (z : Size) (v : Word),
    let n := sizeBytes z
    let ended : State → Prop := fun u => (∀ m t, u.task m = some t → t.phase = .done) ∧
      ∀ m t, s.task m = some t → t.phase ≠ .done → ∃ t', u.task m = some t' ∧ t'.cause = 4
    let answered : Word → State := fun w => { s with reports := s.reports ++ [.hostData w] }
    let access : HostTarget → Bool → Instr := fun t write => .hostAccess t write z v
    (s.service.host = .up →
      (pa < 2 ^ 42 → pa % n = 0 → dykeAllowsHost s pa = true →
        (siteOf s pa true ≠ .moving → ∃ u, exec (access (.memory pa) true) s = .next u ∧ u.homeBytes pa n = v.toNat % 2 ^ (8 * n) ∧ u.reports = s.reports ∧
          ∀ x, x / 64 ≠ pa / 64 → u.homeByte x = s.homeByte x) ∧
        (siteOf s pa true = .moving → exec (access (.memory pa) true) s = .next s) ∧
        (∃ u, exec (access (.memory pa) false) s = .next u ∧
          u.reports = s.reports ++ [.hostData (BitVec.ofNat 64 ((s.recallLine (pa / 64)).homeBytes pa n))])) ∧
      (2 ^ 47 ≤ pa → pa < 2 ^ 48 → pa % n = 0 →
        (∃ u, exec (access (.memory pa) true) s = .next u ∧ u.homeBytes pa n = v.toNat % 2 ^ (8 * n) ∧ ∀ x, x / 64 ≠ pa / 64 → u.homeByte x = s.homeByte x) ∧
        ∃ u, exec (access (.memory pa) false) s = .next u ∧ u.reports = s.reports ++ [.hostData (BitVec.ofNat 64 ((s.evictMere (pa / 64)).homeBytes pa n))]) ∧
      (pa < 2 ^ 42 → pa % n = 0 → dykeAllowsHost s pa = false → ∀ write, exec (access (.memory pa) write) s = .next { s with reports := s.reports ++ [.hostAbort] }) ∧
      (q < 4096 → z = .d →
        (∃ u, exec (access (.kickPage q 0) true) s = .next u ∧ exec (.kick q v) s = .next u) ∧
        (∃ u, exec (access (.kickPage q 0x20) true) s = .next u ∧ exec (.resume q v) s = .next u) ∧
        (off ≠ 0 → off ≠ 0x20 → exec (access (.kickPage q off) true) s = .next s) ∧
        exec (access (.kickPage q 0x08) false) s = .next (answered (BitVec.ofNat 64 (s.queue q).wmax)) ∧
        exec (access (.kickPage q 0x10) false) s = .next (answered (BitVec.ofNat 64 (s.queue q).rd))) ∧
      (z = .d →
        (∃ u, exec (access (.register off) true) s = .next u ∧ exec (.registerWrite off v) s = .next u) ∧
        exec (access (.register 0x00) false) s = .next (answered s.links.devid) ∧ exec (access (.register 0x08) false) s = .next (answered s.links.lebase) ∧
        exec (access (.register 0x10) false) s = .next (answered s.links.lectl) ∧ exec (access (.register 0x18) false) s = .next (answered s.links.lewidx) ∧
        exec (access (.register 0x20) false) s = .next (answered s.links.leridx) ∧ exec (access (.register 0x28) false) s = .next (answered s.links.ledrop)) ∧
      exec (.registerWrite 0x08 v) s = .next { s with links := { s.links with lebase := v &&& ~~~63#64 } } ∧
      exec (.registerWrite 0x10 v) s = .next { s with links := { s.links with lectl := v &&& 0x7FF000F#64 } } ∧
      exec (.registerWrite 0x20 v) s = .next { s with links := { s.links with leridx := v } } ∧
      exec (.registerWrite 0x28 v) s = .next { s with links := { s.links with ledrop := s.links.ledrop &&& ~~~v } } ∧
      exec (.registerWrite 0x00 v) s = .next s ∧ exec (.registerWrite 0x18 v) s = .next s ∧
      exec (.hostLinkRecovery false) s = .next { s with service := { s.service with host := .recovery } }) ∧
    (s.service.host = .down →
      (∀ t write, exec (access t write) s = .next s) ∧ exec (.registerWrite off v) s = .next s ∧
      (q < 4096 → exec (.kick q v) s = .next s ∧ exec (.resume q v) s = .next s) ∧
      (∀ back, exec (.hostLinkRecovery back) s = .next s) ∧ exec .hostLinkDown s = .next s) ∧
    (s.service.host = .recovery →
      (∀ write, exec (access (.memory pa) write) s = .next s ∧ exec (access (.register off) write) s = .next s) ∧ exec (.registerWrite off v) s = .next s ∧
      exec (access (.kickPage q off) false) s = .next s ∧
      (q < 4096 → z = .d → exec (access (.kickPage q 0) true) s =
        .next { s with service := { s.service with heldKicks := s.service.heldKicks ++ [(q, false, v)] } }) ∧
      (s.frontWrites = [] → s.service.heldKicks = [] → ∃ u, exec (.hostLinkRecovery true) s = .next u ∧ u.service.host = .up ∧ u.harts = s.harts ∧
        ∀ no, 2 ^ 41 ≤ no → findLine no u.mere = none ∧
          ∀ l k, findLine no s.mere = some l → k < 64 → l.dirty.getLsbD k = true → u.backing (64 * no + k) = lineByte l.data k) ∧
      (s.frontWrites = [] → (∀ l ∈ s.mere, l.no < 2 ^ 41) →
        (s.service.heldKicks = [] → exec (.hostLinkRecovery true) s = .next { s with service := { s.service with host := .up } }) ∧
        (∀ w, s.service.heldKicks = [(q, false, w)] → q < 4096 → ∃ u, exec (.hostLinkRecovery true) s = .next u ∧
          exec (.kick q w) { s with service := { s.service with host := .up, heldKicks := [] } } = .next u)) ∧
      (∀ w, s.frontWrites = [w] → w.root = none → w.after = none → 2 ^ 47 ≤ w.addr → w.addr < 2 ^ 48 → w.addr % 64 + 8 * w.words.length ≤ 64 → s.service.heldKicks = [] →
        ∃ u, exec (.hostLinkRecovery true) s = .next u ∧ u.service.host = .up ∧ u.frontWrites = [] ∧ (∀ v, w.notice = some v → Report.msix v ∈ u.reports) ∧
          ∀ k x, nth? w.words k = some x → w.ring = false ∨ k ≠ 1 → u.homeWord (w.addr + 8 * k) = x) ∧
      ∃ u, exec .hostLinkDown s = .next u ∧ u.service.host = .down ∧ u.service.heldKicks = [] ∧ ended u) ∧
    (s.service.phase = .running → ∀ owner, ∃ u, exec (.ownershipChange owner) s = .next u ∧ u.service.owner = owner ∧ ended u ∧ u.harts = [] ∧ u.mere = [] ∧
      (∀ x, x < 2 ^ 47 ∨ 2 ^ 48 ≤ x → u.backing x = 0) ∧ (∀ m, (u.queue m).opened = false) ∧ u.renqCredits = [] ∧ u.links.lebase = 0 ∧ u.links.devid = s.links.devid) ∧
    (s.service.phase ≠ .running → ∀ owner, exec (.ownershipChange owner) s = .next s)

/-- R199, R325, R393 to R401 and R403: a peer's request is performed at this home, refused by a Dyke window, or waits for a hand-over; its packet is placed or refused with a status; a page goes out as a read copy, to 1,023 devices at most,
or to its new home, which performs what its own tombstone still held, whether or not a port to the source retrains; a tombstone forwards in order; a port retrains, after which what it held leaves, or fails, and takes with it the peers it alone reached, which may come back over one of the 48 ports (R1).
What the spec leaves open in it is the model's choice (log entries 4, 9, 29 and 42). -/
def Obligations.Peers : Prop :=
  ∀ (s : State) (src pa page dev port : Nat) (v : Word) (e : HomeEntry), s.service.phase = .running →
    let own := s.ownDevice
    let set : State → HomeEntry → State := fun t x => { t with homes := tset page x t.homes }
    (tfind (pa / 4096) s.homes = some e → reach s src = .up →
      (∀ z, pa % sizeBytes z = 0 → dykeAllowsTask s pa .write = false →
        exec (.remoteRequest src .write pa z v) s = .next { s with reports := s.reports ++ [.peerRefused src pa] }) ∧
      (e.tombstone = none → e.home = own →
        (∀ z, pa % sizeBytes z = 0 → dykeAllowsTask s pa .write = true →
          (e.moving = false → ∃ u, exec (.remoteRequest src .write pa z v) s = .next u ∧ unmarked u.me = unmarked s.me ∧
            u.homeBytes pa (sizeBytes z) = v.toNat % 2 ^ (8 * sizeBytes z) ∧ u.reports = s.reports ++ [.peerAnswer src 0] ∧
            ∃ e', tfind (pa / 4096) u.homes = some e' ∧ e'.copies = e.copies.filter (fun d => d = src)) ∧
          (e.moving = true → exec (.remoteRequest src .write pa z v) s =
            .next { s with homes := tset (pa / 4096) { e with held := e.held ++ [⟨src, .write, pa, z, v⟩] } s.homes })) ∧
        (pa % 4 = 0 → dykeAllowsTask s pa .update = true → e.moving = false →
          let m := (s.recallLine (pa / 64)).homeBytes pa 4
          ∃ u, exec (.remoteRequest src .add pa .w v) s = .next u ∧ u.homeBytes pa 4 = (m + v.toNat) % 2 ^ 32 ∧
            u.reports = s.reports ++ [.peerData src (BitVec.ofNat 64 m)]))) ∧
    (∀ q (packet : Vector Word 8), q < 4096 → reach s src = .up →
      let k := s.queue q
      let answers : Nat → State → Prop := fun n u => exec (.renqReceive src q packet) s = .next u ∧ Report.peerAnswer src n ∈ u.reports
      (k.opened = false ∨ k.remote = false → ∃ u, answers 4 u ∧ u.queue q = k) ∧
      (k.opened = true → k.remote = true → k.state = .error → ∃ u, answers 2 u ∧ u.queue q = k) ∧
      (k.opened = true → k.remote = true → k.state ≠ .error → k.wmax = k.rd + k.size → ∃ u, answers 1 u ∧ u.queue q = k) ∧
      (k.opened = true → k.remote = true → k.state ≠ .error → k.wmax < k.rd + k.size →
        ∃ u, answers 0 u ∧ u.queue q = { k with wmax := k.wmax + 1, state := .fetching })) ∧
    (tfind page s.homes = some e →
      (e.coherent = true → e.tombstone = none → dev ≠ own → e.home = own → e.moving = false → reach s dev = .up → e.copies.length < 1023 ∨ dev ∈ e.copies →
        (dykeAllowsTask s (4096 * page) .read = true → ∃ u, exec (.remoteReadMiss dev page) s = .next u ∧
          tfind page u.homes = some { e with copies := if e.copies.contains dev then e.copies else e.copies ++ [dev] }) ∧
        (dykeAllowsTask s (4096 * page) .read = false → exec (.remoteReadMiss dev page) s = .next { s with reports := s.reports ++ [.peerRefused dev (4096 * page)] })) ∧
      (dev ≠ own → 1023 ≤ e.copies.length → dev ∉ e.copies → exec (.remoteReadMiss dev page) s = .next s) ∧
      (200000 ≤ dev → exec (.pageHandover page dev) s = .next s) ∧
      (e.coherent = true → e.tombstone = none → e.home ≠ own → e.copy = false → reach s e.home = .up → ∃ u, exec (.remoteReadMiss own page) s = .next u ∧
        tfind page u.homes = some { e with copy := true }) ∧
      (s.frontWrites = [] → e.coherent = true → dev < 200000 → own < 200000 →
        (e.home = own → dev ≠ own →
          (e.moving = false → weirCovers s page = false → reach s dev = .up → ∃ u, exec (.pageHandover page dev) s = .next u ∧
            tfind page u.homes = some { e with moving := true, copies := [], next := some dev }) ∧
          (e.moving = true → e.next = some dev → exec (.pageHandover page dev) s = .next (set s { e with home := dev, moving := false, tombstone := some dev, next := none })) ∧
        (e.moving = true → e.next ≠ some dev → exec (.pageHandover page dev) s = .next s)) ∧
        (e.home ≠ own → reach s e.home ≠ .up → exec (.pageHandover page own) s = .next s) ∧
      (e.home ≠ own → e.moving = false → reach s e.home = .up → ∃ u, exec (.pageHandover page own) s = .next u ∧
          tfind page u.homes = some { e with home := own, copy := false, copies := [], tombstone := none, held := [], next := none } ∧
          ∀ r, e.held = [r] → r.op = .write → r.addr / 4096 = page → r.addr % sizeBytes r.size = 0 → dykeAllowsTask s r.addr .write = true →
            u.homeBytes r.addr (sizeBytes r.size) = r.value.toNat % 2 ^ (8 * sizeBytes r.size)) ∧
        (e.home ≠ own → dev ≠ own → e.home ≠ dev →
          ((∃ p ∈ s.posted, p.frame = page ∧ p.lost = false) → e.next ≠ some dev →
            exec (.pageHandover page dev) s = .next (set s { e with next := some dev, copy := false })) ∧
          ((∃ p ∈ s.posted, p.frame = page ∧ p.lost = false) → e.next = some dev → reach s e.home ≠ .up → exec (.pageHandover page dev) s = .next s) ∧
        ((∀ p ∈ s.posted, p.frame ≠ page ∨ p.lost = true) ∨ e.next = some dev ∧ reach s e.home = .up → ∃ u, exec (.pageHandover page dev) s = .next u ∧
            tfind page u.homes = some { e with home := dev, copy := false, next := none } ∧ ∀ p ∈ u.posted, p.frame ≠ page ∨ p.lost = true))) ∧
      (∀ n r, e.tombstone = some dev → nth? e.held n = some r → reach s dev = .up →
        ((∀ x ∈ e.held.take n, x.source ≠ r.source) → ∃ u, exec (.tombstoneForward page n) s = .next u ∧ u.reports = s.reports ++ [.forwarded dev r.addr] ∧
          tfind page u.homes = some { e with held := dropNth e.held n }) ∧
        ((∃ x ∈ e.held.take n, x.source = r.source) → exec (.tombstoneForward page n) s = .next s)) ∧
      (e.held = [] → exec (.tombstoneRemove page) s = .next (set s { e with tombstone := none })) ∧
      (e.held ≠ [] → exec (.tombstoneRemove page) s = .next s)) ∧
    (port < 48 →
      (s.scalePort port = .up → exec (.portRetrain port) s = .next { s with scaleUp := tset port (.retraining s.clock) s.scaleUp }) ∧
      (∀ since, s.scalePort port = .retraining since →
        (let t := { s with scaleUp := tset port .up s.scaleUp }
         s.frontWrites = [] → exec (.portRetrain port) s = .next { t with
           posted := s.posted.map fun p => { p with waiting := p.waiting && reach t p.peer ≠ .up }
           renqs := s.renqs.map fun r => { r with waiting := r.waiting && reach t r.dest ≠ .up } }) ∧
        ∃ u, exec (.portDown port) s = .next u ∧ u.scalePort port = .down ∧
          ∀ ps, (dev, ps) ∈ s.routes → port ∈ ps → tfind dev s.peersDown = none → (∀ p ∈ ps, p ≠ port → s.scalePort p = .down) → tfind dev u.peersDown = some port)) ∧
    (tfind dev s.peersDown ≠ none → let ports := (tget [] dev s.routes).filter fun p => p < 48
      (ports = [] → exec (.peerComeBack dev) s = .next s) ∧
      (ports ≠ [] → ∃ u, exec (.peerComeBack dev) s = .next u ∧ tfind dev u.peersDown = none ∧ ∃ x ∈ ports, u.scalePort x = .up))

/-- R402 to R410: power-on counts a boot and begins it; each further occurrence trains a unit of the step under way (log entry 54), ends that step with a record of STATE 2 where its work can be done,
or, with that record or one of STATE 3 there, begins the next step in the mode that the boot before leaves it; after the sixth Krany runs, with the host link up.
A power loss keeps flash, retired units and the host's memory only, and may tear the record of a boot step; a locked Dyke window, and any with the power off, ignores writes;
an attestation signs the measurements with the nonce, MEAS5 to MEAS7 having taken what Krany measured (log entry 54); a roll moves one role after the other and then the columns, and exchanges two of their Dyke windows,
which free values choose (log entry 4); units are retired and restored, a pseudo-channel once nothing lies in it and for good, a saved task on a retired block being launched again on what is left, or ended where that is too little
(the model's choice, log entry 51); an uncorrectable line is reported with the count of corrected errors, which a free value raises (log entry 4), one of Krany's own data making it start again on the standby column; and at 110 °C every task ends with cause 4.
What the spec leaves open in it is the model's choice (log entries 19 and 30). -/
def Obligations.BootAndService : Prop :=
  ∀ (s : State) (b : BootInput) (n : Nat) (v : Word),
    let x := s.service
    (x.phase = .off →
      let tables := b.tables.getD x.flash.tables
      ∃ u, exec (.powerOn b) s = .next u ∧ u.service.boot = x.boot + 1 ∧ u.harts = s.harts ∧ u.mem = s.mem ∧
        (chosenTable tables = none → u.service.phase = .recovery) ∧
        (∀ w, chosenTable tables = some w → (∀ r ∈ x.flash.journal, r.boot ≠ x.boot) → u.service.phase = .booting 1 ∧ u.service.table = some w ∧
          u.service.column = (vget 0 w 0).toNat / 2 ^ 8 % 2 ^ 8 ∧ u.service.standby = (vget 0 w 0).toNat / 2 ^ 16 % 2 ^ 8)) ∧
    (∀ k, x.phase = .booting k →
      let last := lastState x x.boot k
      let prev := lastState x (x.boot - 1) (k + 1)
      let ended : Prop := last = some 2 ∨ last = some 3
      let wrote : State → Nat → Nat → Nat → Prop := fun u step state detail => u.service.phase = .booting step ∧
        ∃ r, u.service.flash.journal.getLast? = some r ∧ r.step = step ∧ r.state = state ∧ r.boot = x.boot ∧ r.detail = detail ∧ r.torn = false
      (ended → 6 ≤ k → exec (.powerOn b) s = .next { s with service := { x with phase := .running } }) ∧
      (ended → k < 6 → ∃ u, exec (.powerOn b) s = .next u ∧ u.harts = s.harts ∧
        (prev = none ∨ prev = some 2 ∨ prev = some 3 → wrote u (k + 1) 1 0) ∧
        (prev = some 1 → k + 1 = 2 ∨ k + 1 = 4 → wrote u (k + 1) 4 0) ∧
        (prev = some 1 ∨ prev = some 4 → k + 1 = 3 → wrote u 3 3 0) ∧
        (prev = some 1 ∧ k + 1 ≠ 2 ∧ k + 1 ≠ 3 ∧ k + 1 ≠ 4 ∨ prev = some 4 ∧ k + 1 ≠ 3 → u.service.phase = .recovery)) ∧
      (¬ ended → ∀ unit, b.training = some unit → ∃ u, exec (.powerOn b) s = .next u ∧ u.harts = s.harts ∧
        (k = 2 ∧ unit < 32 ∨ k = 3 ∧ unit < 48 → wrote u k (last.getD 1) unit) ∧ (¬ (k = 2 ∧ unit < 32 ∨ k = 3 ∧ unit < 48) → u = s)) ∧
      (¬ ended → b.training = none →
        (k = 1 ∨ k = 3 ∨ k = 2 ∧ (b.badChannels = [] ∨ last = some 4) ∨ 5 ≤ k → ∃ u, exec (.powerOn b) s = .next u ∧ wrote u k 2 0 ∧
          (k = 5 → ∀ m, m < 16 → (vget (0, 0) u.service.dyke m).2.getLsbD 0 = true) ∧ (k = 6 → u.service.host = .up)) ∧
        (k = 4 → ∀ w image, x.table = some w → tfind (vget 0 w (if last = some 4 then 3 else 2)).toNat x.flash.tables.images = some image → b.devid.toNat % 2 ^ 18 < 200000 →
          ∃ u, exec (.powerOn b) s = .next u ∧ wrote u 4 2 0 ∧ u.service.firmwareImage = some image ∧ u.ownDevice = b.devid.toNat % 2 ^ 18) ∧
        (k = 2 → b.badChannels ≠ [] → last ≠ some 4 → exec (.powerOn b) s = .next s) ∧
        (k = 4 → 200000 ≤ b.devid.toNat % 2 ^ 18 → exec (.powerOn b) s = .next s))) ∧
    (∀ torn, ∃ u, exec (.powerLoss torn) s = .next u ∧ u.harts = [] ∧ u.tasks = [] ∧ u.service.phase = .off ∧ u.service.boot = x.boot ∧ u.service.retired = x.retired ∧
      u.service.flash.tables = x.flash.tables ∧ u.service.flash.journal.length = x.flash.journal.length ∧
      (torn = false ∨ (∀ k, x.phase ≠ .booting k) → u.service.flash.journal = x.flash.journal) ∧
      (∀ k, torn = true → x.phase = .booting k → u.service.flash.journal.dropLast = x.flash.journal.dropLast ∧ ∀ r, u.service.flash.journal.getLast? = some r → r.torn = true) ∧
      (∀ a, 2 ^ 47 ≤ a → a < 2 ^ 48 → u.backing a = s.backing a) ∧ ∀ a, a < 2 ^ 47 ∨ 2 ^ 48 ≤ a → u.backing a = 0) ∧
    (n < 16 → x.phase = .off → exec (.dykeWrite (2 * n) v) s = .next s ∧ exec (.dykeWrite (2 * n + 1) v) s = .next s) ∧
    (n < 16 → x.phase ≠ .off →
      ((vget (0, 0) x.dyke n).2.getLsbD 0 = true → exec (.dykeWrite (2 * n) v) s = .next s ∧ exec (.dykeWrite (2 * n + 1) v) s = .next s) ∧
      ((vget (0, 0) x.dyke n).2.getLsbD 0 = false →
        exec (.dykeWrite (2 * n) v) s = .next { s with service := { x with dyke := vset x.dyke n (v &&& ~~~0xFFE#64, (vget (0, 0) x.dyke n).2) } } ∧
        exec (.dykeWrite (2 * n + 1) v) s = .next { s with service := { x with dyke := vset x.dyke n ((vget (0, 0) x.dyke n).1, v &&& ~~~0xFF8#64) } })) ∧
    (x.phase = .running →
      (∃ u, exec (.attestChallenge n) s = .next u ∧ u.harts = s.harts ∧
        (∀ k, k < 5 → vget 0 u.service.meas k = vget 0 x.meas k) ∧
        (∀ k, 5 ≤ k → k < 8 → ∃ digest, vget 0 u.service.meas k = extended (vget 0 x.meas k) digest) ∧
        u.reports = s.reports ++ [.attestation u.service.meas (n % 2 ^ 256) (Config.attest u.service.meas.toList (n % 2 ^ 256))]) ∧
      (x.rolled = [] → Config.imageGood n = true → ∃ u, exec (.firmwareRoll n) s = .next u ∧ u.service.rolled = [4] ∧ u.service.firmwareImage = some n) ∧
      (x.rolled = [] → Config.imageGood n = false → exec (.firmwareRoll n) s = .next s) ∧
      (x.rolled = [4] → exec (.firmwareRoll n) s = .next { s with service := { x with rolled := [3, 4] } }) ∧
      (x.rolled = [2, 1, 3, 4] →
        (urgentIdle s = true → ∃ i j, i < 16 ∧ j < 16 ∧ i ≠ j ∧ exec (.firmwareRoll n) s = .next { s with
          freeCtr := s.freeCtr + 2
          service := { x with
            rolled := []
            column := x.standby
            standby := x.column
            dyke := vset (vset x.dyke i (vget (0, 0) x.dyke j)) j (vget (0, 0) x.dyke i) } }) ∧
        (urgentIdle s = false → exec (.firmwareRoll n) s = .next s))) ∧
    (n < 256 → let u := 32 + n
      (u ∉ x.retired →
        ((∀ p ∈ s.tasks, (p.2.phase = .running ∨ p.2.phase = .saving) → u ∉ declaredUnits s p.1 p.2) → ∀ m t, s.task m = some t → t.phase = .saved →
          u ∈ declaredUnits s m t → ∃ w t', exec (.unitRetire (.block n) false) s = .next w ∧ u ∈ w.service.retired ∧ w.task m = some t' ∧
            (t'.phase = .accepted ∧ t'.relaunched = true ∨ t'.phase = .done ∧ t'.cause = 2) ∧
            (s.tasks = [(m, t)] → (t'.phase = .accepted ↔ stillFits s t (t.word 1 &&& ~~~(BitVec.ofNat 64 (2 ^ (32 + n % 8)))) t.cores = true))) ∧
        ((∀ p ∈ s.tasks, (p.2.phase = .running ∨ p.2.phase = .saving ∨ p.2.phase = .saved) → u ∉ declaredUnits s p.1 p.2) →
          exec (.unitRetire (.block n) false) s = .next { s with service := { x with retired := x.retired ++ [u], draining := x.draining.erase u } }) ∧
        (∀ p ∈ s.tasks, (p.2.phase = .running ∨ p.2.phase = .saving) → u ∈ declaredUnits s p.1 p.2 →
          ∃ w, exec (.unitRetire (.block n) false) s = .next w ∧ u ∉ w.service.retired ∧ u ∈ w.service.draining)) ∧
      exec (.unitRetire (.block n) true) s = .next { s with service := { x with retired := x.retired.filter fun m => m ≠ u, draining := x.draining.erase u } }) ∧
    (∀ c, c < 12288 → let k := 2592 + c
      exec (.unitRetire (.pseudoChannel c) true) s = .next s ∧
      (k ∉ x.retired →
        (channelUsed s k = false → exec (.unitRetire (.pseudoChannel c) false) s =
          .next { s with service := { x with retired := x.retired ++ [k], draining := x.draining.erase k } }) ∧
        (channelUsed s k = true → ∃ w, exec (.unitRetire (.pseudoChannel c) false) s = .next w ∧ w.service.retired = x.retired ∧ k ∈ w.service.draining))) ∧
    (n < 2 ^ 36 → ∃ u, exec (.scrubUncorrectable n) s = .next u ∧ n ∈ u.service.poison ∧ x.corrected ≤ u.service.corrected ∧
      u.reports = s.reports ++ [.corrected u.service.corrected, .uncorrectable n] ∧ u.harts = s.harts ∧
      (x.phase = .running → kranyLine s n = true → u.service.column = x.standby ∧ u.service.standby = x.column) ∧
      (x.phase ≠ .running ∨ kranyLine s n = false → u.service.column = x.column)) ∧
    (x.phase = .off → exec .thermalTrip s = .next s) ∧
    (x.phase ≠ .off → ∃ u, exec .thermalTrip s = .next u ∧ u.service.phase = .recovery ∧ u.service.host = .down ∧ (∀ m t, u.task m = some t → t.phase = .done) ∧
      ∀ m t, s.task m = some t → t.phase ≠ .done → ∃ t', u.task m = some t' ∧ t'.cause = 4)

/-! ## Encoding (R40 to R53) -/

/-- R40 to R53 and R179: the bytes of every instruction decode to it, whatever follows them, an `amo` that names s0 as the `ared` that it is;
and bytes that decode are those of the instruction that they decode to, so that no word has two meanings and no bit of one is dropped.
What the spec leaves open in it is the model's choice (log entry 10). -/
def Obligations.EncodingRoundTrip : Prop :=
  (∀ (i : Instr) (rest : List Byte), (encodeWord i).isSome = true →
    (encode i).length = i.length ∧ decode (encode i ++ rest) = .ok (asDecoded i, rest)) ∧
  (∀ (bs rest : List Byte) (i : Instr), decode bs = .ok (i, rest) → bs = encode i ++ rest ∧ asDecoded i = i ∧ (encodeWord i).isSome = true)

/-- R41, R43 to R51, R54 and R77, on single words: what the bits of a word of each format stand for, WR, WI, WM, WA, WB, WJ, WE, WC, WP and the H-forms,
and what the low word of a context slot is: the implied prefix where it is 0, and else the prefix that it decodes to. -/
def Obligations.DecodedWords : Prop :=
  decodeTableWord 32 0x0100048D = some (.ldi 9 128) ∧
  decodeTableWord 32 0x2000948F = some (.ldhi 9 9 0x1000) ∧
  decodeTableWord 32 0xFF844191 = some (.blt 3 4 (BitVec.ofInt 12 (-8))) ∧
  decodeTableWord 32 0x804E6281 = some (.cellkey .plus .zero .zero 5 6 7) ∧
  decodeTableWord 32 0x900462BF = some (.fcvt .rne .f32 (.float .bf16) 5 6) ∧
  decodeTableWord 32 0x044C6299 = some (.ld .w .acquire .cluster 5 6 4) ∧
  decodeTableWord 32 0x9C0E62A3 = some (.cas .d .acqRel .device 5 6 7) ∧
  decodeTableWord 32 0xFFFFFF93 = some (.jmp (BitVec.ofInt 25 (-1))) ∧
  decodeTableWord 32 0x985200B5 = some (.mxmm true 3 1 9) ∧
  decodeTableWord 32 0x588A024B = some (.vfma .f (.link .east) (.slotA 5) .tok (.link .west)) ∧
  decodeTableWord 32 0x01BC803D = some (.pfx false .none (.v 2) .rne false 0) ∧
  prefixOf 0 = some .implied ∧ prefixOf 0x01BC803D = some ⟨false, .none, .v 2, .rne, false, 0⟩ ∧ prefixOf 0x044C6299 = none ∧
  decodeTableWord 16 0x0000 = none ∧
  decodeTableWord 16 0x001A = some .hNop ∧
  decodeTableWord 16 0x0862 = some (.hAdd 3 4)

/-! ## Steps and reset (R3, R40, R65, R262, R389) -/

/-- R40, R65 and R106: a step takes the turn that the agenda names, with the clock moved on and the cycles passed, in which tiles age what is ready and busy regions count no stall (R106, R261); in the turn of a core the slot that its barrel picks, and in that of a ready sequencer
the sequencer, runs the instruction that the bytes at its pc decode to, and bytes that decode to none run the illegal-instruction trap;
in the turn of a tile the instruction that its arbiter picks fires; a core and a sequencer issue, and a tile fires, at most once in a cycle (R97, R104, R263);
an event of the device runs, after which it ends the debugger's steps that it completes and the caches keep their capacities (R371, R281).
What the spec leaves open in it is the model's choice (log entry 1). -/
def Obligations.StepRunsTheInstruction : Prop :=
  ∀ (s : State),
    let s0 := (nextTurn s).2
    let runs : AgentId → State → Prop := fun a t => (dueTrap t.me).1 = none → ∀ bs, fetchBytes t t.me.pc = .ok bs →
      (∀ i rest, decode bs = .ok (i, rest) → step s = afterIssue a (exec i t)) ∧
      (∀ r, decode bs = .error r → step s = afterIssue a (exec .illegalInstruction t))
    (∀ it r, s.agenda = it :: r → nextTurn s = (it.turn, { passCycles s it.dt with agenda := r, clock := s.clock + it.dt })) ∧
    (s.agenda = [] → nextTurn s = (s.turn, { passCycles s 1 with clock := s.clock + 1 })) ∧
    passCycles s 0 = s ∧ (∀ dt, ∃ tiles regions, passCycles s dt = { s with tiles := tiles, regions := regions } ∧
      tiles.map Prod.fst = s.tiles.map Prod.fst ∧ regions.map Prod.fst = s.regions.map Prod.fst ∧
      (∀ p ∈ s.tiles, ∃ w a, (p.1, { p.2 with waits := w, readySince := a }) ∈ tiles) ∧ ∀ p ∈ s.regions, ∃ n, (p.1, { p.2 with progress := n }) ∈ regions) ∧
    (∀ c, (nextTurn s).1 = .core c → c < 2048 → (s0.core c).issuedAt = some s0.clock → step s = .next s0) ∧
    (∀ c n, (nextTurn s).1 = .core c → c < 2048 → (s0.core c).issuedAt ≠ some s0.clock → pickSlot s0 c = some n → runs (.thread c n) { noteIssue s0 c n with cur := .thread c n }) ∧
    (∀ c, (nextTurn s).1 = .core c → c < 2048 → pickSlot s0 c = none → step s = .next s0) ∧
    (∀ a, (nextTurn s).1 = .sequencer a → a.exists = true → a.isThread = false → (∀ cl pos idx, a ≠ .tile cl pos idx) →
      (sequencerReady s0 a = true → runs a { noteSequencer s0 a with cur := a }) ∧ (sequencerReady s0 a = false → step s = .next s0) ∧
      ((s0.hart a).lastIssue = some s0.clock → step s = .next s0)) ∧
    (∀ cl pos, (nextTurn s).1 = .tile cl pos → cl < 32 → isTile pos = true → hasFired s0 cl pos = true → step s = .next s0) ∧
    (∀ cl pos idx t i, (nextTurn s).1 = .tile cl pos → cl < 32 → isTile pos = true → arbitrate s0 cl pos = (some idx, t) → chosenInstr t cl pos idx = some i →
      step s = exec i { t with cur := .tile cl pos idx }) ∧
    (∀ e, (nextTurn s).1 = .event e → isEvent e = true → step s = afterEvent s0 (exec e s0))

/-- R389, R402 and R403, with the values of log entries 2 and 3: after reset every byte of memory is 0 and its list is canonical, every thread slot is empty, every register 0,
every queue closed, every weir idle and every bank scratch, Dyke is open, nothing has booted and the host link is down. -/
def Obligations.ResetState : Prop :=
  let s := State.reset
  memWf s.mem = true ∧ (∀ a, s.homeByte a = 0 ∧ s.backing a = 0) ∧
  (∀ a, (s.hart a).status = .empty ∧ (∀ r, (s.hart a).reg r = 0) ∧ (∀ n, (s.hart a).oxr n = 0) ∧ (s.hart a).fstat = 0 ∧ (s.hart a).pc = 0) ∧
  (∀ q, (s.queue q).opened = false) ∧ (∀ n, (s.weir n).state = .idle) ∧ s.tasks = [] ∧
  (∀ b n, n < 32 → vget Bank.fresh (s.block b).banks n = ⟨.scratch, none, [], 0⟩) ∧
  (∀ n, n < 16 → vget (1, 1) s.service.dyke n = (0, 0)) ∧
  s.service.phase = .off ∧ s.service.host = .down ∧ s.service.boot = 0 ∧ s.clock = 0

/-- The list of bytes of memory stays canonical: its addresses rise and no listed byte is 0. -/
def Obligations.MemoryStaysCanonical : Prop :=
  ∀ (s t : State), memWf s.mem = true → step s = .next t → memWf t.mem = true

/-- Nothing is refused, and every instruction goes on to a next state but for one, an event of a unit that the module does not have (R1): the list names the units, with the numbers that each may bear.
What the spec leaves open in it is the model's choice (log entry 1). -/
def Obligations.NothingIsRefused : Prop :=
  ∀ (i : Instr) (s : State), (∃ t, exec i s = .next t) ∨ (exec i s = .fault .noSuchUnit ∧ namesNoUnit i)

end Claims
end

