-- ==== Sys2Proof/Laws/State.lean ====
section
/-! SUPPORT. One lemma per field of State and update, and what a table, a register file and a hart read after an update. -/

namespace Sys2Proof.Machine

/-! ## Tables -/

section Tables
variable {κ α : Type} [DecidableEq κ]

@[simp] theorem tget_tset_same (d : α) (k : κ) (v : α) (t : Tbl κ α) : tget d k (tset k v t) = v := by
  induction t with
  | nil => simp [tset, tget]
  | cons p r ih =>
    simp only [tset]
    split <;> simp_all [tget]

theorem tget_tset_ne (d : α) {k k' : κ} (h : k' ≠ k) (v : α) (t : Tbl κ α) : tget d k (tset k' v t) = tget d k t := by
  induction t with
  | nil => simp [tset, tget, h]
  | cons p r ih =>
    simp only [tset]
    split <;> simp_all [tget]

@[simp] theorem tfind_tset_same (k : κ) (v : α) (t : Tbl κ α) : tfind k (tset k v t) = some v := by
  induction t with
  | nil => simp [tset, tfind]
  | cons p r ih =>
    simp only [tset]
    split <;> simp_all [tfind]

theorem tfind_tset_ne {k k' : κ} (h : k' ≠ k) (v : α) (t : Tbl κ α) : tfind k (tset k' v t) = tfind k t := by
  induction t with
  | nil => simp [tset, tfind, h]
  | cons p r ih =>
    simp only [tset]
    split <;> simp_all [tfind]

end Tables

/-! ## Fields of State -/

@[simp] theorem State.setHart_clock (s : State) (a : AgentId) (h : Hart) : (s.setHart a h).clock = s.clock := rfl
@[simp] theorem State.setHart_freeCtr (s : State) (a : AgentId) (h : Hart) : (s.setHart a h).freeCtr = s.freeCtr := rfl
@[simp] theorem State.setHart_cur (s : State) (a : AgentId) (h : Hart) : (s.setHart a h).cur = s.cur := rfl
@[simp] theorem State.setHart_agenda (s : State) (a : AgentId) (h : Hart) : (s.setHart a h).agenda = s.agenda := rfl
@[simp] theorem State.setHart_turn (s : State) (a : AgentId) (h : Hart) : (s.setHart a h).turn = s.turn := rfl
@[simp] theorem State.setHart_cores (s : State) (a : AgentId) (h : Hart) : (s.setHart a h).cores = s.cores := rfl
@[simp] theorem State.setHart_segments (s : State) (a : AgentId) (h : Hart) : (s.setHart a h).segments = s.segments := rfl
@[simp] theorem State.setHart_tiles (s : State) (a : AgentId) (h : Hart) : (s.setHart a h).tiles = s.tiles := rfl
@[simp] theorem State.setHart_engines (s : State) (a : AgentId) (h : Hart) : (s.setHart a h).engines = s.engines := rfl
@[simp] theorem State.setHart_freed (s : State) (a : AgentId) (h : Hart) : (s.setHart a h).freed = s.freed := rfl
@[simp] theorem State.setHart_landings (s : State) (a : AgentId) (h : Hart) : (s.setHart a h).landings = s.landings := rfl
@[simp] theorem State.setHart_blocks (s : State) (a : AgentId) (h : Hart) : (s.setHart a h).blocks = s.blocks := rfl
@[simp] theorem State.setHart_epilogues (s : State) (a : AgentId) (h : Hart) : (s.setHart a h).epilogues = s.epilogues := rfl
@[simp] theorem State.setHart_weirs (s : State) (a : AgentId) (h : Hart) : (s.setHart a h).weirs = s.weirs := rfl
@[simp] theorem State.setHart_notices (s : State) (a : AgentId) (h : Hart) : (s.setHart a h).notices = s.notices := rfl
@[simp] theorem State.setHart_credits (s : State) (a : AgentId) (h : Hart) : (s.setHart a h).credits = s.credits := rfl
@[simp] theorem State.setHart_tracks (s : State) (a : AgentId) (h : Hart) : (s.setHart a h).tracks = s.tracks := rfl
@[simp] theorem State.setHart_mem (s : State) (a : AgentId) (h : Hart) : (s.setHart a h).mem = s.mem := rfl
@[simp] theorem State.setHart_mere (s : State) (a : AgentId) (h : Hart) : (s.setHart a h).mere = s.mere := rfl
@[simp] theorem State.setHart_regions (s : State) (a : AgentId) (h : Hart) : (s.setHart a h).regions = s.regions := rfl
@[simp] theorem State.setHart_ports (s : State) (a : AgentId) (h : Hart) : (s.setHart a h).ports = s.ports := rfl
@[simp] theorem State.setHart_nodes (s : State) (a : AgentId) (h : Hart) : (s.setHart a h).nodes = s.nodes := rfl
@[simp] theorem State.setHart_nextNode (s : State) (a : AgentId) (h : Hart) : (s.setHart a h).nextNode = s.nextNode := rfl
@[simp] theorem State.setHart_queues (s : State) (a : AgentId) (h : Hart) : (s.setHart a h).queues = s.queues := rfl
@[simp] theorem State.setHart_tasks (s : State) (a : AgentId) (h : Hart) : (s.setHart a h).tasks = s.tasks := rfl
@[simp] theorem State.setHart_nextTask (s : State) (a : AgentId) (h : Hart) : (s.setHart a h).nextTask = s.nextTask := rfl
@[simp] theorem State.setHart_saves (s : State) (a : AgentId) (h : Hart) : (s.setHart a h).saves = s.saves := rfl
@[simp] theorem State.setHart_maps (s : State) (a : AgentId) (h : Hart) : (s.setHart a h).maps = s.maps := rfl
@[simp] theorem State.setHart_reports (s : State) (a : AgentId) (h : Hart) : (s.setHart a h).reports = s.reports := rfl
@[simp] theorem State.setHart_links (s : State) (a : AgentId) (h : Hart) : (s.setHart a h).links = s.links := rfl
@[simp] theorem State.setHart_scaleUp (s : State) (a : AgentId) (h : Hart) : (s.setHart a h).scaleUp = s.scaleUp := rfl
@[simp] theorem State.setHart_routes (s : State) (a : AgentId) (h : Hart) : (s.setHart a h).routes = s.routes := rfl
@[simp] theorem State.setHart_peersDown (s : State) (a : AgentId) (h : Hart) : (s.setHart a h).peersDown = s.peersDown := rfl
@[simp] theorem State.setHart_frontWrites (s : State) (a : AgentId) (h : Hart) : (s.setHart a h).frontWrites = s.frontWrites := rfl
@[simp] theorem State.setHart_renqCredits (s : State) (a : AgentId) (h : Hart) : (s.setHart a h).renqCredits = s.renqCredits := rfl
@[simp] theorem State.setHart_renqs (s : State) (a : AgentId) (h : Hart) : (s.setHart a h).renqs = s.renqs := rfl
@[simp] theorem State.setHart_posted (s : State) (a : AgentId) (h : Hart) : (s.setHart a h).posted = s.posted := rfl
@[simp] theorem State.setHart_homes (s : State) (a : AgentId) (h : Hart) : (s.setHart a h).homes = s.homes := rfl
@[simp] theorem State.setHart_service (s : State) (a : AgentId) (h : Hart) : (s.setHart a h).service = s.service := rfl

@[simp] theorem State.setMe_clock (s : State) (h : Hart) : (s.setMe h).clock = s.clock := rfl
@[simp] theorem State.setMe_freeCtr (s : State) (h : Hart) : (s.setMe h).freeCtr = s.freeCtr := rfl
@[simp] theorem State.setMe_cur (s : State) (h : Hart) : (s.setMe h).cur = s.cur := rfl
@[simp] theorem State.setMe_agenda (s : State) (h : Hart) : (s.setMe h).agenda = s.agenda := rfl
@[simp] theorem State.setMe_turn (s : State) (h : Hart) : (s.setMe h).turn = s.turn := rfl
@[simp] theorem State.setMe_cores (s : State) (h : Hart) : (s.setMe h).cores = s.cores := rfl
@[simp] theorem State.setMe_segments (s : State) (h : Hart) : (s.setMe h).segments = s.segments := rfl
@[simp] theorem State.setMe_tiles (s : State) (h : Hart) : (s.setMe h).tiles = s.tiles := rfl
@[simp] theorem State.setMe_engines (s : State) (h : Hart) : (s.setMe h).engines = s.engines := rfl
@[simp] theorem State.setMe_freed (s : State) (h : Hart) : (s.setMe h).freed = s.freed := rfl
@[simp] theorem State.setMe_landings (s : State) (h : Hart) : (s.setMe h).landings = s.landings := rfl
@[simp] theorem State.setMe_blocks (s : State) (h : Hart) : (s.setMe h).blocks = s.blocks := rfl
@[simp] theorem State.setMe_epilogues (s : State) (h : Hart) : (s.setMe h).epilogues = s.epilogues := rfl
@[simp] theorem State.setMe_weirs (s : State) (h : Hart) : (s.setMe h).weirs = s.weirs := rfl
@[simp] theorem State.setMe_notices (s : State) (h : Hart) : (s.setMe h).notices = s.notices := rfl
@[simp] theorem State.setMe_credits (s : State) (h : Hart) : (s.setMe h).credits = s.credits := rfl
@[simp] theorem State.setMe_tracks (s : State) (h : Hart) : (s.setMe h).tracks = s.tracks := rfl
@[simp] theorem State.setMe_mem (s : State) (h : Hart) : (s.setMe h).mem = s.mem := rfl
@[simp] theorem State.setMe_mere (s : State) (h : Hart) : (s.setMe h).mere = s.mere := rfl
@[simp] theorem State.setMe_regions (s : State) (h : Hart) : (s.setMe h).regions = s.regions := rfl
@[simp] theorem State.setMe_ports (s : State) (h : Hart) : (s.setMe h).ports = s.ports := rfl
@[simp] theorem State.setMe_nodes (s : State) (h : Hart) : (s.setMe h).nodes = s.nodes := rfl
@[simp] theorem State.setMe_nextNode (s : State) (h : Hart) : (s.setMe h).nextNode = s.nextNode := rfl
@[simp] theorem State.setMe_queues (s : State) (h : Hart) : (s.setMe h).queues = s.queues := rfl
@[simp] theorem State.setMe_tasks (s : State) (h : Hart) : (s.setMe h).tasks = s.tasks := rfl
@[simp] theorem State.setMe_nextTask (s : State) (h : Hart) : (s.setMe h).nextTask = s.nextTask := rfl
@[simp] theorem State.setMe_saves (s : State) (h : Hart) : (s.setMe h).saves = s.saves := rfl
@[simp] theorem State.setMe_maps (s : State) (h : Hart) : (s.setMe h).maps = s.maps := rfl
@[simp] theorem State.setMe_reports (s : State) (h : Hart) : (s.setMe h).reports = s.reports := rfl
@[simp] theorem State.setMe_links (s : State) (h : Hart) : (s.setMe h).links = s.links := rfl
@[simp] theorem State.setMe_scaleUp (s : State) (h : Hart) : (s.setMe h).scaleUp = s.scaleUp := rfl
@[simp] theorem State.setMe_routes (s : State) (h : Hart) : (s.setMe h).routes = s.routes := rfl
@[simp] theorem State.setMe_peersDown (s : State) (h : Hart) : (s.setMe h).peersDown = s.peersDown := rfl
@[simp] theorem State.setMe_frontWrites (s : State) (h : Hart) : (s.setMe h).frontWrites = s.frontWrites := rfl
@[simp] theorem State.setMe_renqCredits (s : State) (h : Hart) : (s.setMe h).renqCredits = s.renqCredits := rfl
@[simp] theorem State.setMe_renqs (s : State) (h : Hart) : (s.setMe h).renqs = s.renqs := rfl
@[simp] theorem State.setMe_posted (s : State) (h : Hart) : (s.setMe h).posted = s.posted := rfl
@[simp] theorem State.setMe_homes (s : State) (h : Hart) : (s.setMe h).homes = s.homes := rfl
@[simp] theorem State.setMe_service (s : State) (h : Hart) : (s.setMe h).service = s.service := rfl

@[simp] theorem State.setCore_clock (s : State) (c : Nat) (k : Core) : (s.setCore c k).clock = s.clock := rfl
@[simp] theorem State.setCore_freeCtr (s : State) (c : Nat) (k : Core) : (s.setCore c k).freeCtr = s.freeCtr := rfl
@[simp] theorem State.setCore_cur (s : State) (c : Nat) (k : Core) : (s.setCore c k).cur = s.cur := rfl
@[simp] theorem State.setCore_agenda (s : State) (c : Nat) (k : Core) : (s.setCore c k).agenda = s.agenda := rfl
@[simp] theorem State.setCore_turn (s : State) (c : Nat) (k : Core) : (s.setCore c k).turn = s.turn := rfl
@[simp] theorem State.setCore_harts (s : State) (c : Nat) (k : Core) : (s.setCore c k).harts = s.harts := rfl
@[simp] theorem State.setCore_segments (s : State) (c : Nat) (k : Core) : (s.setCore c k).segments = s.segments := rfl
@[simp] theorem State.setCore_tiles (s : State) (c : Nat) (k : Core) : (s.setCore c k).tiles = s.tiles := rfl
@[simp] theorem State.setCore_engines (s : State) (c : Nat) (k : Core) : (s.setCore c k).engines = s.engines := rfl
@[simp] theorem State.setCore_freed (s : State) (c : Nat) (k : Core) : (s.setCore c k).freed = s.freed := rfl
@[simp] theorem State.setCore_landings (s : State) (c : Nat) (k : Core) : (s.setCore c k).landings = s.landings := rfl
@[simp] theorem State.setCore_blocks (s : State) (c : Nat) (k : Core) : (s.setCore c k).blocks = s.blocks := rfl
@[simp] theorem State.setCore_epilogues (s : State) (c : Nat) (k : Core) : (s.setCore c k).epilogues = s.epilogues := rfl
@[simp] theorem State.setCore_weirs (s : State) (c : Nat) (k : Core) : (s.setCore c k).weirs = s.weirs := rfl
@[simp] theorem State.setCore_notices (s : State) (c : Nat) (k : Core) : (s.setCore c k).notices = s.notices := rfl
@[simp] theorem State.setCore_credits (s : State) (c : Nat) (k : Core) : (s.setCore c k).credits = s.credits := rfl
@[simp] theorem State.setCore_tracks (s : State) (c : Nat) (k : Core) : (s.setCore c k).tracks = s.tracks := rfl
@[simp] theorem State.setCore_mem (s : State) (c : Nat) (k : Core) : (s.setCore c k).mem = s.mem := rfl
@[simp] theorem State.setCore_mere (s : State) (c : Nat) (k : Core) : (s.setCore c k).mere = s.mere := rfl
@[simp] theorem State.setCore_regions (s : State) (c : Nat) (k : Core) : (s.setCore c k).regions = s.regions := rfl
@[simp] theorem State.setCore_ports (s : State) (c : Nat) (k : Core) : (s.setCore c k).ports = s.ports := rfl
@[simp] theorem State.setCore_nodes (s : State) (c : Nat) (k : Core) : (s.setCore c k).nodes = s.nodes := rfl
@[simp] theorem State.setCore_nextNode (s : State) (c : Nat) (k : Core) : (s.setCore c k).nextNode = s.nextNode := rfl
@[simp] theorem State.setCore_queues (s : State) (c : Nat) (k : Core) : (s.setCore c k).queues = s.queues := rfl
@[simp] theorem State.setCore_tasks (s : State) (c : Nat) (k : Core) : (s.setCore c k).tasks = s.tasks := rfl
@[simp] theorem State.setCore_nextTask (s : State) (c : Nat) (k : Core) : (s.setCore c k).nextTask = s.nextTask := rfl
@[simp] theorem State.setCore_saves (s : State) (c : Nat) (k : Core) : (s.setCore c k).saves = s.saves := rfl
@[simp] theorem State.setCore_maps (s : State) (c : Nat) (k : Core) : (s.setCore c k).maps = s.maps := rfl
@[simp] theorem State.setCore_reports (s : State) (c : Nat) (k : Core) : (s.setCore c k).reports = s.reports := rfl
@[simp] theorem State.setCore_links (s : State) (c : Nat) (k : Core) : (s.setCore c k).links = s.links := rfl
@[simp] theorem State.setCore_scaleUp (s : State) (c : Nat) (k : Core) : (s.setCore c k).scaleUp = s.scaleUp := rfl
@[simp] theorem State.setCore_routes (s : State) (c : Nat) (k : Core) : (s.setCore c k).routes = s.routes := rfl
@[simp] theorem State.setCore_peersDown (s : State) (c : Nat) (k : Core) : (s.setCore c k).peersDown = s.peersDown := rfl
@[simp] theorem State.setCore_frontWrites (s : State) (c : Nat) (k : Core) : (s.setCore c k).frontWrites = s.frontWrites := rfl
@[simp] theorem State.setCore_renqCredits (s : State) (c : Nat) (k : Core) : (s.setCore c k).renqCredits = s.renqCredits := rfl
@[simp] theorem State.setCore_renqs (s : State) (c : Nat) (k : Core) : (s.setCore c k).renqs = s.renqs := rfl
@[simp] theorem State.setCore_posted (s : State) (c : Nat) (k : Core) : (s.setCore c k).posted = s.posted := rfl
@[simp] theorem State.setCore_homes (s : State) (c : Nat) (k : Core) : (s.setCore c k).homes = s.homes := rfl
@[simp] theorem State.setCore_service (s : State) (c : Nat) (k : Core) : (s.setCore c k).service = s.service := rfl

@[simp] theorem State.setSegment_clock (s : State) (cl : Nat) (g : Segment) : (s.setSegment cl g).clock = s.clock := rfl
@[simp] theorem State.setSegment_freeCtr (s : State) (cl : Nat) (g : Segment) : (s.setSegment cl g).freeCtr = s.freeCtr := rfl
@[simp] theorem State.setSegment_cur (s : State) (cl : Nat) (g : Segment) : (s.setSegment cl g).cur = s.cur := rfl
@[simp] theorem State.setSegment_agenda (s : State) (cl : Nat) (g : Segment) : (s.setSegment cl g).agenda = s.agenda := rfl
@[simp] theorem State.setSegment_turn (s : State) (cl : Nat) (g : Segment) : (s.setSegment cl g).turn = s.turn := rfl
@[simp] theorem State.setSegment_harts (s : State) (cl : Nat) (g : Segment) : (s.setSegment cl g).harts = s.harts := rfl
@[simp] theorem State.setSegment_cores (s : State) (cl : Nat) (g : Segment) : (s.setSegment cl g).cores = s.cores := rfl
@[simp] theorem State.setSegment_tiles (s : State) (cl : Nat) (g : Segment) : (s.setSegment cl g).tiles = s.tiles := rfl
@[simp] theorem State.setSegment_engines (s : State) (cl : Nat) (g : Segment) : (s.setSegment cl g).engines = s.engines := rfl
@[simp] theorem State.setSegment_freed (s : State) (cl : Nat) (g : Segment) : (s.setSegment cl g).freed = s.freed := rfl
@[simp] theorem State.setSegment_landings (s : State) (cl : Nat) (g : Segment) : (s.setSegment cl g).landings = s.landings := rfl
@[simp] theorem State.setSegment_blocks (s : State) (cl : Nat) (g : Segment) : (s.setSegment cl g).blocks = s.blocks := rfl
@[simp] theorem State.setSegment_epilogues (s : State) (cl : Nat) (g : Segment) : (s.setSegment cl g).epilogues = s.epilogues := rfl
@[simp] theorem State.setSegment_weirs (s : State) (cl : Nat) (g : Segment) : (s.setSegment cl g).weirs = s.weirs := rfl
@[simp] theorem State.setSegment_notices (s : State) (cl : Nat) (g : Segment) : (s.setSegment cl g).notices = s.notices := rfl
@[simp] theorem State.setSegment_credits (s : State) (cl : Nat) (g : Segment) : (s.setSegment cl g).credits = s.credits := rfl
@[simp] theorem State.setSegment_tracks (s : State) (cl : Nat) (g : Segment) : (s.setSegment cl g).tracks = s.tracks := rfl
@[simp] theorem State.setSegment_mem (s : State) (cl : Nat) (g : Segment) : (s.setSegment cl g).mem = s.mem := rfl
@[simp] theorem State.setSegment_mere (s : State) (cl : Nat) (g : Segment) : (s.setSegment cl g).mere = s.mere := rfl
@[simp] theorem State.setSegment_regions (s : State) (cl : Nat) (g : Segment) : (s.setSegment cl g).regions = s.regions := rfl
@[simp] theorem State.setSegment_ports (s : State) (cl : Nat) (g : Segment) : (s.setSegment cl g).ports = s.ports := rfl
@[simp] theorem State.setSegment_nodes (s : State) (cl : Nat) (g : Segment) : (s.setSegment cl g).nodes = s.nodes := rfl
@[simp] theorem State.setSegment_nextNode (s : State) (cl : Nat) (g : Segment) : (s.setSegment cl g).nextNode = s.nextNode := rfl
@[simp] theorem State.setSegment_queues (s : State) (cl : Nat) (g : Segment) : (s.setSegment cl g).queues = s.queues := rfl
@[simp] theorem State.setSegment_tasks (s : State) (cl : Nat) (g : Segment) : (s.setSegment cl g).tasks = s.tasks := rfl
@[simp] theorem State.setSegment_nextTask (s : State) (cl : Nat) (g : Segment) : (s.setSegment cl g).nextTask = s.nextTask := rfl
@[simp] theorem State.setSegment_saves (s : State) (cl : Nat) (g : Segment) : (s.setSegment cl g).saves = s.saves := rfl
@[simp] theorem State.setSegment_maps (s : State) (cl : Nat) (g : Segment) : (s.setSegment cl g).maps = s.maps := rfl
@[simp] theorem State.setSegment_reports (s : State) (cl : Nat) (g : Segment) : (s.setSegment cl g).reports = s.reports := rfl
@[simp] theorem State.setSegment_links (s : State) (cl : Nat) (g : Segment) : (s.setSegment cl g).links = s.links := rfl
@[simp] theorem State.setSegment_scaleUp (s : State) (cl : Nat) (g : Segment) : (s.setSegment cl g).scaleUp = s.scaleUp := rfl
@[simp] theorem State.setSegment_routes (s : State) (cl : Nat) (g : Segment) : (s.setSegment cl g).routes = s.routes := rfl
@[simp] theorem State.setSegment_peersDown (s : State) (cl : Nat) (g : Segment) : (s.setSegment cl g).peersDown = s.peersDown := rfl
@[simp] theorem State.setSegment_frontWrites (s : State) (cl : Nat) (g : Segment) : (s.setSegment cl g).frontWrites = s.frontWrites := rfl
@[simp] theorem State.setSegment_renqCredits (s : State) (cl : Nat) (g : Segment) : (s.setSegment cl g).renqCredits = s.renqCredits := rfl
@[simp] theorem State.setSegment_renqs (s : State) (cl : Nat) (g : Segment) : (s.setSegment cl g).renqs = s.renqs := rfl
@[simp] theorem State.setSegment_posted (s : State) (cl : Nat) (g : Segment) : (s.setSegment cl g).posted = s.posted := rfl
@[simp] theorem State.setSegment_homes (s : State) (cl : Nat) (g : Segment) : (s.setSegment cl g).homes = s.homes := rfl
@[simp] theorem State.setSegment_service (s : State) (cl : Nat) (g : Segment) : (s.setSegment cl g).service = s.service := rfl

@[simp] theorem State.setTile_clock (s : State) (cl pos : Nat) (t : Tile) : (s.setTile cl pos t).clock = s.clock := rfl
@[simp] theorem State.setTile_freeCtr (s : State) (cl pos : Nat) (t : Tile) : (s.setTile cl pos t).freeCtr = s.freeCtr := rfl
@[simp] theorem State.setTile_cur (s : State) (cl pos : Nat) (t : Tile) : (s.setTile cl pos t).cur = s.cur := rfl
@[simp] theorem State.setTile_agenda (s : State) (cl pos : Nat) (t : Tile) : (s.setTile cl pos t).agenda = s.agenda := rfl
@[simp] theorem State.setTile_turn (s : State) (cl pos : Nat) (t : Tile) : (s.setTile cl pos t).turn = s.turn := rfl
@[simp] theorem State.setTile_harts (s : State) (cl pos : Nat) (t : Tile) : (s.setTile cl pos t).harts = s.harts := rfl
@[simp] theorem State.setTile_cores (s : State) (cl pos : Nat) (t : Tile) : (s.setTile cl pos t).cores = s.cores := rfl
@[simp] theorem State.setTile_segments (s : State) (cl pos : Nat) (t : Tile) : (s.setTile cl pos t).segments = s.segments := rfl
@[simp] theorem State.setTile_engines (s : State) (cl pos : Nat) (t : Tile) : (s.setTile cl pos t).engines = s.engines := rfl
@[simp] theorem State.setTile_freed (s : State) (cl pos : Nat) (t : Tile) : (s.setTile cl pos t).freed = s.freed := rfl
@[simp] theorem State.setTile_landings (s : State) (cl pos : Nat) (t : Tile) : (s.setTile cl pos t).landings = s.landings := rfl
@[simp] theorem State.setTile_blocks (s : State) (cl pos : Nat) (t : Tile) : (s.setTile cl pos t).blocks = s.blocks := rfl
@[simp] theorem State.setTile_epilogues (s : State) (cl pos : Nat) (t : Tile) : (s.setTile cl pos t).epilogues = s.epilogues := rfl
@[simp] theorem State.setTile_weirs (s : State) (cl pos : Nat) (t : Tile) : (s.setTile cl pos t).weirs = s.weirs := rfl
@[simp] theorem State.setTile_notices (s : State) (cl pos : Nat) (t : Tile) : (s.setTile cl pos t).notices = s.notices := rfl
@[simp] theorem State.setTile_credits (s : State) (cl pos : Nat) (t : Tile) : (s.setTile cl pos t).credits = s.credits := rfl
@[simp] theorem State.setTile_tracks (s : State) (cl pos : Nat) (t : Tile) : (s.setTile cl pos t).tracks = s.tracks := rfl
@[simp] theorem State.setTile_mem (s : State) (cl pos : Nat) (t : Tile) : (s.setTile cl pos t).mem = s.mem := rfl
@[simp] theorem State.setTile_mere (s : State) (cl pos : Nat) (t : Tile) : (s.setTile cl pos t).mere = s.mere := rfl
@[simp] theorem State.setTile_regions (s : State) (cl pos : Nat) (t : Tile) : (s.setTile cl pos t).regions = s.regions := rfl
@[simp] theorem State.setTile_ports (s : State) (cl pos : Nat) (t : Tile) : (s.setTile cl pos t).ports = s.ports := rfl
@[simp] theorem State.setTile_nodes (s : State) (cl pos : Nat) (t : Tile) : (s.setTile cl pos t).nodes = s.nodes := rfl
@[simp] theorem State.setTile_nextNode (s : State) (cl pos : Nat) (t : Tile) : (s.setTile cl pos t).nextNode = s.nextNode := rfl
@[simp] theorem State.setTile_queues (s : State) (cl pos : Nat) (t : Tile) : (s.setTile cl pos t).queues = s.queues := rfl
@[simp] theorem State.setTile_tasks (s : State) (cl pos : Nat) (t : Tile) : (s.setTile cl pos t).tasks = s.tasks := rfl
@[simp] theorem State.setTile_nextTask (s : State) (cl pos : Nat) (t : Tile) : (s.setTile cl pos t).nextTask = s.nextTask := rfl
@[simp] theorem State.setTile_saves (s : State) (cl pos : Nat) (t : Tile) : (s.setTile cl pos t).saves = s.saves := rfl
@[simp] theorem State.setTile_maps (s : State) (cl pos : Nat) (t : Tile) : (s.setTile cl pos t).maps = s.maps := rfl
@[simp] theorem State.setTile_reports (s : State) (cl pos : Nat) (t : Tile) : (s.setTile cl pos t).reports = s.reports := rfl
@[simp] theorem State.setTile_links (s : State) (cl pos : Nat) (t : Tile) : (s.setTile cl pos t).links = s.links := rfl
@[simp] theorem State.setTile_scaleUp (s : State) (cl pos : Nat) (t : Tile) : (s.setTile cl pos t).scaleUp = s.scaleUp := rfl
@[simp] theorem State.setTile_routes (s : State) (cl pos : Nat) (t : Tile) : (s.setTile cl pos t).routes = s.routes := rfl
@[simp] theorem State.setTile_peersDown (s : State) (cl pos : Nat) (t : Tile) : (s.setTile cl pos t).peersDown = s.peersDown := rfl
@[simp] theorem State.setTile_frontWrites (s : State) (cl pos : Nat) (t : Tile) : (s.setTile cl pos t).frontWrites = s.frontWrites := rfl
@[simp] theorem State.setTile_renqCredits (s : State) (cl pos : Nat) (t : Tile) : (s.setTile cl pos t).renqCredits = s.renqCredits := rfl
@[simp] theorem State.setTile_renqs (s : State) (cl pos : Nat) (t : Tile) : (s.setTile cl pos t).renqs = s.renqs := rfl
@[simp] theorem State.setTile_posted (s : State) (cl pos : Nat) (t : Tile) : (s.setTile cl pos t).posted = s.posted := rfl
@[simp] theorem State.setTile_homes (s : State) (cl pos : Nat) (t : Tile) : (s.setTile cl pos t).homes = s.homes := rfl
@[simp] theorem State.setTile_service (s : State) (cl pos : Nat) (t : Tile) : (s.setTile cl pos t).service = s.service := rfl

@[simp] theorem State.setEngine_clock (s : State) (e : Nat) (c : CopyEngine) : (s.setEngine e c).clock = s.clock := rfl
@[simp] theorem State.setEngine_freeCtr (s : State) (e : Nat) (c : CopyEngine) : (s.setEngine e c).freeCtr = s.freeCtr := rfl
@[simp] theorem State.setEngine_cur (s : State) (e : Nat) (c : CopyEngine) : (s.setEngine e c).cur = s.cur := rfl
@[simp] theorem State.setEngine_agenda (s : State) (e : Nat) (c : CopyEngine) : (s.setEngine e c).agenda = s.agenda := rfl
@[simp] theorem State.setEngine_turn (s : State) (e : Nat) (c : CopyEngine) : (s.setEngine e c).turn = s.turn := rfl
@[simp] theorem State.setEngine_harts (s : State) (e : Nat) (c : CopyEngine) : (s.setEngine e c).harts = s.harts := rfl
@[simp] theorem State.setEngine_cores (s : State) (e : Nat) (c : CopyEngine) : (s.setEngine e c).cores = s.cores := rfl
@[simp] theorem State.setEngine_segments (s : State) (e : Nat) (c : CopyEngine) : (s.setEngine e c).segments = s.segments := rfl
@[simp] theorem State.setEngine_tiles (s : State) (e : Nat) (c : CopyEngine) : (s.setEngine e c).tiles = s.tiles := rfl
@[simp] theorem State.setEngine_freed (s : State) (e : Nat) (c : CopyEngine) : (s.setEngine e c).freed = s.freed := rfl
@[simp] theorem State.setEngine_landings (s : State) (e : Nat) (c : CopyEngine) : (s.setEngine e c).landings = s.landings := rfl
@[simp] theorem State.setEngine_blocks (s : State) (e : Nat) (c : CopyEngine) : (s.setEngine e c).blocks = s.blocks := rfl
@[simp] theorem State.setEngine_epilogues (s : State) (e : Nat) (c : CopyEngine) : (s.setEngine e c).epilogues = s.epilogues := rfl
@[simp] theorem State.setEngine_weirs (s : State) (e : Nat) (c : CopyEngine) : (s.setEngine e c).weirs = s.weirs := rfl
@[simp] theorem State.setEngine_notices (s : State) (e : Nat) (c : CopyEngine) : (s.setEngine e c).notices = s.notices := rfl
@[simp] theorem State.setEngine_credits (s : State) (e : Nat) (c : CopyEngine) : (s.setEngine e c).credits = s.credits := rfl
@[simp] theorem State.setEngine_tracks (s : State) (e : Nat) (c : CopyEngine) : (s.setEngine e c).tracks = s.tracks := rfl
@[simp] theorem State.setEngine_mem (s : State) (e : Nat) (c : CopyEngine) : (s.setEngine e c).mem = s.mem := rfl
@[simp] theorem State.setEngine_mere (s : State) (e : Nat) (c : CopyEngine) : (s.setEngine e c).mere = s.mere := rfl
@[simp] theorem State.setEngine_regions (s : State) (e : Nat) (c : CopyEngine) : (s.setEngine e c).regions = s.regions := rfl
@[simp] theorem State.setEngine_ports (s : State) (e : Nat) (c : CopyEngine) : (s.setEngine e c).ports = s.ports := rfl
@[simp] theorem State.setEngine_nodes (s : State) (e : Nat) (c : CopyEngine) : (s.setEngine e c).nodes = s.nodes := rfl
@[simp] theorem State.setEngine_nextNode (s : State) (e : Nat) (c : CopyEngine) : (s.setEngine e c).nextNode = s.nextNode := rfl
@[simp] theorem State.setEngine_queues (s : State) (e : Nat) (c : CopyEngine) : (s.setEngine e c).queues = s.queues := rfl
@[simp] theorem State.setEngine_tasks (s : State) (e : Nat) (c : CopyEngine) : (s.setEngine e c).tasks = s.tasks := rfl
@[simp] theorem State.setEngine_nextTask (s : State) (e : Nat) (c : CopyEngine) : (s.setEngine e c).nextTask = s.nextTask := rfl
@[simp] theorem State.setEngine_saves (s : State) (e : Nat) (c : CopyEngine) : (s.setEngine e c).saves = s.saves := rfl
@[simp] theorem State.setEngine_maps (s : State) (e : Nat) (c : CopyEngine) : (s.setEngine e c).maps = s.maps := rfl
@[simp] theorem State.setEngine_reports (s : State) (e : Nat) (c : CopyEngine) : (s.setEngine e c).reports = s.reports := rfl
@[simp] theorem State.setEngine_links (s : State) (e : Nat) (c : CopyEngine) : (s.setEngine e c).links = s.links := rfl
@[simp] theorem State.setEngine_scaleUp (s : State) (e : Nat) (c : CopyEngine) : (s.setEngine e c).scaleUp = s.scaleUp := rfl
@[simp] theorem State.setEngine_routes (s : State) (e : Nat) (c : CopyEngine) : (s.setEngine e c).routes = s.routes := rfl
@[simp] theorem State.setEngine_peersDown (s : State) (e : Nat) (c : CopyEngine) : (s.setEngine e c).peersDown = s.peersDown := rfl
@[simp] theorem State.setEngine_frontWrites (s : State) (e : Nat) (c : CopyEngine) : (s.setEngine e c).frontWrites = s.frontWrites := rfl
@[simp] theorem State.setEngine_renqCredits (s : State) (e : Nat) (c : CopyEngine) : (s.setEngine e c).renqCredits = s.renqCredits := rfl
@[simp] theorem State.setEngine_renqs (s : State) (e : Nat) (c : CopyEngine) : (s.setEngine e c).renqs = s.renqs := rfl
@[simp] theorem State.setEngine_posted (s : State) (e : Nat) (c : CopyEngine) : (s.setEngine e c).posted = s.posted := rfl
@[simp] theorem State.setEngine_homes (s : State) (e : Nat) (c : CopyEngine) : (s.setEngine e c).homes = s.homes := rfl
@[simp] theorem State.setEngine_service (s : State) (e : Nat) (c : CopyEngine) : (s.setEngine e c).service = s.service := rfl

@[simp] theorem State.setBlock_clock (s : State) (b : Nat) (k : Block) : (s.setBlock b k).clock = s.clock := rfl
@[simp] theorem State.setBlock_freeCtr (s : State) (b : Nat) (k : Block) : (s.setBlock b k).freeCtr = s.freeCtr := rfl
@[simp] theorem State.setBlock_cur (s : State) (b : Nat) (k : Block) : (s.setBlock b k).cur = s.cur := rfl
@[simp] theorem State.setBlock_agenda (s : State) (b : Nat) (k : Block) : (s.setBlock b k).agenda = s.agenda := rfl
@[simp] theorem State.setBlock_turn (s : State) (b : Nat) (k : Block) : (s.setBlock b k).turn = s.turn := rfl
@[simp] theorem State.setBlock_harts (s : State) (b : Nat) (k : Block) : (s.setBlock b k).harts = s.harts := rfl
@[simp] theorem State.setBlock_cores (s : State) (b : Nat) (k : Block) : (s.setBlock b k).cores = s.cores := rfl
@[simp] theorem State.setBlock_segments (s : State) (b : Nat) (k : Block) : (s.setBlock b k).segments = s.segments := rfl
@[simp] theorem State.setBlock_tiles (s : State) (b : Nat) (k : Block) : (s.setBlock b k).tiles = s.tiles := rfl
@[simp] theorem State.setBlock_engines (s : State) (b : Nat) (k : Block) : (s.setBlock b k).engines = s.engines := rfl
@[simp] theorem State.setBlock_freed (s : State) (b : Nat) (k : Block) : (s.setBlock b k).freed = s.freed := rfl
@[simp] theorem State.setBlock_landings (s : State) (b : Nat) (k : Block) : (s.setBlock b k).landings = s.landings := rfl
@[simp] theorem State.setBlock_epilogues (s : State) (b : Nat) (k : Block) : (s.setBlock b k).epilogues = s.epilogues := rfl
@[simp] theorem State.setBlock_weirs (s : State) (b : Nat) (k : Block) : (s.setBlock b k).weirs = s.weirs := rfl
@[simp] theorem State.setBlock_notices (s : State) (b : Nat) (k : Block) : (s.setBlock b k).notices = s.notices := rfl
@[simp] theorem State.setBlock_credits (s : State) (b : Nat) (k : Block) : (s.setBlock b k).credits = s.credits := rfl
@[simp] theorem State.setBlock_tracks (s : State) (b : Nat) (k : Block) : (s.setBlock b k).tracks = s.tracks := rfl
@[simp] theorem State.setBlock_mem (s : State) (b : Nat) (k : Block) : (s.setBlock b k).mem = s.mem := rfl
@[simp] theorem State.setBlock_mere (s : State) (b : Nat) (k : Block) : (s.setBlock b k).mere = s.mere := rfl
@[simp] theorem State.setBlock_regions (s : State) (b : Nat) (k : Block) : (s.setBlock b k).regions = s.regions := rfl
@[simp] theorem State.setBlock_ports (s : State) (b : Nat) (k : Block) : (s.setBlock b k).ports = s.ports := rfl
@[simp] theorem State.setBlock_nodes (s : State) (b : Nat) (k : Block) : (s.setBlock b k).nodes = s.nodes := rfl
@[simp] theorem State.setBlock_nextNode (s : State) (b : Nat) (k : Block) : (s.setBlock b k).nextNode = s.nextNode := rfl
@[simp] theorem State.setBlock_queues (s : State) (b : Nat) (k : Block) : (s.setBlock b k).queues = s.queues := rfl
@[simp] theorem State.setBlock_tasks (s : State) (b : Nat) (k : Block) : (s.setBlock b k).tasks = s.tasks := rfl
@[simp] theorem State.setBlock_nextTask (s : State) (b : Nat) (k : Block) : (s.setBlock b k).nextTask = s.nextTask := rfl
@[simp] theorem State.setBlock_saves (s : State) (b : Nat) (k : Block) : (s.setBlock b k).saves = s.saves := rfl
@[simp] theorem State.setBlock_maps (s : State) (b : Nat) (k : Block) : (s.setBlock b k).maps = s.maps := rfl
@[simp] theorem State.setBlock_reports (s : State) (b : Nat) (k : Block) : (s.setBlock b k).reports = s.reports := rfl
@[simp] theorem State.setBlock_links (s : State) (b : Nat) (k : Block) : (s.setBlock b k).links = s.links := rfl
@[simp] theorem State.setBlock_scaleUp (s : State) (b : Nat) (k : Block) : (s.setBlock b k).scaleUp = s.scaleUp := rfl
@[simp] theorem State.setBlock_routes (s : State) (b : Nat) (k : Block) : (s.setBlock b k).routes = s.routes := rfl
@[simp] theorem State.setBlock_peersDown (s : State) (b : Nat) (k : Block) : (s.setBlock b k).peersDown = s.peersDown := rfl
@[simp] theorem State.setBlock_frontWrites (s : State) (b : Nat) (k : Block) : (s.setBlock b k).frontWrites = s.frontWrites := rfl
@[simp] theorem State.setBlock_renqCredits (s : State) (b : Nat) (k : Block) : (s.setBlock b k).renqCredits = s.renqCredits := rfl
@[simp] theorem State.setBlock_renqs (s : State) (b : Nat) (k : Block) : (s.setBlock b k).renqs = s.renqs := rfl
@[simp] theorem State.setBlock_posted (s : State) (b : Nat) (k : Block) : (s.setBlock b k).posted = s.posted := rfl
@[simp] theorem State.setBlock_homes (s : State) (b : Nat) (k : Block) : (s.setBlock b k).homes = s.homes := rfl
@[simp] theorem State.setBlock_service (s : State) (b : Nat) (k : Block) : (s.setBlock b k).service = s.service := rfl

@[simp] theorem State.setEpilogue_clock (s : State) (b : Nat) (e : Epilogue) : (s.setEpilogue b e).clock = s.clock := rfl
@[simp] theorem State.setEpilogue_freeCtr (s : State) (b : Nat) (e : Epilogue) : (s.setEpilogue b e).freeCtr = s.freeCtr := rfl
@[simp] theorem State.setEpilogue_cur (s : State) (b : Nat) (e : Epilogue) : (s.setEpilogue b e).cur = s.cur := rfl
@[simp] theorem State.setEpilogue_agenda (s : State) (b : Nat) (e : Epilogue) : (s.setEpilogue b e).agenda = s.agenda := rfl
@[simp] theorem State.setEpilogue_turn (s : State) (b : Nat) (e : Epilogue) : (s.setEpilogue b e).turn = s.turn := rfl
@[simp] theorem State.setEpilogue_harts (s : State) (b : Nat) (e : Epilogue) : (s.setEpilogue b e).harts = s.harts := rfl
@[simp] theorem State.setEpilogue_cores (s : State) (b : Nat) (e : Epilogue) : (s.setEpilogue b e).cores = s.cores := rfl
@[simp] theorem State.setEpilogue_segments (s : State) (b : Nat) (e : Epilogue) : (s.setEpilogue b e).segments = s.segments := rfl
@[simp] theorem State.setEpilogue_tiles (s : State) (b : Nat) (e : Epilogue) : (s.setEpilogue b e).tiles = s.tiles := rfl
@[simp] theorem State.setEpilogue_engines (s : State) (b : Nat) (e : Epilogue) : (s.setEpilogue b e).engines = s.engines := rfl
@[simp] theorem State.setEpilogue_freed (s : State) (b : Nat) (e : Epilogue) : (s.setEpilogue b e).freed = s.freed := rfl
@[simp] theorem State.setEpilogue_landings (s : State) (b : Nat) (e : Epilogue) : (s.setEpilogue b e).landings = s.landings := rfl
@[simp] theorem State.setEpilogue_blocks (s : State) (b : Nat) (e : Epilogue) : (s.setEpilogue b e).blocks = s.blocks := rfl
@[simp] theorem State.setEpilogue_weirs (s : State) (b : Nat) (e : Epilogue) : (s.setEpilogue b e).weirs = s.weirs := rfl
@[simp] theorem State.setEpilogue_notices (s : State) (b : Nat) (e : Epilogue) : (s.setEpilogue b e).notices = s.notices := rfl
@[simp] theorem State.setEpilogue_credits (s : State) (b : Nat) (e : Epilogue) : (s.setEpilogue b e).credits = s.credits := rfl
@[simp] theorem State.setEpilogue_tracks (s : State) (b : Nat) (e : Epilogue) : (s.setEpilogue b e).tracks = s.tracks := rfl
@[simp] theorem State.setEpilogue_mem (s : State) (b : Nat) (e : Epilogue) : (s.setEpilogue b e).mem = s.mem := rfl
@[simp] theorem State.setEpilogue_mere (s : State) (b : Nat) (e : Epilogue) : (s.setEpilogue b e).mere = s.mere := rfl
@[simp] theorem State.setEpilogue_regions (s : State) (b : Nat) (e : Epilogue) : (s.setEpilogue b e).regions = s.regions := rfl
@[simp] theorem State.setEpilogue_ports (s : State) (b : Nat) (e : Epilogue) : (s.setEpilogue b e).ports = s.ports := rfl
@[simp] theorem State.setEpilogue_nodes (s : State) (b : Nat) (e : Epilogue) : (s.setEpilogue b e).nodes = s.nodes := rfl
@[simp] theorem State.setEpilogue_nextNode (s : State) (b : Nat) (e : Epilogue) : (s.setEpilogue b e).nextNode = s.nextNode := rfl
@[simp] theorem State.setEpilogue_queues (s : State) (b : Nat) (e : Epilogue) : (s.setEpilogue b e).queues = s.queues := rfl
@[simp] theorem State.setEpilogue_tasks (s : State) (b : Nat) (e : Epilogue) : (s.setEpilogue b e).tasks = s.tasks := rfl
@[simp] theorem State.setEpilogue_nextTask (s : State) (b : Nat) (e : Epilogue) : (s.setEpilogue b e).nextTask = s.nextTask := rfl
@[simp] theorem State.setEpilogue_saves (s : State) (b : Nat) (e : Epilogue) : (s.setEpilogue b e).saves = s.saves := rfl
@[simp] theorem State.setEpilogue_maps (s : State) (b : Nat) (e : Epilogue) : (s.setEpilogue b e).maps = s.maps := rfl
@[simp] theorem State.setEpilogue_reports (s : State) (b : Nat) (e : Epilogue) : (s.setEpilogue b e).reports = s.reports := rfl
@[simp] theorem State.setEpilogue_links (s : State) (b : Nat) (e : Epilogue) : (s.setEpilogue b e).links = s.links := rfl
@[simp] theorem State.setEpilogue_scaleUp (s : State) (b : Nat) (e : Epilogue) : (s.setEpilogue b e).scaleUp = s.scaleUp := rfl
@[simp] theorem State.setEpilogue_routes (s : State) (b : Nat) (e : Epilogue) : (s.setEpilogue b e).routes = s.routes := rfl
@[simp] theorem State.setEpilogue_peersDown (s : State) (b : Nat) (e : Epilogue) : (s.setEpilogue b e).peersDown = s.peersDown := rfl
@[simp] theorem State.setEpilogue_frontWrites (s : State) (b : Nat) (e : Epilogue) : (s.setEpilogue b e).frontWrites = s.frontWrites := rfl
@[simp] theorem State.setEpilogue_renqCredits (s : State) (b : Nat) (e : Epilogue) : (s.setEpilogue b e).renqCredits = s.renqCredits := rfl
@[simp] theorem State.setEpilogue_renqs (s : State) (b : Nat) (e : Epilogue) : (s.setEpilogue b e).renqs = s.renqs := rfl
@[simp] theorem State.setEpilogue_posted (s : State) (b : Nat) (e : Epilogue) : (s.setEpilogue b e).posted = s.posted := rfl
@[simp] theorem State.setEpilogue_homes (s : State) (b : Nat) (e : Epilogue) : (s.setEpilogue b e).homes = s.homes := rfl
@[simp] theorem State.setEpilogue_service (s : State) (b : Nat) (e : Epilogue) : (s.setEpilogue b e).service = s.service := rfl

@[simp] theorem State.setWeir_clock (s : State) (w : Nat) (x : Weir) : (s.setWeir w x).clock = s.clock := rfl
@[simp] theorem State.setWeir_freeCtr (s : State) (w : Nat) (x : Weir) : (s.setWeir w x).freeCtr = s.freeCtr := rfl
@[simp] theorem State.setWeir_cur (s : State) (w : Nat) (x : Weir) : (s.setWeir w x).cur = s.cur := rfl
@[simp] theorem State.setWeir_agenda (s : State) (w : Nat) (x : Weir) : (s.setWeir w x).agenda = s.agenda := rfl
@[simp] theorem State.setWeir_turn (s : State) (w : Nat) (x : Weir) : (s.setWeir w x).turn = s.turn := rfl
@[simp] theorem State.setWeir_harts (s : State) (w : Nat) (x : Weir) : (s.setWeir w x).harts = s.harts := rfl
@[simp] theorem State.setWeir_cores (s : State) (w : Nat) (x : Weir) : (s.setWeir w x).cores = s.cores := rfl
@[simp] theorem State.setWeir_segments (s : State) (w : Nat) (x : Weir) : (s.setWeir w x).segments = s.segments := rfl
@[simp] theorem State.setWeir_tiles (s : State) (w : Nat) (x : Weir) : (s.setWeir w x).tiles = s.tiles := rfl
@[simp] theorem State.setWeir_engines (s : State) (w : Nat) (x : Weir) : (s.setWeir w x).engines = s.engines := rfl
@[simp] theorem State.setWeir_freed (s : State) (w : Nat) (x : Weir) : (s.setWeir w x).freed = s.freed := rfl
@[simp] theorem State.setWeir_landings (s : State) (w : Nat) (x : Weir) : (s.setWeir w x).landings = s.landings := rfl
@[simp] theorem State.setWeir_blocks (s : State) (w : Nat) (x : Weir) : (s.setWeir w x).blocks = s.blocks := rfl
@[simp] theorem State.setWeir_epilogues (s : State) (w : Nat) (x : Weir) : (s.setWeir w x).epilogues = s.epilogues := rfl
@[simp] theorem State.setWeir_notices (s : State) (w : Nat) (x : Weir) : (s.setWeir w x).notices = s.notices := rfl
@[simp] theorem State.setWeir_credits (s : State) (w : Nat) (x : Weir) : (s.setWeir w x).credits = s.credits := rfl
@[simp] theorem State.setWeir_tracks (s : State) (w : Nat) (x : Weir) : (s.setWeir w x).tracks = s.tracks := rfl
@[simp] theorem State.setWeir_mem (s : State) (w : Nat) (x : Weir) : (s.setWeir w x).mem = s.mem := rfl
@[simp] theorem State.setWeir_mere (s : State) (w : Nat) (x : Weir) : (s.setWeir w x).mere = s.mere := rfl
@[simp] theorem State.setWeir_regions (s : State) (w : Nat) (x : Weir) : (s.setWeir w x).regions = s.regions := rfl
@[simp] theorem State.setWeir_ports (s : State) (w : Nat) (x : Weir) : (s.setWeir w x).ports = s.ports := rfl
@[simp] theorem State.setWeir_nodes (s : State) (w : Nat) (x : Weir) : (s.setWeir w x).nodes = s.nodes := rfl
@[simp] theorem State.setWeir_nextNode (s : State) (w : Nat) (x : Weir) : (s.setWeir w x).nextNode = s.nextNode := rfl
@[simp] theorem State.setWeir_queues (s : State) (w : Nat) (x : Weir) : (s.setWeir w x).queues = s.queues := rfl
@[simp] theorem State.setWeir_tasks (s : State) (w : Nat) (x : Weir) : (s.setWeir w x).tasks = s.tasks := rfl
@[simp] theorem State.setWeir_nextTask (s : State) (w : Nat) (x : Weir) : (s.setWeir w x).nextTask = s.nextTask := rfl
@[simp] theorem State.setWeir_saves (s : State) (w : Nat) (x : Weir) : (s.setWeir w x).saves = s.saves := rfl
@[simp] theorem State.setWeir_maps (s : State) (w : Nat) (x : Weir) : (s.setWeir w x).maps = s.maps := rfl
@[simp] theorem State.setWeir_reports (s : State) (w : Nat) (x : Weir) : (s.setWeir w x).reports = s.reports := rfl
@[simp] theorem State.setWeir_links (s : State) (w : Nat) (x : Weir) : (s.setWeir w x).links = s.links := rfl
@[simp] theorem State.setWeir_scaleUp (s : State) (w : Nat) (x : Weir) : (s.setWeir w x).scaleUp = s.scaleUp := rfl
@[simp] theorem State.setWeir_routes (s : State) (w : Nat) (x : Weir) : (s.setWeir w x).routes = s.routes := rfl
@[simp] theorem State.setWeir_peersDown (s : State) (w : Nat) (x : Weir) : (s.setWeir w x).peersDown = s.peersDown := rfl
@[simp] theorem State.setWeir_frontWrites (s : State) (w : Nat) (x : Weir) : (s.setWeir w x).frontWrites = s.frontWrites := rfl
@[simp] theorem State.setWeir_renqCredits (s : State) (w : Nat) (x : Weir) : (s.setWeir w x).renqCredits = s.renqCredits := rfl
@[simp] theorem State.setWeir_renqs (s : State) (w : Nat) (x : Weir) : (s.setWeir w x).renqs = s.renqs := rfl
@[simp] theorem State.setWeir_posted (s : State) (w : Nat) (x : Weir) : (s.setWeir w x).posted = s.posted := rfl
@[simp] theorem State.setWeir_homes (s : State) (w : Nat) (x : Weir) : (s.setWeir w x).homes = s.homes := rfl
@[simp] theorem State.setWeir_service (s : State) (w : Nat) (x : Weir) : (s.setWeir w x).service = s.service := rfl

@[simp] theorem State.setTrack_clock (s : State) (task id : Nat) (t : Track) : (s.setTrack task id t).clock = s.clock := rfl
@[simp] theorem State.setTrack_freeCtr (s : State) (task id : Nat) (t : Track) : (s.setTrack task id t).freeCtr = s.freeCtr := rfl
@[simp] theorem State.setTrack_cur (s : State) (task id : Nat) (t : Track) : (s.setTrack task id t).cur = s.cur := rfl
@[simp] theorem State.setTrack_agenda (s : State) (task id : Nat) (t : Track) : (s.setTrack task id t).agenda = s.agenda := rfl
@[simp] theorem State.setTrack_turn (s : State) (task id : Nat) (t : Track) : (s.setTrack task id t).turn = s.turn := rfl
@[simp] theorem State.setTrack_harts (s : State) (task id : Nat) (t : Track) : (s.setTrack task id t).harts = s.harts := rfl
@[simp] theorem State.setTrack_cores (s : State) (task id : Nat) (t : Track) : (s.setTrack task id t).cores = s.cores := rfl
@[simp] theorem State.setTrack_segments (s : State) (task id : Nat) (t : Track) : (s.setTrack task id t).segments = s.segments := rfl
@[simp] theorem State.setTrack_tiles (s : State) (task id : Nat) (t : Track) : (s.setTrack task id t).tiles = s.tiles := rfl
@[simp] theorem State.setTrack_engines (s : State) (task id : Nat) (t : Track) : (s.setTrack task id t).engines = s.engines := rfl
@[simp] theorem State.setTrack_freed (s : State) (task id : Nat) (t : Track) : (s.setTrack task id t).freed = s.freed := rfl
@[simp] theorem State.setTrack_landings (s : State) (task id : Nat) (t : Track) : (s.setTrack task id t).landings = s.landings := rfl
@[simp] theorem State.setTrack_blocks (s : State) (task id : Nat) (t : Track) : (s.setTrack task id t).blocks = s.blocks := rfl
@[simp] theorem State.setTrack_epilogues (s : State) (task id : Nat) (t : Track) : (s.setTrack task id t).epilogues = s.epilogues := rfl
@[simp] theorem State.setTrack_weirs (s : State) (task id : Nat) (t : Track) : (s.setTrack task id t).weirs = s.weirs := rfl
@[simp] theorem State.setTrack_notices (s : State) (task id : Nat) (t : Track) : (s.setTrack task id t).notices = s.notices := rfl
@[simp] theorem State.setTrack_credits (s : State) (task id : Nat) (t : Track) : (s.setTrack task id t).credits = s.credits := rfl
@[simp] theorem State.setTrack_mem (s : State) (task id : Nat) (t : Track) : (s.setTrack task id t).mem = s.mem := rfl
@[simp] theorem State.setTrack_mere (s : State) (task id : Nat) (t : Track) : (s.setTrack task id t).mere = s.mere := rfl
@[simp] theorem State.setTrack_regions (s : State) (task id : Nat) (t : Track) : (s.setTrack task id t).regions = s.regions := rfl
@[simp] theorem State.setTrack_ports (s : State) (task id : Nat) (t : Track) : (s.setTrack task id t).ports = s.ports := rfl
@[simp] theorem State.setTrack_nodes (s : State) (task id : Nat) (t : Track) : (s.setTrack task id t).nodes = s.nodes := rfl
@[simp] theorem State.setTrack_nextNode (s : State) (task id : Nat) (t : Track) : (s.setTrack task id t).nextNode = s.nextNode := rfl
@[simp] theorem State.setTrack_queues (s : State) (task id : Nat) (t : Track) : (s.setTrack task id t).queues = s.queues := rfl
@[simp] theorem State.setTrack_tasks (s : State) (task id : Nat) (t : Track) : (s.setTrack task id t).tasks = s.tasks := rfl
@[simp] theorem State.setTrack_nextTask (s : State) (task id : Nat) (t : Track) : (s.setTrack task id t).nextTask = s.nextTask := rfl
@[simp] theorem State.setTrack_saves (s : State) (task id : Nat) (t : Track) : (s.setTrack task id t).saves = s.saves := rfl
@[simp] theorem State.setTrack_maps (s : State) (task id : Nat) (t : Track) : (s.setTrack task id t).maps = s.maps := rfl
@[simp] theorem State.setTrack_reports (s : State) (task id : Nat) (t : Track) : (s.setTrack task id t).reports = s.reports := rfl
@[simp] theorem State.setTrack_links (s : State) (task id : Nat) (t : Track) : (s.setTrack task id t).links = s.links := rfl
@[simp] theorem State.setTrack_scaleUp (s : State) (task id : Nat) (t : Track) : (s.setTrack task id t).scaleUp = s.scaleUp := rfl
@[simp] theorem State.setTrack_routes (s : State) (task id : Nat) (t : Track) : (s.setTrack task id t).routes = s.routes := rfl
@[simp] theorem State.setTrack_peersDown (s : State) (task id : Nat) (t : Track) : (s.setTrack task id t).peersDown = s.peersDown := rfl
@[simp] theorem State.setTrack_frontWrites (s : State) (task id : Nat) (t : Track) : (s.setTrack task id t).frontWrites = s.frontWrites := rfl
@[simp] theorem State.setTrack_renqCredits (s : State) (task id : Nat) (t : Track) : (s.setTrack task id t).renqCredits = s.renqCredits := rfl
@[simp] theorem State.setTrack_renqs (s : State) (task id : Nat) (t : Track) : (s.setTrack task id t).renqs = s.renqs := rfl
@[simp] theorem State.setTrack_posted (s : State) (task id : Nat) (t : Track) : (s.setTrack task id t).posted = s.posted := rfl
@[simp] theorem State.setTrack_homes (s : State) (task id : Nat) (t : Track) : (s.setTrack task id t).homes = s.homes := rfl
@[simp] theorem State.setTrack_service (s : State) (task id : Nat) (t : Track) : (s.setTrack task id t).service = s.service := rfl

@[simp] theorem State.setRegion_clock (s : State) (cl : Nat) (r : Region) : (s.setRegion cl r).clock = s.clock := rfl
@[simp] theorem State.setRegion_freeCtr (s : State) (cl : Nat) (r : Region) : (s.setRegion cl r).freeCtr = s.freeCtr := rfl
@[simp] theorem State.setRegion_cur (s : State) (cl : Nat) (r : Region) : (s.setRegion cl r).cur = s.cur := rfl
@[simp] theorem State.setRegion_agenda (s : State) (cl : Nat) (r : Region) : (s.setRegion cl r).agenda = s.agenda := rfl
@[simp] theorem State.setRegion_turn (s : State) (cl : Nat) (r : Region) : (s.setRegion cl r).turn = s.turn := rfl
@[simp] theorem State.setRegion_harts (s : State) (cl : Nat) (r : Region) : (s.setRegion cl r).harts = s.harts := rfl
@[simp] theorem State.setRegion_cores (s : State) (cl : Nat) (r : Region) : (s.setRegion cl r).cores = s.cores := rfl
@[simp] theorem State.setRegion_segments (s : State) (cl : Nat) (r : Region) : (s.setRegion cl r).segments = s.segments := rfl
@[simp] theorem State.setRegion_tiles (s : State) (cl : Nat) (r : Region) : (s.setRegion cl r).tiles = s.tiles := rfl
@[simp] theorem State.setRegion_engines (s : State) (cl : Nat) (r : Region) : (s.setRegion cl r).engines = s.engines := rfl
@[simp] theorem State.setRegion_freed (s : State) (cl : Nat) (r : Region) : (s.setRegion cl r).freed = s.freed := rfl
@[simp] theorem State.setRegion_landings (s : State) (cl : Nat) (r : Region) : (s.setRegion cl r).landings = s.landings := rfl
@[simp] theorem State.setRegion_blocks (s : State) (cl : Nat) (r : Region) : (s.setRegion cl r).blocks = s.blocks := rfl
@[simp] theorem State.setRegion_epilogues (s : State) (cl : Nat) (r : Region) : (s.setRegion cl r).epilogues = s.epilogues := rfl
@[simp] theorem State.setRegion_weirs (s : State) (cl : Nat) (r : Region) : (s.setRegion cl r).weirs = s.weirs := rfl
@[simp] theorem State.setRegion_notices (s : State) (cl : Nat) (r : Region) : (s.setRegion cl r).notices = s.notices := rfl
@[simp] theorem State.setRegion_credits (s : State) (cl : Nat) (r : Region) : (s.setRegion cl r).credits = s.credits := rfl
@[simp] theorem State.setRegion_tracks (s : State) (cl : Nat) (r : Region) : (s.setRegion cl r).tracks = s.tracks := rfl
@[simp] theorem State.setRegion_mem (s : State) (cl : Nat) (r : Region) : (s.setRegion cl r).mem = s.mem := rfl
@[simp] theorem State.setRegion_mere (s : State) (cl : Nat) (r : Region) : (s.setRegion cl r).mere = s.mere := rfl
@[simp] theorem State.setRegion_ports (s : State) (cl : Nat) (r : Region) : (s.setRegion cl r).ports = s.ports := rfl
@[simp] theorem State.setRegion_nodes (s : State) (cl : Nat) (r : Region) : (s.setRegion cl r).nodes = s.nodes := rfl
@[simp] theorem State.setRegion_nextNode (s : State) (cl : Nat) (r : Region) : (s.setRegion cl r).nextNode = s.nextNode := rfl
@[simp] theorem State.setRegion_queues (s : State) (cl : Nat) (r : Region) : (s.setRegion cl r).queues = s.queues := rfl
@[simp] theorem State.setRegion_tasks (s : State) (cl : Nat) (r : Region) : (s.setRegion cl r).tasks = s.tasks := rfl
@[simp] theorem State.setRegion_nextTask (s : State) (cl : Nat) (r : Region) : (s.setRegion cl r).nextTask = s.nextTask := rfl
@[simp] theorem State.setRegion_saves (s : State) (cl : Nat) (r : Region) : (s.setRegion cl r).saves = s.saves := rfl
@[simp] theorem State.setRegion_maps (s : State) (cl : Nat) (r : Region) : (s.setRegion cl r).maps = s.maps := rfl
@[simp] theorem State.setRegion_reports (s : State) (cl : Nat) (r : Region) : (s.setRegion cl r).reports = s.reports := rfl
@[simp] theorem State.setRegion_links (s : State) (cl : Nat) (r : Region) : (s.setRegion cl r).links = s.links := rfl
@[simp] theorem State.setRegion_scaleUp (s : State) (cl : Nat) (r : Region) : (s.setRegion cl r).scaleUp = s.scaleUp := rfl
@[simp] theorem State.setRegion_routes (s : State) (cl : Nat) (r : Region) : (s.setRegion cl r).routes = s.routes := rfl
@[simp] theorem State.setRegion_peersDown (s : State) (cl : Nat) (r : Region) : (s.setRegion cl r).peersDown = s.peersDown := rfl
@[simp] theorem State.setRegion_frontWrites (s : State) (cl : Nat) (r : Region) : (s.setRegion cl r).frontWrites = s.frontWrites := rfl
@[simp] theorem State.setRegion_renqCredits (s : State) (cl : Nat) (r : Region) : (s.setRegion cl r).renqCredits = s.renqCredits := rfl
@[simp] theorem State.setRegion_renqs (s : State) (cl : Nat) (r : Region) : (s.setRegion cl r).renqs = s.renqs := rfl
@[simp] theorem State.setRegion_posted (s : State) (cl : Nat) (r : Region) : (s.setRegion cl r).posted = s.posted := rfl
@[simp] theorem State.setRegion_homes (s : State) (cl : Nat) (r : Region) : (s.setRegion cl r).homes = s.homes := rfl
@[simp] theorem State.setRegion_service (s : State) (cl : Nat) (r : Region) : (s.setRegion cl r).service = s.service := rfl

@[simp] theorem State.setPort_clock (s : State) (p : Nat) (x : Port) : (s.setPort p x).clock = s.clock := rfl
@[simp] theorem State.setPort_freeCtr (s : State) (p : Nat) (x : Port) : (s.setPort p x).freeCtr = s.freeCtr := rfl
@[simp] theorem State.setPort_cur (s : State) (p : Nat) (x : Port) : (s.setPort p x).cur = s.cur := rfl
@[simp] theorem State.setPort_agenda (s : State) (p : Nat) (x : Port) : (s.setPort p x).agenda = s.agenda := rfl
@[simp] theorem State.setPort_turn (s : State) (p : Nat) (x : Port) : (s.setPort p x).turn = s.turn := rfl
@[simp] theorem State.setPort_harts (s : State) (p : Nat) (x : Port) : (s.setPort p x).harts = s.harts := rfl
@[simp] theorem State.setPort_cores (s : State) (p : Nat) (x : Port) : (s.setPort p x).cores = s.cores := rfl
@[simp] theorem State.setPort_segments (s : State) (p : Nat) (x : Port) : (s.setPort p x).segments = s.segments := rfl
@[simp] theorem State.setPort_tiles (s : State) (p : Nat) (x : Port) : (s.setPort p x).tiles = s.tiles := rfl
@[simp] theorem State.setPort_engines (s : State) (p : Nat) (x : Port) : (s.setPort p x).engines = s.engines := rfl
@[simp] theorem State.setPort_freed (s : State) (p : Nat) (x : Port) : (s.setPort p x).freed = s.freed := rfl
@[simp] theorem State.setPort_landings (s : State) (p : Nat) (x : Port) : (s.setPort p x).landings = s.landings := rfl
@[simp] theorem State.setPort_blocks (s : State) (p : Nat) (x : Port) : (s.setPort p x).blocks = s.blocks := rfl
@[simp] theorem State.setPort_epilogues (s : State) (p : Nat) (x : Port) : (s.setPort p x).epilogues = s.epilogues := rfl
@[simp] theorem State.setPort_weirs (s : State) (p : Nat) (x : Port) : (s.setPort p x).weirs = s.weirs := rfl
@[simp] theorem State.setPort_notices (s : State) (p : Nat) (x : Port) : (s.setPort p x).notices = s.notices := rfl
@[simp] theorem State.setPort_credits (s : State) (p : Nat) (x : Port) : (s.setPort p x).credits = s.credits := rfl
@[simp] theorem State.setPort_tracks (s : State) (p : Nat) (x : Port) : (s.setPort p x).tracks = s.tracks := rfl
@[simp] theorem State.setPort_mem (s : State) (p : Nat) (x : Port) : (s.setPort p x).mem = s.mem := rfl
@[simp] theorem State.setPort_mere (s : State) (p : Nat) (x : Port) : (s.setPort p x).mere = s.mere := rfl
@[simp] theorem State.setPort_regions (s : State) (p : Nat) (x : Port) : (s.setPort p x).regions = s.regions := rfl
@[simp] theorem State.setPort_nodes (s : State) (p : Nat) (x : Port) : (s.setPort p x).nodes = s.nodes := rfl
@[simp] theorem State.setPort_nextNode (s : State) (p : Nat) (x : Port) : (s.setPort p x).nextNode = s.nextNode := rfl
@[simp] theorem State.setPort_queues (s : State) (p : Nat) (x : Port) : (s.setPort p x).queues = s.queues := rfl
@[simp] theorem State.setPort_tasks (s : State) (p : Nat) (x : Port) : (s.setPort p x).tasks = s.tasks := rfl
@[simp] theorem State.setPort_nextTask (s : State) (p : Nat) (x : Port) : (s.setPort p x).nextTask = s.nextTask := rfl
@[simp] theorem State.setPort_saves (s : State) (p : Nat) (x : Port) : (s.setPort p x).saves = s.saves := rfl
@[simp] theorem State.setPort_maps (s : State) (p : Nat) (x : Port) : (s.setPort p x).maps = s.maps := rfl
@[simp] theorem State.setPort_reports (s : State) (p : Nat) (x : Port) : (s.setPort p x).reports = s.reports := rfl
@[simp] theorem State.setPort_links (s : State) (p : Nat) (x : Port) : (s.setPort p x).links = s.links := rfl
@[simp] theorem State.setPort_scaleUp (s : State) (p : Nat) (x : Port) : (s.setPort p x).scaleUp = s.scaleUp := rfl
@[simp] theorem State.setPort_routes (s : State) (p : Nat) (x : Port) : (s.setPort p x).routes = s.routes := rfl
@[simp] theorem State.setPort_peersDown (s : State) (p : Nat) (x : Port) : (s.setPort p x).peersDown = s.peersDown := rfl
@[simp] theorem State.setPort_frontWrites (s : State) (p : Nat) (x : Port) : (s.setPort p x).frontWrites = s.frontWrites := rfl
@[simp] theorem State.setPort_renqCredits (s : State) (p : Nat) (x : Port) : (s.setPort p x).renqCredits = s.renqCredits := rfl
@[simp] theorem State.setPort_renqs (s : State) (p : Nat) (x : Port) : (s.setPort p x).renqs = s.renqs := rfl
@[simp] theorem State.setPort_posted (s : State) (p : Nat) (x : Port) : (s.setPort p x).posted = s.posted := rfl
@[simp] theorem State.setPort_homes (s : State) (p : Nat) (x : Port) : (s.setPort p x).homes = s.homes := rfl
@[simp] theorem State.setPort_service (s : State) (p : Nat) (x : Port) : (s.setPort p x).service = s.service := rfl

@[simp] theorem State.setNode_clock (s : State) (n : Nat) (x : Node) : (s.setNode n x).clock = s.clock := rfl
@[simp] theorem State.setNode_freeCtr (s : State) (n : Nat) (x : Node) : (s.setNode n x).freeCtr = s.freeCtr := rfl
@[simp] theorem State.setNode_cur (s : State) (n : Nat) (x : Node) : (s.setNode n x).cur = s.cur := rfl
@[simp] theorem State.setNode_agenda (s : State) (n : Nat) (x : Node) : (s.setNode n x).agenda = s.agenda := rfl
@[simp] theorem State.setNode_turn (s : State) (n : Nat) (x : Node) : (s.setNode n x).turn = s.turn := rfl
@[simp] theorem State.setNode_harts (s : State) (n : Nat) (x : Node) : (s.setNode n x).harts = s.harts := rfl
@[simp] theorem State.setNode_cores (s : State) (n : Nat) (x : Node) : (s.setNode n x).cores = s.cores := rfl
@[simp] theorem State.setNode_segments (s : State) (n : Nat) (x : Node) : (s.setNode n x).segments = s.segments := rfl
@[simp] theorem State.setNode_tiles (s : State) (n : Nat) (x : Node) : (s.setNode n x).tiles = s.tiles := rfl
@[simp] theorem State.setNode_engines (s : State) (n : Nat) (x : Node) : (s.setNode n x).engines = s.engines := rfl
@[simp] theorem State.setNode_freed (s : State) (n : Nat) (x : Node) : (s.setNode n x).freed = s.freed := rfl
@[simp] theorem State.setNode_landings (s : State) (n : Nat) (x : Node) : (s.setNode n x).landings = s.landings := rfl
@[simp] theorem State.setNode_blocks (s : State) (n : Nat) (x : Node) : (s.setNode n x).blocks = s.blocks := rfl
@[simp] theorem State.setNode_epilogues (s : State) (n : Nat) (x : Node) : (s.setNode n x).epilogues = s.epilogues := rfl
@[simp] theorem State.setNode_weirs (s : State) (n : Nat) (x : Node) : (s.setNode n x).weirs = s.weirs := rfl
@[simp] theorem State.setNode_notices (s : State) (n : Nat) (x : Node) : (s.setNode n x).notices = s.notices := rfl
@[simp] theorem State.setNode_credits (s : State) (n : Nat) (x : Node) : (s.setNode n x).credits = s.credits := rfl
@[simp] theorem State.setNode_tracks (s : State) (n : Nat) (x : Node) : (s.setNode n x).tracks = s.tracks := rfl
@[simp] theorem State.setNode_mem (s : State) (n : Nat) (x : Node) : (s.setNode n x).mem = s.mem := rfl
@[simp] theorem State.setNode_mere (s : State) (n : Nat) (x : Node) : (s.setNode n x).mere = s.mere := rfl
@[simp] theorem State.setNode_regions (s : State) (n : Nat) (x : Node) : (s.setNode n x).regions = s.regions := rfl
@[simp] theorem State.setNode_ports (s : State) (n : Nat) (x : Node) : (s.setNode n x).ports = s.ports := rfl
@[simp] theorem State.setNode_nextNode (s : State) (n : Nat) (x : Node) : (s.setNode n x).nextNode = s.nextNode := rfl
@[simp] theorem State.setNode_queues (s : State) (n : Nat) (x : Node) : (s.setNode n x).queues = s.queues := rfl
@[simp] theorem State.setNode_tasks (s : State) (n : Nat) (x : Node) : (s.setNode n x).tasks = s.tasks := rfl
@[simp] theorem State.setNode_nextTask (s : State) (n : Nat) (x : Node) : (s.setNode n x).nextTask = s.nextTask := rfl
@[simp] theorem State.setNode_saves (s : State) (n : Nat) (x : Node) : (s.setNode n x).saves = s.saves := rfl
@[simp] theorem State.setNode_maps (s : State) (n : Nat) (x : Node) : (s.setNode n x).maps = s.maps := rfl
@[simp] theorem State.setNode_reports (s : State) (n : Nat) (x : Node) : (s.setNode n x).reports = s.reports := rfl
@[simp] theorem State.setNode_links (s : State) (n : Nat) (x : Node) : (s.setNode n x).links = s.links := rfl
@[simp] theorem State.setNode_scaleUp (s : State) (n : Nat) (x : Node) : (s.setNode n x).scaleUp = s.scaleUp := rfl
@[simp] theorem State.setNode_routes (s : State) (n : Nat) (x : Node) : (s.setNode n x).routes = s.routes := rfl
@[simp] theorem State.setNode_peersDown (s : State) (n : Nat) (x : Node) : (s.setNode n x).peersDown = s.peersDown := rfl
@[simp] theorem State.setNode_frontWrites (s : State) (n : Nat) (x : Node) : (s.setNode n x).frontWrites = s.frontWrites := rfl
@[simp] theorem State.setNode_renqCredits (s : State) (n : Nat) (x : Node) : (s.setNode n x).renqCredits = s.renqCredits := rfl
@[simp] theorem State.setNode_renqs (s : State) (n : Nat) (x : Node) : (s.setNode n x).renqs = s.renqs := rfl
@[simp] theorem State.setNode_posted (s : State) (n : Nat) (x : Node) : (s.setNode n x).posted = s.posted := rfl
@[simp] theorem State.setNode_homes (s : State) (n : Nat) (x : Node) : (s.setNode n x).homes = s.homes := rfl
@[simp] theorem State.setNode_service (s : State) (n : Nat) (x : Node) : (s.setNode n x).service = s.service := rfl

@[simp] theorem State.setQueue_clock (s : State) (q : Nat) (x : Queue) : (s.setQueue q x).clock = s.clock := rfl
@[simp] theorem State.setQueue_freeCtr (s : State) (q : Nat) (x : Queue) : (s.setQueue q x).freeCtr = s.freeCtr := rfl
@[simp] theorem State.setQueue_cur (s : State) (q : Nat) (x : Queue) : (s.setQueue q x).cur = s.cur := rfl
@[simp] theorem State.setQueue_agenda (s : State) (q : Nat) (x : Queue) : (s.setQueue q x).agenda = s.agenda := rfl
@[simp] theorem State.setQueue_turn (s : State) (q : Nat) (x : Queue) : (s.setQueue q x).turn = s.turn := rfl
@[simp] theorem State.setQueue_harts (s : State) (q : Nat) (x : Queue) : (s.setQueue q x).harts = s.harts := rfl
@[simp] theorem State.setQueue_cores (s : State) (q : Nat) (x : Queue) : (s.setQueue q x).cores = s.cores := rfl
@[simp] theorem State.setQueue_segments (s : State) (q : Nat) (x : Queue) : (s.setQueue q x).segments = s.segments := rfl
@[simp] theorem State.setQueue_tiles (s : State) (q : Nat) (x : Queue) : (s.setQueue q x).tiles = s.tiles := rfl
@[simp] theorem State.setQueue_engines (s : State) (q : Nat) (x : Queue) : (s.setQueue q x).engines = s.engines := rfl
@[simp] theorem State.setQueue_freed (s : State) (q : Nat) (x : Queue) : (s.setQueue q x).freed = s.freed := rfl
@[simp] theorem State.setQueue_landings (s : State) (q : Nat) (x : Queue) : (s.setQueue q x).landings = s.landings := rfl
@[simp] theorem State.setQueue_blocks (s : State) (q : Nat) (x : Queue) : (s.setQueue q x).blocks = s.blocks := rfl
@[simp] theorem State.setQueue_epilogues (s : State) (q : Nat) (x : Queue) : (s.setQueue q x).epilogues = s.epilogues := rfl
@[simp] theorem State.setQueue_weirs (s : State) (q : Nat) (x : Queue) : (s.setQueue q x).weirs = s.weirs := rfl
@[simp] theorem State.setQueue_notices (s : State) (q : Nat) (x : Queue) : (s.setQueue q x).notices = s.notices := rfl
@[simp] theorem State.setQueue_credits (s : State) (q : Nat) (x : Queue) : (s.setQueue q x).credits = s.credits := rfl
@[simp] theorem State.setQueue_tracks (s : State) (q : Nat) (x : Queue) : (s.setQueue q x).tracks = s.tracks := rfl
@[simp] theorem State.setQueue_mem (s : State) (q : Nat) (x : Queue) : (s.setQueue q x).mem = s.mem := rfl
@[simp] theorem State.setQueue_mere (s : State) (q : Nat) (x : Queue) : (s.setQueue q x).mere = s.mere := rfl
@[simp] theorem State.setQueue_regions (s : State) (q : Nat) (x : Queue) : (s.setQueue q x).regions = s.regions := rfl
@[simp] theorem State.setQueue_ports (s : State) (q : Nat) (x : Queue) : (s.setQueue q x).ports = s.ports := rfl
@[simp] theorem State.setQueue_nodes (s : State) (q : Nat) (x : Queue) : (s.setQueue q x).nodes = s.nodes := rfl
@[simp] theorem State.setQueue_nextNode (s : State) (q : Nat) (x : Queue) : (s.setQueue q x).nextNode = s.nextNode := rfl
@[simp] theorem State.setQueue_tasks (s : State) (q : Nat) (x : Queue) : (s.setQueue q x).tasks = s.tasks := rfl
@[simp] theorem State.setQueue_nextTask (s : State) (q : Nat) (x : Queue) : (s.setQueue q x).nextTask = s.nextTask := rfl
@[simp] theorem State.setQueue_saves (s : State) (q : Nat) (x : Queue) : (s.setQueue q x).saves = s.saves := rfl
@[simp] theorem State.setQueue_maps (s : State) (q : Nat) (x : Queue) : (s.setQueue q x).maps = s.maps := rfl
@[simp] theorem State.setQueue_reports (s : State) (q : Nat) (x : Queue) : (s.setQueue q x).reports = s.reports := rfl
@[simp] theorem State.setQueue_links (s : State) (q : Nat) (x : Queue) : (s.setQueue q x).links = s.links := rfl
@[simp] theorem State.setQueue_scaleUp (s : State) (q : Nat) (x : Queue) : (s.setQueue q x).scaleUp = s.scaleUp := rfl
@[simp] theorem State.setQueue_routes (s : State) (q : Nat) (x : Queue) : (s.setQueue q x).routes = s.routes := rfl
@[simp] theorem State.setQueue_peersDown (s : State) (q : Nat) (x : Queue) : (s.setQueue q x).peersDown = s.peersDown := rfl
@[simp] theorem State.setQueue_frontWrites (s : State) (q : Nat) (x : Queue) : (s.setQueue q x).frontWrites = s.frontWrites := rfl
@[simp] theorem State.setQueue_renqCredits (s : State) (q : Nat) (x : Queue) : (s.setQueue q x).renqCredits = s.renqCredits := rfl
@[simp] theorem State.setQueue_renqs (s : State) (q : Nat) (x : Queue) : (s.setQueue q x).renqs = s.renqs := rfl
@[simp] theorem State.setQueue_posted (s : State) (q : Nat) (x : Queue) : (s.setQueue q x).posted = s.posted := rfl
@[simp] theorem State.setQueue_homes (s : State) (q : Nat) (x : Queue) : (s.setQueue q x).homes = s.homes := rfl
@[simp] theorem State.setQueue_service (s : State) (q : Nat) (x : Queue) : (s.setQueue q x).service = s.service := rfl

@[simp] theorem State.setTask_clock (s : State) (t : Nat) (x : Task) : (s.setTask t x).clock = s.clock := rfl
@[simp] theorem State.setTask_freeCtr (s : State) (t : Nat) (x : Task) : (s.setTask t x).freeCtr = s.freeCtr := rfl
@[simp] theorem State.setTask_cur (s : State) (t : Nat) (x : Task) : (s.setTask t x).cur = s.cur := rfl
@[simp] theorem State.setTask_agenda (s : State) (t : Nat) (x : Task) : (s.setTask t x).agenda = s.agenda := rfl
@[simp] theorem State.setTask_turn (s : State) (t : Nat) (x : Task) : (s.setTask t x).turn = s.turn := rfl
@[simp] theorem State.setTask_harts (s : State) (t : Nat) (x : Task) : (s.setTask t x).harts = s.harts := rfl
@[simp] theorem State.setTask_cores (s : State) (t : Nat) (x : Task) : (s.setTask t x).cores = s.cores := rfl
@[simp] theorem State.setTask_segments (s : State) (t : Nat) (x : Task) : (s.setTask t x).segments = s.segments := rfl
@[simp] theorem State.setTask_tiles (s : State) (t : Nat) (x : Task) : (s.setTask t x).tiles = s.tiles := rfl
@[simp] theorem State.setTask_engines (s : State) (t : Nat) (x : Task) : (s.setTask t x).engines = s.engines := rfl
@[simp] theorem State.setTask_freed (s : State) (t : Nat) (x : Task) : (s.setTask t x).freed = s.freed := rfl
@[simp] theorem State.setTask_landings (s : State) (t : Nat) (x : Task) : (s.setTask t x).landings = s.landings := rfl
@[simp] theorem State.setTask_blocks (s : State) (t : Nat) (x : Task) : (s.setTask t x).blocks = s.blocks := rfl
@[simp] theorem State.setTask_epilogues (s : State) (t : Nat) (x : Task) : (s.setTask t x).epilogues = s.epilogues := rfl
@[simp] theorem State.setTask_weirs (s : State) (t : Nat) (x : Task) : (s.setTask t x).weirs = s.weirs := rfl
@[simp] theorem State.setTask_notices (s : State) (t : Nat) (x : Task) : (s.setTask t x).notices = s.notices := rfl
@[simp] theorem State.setTask_credits (s : State) (t : Nat) (x : Task) : (s.setTask t x).credits = s.credits := rfl
@[simp] theorem State.setTask_tracks (s : State) (t : Nat) (x : Task) : (s.setTask t x).tracks = s.tracks := rfl
@[simp] theorem State.setTask_mem (s : State) (t : Nat) (x : Task) : (s.setTask t x).mem = s.mem := rfl
@[simp] theorem State.setTask_mere (s : State) (t : Nat) (x : Task) : (s.setTask t x).mere = s.mere := rfl
@[simp] theorem State.setTask_regions (s : State) (t : Nat) (x : Task) : (s.setTask t x).regions = s.regions := rfl
@[simp] theorem State.setTask_ports (s : State) (t : Nat) (x : Task) : (s.setTask t x).ports = s.ports := rfl
@[simp] theorem State.setTask_nodes (s : State) (t : Nat) (x : Task) : (s.setTask t x).nodes = s.nodes := rfl
@[simp] theorem State.setTask_nextNode (s : State) (t : Nat) (x : Task) : (s.setTask t x).nextNode = s.nextNode := rfl
@[simp] theorem State.setTask_queues (s : State) (t : Nat) (x : Task) : (s.setTask t x).queues = s.queues := rfl
@[simp] theorem State.setTask_nextTask (s : State) (t : Nat) (x : Task) : (s.setTask t x).nextTask = s.nextTask := rfl
@[simp] theorem State.setTask_saves (s : State) (t : Nat) (x : Task) : (s.setTask t x).saves = s.saves := rfl
@[simp] theorem State.setTask_maps (s : State) (t : Nat) (x : Task) : (s.setTask t x).maps = s.maps := rfl
@[simp] theorem State.setTask_reports (s : State) (t : Nat) (x : Task) : (s.setTask t x).reports = s.reports := rfl
@[simp] theorem State.setTask_links (s : State) (t : Nat) (x : Task) : (s.setTask t x).links = s.links := rfl
@[simp] theorem State.setTask_scaleUp (s : State) (t : Nat) (x : Task) : (s.setTask t x).scaleUp = s.scaleUp := rfl
@[simp] theorem State.setTask_routes (s : State) (t : Nat) (x : Task) : (s.setTask t x).routes = s.routes := rfl
@[simp] theorem State.setTask_peersDown (s : State) (t : Nat) (x : Task) : (s.setTask t x).peersDown = s.peersDown := rfl
@[simp] theorem State.setTask_frontWrites (s : State) (t : Nat) (x : Task) : (s.setTask t x).frontWrites = s.frontWrites := rfl
@[simp] theorem State.setTask_renqCredits (s : State) (t : Nat) (x : Task) : (s.setTask t x).renqCredits = s.renqCredits := rfl
@[simp] theorem State.setTask_renqs (s : State) (t : Nat) (x : Task) : (s.setTask t x).renqs = s.renqs := rfl
@[simp] theorem State.setTask_posted (s : State) (t : Nat) (x : Task) : (s.setTask t x).posted = s.posted := rfl
@[simp] theorem State.setTask_homes (s : State) (t : Nat) (x : Task) : (s.setTask t x).homes = s.homes := rfl
@[simp] theorem State.setTask_service (s : State) (t : Nat) (x : Task) : (s.setTask t x).service = s.service := rfl

@[simp] theorem State.report_clock (s : State) (r : Report) : (s.report r).clock = s.clock := rfl
@[simp] theorem State.report_freeCtr (s : State) (r : Report) : (s.report r).freeCtr = s.freeCtr := rfl
@[simp] theorem State.report_cur (s : State) (r : Report) : (s.report r).cur = s.cur := rfl
@[simp] theorem State.report_agenda (s : State) (r : Report) : (s.report r).agenda = s.agenda := rfl
@[simp] theorem State.report_turn (s : State) (r : Report) : (s.report r).turn = s.turn := rfl
@[simp] theorem State.report_harts (s : State) (r : Report) : (s.report r).harts = s.harts := rfl
@[simp] theorem State.report_cores (s : State) (r : Report) : (s.report r).cores = s.cores := rfl
@[simp] theorem State.report_segments (s : State) (r : Report) : (s.report r).segments = s.segments := rfl
@[simp] theorem State.report_tiles (s : State) (r : Report) : (s.report r).tiles = s.tiles := rfl
@[simp] theorem State.report_engines (s : State) (r : Report) : (s.report r).engines = s.engines := rfl
@[simp] theorem State.report_freed (s : State) (r : Report) : (s.report r).freed = s.freed := rfl
@[simp] theorem State.report_landings (s : State) (r : Report) : (s.report r).landings = s.landings := rfl
@[simp] theorem State.report_blocks (s : State) (r : Report) : (s.report r).blocks = s.blocks := rfl
@[simp] theorem State.report_epilogues (s : State) (r : Report) : (s.report r).epilogues = s.epilogues := rfl
@[simp] theorem State.report_weirs (s : State) (r : Report) : (s.report r).weirs = s.weirs := rfl
@[simp] theorem State.report_notices (s : State) (r : Report) : (s.report r).notices = s.notices := rfl
@[simp] theorem State.report_credits (s : State) (r : Report) : (s.report r).credits = s.credits := rfl
@[simp] theorem State.report_tracks (s : State) (r : Report) : (s.report r).tracks = s.tracks := rfl
@[simp] theorem State.report_mem (s : State) (r : Report) : (s.report r).mem = s.mem := rfl
@[simp] theorem State.report_mere (s : State) (r : Report) : (s.report r).mere = s.mere := rfl
@[simp] theorem State.report_regions (s : State) (r : Report) : (s.report r).regions = s.regions := rfl
@[simp] theorem State.report_ports (s : State) (r : Report) : (s.report r).ports = s.ports := rfl
@[simp] theorem State.report_nodes (s : State) (r : Report) : (s.report r).nodes = s.nodes := rfl
@[simp] theorem State.report_nextNode (s : State) (r : Report) : (s.report r).nextNode = s.nextNode := rfl
@[simp] theorem State.report_queues (s : State) (r : Report) : (s.report r).queues = s.queues := rfl
@[simp] theorem State.report_tasks (s : State) (r : Report) : (s.report r).tasks = s.tasks := rfl
@[simp] theorem State.report_nextTask (s : State) (r : Report) : (s.report r).nextTask = s.nextTask := rfl
@[simp] theorem State.report_saves (s : State) (r : Report) : (s.report r).saves = s.saves := rfl
@[simp] theorem State.report_maps (s : State) (r : Report) : (s.report r).maps = s.maps := rfl
@[simp] theorem State.report_links (s : State) (r : Report) : (s.report r).links = s.links := rfl
@[simp] theorem State.report_scaleUp (s : State) (r : Report) : (s.report r).scaleUp = s.scaleUp := rfl
@[simp] theorem State.report_routes (s : State) (r : Report) : (s.report r).routes = s.routes := rfl
@[simp] theorem State.report_peersDown (s : State) (r : Report) : (s.report r).peersDown = s.peersDown := rfl
@[simp] theorem State.report_frontWrites (s : State) (r : Report) : (s.report r).frontWrites = s.frontWrites := rfl
@[simp] theorem State.report_renqCredits (s : State) (r : Report) : (s.report r).renqCredits = s.renqCredits := rfl
@[simp] theorem State.report_renqs (s : State) (r : Report) : (s.report r).renqs = s.renqs := rfl
@[simp] theorem State.report_posted (s : State) (r : Report) : (s.report r).posted = s.posted := rfl
@[simp] theorem State.report_homes (s : State) (r : Report) : (s.report r).homes = s.homes := rfl
@[simp] theorem State.report_service (s : State) (r : Report) : (s.report r).service = s.service := rfl

@[simp] theorem State.bumpFree_clock (s : State) : (s.bumpFree).clock = s.clock := rfl
@[simp] theorem State.bumpFree_cur (s : State) : (s.bumpFree).cur = s.cur := rfl
@[simp] theorem State.bumpFree_agenda (s : State) : (s.bumpFree).agenda = s.agenda := rfl
@[simp] theorem State.bumpFree_turn (s : State) : (s.bumpFree).turn = s.turn := rfl
@[simp] theorem State.bumpFree_harts (s : State) : (s.bumpFree).harts = s.harts := rfl
@[simp] theorem State.bumpFree_cores (s : State) : (s.bumpFree).cores = s.cores := rfl
@[simp] theorem State.bumpFree_segments (s : State) : (s.bumpFree).segments = s.segments := rfl
@[simp] theorem State.bumpFree_tiles (s : State) : (s.bumpFree).tiles = s.tiles := rfl
@[simp] theorem State.bumpFree_engines (s : State) : (s.bumpFree).engines = s.engines := rfl
@[simp] theorem State.bumpFree_freed (s : State) : (s.bumpFree).freed = s.freed := rfl
@[simp] theorem State.bumpFree_landings (s : State) : (s.bumpFree).landings = s.landings := rfl
@[simp] theorem State.bumpFree_blocks (s : State) : (s.bumpFree).blocks = s.blocks := rfl
@[simp] theorem State.bumpFree_epilogues (s : State) : (s.bumpFree).epilogues = s.epilogues := rfl
@[simp] theorem State.bumpFree_weirs (s : State) : (s.bumpFree).weirs = s.weirs := rfl
@[simp] theorem State.bumpFree_notices (s : State) : (s.bumpFree).notices = s.notices := rfl
@[simp] theorem State.bumpFree_credits (s : State) : (s.bumpFree).credits = s.credits := rfl
@[simp] theorem State.bumpFree_tracks (s : State) : (s.bumpFree).tracks = s.tracks := rfl
@[simp] theorem State.bumpFree_mem (s : State) : (s.bumpFree).mem = s.mem := rfl
@[simp] theorem State.bumpFree_mere (s : State) : (s.bumpFree).mere = s.mere := rfl
@[simp] theorem State.bumpFree_regions (s : State) : (s.bumpFree).regions = s.regions := rfl
@[simp] theorem State.bumpFree_ports (s : State) : (s.bumpFree).ports = s.ports := rfl
@[simp] theorem State.bumpFree_nodes (s : State) : (s.bumpFree).nodes = s.nodes := rfl
@[simp] theorem State.bumpFree_nextNode (s : State) : (s.bumpFree).nextNode = s.nextNode := rfl
@[simp] theorem State.bumpFree_queues (s : State) : (s.bumpFree).queues = s.queues := rfl
@[simp] theorem State.bumpFree_tasks (s : State) : (s.bumpFree).tasks = s.tasks := rfl
@[simp] theorem State.bumpFree_nextTask (s : State) : (s.bumpFree).nextTask = s.nextTask := rfl
@[simp] theorem State.bumpFree_saves (s : State) : (s.bumpFree).saves = s.saves := rfl
@[simp] theorem State.bumpFree_maps (s : State) : (s.bumpFree).maps = s.maps := rfl
@[simp] theorem State.bumpFree_reports (s : State) : (s.bumpFree).reports = s.reports := rfl
@[simp] theorem State.bumpFree_links (s : State) : (s.bumpFree).links = s.links := rfl
@[simp] theorem State.bumpFree_scaleUp (s : State) : (s.bumpFree).scaleUp = s.scaleUp := rfl
@[simp] theorem State.bumpFree_routes (s : State) : (s.bumpFree).routes = s.routes := rfl
@[simp] theorem State.bumpFree_peersDown (s : State) : (s.bumpFree).peersDown = s.peersDown := rfl
@[simp] theorem State.bumpFree_frontWrites (s : State) : (s.bumpFree).frontWrites = s.frontWrites := rfl
@[simp] theorem State.bumpFree_renqCredits (s : State) : (s.bumpFree).renqCredits = s.renqCredits := rfl
@[simp] theorem State.bumpFree_renqs (s : State) : (s.bumpFree).renqs = s.renqs := rfl
@[simp] theorem State.bumpFree_posted (s : State) : (s.bumpFree).posted = s.posted := rfl
@[simp] theorem State.bumpFree_homes (s : State) : (s.bumpFree).homes = s.homes := rfl
@[simp] theorem State.bumpFree_service (s : State) : (s.bumpFree).service = s.service := rfl

@[simp] theorem State.setBacking_clock (s : State) (a : Nat) (b : Byte) : (s.setBacking a b).clock = s.clock := rfl
@[simp] theorem State.setBacking_freeCtr (s : State) (a : Nat) (b : Byte) : (s.setBacking a b).freeCtr = s.freeCtr := rfl
@[simp] theorem State.setBacking_cur (s : State) (a : Nat) (b : Byte) : (s.setBacking a b).cur = s.cur := rfl
@[simp] theorem State.setBacking_agenda (s : State) (a : Nat) (b : Byte) : (s.setBacking a b).agenda = s.agenda := rfl
@[simp] theorem State.setBacking_turn (s : State) (a : Nat) (b : Byte) : (s.setBacking a b).turn = s.turn := rfl
@[simp] theorem State.setBacking_harts (s : State) (a : Nat) (b : Byte) : (s.setBacking a b).harts = s.harts := rfl
@[simp] theorem State.setBacking_cores (s : State) (a : Nat) (b : Byte) : (s.setBacking a b).cores = s.cores := rfl
@[simp] theorem State.setBacking_segments (s : State) (a : Nat) (b : Byte) : (s.setBacking a b).segments = s.segments := rfl
@[simp] theorem State.setBacking_tiles (s : State) (a : Nat) (b : Byte) : (s.setBacking a b).tiles = s.tiles := rfl
@[simp] theorem State.setBacking_engines (s : State) (a : Nat) (b : Byte) : (s.setBacking a b).engines = s.engines := rfl
@[simp] theorem State.setBacking_freed (s : State) (a : Nat) (b : Byte) : (s.setBacking a b).freed = s.freed := rfl
@[simp] theorem State.setBacking_landings (s : State) (a : Nat) (b : Byte) : (s.setBacking a b).landings = s.landings := rfl
@[simp] theorem State.setBacking_blocks (s : State) (a : Nat) (b : Byte) : (s.setBacking a b).blocks = s.blocks := rfl
@[simp] theorem State.setBacking_epilogues (s : State) (a : Nat) (b : Byte) : (s.setBacking a b).epilogues = s.epilogues := rfl
@[simp] theorem State.setBacking_weirs (s : State) (a : Nat) (b : Byte) : (s.setBacking a b).weirs = s.weirs := rfl
@[simp] theorem State.setBacking_notices (s : State) (a : Nat) (b : Byte) : (s.setBacking a b).notices = s.notices := rfl
@[simp] theorem State.setBacking_credits (s : State) (a : Nat) (b : Byte) : (s.setBacking a b).credits = s.credits := rfl
@[simp] theorem State.setBacking_tracks (s : State) (a : Nat) (b : Byte) : (s.setBacking a b).tracks = s.tracks := rfl
@[simp] theorem State.setBacking_mere (s : State) (a : Nat) (b : Byte) : (s.setBacking a b).mere = s.mere := rfl
@[simp] theorem State.setBacking_regions (s : State) (a : Nat) (b : Byte) : (s.setBacking a b).regions = s.regions := rfl
@[simp] theorem State.setBacking_ports (s : State) (a : Nat) (b : Byte) : (s.setBacking a b).ports = s.ports := rfl
@[simp] theorem State.setBacking_nodes (s : State) (a : Nat) (b : Byte) : (s.setBacking a b).nodes = s.nodes := rfl
@[simp] theorem State.setBacking_nextNode (s : State) (a : Nat) (b : Byte) : (s.setBacking a b).nextNode = s.nextNode := rfl
@[simp] theorem State.setBacking_queues (s : State) (a : Nat) (b : Byte) : (s.setBacking a b).queues = s.queues := rfl
@[simp] theorem State.setBacking_tasks (s : State) (a : Nat) (b : Byte) : (s.setBacking a b).tasks = s.tasks := rfl
@[simp] theorem State.setBacking_nextTask (s : State) (a : Nat) (b : Byte) : (s.setBacking a b).nextTask = s.nextTask := rfl
@[simp] theorem State.setBacking_saves (s : State) (a : Nat) (b : Byte) : (s.setBacking a b).saves = s.saves := rfl
@[simp] theorem State.setBacking_maps (s : State) (a : Nat) (b : Byte) : (s.setBacking a b).maps = s.maps := rfl
@[simp] theorem State.setBacking_reports (s : State) (a : Nat) (b : Byte) : (s.setBacking a b).reports = s.reports := rfl
@[simp] theorem State.setBacking_links (s : State) (a : Nat) (b : Byte) : (s.setBacking a b).links = s.links := rfl
@[simp] theorem State.setBacking_scaleUp (s : State) (a : Nat) (b : Byte) : (s.setBacking a b).scaleUp = s.scaleUp := rfl
@[simp] theorem State.setBacking_routes (s : State) (a : Nat) (b : Byte) : (s.setBacking a b).routes = s.routes := rfl
@[simp] theorem State.setBacking_peersDown (s : State) (a : Nat) (b : Byte) : (s.setBacking a b).peersDown = s.peersDown := rfl
@[simp] theorem State.setBacking_frontWrites (s : State) (a : Nat) (b : Byte) : (s.setBacking a b).frontWrites = s.frontWrites := rfl
@[simp] theorem State.setBacking_renqCredits (s : State) (a : Nat) (b : Byte) : (s.setBacking a b).renqCredits = s.renqCredits := rfl
@[simp] theorem State.setBacking_renqs (s : State) (a : Nat) (b : Byte) : (s.setBacking a b).renqs = s.renqs := rfl
@[simp] theorem State.setBacking_posted (s : State) (a : Nat) (b : Byte) : (s.setBacking a b).posted = s.posted := rfl
@[simp] theorem State.setBacking_homes (s : State) (a : Nat) (b : Byte) : (s.setBacking a b).homes = s.homes := rfl
@[simp] theorem State.setBacking_service (s : State) (a : Nat) (b : Byte) : (s.setBacking a b).service = s.service := rfl

@[simp] theorem State.setBytes_clock (s : State) (a : Nat) (bs : List Byte) : (s.setBytes a bs).clock = s.clock := rfl
@[simp] theorem State.setBytes_freeCtr (s : State) (a : Nat) (bs : List Byte) : (s.setBytes a bs).freeCtr = s.freeCtr := rfl
@[simp] theorem State.setBytes_cur (s : State) (a : Nat) (bs : List Byte) : (s.setBytes a bs).cur = s.cur := rfl
@[simp] theorem State.setBytes_agenda (s : State) (a : Nat) (bs : List Byte) : (s.setBytes a bs).agenda = s.agenda := rfl
@[simp] theorem State.setBytes_turn (s : State) (a : Nat) (bs : List Byte) : (s.setBytes a bs).turn = s.turn := rfl
@[simp] theorem State.setBytes_harts (s : State) (a : Nat) (bs : List Byte) : (s.setBytes a bs).harts = s.harts := rfl
@[simp] theorem State.setBytes_cores (s : State) (a : Nat) (bs : List Byte) : (s.setBytes a bs).cores = s.cores := rfl
@[simp] theorem State.setBytes_segments (s : State) (a : Nat) (bs : List Byte) : (s.setBytes a bs).segments = s.segments := rfl
@[simp] theorem State.setBytes_tiles (s : State) (a : Nat) (bs : List Byte) : (s.setBytes a bs).tiles = s.tiles := rfl
@[simp] theorem State.setBytes_engines (s : State) (a : Nat) (bs : List Byte) : (s.setBytes a bs).engines = s.engines := rfl
@[simp] theorem State.setBytes_freed (s : State) (a : Nat) (bs : List Byte) : (s.setBytes a bs).freed = s.freed := rfl
@[simp] theorem State.setBytes_landings (s : State) (a : Nat) (bs : List Byte) : (s.setBytes a bs).landings = s.landings := rfl
@[simp] theorem State.setBytes_blocks (s : State) (a : Nat) (bs : List Byte) : (s.setBytes a bs).blocks = s.blocks := rfl
@[simp] theorem State.setBytes_epilogues (s : State) (a : Nat) (bs : List Byte) : (s.setBytes a bs).epilogues = s.epilogues := rfl
@[simp] theorem State.setBytes_weirs (s : State) (a : Nat) (bs : List Byte) : (s.setBytes a bs).weirs = s.weirs := rfl
@[simp] theorem State.setBytes_notices (s : State) (a : Nat) (bs : List Byte) : (s.setBytes a bs).notices = s.notices := rfl
@[simp] theorem State.setBytes_credits (s : State) (a : Nat) (bs : List Byte) : (s.setBytes a bs).credits = s.credits := rfl
@[simp] theorem State.setBytes_tracks (s : State) (a : Nat) (bs : List Byte) : (s.setBytes a bs).tracks = s.tracks := rfl
@[simp] theorem State.setBytes_mere (s : State) (a : Nat) (bs : List Byte) : (s.setBytes a bs).mere = s.mere := rfl
@[simp] theorem State.setBytes_regions (s : State) (a : Nat) (bs : List Byte) : (s.setBytes a bs).regions = s.regions := rfl
@[simp] theorem State.setBytes_ports (s : State) (a : Nat) (bs : List Byte) : (s.setBytes a bs).ports = s.ports := rfl
@[simp] theorem State.setBytes_nodes (s : State) (a : Nat) (bs : List Byte) : (s.setBytes a bs).nodes = s.nodes := rfl
@[simp] theorem State.setBytes_nextNode (s : State) (a : Nat) (bs : List Byte) : (s.setBytes a bs).nextNode = s.nextNode := rfl
@[simp] theorem State.setBytes_queues (s : State) (a : Nat) (bs : List Byte) : (s.setBytes a bs).queues = s.queues := rfl
@[simp] theorem State.setBytes_tasks (s : State) (a : Nat) (bs : List Byte) : (s.setBytes a bs).tasks = s.tasks := rfl
@[simp] theorem State.setBytes_nextTask (s : State) (a : Nat) (bs : List Byte) : (s.setBytes a bs).nextTask = s.nextTask := rfl
@[simp] theorem State.setBytes_saves (s : State) (a : Nat) (bs : List Byte) : (s.setBytes a bs).saves = s.saves := rfl
@[simp] theorem State.setBytes_maps (s : State) (a : Nat) (bs : List Byte) : (s.setBytes a bs).maps = s.maps := rfl
@[simp] theorem State.setBytes_reports (s : State) (a : Nat) (bs : List Byte) : (s.setBytes a bs).reports = s.reports := rfl
@[simp] theorem State.setBytes_links (s : State) (a : Nat) (bs : List Byte) : (s.setBytes a bs).links = s.links := rfl
@[simp] theorem State.setBytes_scaleUp (s : State) (a : Nat) (bs : List Byte) : (s.setBytes a bs).scaleUp = s.scaleUp := rfl
@[simp] theorem State.setBytes_routes (s : State) (a : Nat) (bs : List Byte) : (s.setBytes a bs).routes = s.routes := rfl
@[simp] theorem State.setBytes_peersDown (s : State) (a : Nat) (bs : List Byte) : (s.setBytes a bs).peersDown = s.peersDown := rfl
@[simp] theorem State.setBytes_frontWrites (s : State) (a : Nat) (bs : List Byte) : (s.setBytes a bs).frontWrites = s.frontWrites := rfl
@[simp] theorem State.setBytes_renqCredits (s : State) (a : Nat) (bs : List Byte) : (s.setBytes a bs).renqCredits = s.renqCredits := rfl
@[simp] theorem State.setBytes_renqs (s : State) (a : Nat) (bs : List Byte) : (s.setBytes a bs).renqs = s.renqs := rfl
@[simp] theorem State.setBytes_posted (s : State) (a : Nat) (bs : List Byte) : (s.setBytes a bs).posted = s.posted := rfl
@[simp] theorem State.setBytes_homes (s : State) (a : Nat) (bs : List Byte) : (s.setBytes a bs).homes = s.homes := rfl
@[simp] theorem State.setBytes_service (s : State) (a : Nat) (bs : List Byte) : (s.setBytes a bs).service = s.service := rfl

/-! ## What an accessor reads after an update -/

@[simp] theorem State.hart_setHart (s : State) (a : AgentId) (h : Hart) : (s.setHart a h).hart a = h := by
  simp [State.hart, State.setHart]
theorem State.hart_setHart_ne (s : State) {a b : AgentId} (n : a ≠ b) (h : Hart) : (s.setHart a h).hart b = s.hart b := by
  simp [State.hart, State.setHart, tget_tset_ne _ n]
@[simp] theorem State.me_setMe (s : State) (h : Hart) : (s.setMe h).me = h := by simp [State.me, State.setMe]
@[simp] theorem State.hart_setMe (s : State) (h : Hart) : (s.setMe h).hart s.cur = h := by simp [State.setMe]
theorem State.hart_setMe_ne (s : State) {b : AgentId} (n : s.cur ≠ b) (h : Hart) : (s.setMe h).hart b = s.hart b := by
  simp [State.setMe, State.hart_setHart_ne _ n]
@[simp] theorem State.core_setCore (s : State) (c : Nat) (k : Core) : (s.setCore c k).core c = k := by
  simp [State.core, State.setCore]
@[simp] theorem State.segment_setSegment (s : State) (c : Nat) (g : Segment) : (s.setSegment c g).segment c = g := by
  simp [State.segment, State.setSegment]
@[simp] theorem State.tile_setTile (s : State) (c p : Nat) (t : Tile) : (s.setTile c p t).tile c p = t := by
  simp [State.tile, State.setTile]
@[simp] theorem State.engine_setEngine (s : State) (e : Nat) (c : CopyEngine) : (s.setEngine e c).engine e = c := by
  simp [State.engine, State.setEngine]
@[simp] theorem State.block_setBlock (s : State) (b : Nat) (k : Block) : (s.setBlock b k).block b = k := by
  simp [State.block, State.setBlock]
@[simp] theorem State.epilogue_setEpilogue (s : State) (b : Nat) (e : Epilogue) : (s.setEpilogue b e).epilogue b = e := by
  simp [State.epilogue, State.setEpilogue]
@[simp] theorem State.weir_setWeir (s : State) (w : Nat) (x : Weir) : (s.setWeir w x).weir w = x := by
  simp [State.weir, State.setWeir]
@[simp] theorem State.track_setTrack (s : State) (k n : Nat) (t : Track) : (s.setTrack k n t).track k n = t := by
  simp [State.track, State.setTrack]
@[simp] theorem State.region_setRegion (s : State) (c : Nat) (r : Region) : (s.setRegion c r).region c = r := by
  simp [State.region, State.setRegion]
@[simp] theorem State.port_setPort (s : State) (p : Nat) (x : Port) : (s.setPort p x).port p = x := by
  simp [State.port, State.setPort]
@[simp] theorem State.node_setNode (s : State) (n : Nat) (x : Node) : (s.setNode n x).node n = some x := by
  simp [State.node, State.setNode]
@[simp] theorem State.queue_setQueue (s : State) (q : Nat) (x : Queue) : (s.setQueue q x).queue q = x := by
  simp [State.queue, State.setQueue]
@[simp] theorem State.task_setTask (s : State) (t : Nat) (x : Task) : (s.setTask t x).task t = some x := by
  simp [State.task, State.setTask]

/-! ## Registers -/

@[simp] theorem Hart.setReg_status (h : Hart) (r : Reg) (v : Word) : (h.setReg r v).status = h.status := by unfold Hart.setReg; split <;> rfl
@[simp] theorem Hart.setReg_origin (h : Hart) (r : Reg) (v : Word) : (h.setReg r v).origin = h.origin := by unfold Hart.setReg; split <;> rfl
@[simp] theorem Hart.setReg_task (h : Hart) (r : Reg) (v : Word) : (h.setReg r v).task = h.task := by unfold Hart.setReg; split <;> rfl
@[simp] theorem Hart.setReg_ox (h : Hart) (r : Reg) (v : Word) : (h.setReg r v).ox = h.ox := by unfold Hart.setReg; split <;> rfl
@[simp] theorem Hart.setReg_pc (h : Hart) (r : Reg) (v : Word) : (h.setReg r v).pc = h.pc := by unfold Hart.setReg; split <;> rfl
@[simp] theorem Hart.setReg_fstat (h : Hart) (r : Reg) (v : Word) : (h.setReg r v).fstat = h.fstat := by unfold Hart.setReg; split <;> rfl
@[simp] theorem Hart.setReg_vtime (h : Hart) (r : Reg) (v : Word) : (h.setReg r v).vtime = h.vtime := by unfold Hart.setReg; split <;> rfl
@[simp] theorem Hart.setReg_joined (h : Hart) (r : Reg) (v : Word) : (h.setReg r v).joined = h.joined := by unfold Hart.setReg; split <;> rfl
@[simp] theorem Hart.setReg_lookahead (h : Hart) (r : Reg) (v : Word) : (h.setReg r v).lookahead = h.lookahead := by unfold Hart.setReg; split <;> rfl
@[simp] theorem Hart.setReg_tvec (h : Hart) (r : Reg) (v : Word) : (h.setReg r v).tvec = h.tvec := by unfold Hart.setReg; split <;> rfl
@[simp] theorem Hart.setReg_epc (h : Hart) (r : Reg) (v : Word) : (h.setReg r v).epc = h.epc := by unfold Hart.setReg; split <;> rfl
@[simp] theorem Hart.setReg_ecause (h : Hart) (r : Reg) (v : Word) : (h.setReg r v).ecause = h.ecause := by unfold Hart.setReg; split <;> rfl
@[simp] theorem Hart.setReg_eval (h : Hart) (r : Reg) (v : Word) : (h.setReg r v).eval = h.eval := by unfold Hart.setReg; split <;> rfl
@[simp] theorem Hart.setReg_escr (h : Hart) (r : Reg) (v : Word) : (h.setReg r v).escr = h.escr := by unfold Hart.setReg; split <;> rfl
@[simp] theorem Hart.setReg_tmode (h : Hart) (r : Reg) (v : Word) : (h.setReg r v).tmode = h.tmode := by unfold Hart.setReg; split <;> rfl
@[simp] theorem Hart.setReg_codelet (h : Hart) (r : Reg) (v : Word) : (h.setReg r v).codelet = h.codelet := by unfold Hart.setReg; split <;> rfl
@[simp] theorem Hart.setReg_codeRet (h : Hart) (r : Reg) (v : Word) : (h.setReg r v).codeRet = h.codeRet := by unfold Hart.setReg; split <;> rfl
@[simp] theorem Hart.setReg_wdog (h : Hart) (r : Reg) (v : Word) : (h.setReg r v).wdog = h.wdog := by unfold Hart.setReg; split <;> rfl
@[simp] theorem Hart.setReg_tkfell (h : Hart) (r : Reg) (v : Word) : (h.setReg r v).tkfell = h.tkfell := by unfold Hart.setReg; split <;> rfl
@[simp] theorem Hart.setReg_mxblk (h : Hart) (r : Reg) (v : Word) : (h.setReg r v).mxblk = h.mxblk := by unfold Hart.setReg; split <;> rfl
@[simp] theorem Hart.setReg_held (h : Hart) (r : Reg) (v : Word) : (h.setReg r v).held = h.held := by unfold Hart.setReg; split <;> rfl
@[simp] theorem Hart.setReg_openBatch (h : Hart) (r : Reg) (v : Word) : (h.setReg r v).openBatch = h.openBatch := by unfold Hart.setReg; split <;> rfl
@[simp] theorem Hart.setReg_sealedBatches (h : Hart) (r : Reg) (v : Word) : (h.setReg r v).sealedBatches = h.sealedBatches := by unfold Hart.setReg; split <;> rfl
@[simp] theorem Hart.setReg_nextBatch (h : Hart) (r : Reg) (v : Word) : (h.setReg r v).nextBatch = h.nextBatch := by unfold Hart.setReg; split <;> rfl
@[simp] theorem Hart.setReg_promises (h : Hart) (r : Reg) (v : Word) : (h.setReg r v).promises = h.promises := by unfold Hart.setReg; split <;> rfl
@[simp] theorem Hart.setReg_chain (h : Hart) (r : Reg) (v : Word) : (h.setReg r v).chain = h.chain := by unfold Hart.setReg; split <;> rfl
@[simp] theorem Hart.setReg_lastIssue (h : Hart) (r : Reg) (v : Word) : (h.setReg r v).lastIssue = h.lastIssue := by unfold Hart.setReg; split <;> rfl
@[simp] theorem Hart.setReg_wokenAt (h : Hart) (r : Reg) (v : Word) : (h.setReg r v).wokenAt = h.wokenAt := by unfold Hart.setReg; split <;> rfl
@[simp] theorem Hart.setReg_yielded (h : Hart) (r : Reg) (v : Word) : (h.setReg r v).yielded = h.yielded := by unfold Hart.setReg; split <;> rfl
@[simp] theorem Hart.setReg_pendingTrap (h : Hart) (r : Reg) (v : Word) : (h.setReg r v).pendingTrap = h.pendingTrap := by unfold Hart.setReg; split <;> rfl
@[simp] theorem Hart.setReg_laterTraps (h : Hart) (r : Reg) (v : Word) : (h.setReg r v).laterTraps = h.laterTraps := by unfold Hart.setReg; split <;> rfl
@[simp] theorem Hart.setReg_receiving (h : Hart) (r : Reg) (v : Word) : (h.setReg r v).receiving = h.receiving := by unfold Hart.setReg; split <;> rfl
@[simp] theorem Hart.setReg_stop (h : Hart) (r : Reg) (v : Word) : (h.setReg r v).stop = h.stop := by unfold Hart.setReg; split <;> rfl
@[simp] theorem Hart.setRegs_status (h : Hart) (ws : List (Reg × Word)) : (h.setRegs ws).status = h.status := by
  induction ws generalizing h with
  | nil => rfl
  | cons p r ih => simp [Hart.setRegs, ih]
@[simp] theorem Hart.setRegs_origin (h : Hart) (ws : List (Reg × Word)) : (h.setRegs ws).origin = h.origin := by
  induction ws generalizing h with
  | nil => rfl
  | cons p r ih => simp [Hart.setRegs, ih]
@[simp] theorem Hart.setRegs_task (h : Hart) (ws : List (Reg × Word)) : (h.setRegs ws).task = h.task := by
  induction ws generalizing h with
  | nil => rfl
  | cons p r ih => simp [Hart.setRegs, ih]
@[simp] theorem Hart.setRegs_ox (h : Hart) (ws : List (Reg × Word)) : (h.setRegs ws).ox = h.ox := by
  induction ws generalizing h with
  | nil => rfl
  | cons p r ih => simp [Hart.setRegs, ih]
@[simp] theorem Hart.setRegs_pc (h : Hart) (ws : List (Reg × Word)) : (h.setRegs ws).pc = h.pc := by
  induction ws generalizing h with
  | nil => rfl
  | cons p r ih => simp [Hart.setRegs, ih]
@[simp] theorem Hart.setRegs_fstat (h : Hart) (ws : List (Reg × Word)) : (h.setRegs ws).fstat = h.fstat := by
  induction ws generalizing h with
  | nil => rfl
  | cons p r ih => simp [Hart.setRegs, ih]
@[simp] theorem Hart.setRegs_vtime (h : Hart) (ws : List (Reg × Word)) : (h.setRegs ws).vtime = h.vtime := by
  induction ws generalizing h with
  | nil => rfl
  | cons p r ih => simp [Hart.setRegs, ih]
@[simp] theorem Hart.setRegs_joined (h : Hart) (ws : List (Reg × Word)) : (h.setRegs ws).joined = h.joined := by
  induction ws generalizing h with
  | nil => rfl
  | cons p r ih => simp [Hart.setRegs, ih]
@[simp] theorem Hart.setRegs_lookahead (h : Hart) (ws : List (Reg × Word)) : (h.setRegs ws).lookahead = h.lookahead := by
  induction ws generalizing h with
  | nil => rfl
  | cons p r ih => simp [Hart.setRegs, ih]
@[simp] theorem Hart.setRegs_tvec (h : Hart) (ws : List (Reg × Word)) : (h.setRegs ws).tvec = h.tvec := by
  induction ws generalizing h with
  | nil => rfl
  | cons p r ih => simp [Hart.setRegs, ih]
@[simp] theorem Hart.setRegs_epc (h : Hart) (ws : List (Reg × Word)) : (h.setRegs ws).epc = h.epc := by
  induction ws generalizing h with
  | nil => rfl
  | cons p r ih => simp [Hart.setRegs, ih]
@[simp] theorem Hart.setRegs_ecause (h : Hart) (ws : List (Reg × Word)) : (h.setRegs ws).ecause = h.ecause := by
  induction ws generalizing h with
  | nil => rfl
  | cons p r ih => simp [Hart.setRegs, ih]
@[simp] theorem Hart.setRegs_eval (h : Hart) (ws : List (Reg × Word)) : (h.setRegs ws).eval = h.eval := by
  induction ws generalizing h with
  | nil => rfl
  | cons p r ih => simp [Hart.setRegs, ih]
@[simp] theorem Hart.setRegs_escr (h : Hart) (ws : List (Reg × Word)) : (h.setRegs ws).escr = h.escr := by
  induction ws generalizing h with
  | nil => rfl
  | cons p r ih => simp [Hart.setRegs, ih]
@[simp] theorem Hart.setRegs_tmode (h : Hart) (ws : List (Reg × Word)) : (h.setRegs ws).tmode = h.tmode := by
  induction ws generalizing h with
  | nil => rfl
  | cons p r ih => simp [Hart.setRegs, ih]
@[simp] theorem Hart.setRegs_codelet (h : Hart) (ws : List (Reg × Word)) : (h.setRegs ws).codelet = h.codelet := by
  induction ws generalizing h with
  | nil => rfl
  | cons p r ih => simp [Hart.setRegs, ih]
@[simp] theorem Hart.setRegs_codeRet (h : Hart) (ws : List (Reg × Word)) : (h.setRegs ws).codeRet = h.codeRet := by
  induction ws generalizing h with
  | nil => rfl
  | cons p r ih => simp [Hart.setRegs, ih]
@[simp] theorem Hart.setRegs_wdog (h : Hart) (ws : List (Reg × Word)) : (h.setRegs ws).wdog = h.wdog := by
  induction ws generalizing h with
  | nil => rfl
  | cons p r ih => simp [Hart.setRegs, ih]
@[simp] theorem Hart.setRegs_tkfell (h : Hart) (ws : List (Reg × Word)) : (h.setRegs ws).tkfell = h.tkfell := by
  induction ws generalizing h with
  | nil => rfl
  | cons p r ih => simp [Hart.setRegs, ih]
@[simp] theorem Hart.setRegs_mxblk (h : Hart) (ws : List (Reg × Word)) : (h.setRegs ws).mxblk = h.mxblk := by
  induction ws generalizing h with
  | nil => rfl
  | cons p r ih => simp [Hart.setRegs, ih]
@[simp] theorem Hart.setRegs_held (h : Hart) (ws : List (Reg × Word)) : (h.setRegs ws).held = h.held := by
  induction ws generalizing h with
  | nil => rfl
  | cons p r ih => simp [Hart.setRegs, ih]
@[simp] theorem Hart.setRegs_openBatch (h : Hart) (ws : List (Reg × Word)) : (h.setRegs ws).openBatch = h.openBatch := by
  induction ws generalizing h with
  | nil => rfl
  | cons p r ih => simp [Hart.setRegs, ih]
@[simp] theorem Hart.setRegs_sealedBatches (h : Hart) (ws : List (Reg × Word)) : (h.setRegs ws).sealedBatches = h.sealedBatches := by
  induction ws generalizing h with
  | nil => rfl
  | cons p r ih => simp [Hart.setRegs, ih]
@[simp] theorem Hart.setRegs_nextBatch (h : Hart) (ws : List (Reg × Word)) : (h.setRegs ws).nextBatch = h.nextBatch := by
  induction ws generalizing h with
  | nil => rfl
  | cons p r ih => simp [Hart.setRegs, ih]
@[simp] theorem Hart.setRegs_promises (h : Hart) (ws : List (Reg × Word)) : (h.setRegs ws).promises = h.promises := by
  induction ws generalizing h with
  | nil => rfl
  | cons p r ih => simp [Hart.setRegs, ih]
@[simp] theorem Hart.setRegs_chain (h : Hart) (ws : List (Reg × Word)) : (h.setRegs ws).chain = h.chain := by
  induction ws generalizing h with
  | nil => rfl
  | cons p r ih => simp [Hart.setRegs, ih]
@[simp] theorem Hart.setRegs_lastIssue (h : Hart) (ws : List (Reg × Word)) : (h.setRegs ws).lastIssue = h.lastIssue := by
  induction ws generalizing h with
  | nil => rfl
  | cons p r ih => simp [Hart.setRegs, ih]
@[simp] theorem Hart.setRegs_wokenAt (h : Hart) (ws : List (Reg × Word)) : (h.setRegs ws).wokenAt = h.wokenAt := by
  induction ws generalizing h with
  | nil => rfl
  | cons p r ih => simp [Hart.setRegs, ih]
@[simp] theorem Hart.setRegs_yielded (h : Hart) (ws : List (Reg × Word)) : (h.setRegs ws).yielded = h.yielded := by
  induction ws generalizing h with
  | nil => rfl
  | cons p r ih => simp [Hart.setRegs, ih]
@[simp] theorem Hart.setRegs_pendingTrap (h : Hart) (ws : List (Reg × Word)) : (h.setRegs ws).pendingTrap = h.pendingTrap := by
  induction ws generalizing h with
  | nil => rfl
  | cons p r ih => simp [Hart.setRegs, ih]
@[simp] theorem Hart.setRegs_laterTraps (h : Hart) (ws : List (Reg × Word)) : (h.setRegs ws).laterTraps = h.laterTraps := by
  induction ws generalizing h with
  | nil => rfl
  | cons p r ih => simp [Hart.setRegs, ih]
@[simp] theorem Hart.setRegs_receiving (h : Hart) (ws : List (Reg × Word)) : (h.setRegs ws).receiving = h.receiving := by
  induction ws generalizing h with
  | nil => rfl
  | cons p r ih => simp [Hart.setRegs, ih]
@[simp] theorem Hart.setRegs_stop (h : Hart) (ws : List (Reg × Word)) : (h.setRegs ws).stop = h.stop := by
  induction ws generalizing h with
  | nil => rfl
  | cons p r ih => simp [Hart.setRegs, ih]

/-- s0 reads as zero whatever was written to it (R60). -/
@[simp] theorem Hart.reg_zero (h : Hart) : h.reg 0 = 0 := rfl
@[simp] theorem Hart.setReg_zero (h : Hart) (v : Word) : h.setReg 0 v = h := rfl
theorem Hart.reg_setReg (h : Hart) (r : Reg) (v : Word) : (h.setReg r v).reg r = if r = 0 then 0 else v := by
  by_cases z : r = 0
  · simp [z]
  · simp only [Hart.reg, Hart.setReg, z, if_false]
    exact Vector.getElem_set_self _
theorem Hart.reg_setReg_ne (h : Hart) {r q : Reg} (n : r ≠ q) (v : Word) : (h.setReg r v).reg q = h.reg q := by
  by_cases z : r = 0
  · simp [z]
  · have : r.val ≠ q.val := fun e => n (Fin.ext e)
    simp only [Hart.reg, Hart.setReg, z, if_false]
    split
    · rfl
    · exact Vector.getElem_set_ne _ _ this
@[simp] theorem Hart.reg_withPc (h : Hart) (r : Reg) (p : Word) : ({ h with pc := p } : Hart).reg r = h.reg r := rfl
@[simp] theorem Hart.setRegs_nil (h : Hart) : h.setRegs [] = h := rfl
@[simp] theorem Hart.setRegs_one (h : Hart) (r : Reg) (v : Word) : h.setRegs [(r, v)] = h.setReg r v := rfl

end Sys2Proof.Machine
end

