-- ==== Sys2Proof/Laws/Ops.lean ====
section
/-! SUPPORT. What issuing, retiring, trapping and sleeping can do, said once for every instruction. -/

namespace Sys2Proof.Machine

open Sys2Proof.Safety

/-- A legal instruction of an agent with no chain runs on its own registers. -/
theorem issue_mayRun {i : Instr} {s : State} (h : MayRun i s) (k : Hart → Out) : issue i s k = k s.me := by
  obtain ⟨⟨h1, h2, h3⟩, h4⟩ := h
  simp [issue, h1, h2, h3, Hart.bound, h4, sourceView]

/-- An instruction that is not legal takes the illegal-instruction trap, whatever it would have done. -/
theorem issue_illegal {i : Instr} {s : State} (h : ¬ Legal i s) (k : Hart → Out) : issue i s k = illegal i s := by
  have : (accepts s.cur i && i.wellFormed && fieldsOk s.cur i) = false := by
    rw [Bool.eq_false_iff]
    intro t
    simp only [Bool.and_eq_true] at t
    exact h ⟨t.1.1, t.1.2, t.2⟩
  simp [issue, this]

/-- With no chain bound an instruction retires to its writes and the next pc. -/
theorem retire_plain {i : Instr} {ws : List (Reg × Word)} {s : State} (h : s.me.chain = none) :
    retire i ws s = .next (done i ws s) := by
  simp [retire, chainMoves, Hart.bound, h, keptWrites, done]

theorem retireTo_plain {i : Instr} {ws : List (Reg × Word)} {t : Word} {s : State} (h : s.me.chain = none) :
    retireTo i ws t s = .next (jumped ws t s) := by
  simp [retireTo, chainMoves, Hart.bound, h, keptWrites, jumped]

/-- An instruction that computes a value completes with it. -/
theorem compute_mayRun {i : Instr} {s : State} (h : MayRun i s) (d : Reg) (f : Hart → Word) :
    compute i s d f = .next (done i [(d, f s.me)] s) := by
  rw [compute, issue_mayRun h, retire_plain h.2]

theorem computeFlags_mayRun {i : Instr} {s : State} (h : MayRun i s) (d : Reg) (f : Hart → Nat × Flags) :
    computeFlags i s d f = .next (doneWith i [(d, BitVec.ofNat 64 (f s.me).1)] (f s.me).2 s) := by
  rw [computeFlags, issue_mayRun h, retire_plain]
  · rfl
  · simp [Hart.raise, h.2]

/-- Trap entry of a thread with a handler (R207). -/
theorem enterTrap_handles {s : State} (h : Handles s) (c : TrapClass) (len : Nat) (epc eval : Word) :
    enterTrap s s.cur c len epc eval = trapped c len epc eval s := by
  obtain ⟨h1, h2, h3⟩ := h
  have h2' : (s.hart s.cur).tmode = false := h2
  have h3' : ¬ (s.hart s.cur).tvec = 0 := h3
  unfold enterTrap
  rw [if_neg (by simp only [h1, h2', h3', Bool.not_true, Bool.false_or, decide_false, Bool.or_false]; decide)]
  rfl

/-- A trap never ends a run, whatever the agent. -/
theorem trapHere_next (i : Instr) (c : TrapClass) (v : Word) (s : State) : ∃ t, trapHere i c v s = .next t := ⟨_, rfl⟩

theorem sleepOn_eq (w : Wait) (s : State) : sleepOn w s = .next (asleep w s) := rfl

/-! ## What a completed instruction leaves -/

@[simp] theorem done_pc (i : Instr) (ws : List (Reg × Word)) (s : State) :
    (done i ws s).me.pc = s.me.pc + BitVec.ofNat 64 i.length := by
  simp [done]
@[simp] theorem done_cur (i : Instr) (ws : List (Reg × Word)) (s : State) : (done i ws s).cur = s.cur := rfl
@[simp] theorem done_mem (i : Instr) (ws : List (Reg × Word)) (s : State) : (done i ws s).mem = s.mem := rfl
@[simp] theorem done_fstat (i : Instr) (ws : List (Reg × Word)) (s : State) : (done i ws s).me.fstat = s.me.fstat := by
  simp [done]
theorem done_reg (i : Instr) (d : Reg) (v : Word) (s : State) : (done i [(d, v)] s).me.reg d = if d = 0 then 0 else v := by
  rw [done, State.me_setMe, Hart.reg_withPc, Hart.setRegs_one, Hart.reg_setReg]
theorem done_reg_ne (i : Instr) {d q : Reg} (n : d ≠ q) (v : Word) (s : State) :
    (done i [(d, v)] s).me.reg q = s.me.reg q := by
  rw [done, State.me_setMe, Hart.reg_withPc, Hart.setRegs_one, Hart.reg_setReg_ne _ n]
/-- No other agent's registers change. -/
theorem done_hart_ne (i : Instr) (ws : List (Reg × Word)) (s : State) {b : AgentId} (n : s.cur ≠ b) :
    (done i ws s).hart b = s.hart b := State.hart_setMe_ne _ n _

end Sys2Proof.Machine
end

