-- ==== Sys2Proof/Laws/Agents.lean ====
section
/-! SUPPORT. Moving lines between the caches, fences and Trackway's bookkeeping leave every thread and sequencer as it stood. -/

namespace Sys2Proof.Machine

open Sys2Proof.Safety

theorem onlyMemory_refl (s : State) : OnlyMemory s s := ⟨rfl, fun _ => rfl, fun _ => rfl, fun _ => rfl, fun _ => rfl, fun _ => rfl⟩
theorem onlyMemory_trans {s t u : State} (h : OnlyMemory s t) (g : OnlyMemory t u) : OnlyMemory s u :=
  ⟨g.rest.trans h.rest, fun a => (g.harts a).trans (h.harts a), fun c => (g.cores c).trans (h.cores c),
    fun c => (g.segments c).trans (h.segments c), fun b => (g.blocks b).trans (h.blocks b), fun f => (g.homes f).trans (h.homes f)⟩
/-- The running agent and the clock stand. -/
theorem onlyMemory_cur {s t : State} (h : OnlyMemory s t) : t.cur = s.cur := by simpa [bare] using congrArg State.cur h.rest
theorem onlyMemory_clock {s t : State} (h : OnlyMemory s t) : t.clock = s.clock := by simpa [bare] using congrArg State.clock h.rest
/-- A state with the same tables. -/
theorem onlyMemory_of {s t : State} (r : bare t = bare s) (h : t.harts = s.harts) (c : t.cores = s.cores) (g : t.segments = s.segments)
    (b : t.blocks = s.blocks) (o : t.homes = s.homes) : OnlyMemory s t :=
  ⟨r, fun a => by simp only [State.hart, h], fun a => by simp only [State.core, c], fun a => by simp only [State.segment, g],
    fun a => by simp only [State.block, b], fun f => by rw [o]⟩
theorem onlyMemory_foldl {α : Type} (f : State → α → State) (l : List α) (h : ∀ s x, OnlyMemory s (f s x)) (s : State) :
    OnlyMemory s (l.foldl f s) := by
  induction l generalizing s with
  | nil => exact onlyMemory_refl s
  | cons x r ih => exact onlyMemory_trans (h s x) (ih (f s x))
/-- An agent whose only change is a mark of Trackway. -/
theorem onlyMemory_setHart (s : State) (a : AgentId) (h : Hart) (e : unmarked h = unmarked (s.hart a)) :
    OnlyMemory s (s.setHart a h) := by
  refine ⟨rfl, fun b => ?_, fun _ => rfl, fun _ => rfl, fun _ => rfl, fun _ => rfl⟩
  by_cases n : a = b
  · subst n; rw [State.hart_setHart, e]
  · rw [State.hart_setHart_ne s n]
/-- A core whose only change is its L1 or its held lines. -/
theorem onlyMemory_setCore (s : State) (c : Nat) (k : Core) (e : bareCore k = bareCore (s.core c)) : OnlyMemory s (s.setCore c k) := by
  refine ⟨rfl, fun _ => rfl, fun b => ?_, fun _ => rfl, fun _ => rfl, fun _ => rfl⟩
  by_cases n : c = b
  · subst n; rw [show (s.setCore c k).core c = k from tget_tset_same _ _ _ _, e]
  · rw [show (s.setCore c k).core b = s.core b from tget_tset_ne _ n _ _]
theorem onlyMemory_setSegment (s : State) (c : Nat) (g : Segment) (e : bareSegment g = bareSegment (s.segment c)) :
    OnlyMemory s (s.setSegment c g) := by
  refine ⟨rfl, fun _ => rfl, fun _ => rfl, fun b => ?_, fun _ => rfl, fun _ => rfl⟩
  by_cases n : c = b
  · subst n; rw [show (s.setSegment c g).segment c = g from tget_tset_same _ _ _ _, e]
  · rw [show (s.setSegment c g).segment b = s.segment b from tget_tset_ne _ n _ _]
theorem onlyMemory_setBlock (s : State) (c : Nat) (g : Block) (e : bareBlock g = bareBlock (s.block c)) :
    OnlyMemory s (s.setBlock c g) := by
  refine ⟨rfl, fun _ => rfl, fun _ => rfl, fun _ => rfl, fun b => ?_, fun _ => rfl⟩
  by_cases n : c = b
  · subst n; rw [show (s.setBlock c g).block c = g from tget_tset_same _ _ _ _, e]
  · rw [show (s.setBlock c g).block b = s.block b from tget_tset_ne _ n _ _]
/-- A table whose records change by a function of their keys. -/
theorem tget_map {κ α : Type} [DecidableEq κ] (d : α) (f : κ × α → κ × α) (k : κ) (t : Tbl κ α) (same : ∀ p, (f p).1 = p.1) (β : α → α)
    (e : ∀ p, β (f p).2 = β p.2) : β (tget d k (t.map f)) = β (tget d k t) := by
  induction t with
  | nil => rfl
  | cons p r ih =>
    obtain ⟨k', v⟩ := p
    have h1 := same (k', v)
    have h2 := e (k', v)
    simp only [List.map_cons]
    generalize f (k', v) = q at h1 h2
    obtain ⟨k2, w⟩ := q
    simp only at h1
    subst h1
    simp only [tget]
    split
    · exact h2
    · exact ih

/-! ## The caches -/

theorem onlyMemory_setL1 (s : State) (c : Nat) (l : Cache) : OnlyMemory s (s.setL1 c l) := onlyMemory_setCore s c _ rfl
theorem onlyMemory_setSeg (s : State) (c : Nat) (l : Cache) : OnlyMemory s (s.setSeg c l) := onlyMemory_setSegment s c _ rfl
theorem onlyMemory_tagLine (s : State) (p n : Nat) (w : Option (Nat × Nat)) : OnlyMemory s (s.tagLine p n w) := by
  unfold State.tagLine; split <;> exact onlyMemory_of rfl rfl rfl rfl rfl rfl
theorem onlyMemory_spoil (s : State) (c : Option Nat) (n : Nat) (f : Source) (m : BitVec 64) : OnlyMemory s (s.spoil c n f m) :=
  ⟨rfl, fun _ => rfl,
    fun k => tget_map Core.fresh (fun p => (p.1, markCore c n f m p.1 p.2)) k s.cores (fun _ => rfl) bareCore (fun _ => rfl),
    fun k => tget_map Segment.fresh (fun p => (p.1, markSegment c n f m p.1 p.2)) k s.segments (fun _ => rfl) bareSegment
      (fun p => by unfold markSegment; split <;> rfl),
    fun _ => rfl, fun _ => rfl⟩
theorem onlyMemory_freshen (s : State) (c n : Nat) (m : BitVec 64) : OnlyMemory s (s.freshen c n m) :=
  ⟨rfl, fun _ => rfl,
    fun k => tget_map Core.fresh (fun p => (p.1, { p.2 with held := p.2.held.map fun h => if h.no = n && h.prodCore = c then { h with freshL1 := h.freshL1 ||| m } else h })) k s.cores (fun _ => rfl) bareCore (fun _ => rfl),
    fun _ => rfl, fun _ => rfl, fun _ => rfl⟩
theorem onlyMemory_homeWrite (s : State) (n : Nat) (d : LineData) (m : BitVec 64) :
    OnlyMemory s (s.homeWrite n d m) := onlyMemory_of rfl rfl rfl rfl rfl rfl
theorem onlyMemory_performHomeBy (s : State) (n : Nat) (d : LineData) (m : BitVec 64) (f : Source) (w : Option (Nat × Nat)) :
    OnlyMemory s (s.performHomeBy n d m f w) :=
  onlyMemory_trans (onlyMemory_trans (onlyMemory_homeWrite s n d m) (onlyMemory_spoil _ _ _ _ _)) (onlyMemory_tagLine _ _ _ _)
theorem onlyMemory_performHome (s : State) (n : Nat) (d : LineData) (m : BitVec 64) (w : Option (Nat × Nat)) :
    OnlyMemory s (s.performHome n d m w) := onlyMemory_performHomeBy s n d m _ w
theorem onlyMemory_fillSeg (s : State) (c n : Nat) : OnlyMemory s (s.fillSeg c n) := onlyMemory_setSeg s c _
theorem onlyMemory_performSegBy (s : State) (c n : Nat) (d : LineData) (m : BitVec 64) (f : Source) (w : Option (Nat × Nat)) :
    OnlyMemory s (s.performSegBy c n d m f w) :=
  onlyMemory_trans (onlyMemory_trans (onlyMemory_trans (onlyMemory_fillSeg s c n) (onlyMemory_setSeg _ _ _)) (onlyMemory_spoil _ _ _ _ _)) (onlyMemory_tagLine _ _ _ _)
theorem onlyMemory_performSeg (s : State) (c n : Nat) (d : LineData) (m : BitVec 64) (w : Option (Nat × Nat)) :
    OnlyMemory s (s.performSeg c n d m w) := onlyMemory_performSegBy s c n d m _ w
theorem onlyMemory_fillL1 (s : State) (c n : Nat) : OnlyMemory s (s.fillL1 c n) :=
  onlyMemory_trans (onlyMemory_fillSeg s _ n) (onlyMemory_setL1 _ _ _)
theorem onlyMemory_writeL1 (s : State) (c sl n : Nat) (d : LineData) (m : BitVec 64) : OnlyMemory s (s.writeL1 c sl n d m) :=
  onlyMemory_trans (onlyMemory_setL1 _ _ _) (onlyMemory_freshen _ _ _ _)
theorem onlyMemory_performL1 (s : State) (c sl n : Nat) (d : LineData) (m : BitVec 64) :
    OnlyMemory s (s.performL1 c sl n d m) :=
  onlyMemory_trans (onlyMemory_fillL1 s c n) (onlyMemory_writeL1 _ _ _ _ _ _)
theorem onlyMemory_evictMere (s : State) (n : Nat) : OnlyMemory s (s.evictMere n) := by
  unfold State.evictMere; split
  · exact onlyMemory_refl s
  · split
    · exact onlyMemory_refl s
    · exact onlyMemory_of rfl rfl rfl rfl rfl rfl
theorem onlyMemory_discardMere (s : State) (n : Nat) : OnlyMemory s (s.discardMere n) := onlyMemory_of rfl rfl rfl rfl rfl rfl
theorem onlyMemory_fetchMere (s : State) (n : Nat) : OnlyMemory s (s.fetchMere n) := by
  unfold State.fetchMere; split <;> exact onlyMemory_of rfl rfl rfl rfl rfl rfl
theorem onlyMemory_setBytes (s : State) (a : Nat) (bs : List Byte) : OnlyMemory s (s.setBytes a bs) := onlyMemory_of rfl rfl rfl rfl rfl rfl
theorem onlyMemory_bankWrite (s : State) (a : Nat) (bs : List Byte) : OnlyMemory s (s.bankWrite a bs) := onlyMemory_of rfl rfl rfl rfl rfl rfl
theorem onlyMemory_cleanSeg (s : State) (c n : Nat) : OnlyMemory s (s.cleanSeg c n) := by
  unfold State.cleanSeg; split
  · exact onlyMemory_refl s
  · split
    · exact onlyMemory_refl s
    · exact onlyMemory_trans (onlyMemory_setSeg _ _ _) (onlyMemory_performHomeBy _ _ _ _ _ _)
theorem onlyMemory_cleanL1 (s : State) (c n : Nat) : OnlyMemory s (s.cleanL1 c n) := by
  unfold State.cleanL1; split
  · exact onlyMemory_refl s
  · split
    · exact onlyMemory_refl s
    · exact onlyMemory_trans (onlyMemory_setL1 _ _ _) (onlyMemory_performSegBy _ _ _ _ _ _ _)
/-- A change made only where a condition does not spare it. -/
theorem onlyMemory_unless {s t : State} (c : Prop) [Decidable c] (h : OnlyMemory s t) : OnlyMemory s (if c then s else t) := by
  split
  · exact onlyMemory_refl s
  · exact h
theorem onlyMemory_leaveL1 (s : State) (c n : Nat) : OnlyMemory s (s.leaveL1 c n) :=
  onlyMemory_unless _ (onlyMemory_trans (onlyMemory_cleanL1 s c n) (onlyMemory_setL1 _ _ _))
theorem onlyMemory_leaveSeg (s : State) (c n : Nat) : OnlyMemory s (s.leaveSeg c n) :=
  onlyMemory_unless _ (onlyMemory_trans (onlyMemory_cleanSeg s c n) (onlyMemory_setSeg _ _ _))
theorem onlyMemory_cleanAllL1 (s : State) (c : Nat) : OnlyMemory s (s.cleanAllL1 c) :=
  onlyMemory_foldl _ _ (fun s n => onlyMemory_cleanL1 s c n) s
theorem onlyMemory_cleanAllSeg (s : State) (c : Nat) : OnlyMemory s (s.cleanAllSeg c) :=
  onlyMemory_foldl _ _ (fun s n => onlyMemory_cleanSeg s c n) s
theorem onlyMemory_leaveWay (s : State) (b n : Nat) : OnlyMemory s (s.leaveWay b n) := by
  unfold State.leaveWay; split
  · exact onlyMemory_refl s
  · extract_lets t
    refine onlyMemory_trans (t := t) ?_ (onlyMemory_setBlock _ _ _ rfl)
    show OnlyMemory s (if _ then s else _)
    split
    · exact onlyMemory_refl s
    · exact onlyMemory_performHome _ _ _ _ _
theorem onlyMemory_recallBut (s : State) (c cl : Option Nat) (n : Nat) : OnlyMemory s (s.recallBut c cl n) :=
  onlyMemory_trans (onlyMemory_trans
    (onlyMemory_foldl _ _ (fun s (p : Nat × Core) => onlyMemory_unless _ (onlyMemory_leaveL1 s p.1 n)) s)
    (onlyMemory_foldl _ _ (fun s (p : Nat × Segment) => onlyMemory_unless _ (onlyMemory_leaveSeg s p.1 n)) _))
    (onlyMemory_foldl _ _ (fun s (p : Nat × Block) => onlyMemory_leaveWay s p.1 n) _)
theorem onlyMemory_recall (s : State) (n : Nat) : OnlyMemory s (s.recallLine n) := onlyMemory_recallBut s none none n
theorem onlyMemory_cleanBut (s : State) (c : Option Nat) (n : Nat) : OnlyMemory s (s.cleanBut c n) :=
  onlyMemory_trans (onlyMemory_trans
    (onlyMemory_foldl _ _ (fun s (p : Nat × Core) => onlyMemory_unless _ (onlyMemory_cleanL1 s p.1 n)) s)
    (onlyMemory_foldl _ _ (fun s (p : Nat × Segment) => onlyMemory_cleanSeg s p.1 n) _))
    (onlyMemory_foldl _ _ (fun s (p : Nat × Block) => onlyMemory_leaveWay s p.1 n) _)
theorem onlyMemory_cleanLine (s : State) (n : Nat) : OnlyMemory s (s.cleanLine n) := onlyMemory_cleanBut s none n
theorem onlyMemory_cleanEverything (s : State) : OnlyMemory s s.cleanEverything :=
  onlyMemory_trans (onlyMemory_foldl _ _ (fun s (p : Nat × Core) => onlyMemory_cleanAllL1 s p.1) s)
    (onlyMemory_foldl _ _ (fun s (p : Nat × Segment) => onlyMemory_cleanAllSeg s p.1) _)
theorem onlyMemory_bumpL1 (s : State) (c k : Nat) : OnlyMemory s (s.bumpL1 c k) := by
  simp only [State.bumpL1]
  refine onlyMemory_trans ?_ (onlyMemory_setL1 _ _ _)
  split
  · exact onlyMemory_foldl _ _ (fun s (l : Line) => onlyMemory_leaveL1 s c l.no) s
  · exact onlyMemory_refl s
theorem onlyMemory_bumpSeg (s : State) (c k : Nat) : OnlyMemory s (s.bumpSeg c k) := by
  simp only [State.bumpSeg]
  refine onlyMemory_trans ?_ (onlyMemory_setSeg _ _ _)
  split
  · exact onlyMemory_foldl _ _ (fun s (l : Line) => onlyMemory_leaveSeg s c l.no) s
  · exact onlyMemory_refl s

/-! ## Departures and held lines -/

theorem onlyMemory_setTrack (s : State) (k n : Nat) (t : Track) : OnlyMemory s (s.setTrack k n t) := onlyMemory_of rfl rfl rfl rfl rfl rfl
theorem onlyMemory_depart (s : State) (task id c sl len : Nat) : OnlyMemory s (s.depart task id c sl len) := by
  unfold State.depart
  extract_lets t deps s1 s2 a
  have h1 : OnlyMemory s s1 := onlyMemory_setTrack _ _ _ _
  have h2 : OnlyMemory s1 s2 := onlyMemory_foldl _ _ (fun s p => onlyMemory_setHart s _ _ (by rfl)) _
  split
  · exact onlyMemory_refl s
  · split
    · exact onlyMemory_setTrack _ _ _ _
    · refine onlyMemory_trans (onlyMemory_trans h1 h2) ?_
      split
      · exact onlyMemory_setHart s2 a _ (by split <;> rfl)
      · exact onlyMemory_refl _
theorem onlyMemory_cleanL1Of (s : State) (c n : Nat) (m : BitVec 64) : OnlyMemory s (s.cleanL1Of c n m) := by
  unfold State.cleanL1Of; split
  · exact onlyMemory_refl s
  · split
    · exact onlyMemory_refl s
    · exact onlyMemory_trans (onlyMemory_setL1 _ _ _) (onlyMemory_performSegBy _ _ _ _ _ _ _)
theorem onlyMemory_cleanSegOf (s : State) (c n : Nat) (m : BitVec 64) : OnlyMemory s (s.cleanSegOf c n m) := by
  unfold State.cleanSegOf; split
  · exact onlyMemory_refl s
  · split
    · exact onlyMemory_refl s
    · exact onlyMemory_trans (onlyMemory_setSeg _ _ _) (onlyMemory_performHomeBy _ _ _ _ _ _)
/-- What a held line carries is performed, and no agent moves. -/
theorem onlyMemory_performCarried (s : State) (c : Nat) (h : Held) : OnlyMemory s (s.performCarried c h) := by
  have h1 : OnlyMemory s ((s.cleanL1Of h.prodCore h.no ((s.l1 h.prodCore).dirtyOf h.no &&& ~~~h.freshL1)).cleanSegOf (coreCluster h.prodCore) h.no
      (((s.l1 h.prodCore).dirtyOf h.no &&& ~~~h.freshL1) ||| ~~~h.freshSegment)) :=
    onlyMemory_trans (onlyMemory_cleanL1Of _ _ _ _) (onlyMemory_cleanSegOf _ _ _ _)
  refine onlyMemory_trans (onlyMemory_trans h1 ?_) (onlyMemory_leaveSeg _ _ _)
  split
  · exact onlyMemory_refl _
  · exact onlyMemory_performHomeBy _ _ _ _ _ _
theorem onlyMemory_settleHeld (s : State) (c : Nat) (h : Held) : OnlyMemory s (s.settleHeld c h) := by
  simp only [State.settleHeld]
  split
  · exact onlyMemory_depart _ _ _ _ _ _
  · exact onlyMemory_trans (onlyMemory_performCarried _ _ _) (onlyMemory_setL1 _ _ _)
theorem onlyMemory_settleAll (s : State) (a : AgentId) (sc : Scope) : OnlyMemory s (s.settleAll a sc) := by
  unfold State.settleAll
  split
  · extract_lets hs mine k s'
    refine onlyMemory_trans (t := s') ?_ (onlyMemory_foldl _ _ (fun s h => onlyMemory_settleHeld s _ h) _)
    exact onlyMemory_setCore _ _ _ rfl
  all_goals exact onlyMemory_refl s
theorem onlyMemory_acquire (s : State) (a : AgentId) (sc : Scope) : OnlyMemory s (s.acquire a sc) := by
  simp only [State.acquire]
  refine onlyMemory_trans ?_ (onlyMemory_settleAll _ _ _)
  split
  · exact onlyMemory_refl s
  · refine onlyMemory_trans ?_ (onlyMemory_foldl _ _ (fun s k => onlyMemory_bumpSeg s _ k) _)
    split
    · exact onlyMemory_foldl _ _ (fun s k => onlyMemory_bumpL1 s _ k) s
    all_goals exact onlyMemory_refl s
theorem onlyMemory_cleanHost (s : State) (a : AgentId) : OnlyMemory s (s.cleanHost a) := by
  simp only [State.cleanHost]
  refine onlyMemory_trans (onlyMemory_trans ?_ (onlyMemory_foldl _ _ (fun s n => onlyMemory_leaveSeg s _ n) _))
    (onlyMemory_foldl _ _ (fun s (l : Line) => onlyMemory_evictMere s l.no) _)
  split
  · exact onlyMemory_foldl _ _ (fun s n => onlyMemory_leaveL1 s _ n) s
  all_goals exact onlyMemory_refl s
theorem onlyMemory_release (s : State) (a : AgentId) (sc : Scope) : OnlyMemory s (s.release a sc) := by
  have l1 : ∀ s : State, OnlyMemory s (match a with
      | .thread c _ => s.cleanAllL1 c
      | .region _ | .matrix _ _ | .epilogue _ _ | .copySeq _ _ | .tile _ _ _ => s) := by
    intro s; split
    · exact onlyMemory_cleanAllL1 s _
    all_goals exact onlyMemory_refl s
  have out : ∀ s : State, OnlyMemory s (if sc = .system then s.cleanHost a else s) := by
    intro s; split
    · exact onlyMemory_cleanHost s a
    · exact onlyMemory_refl s
  unfold State.release
  split
  · exact onlyMemory_refl s
  · exact onlyMemory_refl s
  · exact l1 s
  all_goals
    exact onlyMemory_trans (onlyMemory_trans (l1 s) (onlyMemory_cleanAllSeg _ _)) (out _)
theorem onlyMemory_leaveCaches (s : State) (a : AgentId) (sc : Scope) : OnlyMemory s (s.leaveCaches a sc) := by
  have seg : ∀ s : State, OnlyMemory s ((State.lineNumbers (s.seg a.cluster)).foldl (fun s n => s.leaveSeg a.cluster n) s) :=
    fun s => onlyMemory_foldl _ _ (fun s n => onlyMemory_leaveSeg s _ n) s
  have both : OnlyMemory s (s.leaveCaches a .thread) := by
    simp only [State.leaveCaches]
    refine onlyMemory_trans ?_ (seg _)
    split
    · exact onlyMemory_foldl _ _ (fun s n => onlyMemory_leaveL1 s _ n) s
    all_goals exact onlyMemory_refl s
  cases sc
  · exact both
  · exact both
  · exact seg s
  all_goals exact onlyMemory_refl s
theorem onlyMemory_syncPaths (s : State) (a : AgentId) (sc : Scope) : OnlyMemory s (s.syncPaths a sc) :=
  onlyMemory_trans (onlyMemory_trans (onlyMemory_release s a _) (onlyMemory_acquire _ a _)) (onlyMemory_leaveCaches _ a sc)
theorem onlyMemory_acquireFor (s : State) (o : Order) (sc : Scope) : OnlyMemory s (acquireFor s o sc) := by
  unfold acquireFor; split
  · exact onlyMemory_acquire _ _ _
  · exact onlyMemory_refl s
theorem onlyMemory_releaseFor (s : State) (o : Order) (sc : Scope) : OnlyMemory s (releaseFor s o sc) := by
  unfold releaseFor; split
  · exact onlyMemory_release _ _ _
  · exact onlyMemory_refl s

/-! ## Trackway -/

theorem onlyMemory_noteWrite (s : State) (a : AgentId) (t : Option Nat) (va : Word) (n : Nat) : OnlyMemory s (noteWrite s a t va n) := by
  unfold noteWrite; split <;> exact onlyMemory_of rfl rfl rfl rfl rfl rfl
theorem onlyMemory_pushLine (s : State) (t id r : Nat) (e : TrackEntry) : OnlyMemory s (pushLine s t id r e) := by
  unfold pushLine
  split
  · exact onlyMemory_refl s
  · extract_lets here
    split
    · exact onlyMemory_refl s
    · exact onlyMemory_trans (onlyMemory_setTrack _ _ _ _) (onlyMemory_setCore _ _ _ rfl)
theorem onlyMemory_pushesOf (s : State) (t id c sl : Nat) : OnlyMemory s (pushesOf s t id c sl) := by
  simp only [pushesOf]
  split
  · split
    · exact onlyMemory_refl s
    · exact onlyMemory_foldl _ _ (fun s e => onlyMemory_pushLine s _ _ _ e) s
  · exact onlyMemory_refl s
theorem onlyMemory_pushes (s : State) (a : AgentId) (t : Option Nat) (va : Word) : OnlyMemory s (pushes s a t va) := by
  unfold pushes
  split
  · exact onlyMemory_foldl _ _ (fun s id => onlyMemory_pushesOf s _ id _ _) s
  · exact onlyMemory_refl s
theorem onlyMemory_recordTransfer (s : State) (t id : Nat) (e : TrackEntry) : OnlyMemory s (recordTransfer s t id e) := by
  simp only [recordTransfer]
  split
  · exact onlyMemory_refl s
  · split
    · exact onlyMemory_setTrack _ _ _ _
    · split <;> exact onlyMemory_setTrack _ _ _ _
theorem onlyMemory_noteTransfer (s : State) (t id c sl : Nat) (va : Word) (n : Nat) : OnlyMemory s (noteTransfer s t id c sl va n) := by
  simp only [noteTransfer]
  split
  · split
    · exact onlyMemory_refl s
    · exact onlyMemory_recordTransfer _ _ _ _
  · exact onlyMemory_refl s
theorem onlyMemory_noteDeparture (s : State) (t id c sl : Nat) (va : Word) (n p len : Nat) :
    OnlyMemory s (noteDeparture s t id c sl va n p len) := by
  simp only [noteDeparture]
  split
  · split
    · exact onlyMemory_refl s
    · exact onlyMemory_depart _ _ _ _ _ _
  · exact onlyMemory_refl s
theorem onlyMemory_noteFill (s : State) (c sl : Nat) (t : Option Nat) (va : Word) (n : Nat) (coh : Bool) (len : Nat) :
    OnlyMemory s (noteFill s c sl t va n coh len) := by
  unfold noteFill
  split
  · exact onlyMemory_refl s
  · refine onlyMemory_trans ?_ (onlyMemory_foldl _ _ (fun s id => onlyMemory_noteDeparture s _ id _ _ _ _ _ _) _)
    split
    · exact onlyMemory_foldl _ _ (fun s id => onlyMemory_noteTransfer s _ id _ _ _ _) s
    · exact onlyMemory_refl s
theorem onlyMemory_noteUse (s : State) (c n : Nat) : OnlyMemory s (noteUse s c n) := by
  simp only [noteUse]
  split
  · exact onlyMemory_refl s
  · split
    · exact onlyMemory_refl s
    · exact onlyMemory_trans (onlyMemory_setTrack _ _ _ _) (onlyMemory_setL1 _ _ _)

/-! ## Reads and writes of memory -/

theorem onlyMemory_fillFromHome (s : State) (c n : Nat) : OnlyMemory s (fillFromHome s c n) := onlyMemory_setL1 _ _ _
theorem onlyMemory_coherentFill (s : State) (c sl : Nat) (t : Option Nat) (va : Word) (n len : Nat) :
    OnlyMemory s (coherentFill s c sl t va n len) := by
  simp only [coherentFill]; split
  · exact onlyMemory_noteUse s c n
  · refine onlyMemory_trans (onlyMemory_trans (onlyMemory_cleanBut s (some c) n) ?_) (onlyMemory_fillFromHome _ _ _)
    split
    · exact onlyMemory_refl _
    · exact onlyMemory_noteFill _ _ _ _ _ _ _ _
theorem onlyMemory_coherentWrite (s : State) (a : AgentId) (l : Level) (n : Nat) (d : LineData) (m : BitVec 64) :
    OnlyMemory s (coherentWrite s a l n d m) := by
  have home := onlyMemory_trans (onlyMemory_recall s n) (onlyMemory_performHome (s.recallLine n) n d m (threadOf a))
  cases l
  · exact onlyMemory_trans (onlyMemory_trans (onlyMemory_recallBut _ _ _ _) (onlyMemory_fillFromHome _ _ _)) (onlyMemory_writeL1 _ _ _ _ _ _)
  · exact onlyMemory_trans (onlyMemory_recallBut _ _ _ _) (onlyMemory_performSeg _ _ _ _ _ _)
  · exact home
  · exact home
theorem onlyMemory_pastMere (s : State) (l : Level) (n : Nat) : OnlyMemory s (pastMere s l n) := by
  cases l
  case system =>
    unfold pastMere; simp only; split
    · exact onlyMemory_evictMere s n
    · exact onlyMemory_refl s
  all_goals exact onlyMemory_refl s
theorem onlyMemory_leaveBelow (s : State) (a : AgentId) (l : Level) (n : Nat) : OnlyMemory s (leaveBelow s a l n) := by
  unfold leaveBelow
  extract_lets fromL1
  have l1 : ∀ s : State, OnlyMemory s (fromL1 s) := by
    intro s
    show OnlyMemory s (match a with
      | .thread c _ => s.leaveL1 c n
      | .region _ | .matrix _ _ | .epilogue _ _ | .copySeq _ _ | .tile _ _ _ => s)
    split
    · exact onlyMemory_leaveL1 s _ _
    all_goals exact onlyMemory_refl s
  have two := onlyMemory_trans (l1 s) (onlyMemory_leaveSeg (fromL1 s) a.cluster n)
  cases l
  · exact onlyMemory_refl s
  · exact l1 s
  · exact two
  · simp only []
    split
    · exact onlyMemory_trans two (onlyMemory_evictMere _ _)
    · exact two
theorem onlyMemory_readMemory (s : State) (a : AgentId) (t : Option Nat) (va : Word) (l : Level) (coh : Bool) (pa n len : Nat) :
    OnlyMemory s (readMemory s a t va l coh pa n len).2 := by
  cases coh
  · have below := onlyMemory_leaveBelow s a l (pa / 64)
    cases l
    · refine onlyMemory_trans below (onlyMemory_trans (t := if _ then _ else _) ?_ (onlyMemory_fillL1 _ _ _))
      split
      · exact onlyMemory_noteUse _ _ _
      · exact onlyMemory_noteFill _ _ _ _ _ _ _ _
    · exact onlyMemory_trans below (onlyMemory_fillSeg _ _ _)
    · exact below
    · exact below
  · cases l
    · exact onlyMemory_coherentFill _ _ _ _ _ _ _
    · exact onlyMemory_trans (onlyMemory_trans (onlyMemory_leaveBelow _ _ _ _) (onlyMemory_cleanLine _ _)) (onlyMemory_fillSeg _ _ _)
    · exact onlyMemory_trans (onlyMemory_cleanLine s (pa / 64)) (onlyMemory_pastMere _ .home (pa / 64))
    · exact onlyMemory_trans (onlyMemory_cleanLine s (pa / 64)) (onlyMemory_pastMere _ .system (pa / 64))
theorem onlyMemory_writeMemory (s : State) (a : AgentId) (l : Level) (coh : Bool) (pa v n : Nat) :
    OnlyMemory s (writeMemory s a l coh pa v n) := by
  simp only [writeMemory]
  split
  · exact onlyMemory_trans (onlyMemory_coherentWrite _ _ _ _ _ _) (onlyMemory_pastMere _ _ _)
  · refine onlyMemory_trans (onlyMemory_leaveBelow s a l (pa / 64)) ?_
    split
    · exact onlyMemory_performL1 _ _ _ _ _ _
    · exact onlyMemory_performSeg _ _ _ _ _ _
    · exact onlyMemory_trans (onlyMemory_performHome _ _ _ _ _) (onlyMemory_pastMere _ _ _)
    · exact onlyMemory_trans (onlyMemory_performHome _ _ _ _ _) (onlyMemory_pastMere _ _ _)
theorem onlyMemory_dropCopies (s : State) (pa : Nat) (sh : Bool) : OnlyMemory s (dropCopies s pa sh) := by
  unfold dropCopies
  split
  · rename_i e h
    refine ⟨rfl, fun _ => rfl, fun _ => rfl, fun _ => rfl, fun _ => rfl, fun f => ?_⟩
    by_cases n : pa / 4096 = f
    · subst n
      simp only [tfind_tset_same, h, Option.map_some]
      rfl
    · simp only [tfind_tset_ne n]
  · exact onlyMemory_refl s

/-- The site of a page follows from its shared frame but for the copies of peers. -/
theorem onlyMemory_siteOf {s t : State} (h : OnlyMemory s t) (pa : Nat) (sh : Bool) : siteOf t pa sh = siteOf s pa sh := by
  have l : t.links = s.links := by simpa [bare] using congrArg State.links h.rest
  have o : t.ownDevice = s.ownDevice := by simp only [State.ownDevice, l]
  have e := h.homes (pa / 4096)
  unfold siteOf
  rw [o]
  generalize tfind (pa / 4096) t.homes = x at e
  generalize tfind (pa / 4096) s.homes = y at e
  cases x <;> cases y <;> simp_all [bareHome]

/-! ## What an instruction keeps that retires after such changes -/

theorem onlyMemory_chain {s t : State} (h : OnlyMemory s t) : t.me.chain = s.me.chain := by
  have := congrArg Hart.chain (h.harts s.cur)
  simpa [unmarked, State.me, onlyMemory_cur h] using this
/-- An instruction that retires after its accesses moved lines leaves every agent as if it had retired at once. -/
theorem onlyMemory_done {s t : State} (h : OnlyMemory s t) (i : Instr) (ws : List (Reg × Word)) :
    OnlyMemory (done i ws s) (done i ws t) := by
  refine ⟨h.rest, fun a => ?_, h.cores, h.segments, h.blocks, h.homes⟩
  have e := h.harts s.cur
  by_cases n : s.cur = a
  · subst n
    have hx : t.me.x = s.me.x := by have := congrArg Hart.x e; simpa [unmarked, State.me, onlyMemory_cur h] using this
    have regs : ∀ (ws : List (Reg × Word)) (p q : Hart), p.x = q.x → unmarked p = unmarked q →
        (p.setRegs ws).x = (q.setRegs ws).x := by
      intro ws
      induction ws with
      | nil => exact fun _ _ x _ => x
      | cons w r ih =>
        intro p q x u
        refine ih _ _ ?_ ?_
        · unfold Hart.setReg; split
          · exact x
          · simp only [x]
        · unfold Hart.setReg; split
          · exact u
          · simp only [unmarked, Hart.mk.injEq] at u ⊢
            simp only [x, true_and]
            simp_all
    have e' : unmarked t.me = unmarked s.me := by simpa [State.me, onlyMemory_cur h] using e
    have k := regs ws t.me s.me hx e'
    have l : (Safety.done i ws t).hart s.cur = { t.me.setRegs ws with pc := t.me.pc + BitVec.ofNat 64 i.length } := by
      rw [← onlyMemory_cur h]; exact State.hart_setMe t _
    have r : (Safety.done i ws s).hart s.cur = { s.me.setRegs ws with pc := s.me.pc + BitVec.ofNat 64 i.length } :=
      State.hart_setMe s _
    rw [l, r]
    simp only [unmarked, Hart.mk.injEq] at e' ⊢
    simp_all
  · rw [done_hart_ne _ _ _ n, done_hart_ne i ws t (by rw [onlyMemory_cur h]; exact n)]
    exact h.harts a

end Sys2Proof.Machine
end

