-- ==== Sys2Proof/Laws/Memory.lean ====
section
/-! SUPPORT. The list of bytes: a read after a write, and that every operation keeps the canonical form. -/

namespace Sys2Proof.Machine

/-- The canonical form as two facts: addresses rise strictly, and no listed byte is what an unlisted address reads as. -/
theorem memWf_cons {c : Host.Cell} {m : List Host.Cell} :
    memWf (c :: m) = true ↔ c.2 ≠ unlisted ∧ (∀ d ∈ m, c.1 < d.1) ∧ memWf m = true := by
  induction m generalizing c with
  | nil => obtain ⟨k, b⟩ := c; simp [memWf]
  | cons d r ih =>
    obtain ⟨k, b⟩ := c
    obtain ⟨k', b'⟩ := d
    simp only [memWf, Bool.and_eq_true, decide_eq_true_eq, List.mem_cons, forall_eq_or_imp]
    constructor
    · rintro ⟨⟨h1, h2⟩, h3⟩
      refine ⟨h2, ⟨h1, fun e he => ?_⟩, h3⟩
      exact Nat.lt_trans h1 ((ih.mp h3).2.1 e he)
    · rintro ⟨h2, ⟨h1, _⟩, h3⟩
      exact ⟨⟨h1, h2⟩, h3⟩

theorem memWf_filter (p : Host.Cell → Bool) {m : List Host.Cell} (h : memWf m = true) : memWf (m.filter p) = true := by
  induction m with
  | nil => rfl
  | cons c r ih =>
    obtain ⟨h1, h2, h3⟩ := memWf_cons.mp h
    by_cases t : p c = true
    · rw [List.filter_cons_of_pos t]
      exact memWf_cons.mpr ⟨h1, fun d hd => h2 d (List.mem_filter.mp hd).1, ih h3⟩
    · rw [List.filter_cons_of_neg t]; exact ih h3

theorem mem_memInsert {m : List Host.Cell} {a : Nat} {b : Byte} {d : Host.Cell} (h : d ∈ memInsert m a b) : d = (a, b) ∨ d ∈ m := by
  induction m with
  | nil => simpa [memInsert] using h
  | cons c r ih =>
    obtain ⟨k, x⟩ := c
    simp only [memInsert] at h
    split at h
    · simpa using h
    · split at h
      · rcases List.mem_cons.mp h with h | h
        · exact .inl h
        · exact .inr (List.mem_cons_of_mem _ h)
      · rcases List.mem_cons.mp h with h | h
        · exact .inr (h ▸ List.mem_cons_self)
        · rcases ih h with h | h
          · exact .inl h
          · exact .inr (List.mem_cons_of_mem _ h)

theorem memWf_memInsert {m : List Host.Cell} {a : Nat} {b : Byte} (n : b ≠ unlisted) (h : memWf m = true) :
    memWf (memInsert m a b) = true := by
  induction m with
  | nil => simp [memInsert, memWf, n]
  | cons c r ih =>
    obtain ⟨k, x⟩ := c
    obtain ⟨h1, h2, h3⟩ := memWf_cons.mp h
    simp only [memInsert]
    split
    · rename_i lt
      refine memWf_cons.mpr ⟨n, fun d hd => ?_, h⟩
      rcases List.mem_cons.mp hd with e | e
      · subst e; exact lt
      · exact Nat.lt_trans lt (h2 d e)
    · split
      · rename_i e
        exact memWf_cons.mpr ⟨n, fun d hd => e ▸ h2 d hd, h3⟩
      · refine memWf_cons.mpr ⟨h1, fun d hd => ?_, ih h3⟩
        rcases mem_memInsert hd with e | e
        · subst e; simp only; omega
        · exact h2 d e

/-- A write keeps the canonical form. -/
theorem memWf_memWrite {m : List Host.Cell} (a : Nat) (b : Byte) (h : memWf m = true) : memWf (memWrite m a b) = true := by
  unfold memWrite
  split
  · exact memWf_filter _ h
  · rename_i n; exact memWf_memInsert n h

/-- So do writes of several bytes. -/
theorem memWf_memWriteList {m : List Host.Cell} (a : Nat) (bs : List Byte) (h : memWf m = true) : memWf (memWriteList m a bs) = true := by
  induction bs generalizing m a with
  | nil => exact h
  | cons b r ih => exact ih (a + 1) (memWf_memWrite a b h)

theorem memWf_foldl {α : Type} (f : List Host.Cell → α → List Host.Cell) (k : ∀ m x, memWf m = true → memWf (f m x) = true)
    (l : List α) {m : List Host.Cell} (h : memWf m = true) : memWf (l.foldl f m) = true := by
  induction l generalizing m with
  | nil => exact h
  | cons x r ih => exact ih (k m x h)

/-! ## A read after a write -/

theorem memRead_filter_ne (m : List Host.Cell) (a : Nat) : memRead (m.filter fun c => c.1 ≠ a) a = unlisted := by
  induction m with
  | nil => rfl
  | cons c r ih =>
    obtain ⟨k, x⟩ := c
    by_cases e : k = a
    · rw [List.filter_cons_of_neg (by simpa using e)]; exact ih
    · rw [List.filter_cons_of_pos (by simpa using e), memRead, if_neg e]; exact ih

theorem memRead_filter_other {m : List Host.Cell} {a c : Nat} (n : c ≠ a) : memRead (m.filter fun d => d.1 ≠ a) c = memRead m c := by
  induction m with
  | nil => rfl
  | cons d r ih =>
    obtain ⟨k, x⟩ := d
    by_cases e : k = a
    · have : k ≠ c := fun t => n (t ▸ e)
      rw [List.filter_cons_of_neg (by simpa using e), memRead, if_neg this]; exact ih
    · rw [List.filter_cons_of_pos (by simpa using e), memRead, memRead, ih]

theorem memRead_memInsert (m : List Host.Cell) (a c : Nat) (b : Byte) : memRead (memInsert m a b) c = if c = a then b else memRead m c := by
  induction m with
  | nil => simp only [memInsert, memRead, eq_comm]
  | cons d r ih =>
    obtain ⟨k, x⟩ := d
    simp only [memInsert]
    split
    · simp only [memRead, eq_comm]
    · split
      · rename_i e
        simp only [memRead]
        by_cases t : c = a
        · simp [t]
        · have : ¬ a = c := fun z => t z.symm
          simp [t, this, e]
      · rename_i e
        simp only [memRead, ih]
        by_cases t : c = a
        · subst t; simp [e]
        · simp [t]

/-- A byte reads as it was last written, and a write leaves every other byte. -/
theorem memRead_memWrite (m : List Host.Cell) (a c : Nat) (b : Byte) : memRead (memWrite m a b) c = if c = a then b else memRead m c := by
  unfold memWrite
  split
  · rename_i e
    by_cases t : c = a
    · subst t; rw [memRead_filter_ne, if_pos rfl, e]
    · rw [memRead_filter_other t, if_neg t]
  · exact memRead_memInsert m a c b

/-- The bytes of a write of several: each in its place, and every other byte as it was. -/
theorem memRead_memWriteList (m : List Host.Cell) (a c : Nat) (bs : List Byte) :
    memRead (memWriteList m a bs) c = if a ≤ c ∧ c < a + bs.length then bs.getD (c - a) 0 else memRead m c := by
  induction bs generalizing m a with
  | nil =>
    rw [memWriteList, if_neg (by simp only [List.length_nil]; omega)]
  | cons b r ih =>
    rw [memWriteList, ih, memRead_memWrite]
    by_cases e : c = a
    · subst e
      rw [if_neg (by omega), if_pos rfl, if_pos ⟨Nat.le_refl _, by simp only [List.length_cons]; omega⟩, Nat.sub_self, List.getD_cons_zero]
    · by_cases h : a + 1 ≤ c ∧ c < a + 1 + r.length
      · have h' : a ≤ c ∧ c < a + (b :: r).length := by simp only [List.length_cons]; omega
        rw [if_pos h, if_pos h']
        obtain ⟨n, hn⟩ : ∃ n, c - a = n + 1 := ⟨c - a - 1, by omega⟩
        have : c - (a + 1) = n := by omega
        rw [hn, this, List.getD_cons_succ]
      · have h' : ¬ (a ≤ c ∧ c < a + (b :: r).length) := by simp only [List.length_cons]; omega
        rw [if_neg h, if_neg h', if_neg e]

namespace State

@[simp] theorem backing_setBytes (s : State) (a c : Nat) (bs : List Byte) :
    (s.setBytes a bs).backing c = if a ≤ c ∧ c < a + bs.length then bs.getD (c - a) 0 else s.backing c :=
  memRead_memWriteList s.mem a c bs
@[simp] theorem backing_bankWrite (s : State) (a c : Nat) (bs : List Byte) :
    (s.bankWrite a bs).backing c = if a ≤ c ∧ c < a + bs.length then bs.getD (c - a) 0 else s.backing c :=
  memRead_memWriteList s.mem a c bs

theorem memWf_setBytes (s : State) (a : Nat) (bs : List Byte) (h : memWf s.mem = true) : memWf (s.setBytes a bs).mem = true :=
  memWf_memWriteList a bs h
theorem memWf_bankWrite (s : State) (a : Nat) (bs : List Byte) (h : memWf s.mem = true) : memWf (s.bankWrite a bs).mem = true :=
  memWf_memWriteList a bs h
theorem memWf_evictMere (s : State) (no : Nat) (h : memWf s.mem = true) : memWf (s.evictMere no).mem = true := by
  unfold State.evictMere
  split
  · exact h
  · split
    · exact h
    · exact memWf_foldl _ (fun m k => memWf_memWrite _ _) _ h

end State

/-- The memory after reset is in canonical form. -/
theorem memWf_reset : memWf State.reset.mem = true := rfl

end Sys2Proof.Machine
end

