-- ==== Sys2Proof/Laws/Caches.lean ====
section
/-! SUPPORT. What the caches show: a fill changes no byte that anyone sees, and a write in an L1 changes its bytes for its core alone. -/

namespace Sys2Proof.Machine

open Sys2Proof.Safety

/-! ## Lines -/

theorem findLine_putLine (l : Line) (n : Nat) (ls : List Line) : findLine n (putLine l ls) = if l.no = n then some l else findLine n ls := by
  induction ls with
  | nil => simp [putLine, findLine]
  | cons x r ih =>
    simp only [putLine]
    split
    · rename_i e
      by_cases h : l.no = n
      · simp [findLine, h]
      · simp [findLine, h, e]
    · rename_i e
      simp only [findLine, ih]
      by_cases h : l.no = n
      · subst h; simp [e]
      · simp [h]

theorem lineByte_lineOf (f : Nat → Byte) {k : Nat} (h : k < 64) : lineByte (lineOf f) k = f k := by
  simp [lineByte, lineOf, vget, h]

theorem lineByte_mergeLine (d new : LineData) (m : BitVec 64) {k : Nat} (h : k < 64) :
    lineByte (mergeLine d new m) k = if m.getLsbD k then lineByte new k else lineByte d k := lineByte_lineOf _ h

/-! ## A cache's byte after a fill or a write -/

theorem findLine_no {n : Nat} {ls : List Line} {l : Line} (h : findLine n ls = some l) : l.no = n := by
  induction ls with
  | nil => simp [findLine] at h
  | cons x r ih =>
    simp only [findLine] at h
    split at h
    · simp only [Option.some.injEq] at h; subst h; assumption
    · exact ih h

theorem byte_eq (c : Cache) (a : Nat) : c.byte? a = (findLine (a / 64) c.lines).bind fun l =>
    if c.current l || l.dirty.getLsbD (a % 64) then some (lineByte l.data (a % 64)) else none := by
  unfold Cache.byte?
  cases findLine (a / 64) c.lines <;> rfl

theorem byte_put (c : Cache) (l : Line) (a : Nat) : Cache.byte? { c with lines := putLine l c.lines } a =
    if l.no = a / 64 then (if c.current l || l.dirty.getLsbD (a % 64) then some (lineByte l.data (a % 64)) else none) else c.byte? a := by
  rw [byte_eq, byte_eq, findLine_putLine]
  split <;> rfl

theorem current_with (c : Cache) (l : Line) (d : LineData) (m : BitVec 64) (w : Option (Nat × Nat)) :
    c.current { l with data := d, dirty := m, writer := w } = c.current l := rfl

/-- What a cache serves of an address, or else what lies below it. -/
def serves (c : Cache) (below : Nat → Byte) (a : Nat) : Byte := (c.byte? a).getD (below a)

theorem fill_serves {c : Cache} {below : Nat → Byte} {no : Nat} {f : Nat → Byte} {m : BitVec 64}
    (h : ∀ k, k < 64 → f k = serves c below (64 * no + k)) (a : Nat) : serves (c.fill no f m) below a = serves c below a := by
  have lt := Nat.mod_lt a (show 64 > 0 by decide)
  have put : ∀ l : Line, l.no = no → l.data = lineOf f → l.versions = c.versions →
      serves { c with lines := putLine l c.lines } below a = serves c below a := by
    intro l n d v
    unfold serves
    rw [byte_put]
    by_cases e : no = a / 64
    · rw [if_pos (n.trans e), if_pos (by simp [Cache.current, v]), Option.getD_some, d, lineByte_lineOf _ lt, h _ lt, serves,
        show 64 * no + a % 64 = a by omega]
    · rw [if_neg (fun t => e (n.symm.trans t))]
  unfold Cache.fill
  cases findLine no c.lines with
  | none => exact put _ rfl rfl rfl
  | some l =>
    simp only
    by_cases h : c.current l = true
    · rw [if_pos h]
    · rw [if_neg h]; exact put _ rfl rfl rfl

theorem fill_versions (c : Cache) (no : Nat) (f : Nat → Byte) (m : BitVec 64) : (c.fill no f m).versions = c.versions := by
  unfold Cache.fill
  cases findLine no c.lines with
  | none => rfl
  | some l => by_cases h : c.current l = true <;> simp [h]

/-- After a fill the cache holds a current line, with the bytes it serves. -/
theorem fill_line {c : Cache} {below : Nat → Byte} {no : Nat} {f : Nat → Byte} {m : BitVec 64}
    (h : ∀ k, k < 64 → f k = serves c below (64 * no + k)) :
    ∃ l, findLine no (c.fill no f m).lines = some l ∧ (c.fill no f m).current l = true ∧ l.no = no ∧
      ∀ k, k < 64 → lineByte l.data k = serves c below (64 * no + k) := by
  have new : ∀ l : Line, l.no = no → l.data = lineOf f → l.versions = c.versions →
      ∃ l', findLine no (putLine l c.lines) = some l' ∧ l'.versions = c.versions ∧ l'.no = no ∧
        ∀ k, k < 64 → lineByte l'.data k = serves c below (64 * no + k) := fun l n d v =>
    ⟨l, (findLine_putLine _ _ _).trans (if_pos n), v, n, fun k t => by rw [d]; exact (lineByte_lineOf _ t).trans (h k t)⟩
  unfold Cache.fill
  cases e : findLine no c.lines with
  | none =>
    obtain ⟨l, h1, h2, h3, h4⟩ := new { Line.filled no (lineOf f) c.versions with missedHome := m } rfl rfl rfl
    exact ⟨l, h1, by simp [Cache.current, h2], h3, h4⟩
  | some l =>
    by_cases cur : c.current l = true
    · simp only [cur, if_true]
      refine ⟨l, e, cur, findLine_no e, fun k t => ?_⟩
      rw [serves, byte_eq, show (64 * no + k) / 64 = no by omega, show (64 * no + k) % 64 = k by omega, e, Option.bind_some, cur]
      rfl
    · simp only [cur]
      obtain ⟨l, h1, h2, h3, h4⟩ := new { l with
        no := no, data := lineOf f, versions := c.versions, pushed := none
        missedSegment := l.missedSegment &&& l.dirty
        missedHome := (l.missedHome &&& l.dirty) ||| (m &&& ~~~l.dirty) } rfl rfl rfl
      exact ⟨l, h1, by simp [Cache.current, h2], h3, h4⟩

/-! ## What a core, a segment and a home show -/

namespace State

theorem segByte_eq (s : State) (cl a : Nat) : s.segByte cl a = serves (s.seg cl) s.homeByte a := by
  unfold segByte serves; cases (s.seg cl).byte? a <;> rfl
theorem l1Byte_eq (s : State) (c a : Nat) : s.l1Byte c a = serves (s.l1 c) (s.segByte (coreCluster c)) a := by
  unfold l1Byte serves; cases (s.l1 c).byte? a <;> rfl

theorem seg_setSeg (s : State) (cl : Nat) (l : Cache) : (s.setSeg cl l).seg cl = l := by
  simp [seg, setSeg, segment, setSegment]
theorem seg_setSeg_ne (s : State) {cl k : Nat} (n : cl ≠ k) (l : Cache) : (s.setSeg cl l).seg k = s.seg k := by
  simp [seg, setSeg, segment, setSegment, tget_tset_ne _ n]
theorem l1_setL1 (s : State) (c : Nat) (l : Cache) : (s.setL1 c l).l1 c = l := by
  simp [l1, setL1, core, setCore]
theorem l1_setL1_ne (s : State) {c k : Nat} (n : c ≠ k) (l : Cache) : (s.setL1 c l).l1 k = s.l1 k := by
  simp [l1, setL1, core, setCore, tget_tset_ne _ n]
theorem l1_freshen (s : State) (c no : Nat) (m : BitVec 64) (k : Nat) : (s.freshen c no m).l1 k = s.l1 k :=
  congrArg (β := Cache) (a₁ := { Core.fresh with l1 := ((s.freshen c no m).core k).l1 }) (a₂ := { Core.fresh with l1 := (s.core k).l1 }) Core.l1 <|
    tget_map Core.fresh (fun p => (p.1, { p.2 with held := p.2.held.map fun h =>
        if h.no = no && h.prodCore = c then { h with freshL1 := h.freshL1 ||| m } else h })) k s.cores (fun _ => rfl)
      (fun x => { Core.fresh with l1 := x.l1 }) (fun _ => rfl)

/-- A fill of a segment cache changes nothing that anyone sees. -/
theorem segByte_fillSeg (s : State) (cl no k a : Nat) : (s.fillSeg cl no).segByte k a = s.segByte k a := by
  rw [segByte_eq, segByte_eq]
  by_cases n : cl = k
  · subst n
    unfold fillSeg
    rw [seg_setSeg]
    exact fill_serves (below := s.homeByte) (fun j _ => segByte_eq s cl _) a
  · unfold fillSeg
    rw [seg_setSeg_ne _ n]
    rfl
theorem homeByte_fillSeg (s : State) (cl no a : Nat) : (s.fillSeg cl no).homeByte a = s.homeByte a := rfl
theorem l1Byte_fillSeg (s : State) (cl no c a : Nat) : (s.fillSeg cl no).l1Byte c a = s.l1Byte c a := by
  rw [l1Byte_eq, l1Byte_eq]
  have : (s.fillSeg cl no).segByte (coreCluster c) = s.segByte (coreCluster c) := funext fun a => segByte_fillSeg s cl no _ a
  rw [this]
  rfl

/-- So does a fill of an L1, and the line is then there with the bytes that its core sees. -/
theorem segByte_fillL1 (s : State) (c no k a : Nat) : (s.fillL1 c no).segByte k a = s.segByte k a :=
  segByte_fillSeg s (coreCluster c) no k a
theorem homeByte_fillL1 (s : State) (c no a : Nat) : (s.fillL1 c no).homeByte a = s.homeByte a := rfl
theorem l1Byte_fillL1 (s : State) (c no k a : Nat) : (s.fillL1 c no).l1Byte k a = s.l1Byte k a := by
  have below : (s.fillL1 c no).segByte (coreCluster k) = (s.fillSeg (coreCluster c) no).segByte (coreCluster k) :=
    funext fun a => (segByte_fillL1 s c no _ a).trans (segByte_fillSeg s _ no _ a).symm
  rw [← l1Byte_fillSeg s (coreCluster c) no k a, l1Byte_eq, l1Byte_eq, below]
  by_cases n : c = k
  · subst n
    unfold fillL1
    rw [l1_setL1]
    exact fill_serves (fun j _ => l1Byte_eq _ c _) a
  · unfold fillL1
    rw [l1_setL1_ne _ n]
theorem fillL1_line (s : State) (c no : Nat) : ∃ l, findLine no ((s.fillL1 c no).l1 c).lines = some l ∧
    ((s.fillL1 c no).l1 c).current l = true ∧ l.no = no ∧ ∀ k, k < 64 → lineByte l.data k = s.l1Byte c (64 * no + k) := by
  unfold fillL1
  rw [l1_setL1]
  obtain ⟨l, h1, h2, h3, h4⟩ := fill_line (c := (s.fillSeg (coreCluster c) no).l1 c) (no := no)
    (below := (s.fillSeg (coreCluster c) no).segByte (coreCluster c)) (fun j _ => l1Byte_eq _ c _)
  exact ⟨l, h1, h2, h3, fun k t => by rw [h4 k t, ← l1Byte_eq, l1Byte_fillSeg]⟩

/-- A write performed in an L1: its core sees the masked bytes, and no one else sees a change. -/
theorem homeByte_performL1 (s : State) (c sl no : Nat) (new : LineData) (m : BitVec 64) (a : Nat) :
    (s.performL1 c sl no new m).homeByte a = s.homeByte a := rfl
theorem segByte_performL1 (s : State) (c sl no : Nat) (new : LineData) (m : BitVec 64) (k a : Nat) :
    (s.performL1 c sl no new m).segByte k a = s.segByte k a := segByte_fillL1 s c no k a
theorem l1Byte_performL1 (s : State) (c sl no : Nat) (new : LineData) (m : BitVec 64) (k a : Nat) :
    (s.performL1 c sl no new m).l1Byte k a =
      if k = c ∧ a / 64 = no ∧ m.getLsbD (a % 64) = true then lineByte new (a % 64) else s.l1Byte k a := by
  have lt := Nat.mod_lt a (show 64 > 0 by decide)
  have below : (s.performL1 c sl no new m).segByte (coreCluster k) = (s.fillL1 c no).segByte (coreCluster k) :=
    funext fun a => (segByte_performL1 s c sl no new m _ a).trans (segByte_fillL1 s c no _ a).symm
  rw [l1Byte_eq, below]
  by_cases n : c = k
  · subst n
    obtain ⟨l, h1, h2, h3, h4⟩ := fillL1_line s c no
    simp only [performL1, writeL1, l1_freshen, l1_setL1, Cache.write, h1]
    unfold serves
    rw [byte_put]
    by_cases e : no = a / 64
    · rw [if_pos (h3.trans e), current_with, h2, Bool.true_or, if_pos rfl, Option.getD_some, lineByte_mergeLine _ _ _ lt, h4 _ lt,
        show 64 * no + a % 64 = a by omega]
      by_cases b : m.getLsbD (a % 64) = true <;> simp [b, e]
    · rw [if_neg (fun t => e (h3.symm.trans t)), if_neg (fun t => e t.2.1.symm)]
      exact (l1Byte_eq _ c a).symm.trans (l1Byte_fillL1 s c no c a)
  · rw [if_neg (fun t => n t.1.symm)]
    simp only [performL1, writeL1, l1_freshen, l1_setL1_ne _ n]
    exact (l1Byte_eq _ k a).symm.trans (l1Byte_fillL1 s c no k a)

/-- A write performed at the home: the home shows the masked bytes. -/
theorem homeByte_performHome (s : State) (no : Nat) (new : LineData) (m : BitVec 64) (w : Option (Nat × Nat)) (a : Nat) :
    (s.performHome no new m w).homeByte a =
      if a / 64 = no ∧ m.getLsbD (a % 64) = true then lineByte new (a % 64) else s.homeByte a := by
  have lt := Nat.mod_lt a (show 64 > 0 by decide)
  have e : (s.performHome no new m w).homeByte a = (s.homeWrite no new m).homeByte a := by
    cases w <;> rfl
  rw [e]
  simp only [homeByte, homeWrite, findLine_putLine, Line.filled]
  by_cases h : no = a / 64
  · rw [if_pos h]
    simp only [lineByte_mergeLine _ _ _ lt, homeLine, lineByte_lineOf _ lt, show 64 * no + a % 64 = a by omega, homeByte]
    by_cases b : m.getLsbD (a % 64) = true <;> simp [b, h]
  · rw [if_neg h, if_neg (fun t => h t.1.symm)]
    rfl

end State

/-! ## Bytes of a value in a line -/

theorem getLsbD_maskOf {o n k : Nat} (h : k < 64) : (maskOf o n).getLsbD k = decide (o ≤ k ∧ k < o + n) := by
  rw [maskOf, BitVec.getLsbD_ofNat, Nat.mul_comm, Nat.testBit_two_pow_mul, Nat.testBit_two_pow_sub_one]
  simp only [h, decide_true, Bool.true_and]
  by_cases a : o ≤ k
  · simp only [a, ge_iff_le, decide_true, Bool.true_and, true_and, decide_eq_decide]; omega
  · simp [a]

theorem lineByte_placeBytes (o v : Nat) {k : Nat} (h : k < 64) : lineByte (placeBytes o v) k = BitVec.ofNat 8 (v / 2 ^ (8 * (k - o))) :=
  lineByte_lineOf _ h

/-- A sum over a range, its first term taken out. -/
theorem valueAt_succ (f : Nat → Byte) (a n : Nat) : valueAt f a (n + 1) = (f a).toNat + 2 ^ 8 * valueAt f (a + 1) n := by
  have sum : ∀ (g : Nat → Nat) (l : List Nat), (l.map fun k => 2 ^ 8 * g k).sum = 2 ^ 8 * (l.map g).sum := by
    intro g l
    induction l with
    | nil => rfl
    | cons x r ih => simp only [List.map_cons, List.sum_cons, ih]; omega
  rw [valueAt, List.range_succ_eq_map, List.map_cons, List.sum_cons, List.map_map, valueAt, ← sum]
  congr 1
  · simp
  · congr 1
    refine List.map_congr_left fun k _ => ?_
    simp only [Function.comp, Nat.succ_eq_add_one, show a + (k + 1) = a + 1 + k by omega, Nat.mul_add, Nat.pow_add, Nat.mul_one]
    rw [← Nat.mul_assoc, Nat.mul_comm]

theorem takeBytes_eq (d : LineData) (f : Nat → Byte) (a : Nat) : ∀ n o, (∀ k, k < n → lineByte d (o + k) = f (a + k)) →
    takeBytes d o n = valueAt f a n := by
  intro n
  induction n generalizing a with
  | zero => intros; rfl
  | succ n ih =>
    intro o h
    rw [takeBytes, valueAt_succ, ih (a + 1) (o + 1) (fun k t => by
      have := h (k + 1) (by omega)
      rwa [show o + (k + 1) = o + 1 + k by omega, show a + (k + 1) = a + 1 + k by omega] at this)]
    have := h 0 (by omega)
    rw [Nat.add_zero, Nat.add_zero] at this
    rw [this]
theorem homeBytes_eq (s : State) (a n : Nat) : s.homeBytes a n = valueAt s.homeByte a n := by
  induction n generalizing a with
  | zero => rfl
  | succ n ih => rw [State.homeBytes, valueAt_succ, ih]
theorem backingBytes_eq (s : State) (a n : Nat) : s.backingBytes a n = valueAt s.backing a n := by
  induction n generalizing a with
  | zero => rfl
  | succ n ih => rw [State.backingBytes, valueAt_succ, ih]
theorem bytesLE_length (n v : Nat) : (bytesLE n v).length = n := by
  induction n generalizing v with
  | zero => rfl
  | succ n ih => rw [bytesLE, List.length_cons, ih]
theorem bytesLE_getD (n v k : Nat) (h : k < n) : (bytesLE n v).getD k 0 = BitVec.ofNat 8 (v / 2 ^ (8 * k)) := by
  induction n generalizing v k with
  | zero => omega
  | succ n ih =>
    cases k with
    | zero => simp [bytesLE]
    | succ k =>
      rw [bytesLE, List.getD_cons_succ, ih _ _ (by omega), Nat.div_div_eq_div_mul]
      congr 2
      rw [← Nat.pow_add]
      congr 1; omega

/-- A store of a value's low bytes, as memory shows it. -/
theorem memRead_store (m : List Host.Cell) (a n v x : Nat) : memRead (memWriteList m a (bytesLE n v)) x = stored (memRead m) a n v x := by
  rw [memRead_memWriteList, bytesLE_length, stored]
  split
  · rename_i h; rw [bytesLE_getD _ _ _ (by omega)]
  · rfl

end Sys2Proof.Machine
end

