-- ==== Sys2Proof/Laws/Events.lean ====
section
/-! SUPPORT. What the operations that close an event or an issue can do: writes of the front end that waited, pushes that waited, capacities of caches, and single steps. -/

namespace Sys2Proof.Machine

/-! ## What waits -/

/-- With no write waiting nothing is tried again. -/
theorem settleFront_nil {s : State} (h : s.frontWrites = []) : s.settleFront = s := by
  unfold State.settleFront
  rw [h]
  show { s with frontWrites := [] } = s
  rw [← h]

/-- A write behind the host link in recovery joins those that wait, with its notice, and changes nothing else (R390). -/
theorem frontWrite_recovery {s : State} (h : s.service.host = .recovery) {w : FrontWrite}
    (hw : State.hostLine (w.addr / 64) = true) (he : w.words ≠ []) : s.frontWrite w = { s with frontWrites := s.frontWrites ++ [w] } := by
  simp [State.frontWrite, hw, h, he]

/-- A write that follows a release joins those that wait until the release is done (R359). -/
theorem frontWrite_after {s : State} {w : FrontWrite} (h : w.after.any s.releasing = true) :
    s.frontWrite w = { s with frontWrites := s.frontWrites ++ [w] } := by
  simp [State.frontWrite, h]

/-- With no push waiting for room a core stays as it is. -/
theorem settlePush_nil {s : State} {core : Nat} (h : (s.core core).waitingPushes = []) : settlePush s core = s := by
  simp [settlePush, h]

/-- A push of a weir finds room, or waits behind the others of its core (R191, R197). -/
theorem weirPush_eq (s : State) (task : Option Nat) (core : Nat) (c : Codelet) :
    (queuesFull (s.core core) = false ∧ weirPush s task core c = pushCodelet s task core c) ∨
    (queuesFull (s.core core) = true ∧
      weirPush s task core c = s.setCore core { s.core core with waitingPushes := (s.core core).waitingPushes ++ [(task, c)] }) := by
  cases h : queuesFull (s.core core)
  · exact .inl ⟨rfl, by simp [weirPush, h]⟩
  · exact .inr ⟨rfl, by simp [weirPush, h]⟩

/-! ## What a thread leaves behind (R186, R199, R263) -/

@[simp] theorem vacantHart_status (h : Hart) : (vacantHart h).status = .empty := rfl
@[simp] theorem vacantHart_task (h : Hart) : (vacantHart h).task = none := rfl
@[simp] theorem vacantHart_lastIssue (h : Hart) : (vacantHart h).lastIssue = h.lastIssue := rfl

@[simp] theorem disown_hart (s : State) (f : Option AgentId → Option Nat → Bool) (a : AgentId) : (disown s f).hart a = s.hart a := rfl

/-- What was sent and is disowned is gone: no fence and no instruction finds it again. -/
theorem disown_posted {s : State} {mine : Option AgentId → Option Nat → Bool} {p : Posted}
    (h : p ∈ (disown s mine).posted) (hm : mine p.agent p.task = true) : p.gone = true := by
  simp only [disown, List.mem_map, List.mem_filter] at h
  obtain ⟨q, -, rfl⟩ := h
  split at hm <;> simp_all

/-! ## Capacities (R281) -/

/-- A cache within its capacity loses no line. -/
theorem trimTo_fits {lines : State → List Nat} {evict : State → Nat → State} {cap : Nat} {s : State} (h : (lines s).length ≤ cap) :
    trimTo lines evict cap s = s := by
  simp [trimTo, Nat.sub_eq_zero_of_le h, evictExcess]

/-- What every eviction keeps, for whichever line, trimming a cache keeps. -/
theorem evictExcess_keeps {lines : State → List Nat} {evict : State → Nat → State} {cap : Nat} {P : State → Prop}
    (h : ∀ s no, P s → P (evict s.bumpFree no)) : ∀ (fuel : Nat) (s : State), P s → P (evictExcess lines evict cap s fuel)
  | 0, _, p => p
  | fuel + 1, s, p => by
    rw [evictExcess]
    split
    · exact p
    · exact evictExcess_keeps h fuel _ (h s _ p)

theorem trimTo_keeps {lines : State → List Nat} {evict : State → Nat → State} {cap : Nat} {P : State → Prop}
    (h : ∀ s no, P s → P (evict s.bumpFree no)) {s : State} (p : P s) : P (trimTo lines evict cap s) := evictExcess_keeps h _ s p

/-! ## Single steps (R371) -/

/-- A fold that each element leaves as it stands does nothing. -/
theorem foldl_same {α β : Type} {f : β → α → β} : ∀ (l : List α) (b : β), (∀ a ∈ l, f b a = b) → l.foldl f b = b
  | [], _, _ => rfl
  | a :: l, b, h => by
    rw [List.foldl_cons, h a (List.mem_cons_self ..)]
    exact foldl_same l b fun x m => h x (List.mem_cons_of_mem _ m)

/-- With no task under a single step nothing freezes. -/
theorem endSteps_none {s : State} (h : ∀ p ∈ s.tasks, p.2.stepping = none) (finished : AgentId → Bool) : endSteps s finished = s :=
  foldl_same _ _ fun p m => by simp [h p m]

theorem endStep_none {s : State} (h : ∀ p ∈ s.tasks, p.2.stepping = none) (a : AgentId) : endStep s a = s := by
  unfold endStep
  split <;> simp [endSteps_none h]

end Sys2Proof.Machine
end

