-- ==== Sys2Proof/Laws/Numbers.lean ====
section
/-! SUPPORT. A number is rounded once: what `FloatFmt.round` delivers of an exact or a cut magnitude, and the bounds of the roots, powers and logarithms that it is given (R25 to R28, R125). -/

namespace Sys2Proof.Machine
open Sys2Proof.Safety

/-- A comparison places points on the grid of `unit` against a cut magnitude: m, or a little above it. -/
def Cuts (cmp : Nat → Nat → Ordering) (unit d m : Nat) (sticky : Bool) : Prop :=
  ∀ a k, k = 1 ∨ k = 2 ∨ k = 2 ^ 16 → cmp (a * unit) k = (compare (a * 2 ^ d) (k * m)).then (if sticky then .lt else .eq)

theorem cmp_lt {a b : Nat} (h : a < b) : compare a b = .lt := Nat.compare_eq_lt.2 h
theorem cmp_gt {a b : Nat} (h : b < a) : compare a b = .gt := Nat.compare_eq_gt.2 h
theorem cmp_eq {a b : Nat} (h : a = b) : compare a b = .eq := Nat.compare_eq_eq.2 h

/-- What a cut magnitude rounds to, by what was cut off: `lo` is its integer part and `rem` the rest, in units of 2^-d. -/
theorem roundAt_cut {r : Rounding} {neg sticky : Bool} {m : Nat} {e q : Int} {cmp : Nat → Nat → Ordering} {unit : Nat} (h : e < q)
    (hc : Cuts cmp unit (q - e).toNat m sticky) :
    let lo := m / 2 ^ (q - e).toNat
    let c := roundAt r neg m e sticky q
    cmp (lo * unit) 1 ≠ .gt ∧ cmp ((lo + 1) * unit) 1 = .gt ∧ (cmp (lo * unit) 1 = .eq ↔ c.inexact = false) ∧
      (c.inexact = false → c.base = lo) ∧
      (c.inexact = true →
        let nearest : Nat → Nat := fun tie => match cmp ((2 * lo + 1) * unit) 2 with
          | .lt => lo + 1
          | .gt => lo
          | .eq => tie
        match r.rnd with
        | .rne => c.base = nearest (if lo % 2 = 0 then lo else lo + 1)
        | .rna => c.base = nearest (lo + 1)
        | .rtz => c.base = lo
        | .rdn => c.base = if neg then lo + 1 else lo
        | .rup => c.base = if neg then lo else lo + 1
        | .rod => c.base = if lo % 2 = 0 then lo + 1 else lo
        | .rhd => ∃ part, part < 2 ^ 16 ∧ c.base = (if r.hash < part then lo + 1 else lo) ∧
          cmp ((2 ^ 16 * lo + part) * unit) (2 ^ 16) ≠ .gt ∧ cmp ((2 ^ 16 * lo + (part + 1)) * unit) (2 ^ 16) = .gt) := by
  generalize hd : (q - e).toNat = d at *
  have d0 : 0 < d := by omega
  have dm : m = 2 ^ d * (m / 2 ^ d) + m % 2 ^ d := (Nat.div_add_mod ..).symm
  have rl : m % 2 ^ d < 2 ^ d := Nat.mod_lt _ (Nat.two_pow_pos d)
  have hh : 2 * 2 ^ (d - 1) = 2 ^ d := by rw [← Nat.pow_succ']; congr 1; omega
  intro lo c
  have hlo : m / 2 ^ d = lo := rfl
  rw [hlo] at dm
  generalize hrem : m % 2 ^ d = rem at *
  generalize hp : 2 ^ d = P at *
  have ex1 : lo * P = P * lo := Nat.mul_comm ..
  have ex2 : (lo + 1) * P = P * lo + P := by rw [Nat.succ_mul, ex1]
  have ex3 : (2 * lo + 1) * P = 2 * (P * lo) + P := by rw [Nat.succ_mul, Nat.mul_assoc, ex1]
  have ex4 : ∀ n, (2 ^ 16 * lo + n) * P = 2 ^ 16 * (P * lo) + P * n := fun n => by
    rw [Nat.add_mul, Nat.mul_assoc, ex1, Nat.mul_comm n]
  have at1 := hc lo 1 (.inl rfl)
  have at2 := hc (lo + 1) 1 (.inl rfl)
  have at3 := hc (2 * lo + 1) 2 (.inr (.inl rfl))
  rw [hp] at at1 at2 at3
  rw [ex1, Nat.one_mul] at at1
  rw [ex2, Nat.one_mul] at at2
  rw [ex3] at at3
  have ceq : c = roundAt r neg m e sticky q := rfl
  unfold roundAt at ceq
  rw [if_neg (by omega : ¬ q ≤ e)] at ceq
  simp only [hd, hp, hrem, hlo] at ceq
  have inx : c.inexact = (rem != 0 || sticky) := by rw [ceq]
  refine ⟨?_, ?_, ?_, ?_, ?_⟩
  · rw [at1]
    rcases Nat.lt_or_ge (P * lo) m with t | t
    · rw [cmp_lt t]; simp
    · rw [cmp_eq (by omega)]; cases sticky <;> simp
  · rw [at2, cmp_gt (by omega)]; rfl
  · rw [at1, inx]
    by_cases z : rem = 0
    · rw [cmp_eq (by omega)]; cases sticky <;> simp [z]
    · rw [cmp_lt (by omega)]; simp [z]
  · intro i
    rw [inx] at i
    simp only [Bool.or_eq_false_iff, bne_eq_false_iff_eq] at i
    rw [ceq]
    obtain ⟨z, st⟩ := i
    have := Nat.two_pow_pos (d - 1)
    have h0 : 2 ^ (d - 1) ≠ 0 := by omega
    cases r.rnd <;> simp [z, st]
    omega
  · intro i
    rw [inx] at i
    have half : (cmp ((2 * lo + 1) * unit) 2 = .lt ↔ 2 ^ (d - 1) < rem ∨ (rem = 2 ^ (d - 1) ∧ sticky = true)) ∧
        (cmp ((2 * lo + 1) * unit) 2 = .eq ↔ rem = 2 ^ (d - 1) ∧ sticky = false) := by
      rw [at3]
      rcases Nat.lt_trichotomy (2 * (P * lo) + P) (2 * m) with t | t | t
      · rw [cmp_lt t]; simp; omega
      · rw [cmp_eq t]
        have : rem = 2 ^ (d - 1) := by omega
        cases sticky <;> simp [this]
      · rw [cmp_gt t]; simp; omega
    have parity : lo % 2 = 0 ∨ lo % 2 = 1 := by omega
    have base : c.base = if (match r.rnd with
      | .rne => 2 ^ (d - 1) < rem || (rem == 2 ^ (d - 1) && (sticky || lo % 2 == 1))
      | .rtz => false
      | .rdn => neg && (rem != 0 || sticky)
      | .rup => !neg && (rem != 0 || sticky)
      | .rna => 2 ^ (d - 1) ≤ rem
      | .rod => (rem != 0 || sticky) && lo % 2 == 0
      | .rhd => r.hash < rem * 2 ^ 16 / P) then lo + 1 else lo := by
      first
        | (rw [ceq]; done)
        | (rw [ceq]; cases r.rnd <;> rfl)
    rw [base, i]
    cases hr : r.rnd with
    | rtz => simp
    | rdn => cases neg <;> simp
    | rup => cases neg <;> simp
    | rod => simp
    | rne =>
      simp only
      cases hm : cmp ((2 * lo + 1) * unit) 2 with
      | lt => have := half.1.1 hm; rcases this with t | ⟨t, u⟩ <;> simp [*]
      | gt =>
        have a1 := mt half.1.2 (by simp [hm]); have a2 := mt half.2.2 (by simp [hm])
        have : rem < 2 ^ (d - 1) := by cases sticky <;> simp_all <;> omega
        have e1 : ¬ 2 ^ (d - 1) < rem := by omega
        have e2 : (rem == 2 ^ (d - 1)) = false := by simp; omega
        simp [e1, e2]
      | eq =>
        obtain ⟨t, u⟩ := half.2.1 hm
        rcases parity with p | p <;> simp [t, u, p]
    | rna =>
      simp only
      cases hm : cmp ((2 * lo + 1) * unit) 2 with
      | lt => have := half.1.1 hm; have : 2 ^ (d - 1) ≤ rem := by omega
              simp [this]
      | gt =>
        have a1 := mt half.1.2 (by simp [hm]); have a2 := mt half.2.2 (by simp [hm])
        have : ¬ 2 ^ (d - 1) ≤ rem := by cases sticky <;> simp_all <;> omega
        simp [this]
      | eq =>
        obtain ⟨t, u⟩ := half.2.1 hm
        simp [t]
    | rhd =>
      simp only
      have pos : 0 < P := by omega
      have div := Nat.div_add_mod (rem * 2 ^ 16) P
      have md := Nat.mod_lt (rem * 2 ^ 16) pos
      generalize hpart : rem * 2 ^ 16 / P = part at *
      have part_lt : part < 2 ^ 16 := by
        rw [← hpart]; exact (Nat.div_lt_iff_lt_mul pos).2 (by rw [Nat.mul_comm]; exact Nat.mul_lt_mul_of_pos_left rl (by decide))
      refine ⟨part, part_lt, by simp, ?_, ?_⟩
      · have x := hc (2 ^ 16 * lo + part) (2 ^ 16) (.inr (.inr rfl))
        rw [hp, ex4] at x
        rw [x]
        rcases Nat.lt_or_ge (2 ^ 16 * (P * lo) + P * part) (2 ^ 16 * m) with t | t
        · rw [cmp_lt t]; simp
        · rw [cmp_eq (by omega)]; cases sticky <;> simp
      · have x := hc (2 ^ 16 * lo + (part + 1)) (2 ^ 16) (.inr (.inr rfl))
        rw [hp, ex4, Nat.mul_add, Nat.mul_one] at x
        rw [x, cmp_gt (by omega)]; rfl

/-- The magnitude of a mantissa at an exponent. -/
theorem codeUnits_eq {f : FloatFmt} {j b : Nat} (h : j = 0 ∨ 2 ^ f.mbits ≤ b) (hb : b ≤ 2 ^ (f.mbits + 1)) :
    codeUnits f (j * 2 ^ f.mbits + b) = b * 2 ^ j := by
  have p := Nat.two_pow_pos f.mbits
  unfold codeUnits
  rw [Nat.pow_succ] at hb
  generalize hP : 2 ^ f.mbits = P at *
  have jp : j = 0 ∨ P ≤ j * P := by
    rcases Nat.eq_zero_or_pos j with z | z
    · exact .inl z
    · exact .inr (Nat.le_mul_of_pos_left P z)
  by_cases c : j * P + b < P
  · rw [if_pos c]
    have : j = 0 := by rcases jp with z | z <;> omega
    simp [this]
  · rw [if_neg c]
    rcases Nat.lt_or_ge b P with s | s
    · rcases h with z | z
      · subst z; omega
      · omega
    · rcases Nat.lt_or_ge b (2 * P) with u | u
      · have e : j * P + b = (j + 1) * P + (b - P) := by rw [Nat.succ_mul]; omega
        rw [e, Nat.mul_comm (j + 1), Nat.mul_add_mod, Nat.mul_add_div p, Nat.mod_eq_of_lt (by omega), Nat.div_eq_of_lt (by omega)]
        congr 1 <;> omega
      · have e : j * P + b = (j + 2) * P := by rw [Nat.add_mul]; omega
        rw [e, Nat.mul_mod_left, Nat.mul_div_cancel _ p]
        have : b = 2 * P := by omega
        rw [this, show j + 2 - 1 = j + 1 from rfl, Nat.pow_succ, Nat.add_zero, Nat.mul_comm 2 P, Nat.mul_assoc, Nat.mul_comm 2 (2 ^ j)]

/-- A rounded magnitude is one of its integer part and the next, and the integer part where nothing was cut off. -/
theorem roundAt_up {r : Rounding} {neg sticky : Bool} {m : Nat} {e q : Int} (h : e < q) :
    (roundAt r neg m e sticky q).base = m / 2 ^ (q - e).toNat ∨ (roundAt r neg m e sticky q).base = m / 2 ^ (q - e).toNat + 1 := by
  unfold roundAt
  rw [if_neg (by omega)]
  cases r.rnd <;> simp only <;> split <;> simp

/-- Rounding into a format is one rounding at the exponent that the format gives the magnitude. -/
theorem round_eq {f : FloatFmt} {r : Rounding} {sat neg sticky : Bool} {m : Nat} {e : Int} (nz : m ≠ 0 ∨ sticky = true) :
    let q := max (leastExp f) (e + (Nat.log2 m : Int) - f.mbits)
    let c := roundAt r neg m e sticky q
    let code := (q - leastExp f).toNat * 2 ^ f.mbits + c.base
    ∃ tiny, f.round r sat neg m e sticky =
      if f.maxCode < code then (f.withSign neg (f.overflowCode r.rnd sat neg), overflowFlags) else (f.withSign neg code, roundFlags c.inexact tiny) := by
  intro q c code
  have hz : (m == 0 && !sticky) = false := by
    rcases nz with h | h <;> simp [h]
  have hq : (if e + (Nat.log2 m : Int) - f.mbits < f.emin - f.mbits then f.emin - f.mbits else e + (Nat.log2 m : Int) - f.mbits) = q := by
    have : f.emin - f.mbits = leastExp f := rfl
    rw [this]; split <;> omega
  have hl : f.emin - (f.mbits : Int) = leastExp f := rfl
  unfold FloatFmt.round
  simp only [hz, Bool.false_eq_true, if_false, hl] at hq ⊢
  simp only [hq]
  exact ⟨_, rfl⟩

theorem roundFlags_bits : ∀ i t, (roundFlags i t).getLsbD 2 = false ∧ (roundFlags i t).getLsbD 0 = i := by decide

/-- Rounding delivers the magnitude that a comparison places: an exact one, or one a little above m × 2^e that is cut below its last bit. -/
theorem round_delivers {f : FloatFmt} {r : Rounding} {sat neg sticky : Bool} {m : Nat} {e : Int} {cmp : Nat → Nat → Ordering}
    (hM : 1 ≤ f.mbits) (nz : m ≠ 0 ∨ sticky = true)
    (exact_ : sticky = false → ∀ a (j : Nat) k,
      cmp (a * 2 ^ j) k = compare (a * 2 ^ (leastExp f + j - e).toNat) (k * m * 2 ^ (e - leastExp f - j).toNat))
    (above : sticky = true → let q := max (leastExp f) (e + (Nat.log2 m : Int) - f.mbits)
      e < q ∧ Cuts cmp (2 ^ (q - leastExp f).toNat) (q - e).toNat m true) :
    Delivered f r sat neg cmp (f.round r sat neg m e sticky) := by
  obtain ⟨tiny, eq⟩ := round_eq (f := f) (r := r) (sat := sat) (neg := neg) (e := e) nz
  simp only at eq above
  rw [eq]
  generalize hq : max (leastExp f) (e + (Nat.log2 m : Int) - f.mbits) = q at *
  generalize hj : (q - leastExp f).toNat = j at *
  generalize hc : roundAt r neg m e sticky q = c at *
  have p := Nat.two_pow_pos f.mbits
  have even : 2 ^ f.mbits % 2 = 0 := by
    have : 2 ^ f.mbits = 2 * 2 ^ (f.mbits - 1) := by rw [← Nat.pow_succ']; congr 1; omega
    omega
  have size : ∀ lo, (lo = if e < q then m / 2 ^ (q - e).toNat else m * 2 ^ (e - q).toNat) → lo < 2 ^ (f.mbits + 1) ∧ (j = 0 ∨ 2 ^ f.mbits ≤ lo) := by
    intro lo hlo
    have l1 : m < 2 ^ (m.log2 + 1) := Nat.lt_log2_self
    by_cases z : m = 0
    · subst z
      have : lo = 0 := by rw [hlo]; split <;> simp
      subst this
      have st : sticky = true := by rcases nz with h | h; exact absurd rfl h; exact h
      have := (above st).1
      simp at hq
      exact ⟨Nat.two_pow_pos _, .inl (by omega)⟩
    have l2 : 2 ^ m.log2 ≤ m := Nat.log2_self_le z
    split at hlo
    · rename_i lt
      subst hlo
      have pd := Nat.two_pow_pos (q - e).toNat
      refine ⟨(Nat.div_lt_iff_lt_mul pd).2 ?_, ?_⟩
      · rw [← Nat.pow_add]
        exact Nat.lt_of_lt_of_le l1 (Nat.pow_le_pow_right (by decide) (by omega))
      · by_cases g : j = 0
        · exact .inl g
        · right
          rw [Nat.le_div_iff_mul_le pd, ← Nat.pow_add]
          exact Nat.le_trans (Nat.pow_le_pow_right (by decide) (by omega)) l2
    · rename_i ge
      subst hlo
      refine ⟨?_, ?_⟩
      · refine Nat.lt_of_lt_of_le (Nat.mul_lt_mul_of_pos_right l1 (Nat.two_pow_pos _)) ?_
        rw [← Nat.pow_add]
        exact Nat.pow_le_pow_right (by decide) (by omega)
      · by_cases g : j = 0
        · exact .inl g
        · right
          refine Nat.le_trans ?_ (Nat.mul_le_mul_right _ l2)
          rw [← Nat.pow_add]
          exact Nat.pow_le_pow_right (by decide) (by omega)
  have jq : (j : Int) = q - leastExp f := by omega
  -- what is left is about the code of the integer part
  have finish : ∀ lo, lo < 2 ^ (f.mbits + 1) → (j = 0 ∨ 2 ^ f.mbits ≤ lo) →
      RoundsTo (codeUnits f) r neg cmp (j * 2 ^ f.mbits + c.base) →
      (c.inexact = true ↔ cmp (c.base * 2 ^ j) 1 ≠ .eq) → (c.base = lo ∨ c.base = lo + 1) →
      Delivered f r sat neg cmp (if f.maxCode < j * 2 ^ f.mbits + c.base then (f.withSign neg (f.overflowCode r.rnd sat neg), overflowFlags)
        else (f.withSign neg (j * 2 ^ f.mbits + c.base), roundFlags c.inexact tiny)) := by
    intro lo b1 b2 ro ix up
    refine ⟨_, ro, fun le => ?_, fun gt => ?_⟩
    · rw [if_neg (by omega)]
      refine ⟨rfl, ?_, ?_⟩
      · exact (roundFlags_bits c.inexact tiny).1
      · rw [codeUnits_eq (by rcases b2 with h | h; exact .inl h; exact .inr (by omega)) (by omega), ← ix]
        exact Bool.eq_iff_iff.1 (roundFlags_bits c.inexact tiny).2
    · rw [if_pos gt]; rfl
  have b1u : ∀ lo, lo < 2 ^ (f.mbits + 1) → (j = 0 ∨ 2 ^ f.mbits ≤ lo) → codeUnits f (j * 2 ^ f.mbits + lo) = lo * 2 ^ j ∧
      codeUnits f (j * 2 ^ f.mbits + lo + 1) = (lo + 1) * 2 ^ j ∧ (j * 2 ^ f.mbits + lo) % 2 = lo % 2 := by
    intro lo b1 b2
    refine ⟨codeUnits_eq b2 (by omega), ?_, ?_⟩
    · rw [Nat.add_assoc]
      exact codeUnits_eq (by rcases b2 with h | h; exact .inl h; exact .inr (by omega)) (by omega)
    · have : (j * 2 ^ f.mbits) % 2 = 0 := by rw [Nat.mul_mod, even, Nat.mul_zero, Nat.zero_mod]
      omega
  by_cases lt : e < q
  · have cuts : Cuts cmp (2 ^ j) (q - e).toNat m sticky := by
      cases hs : sticky with
      | true => exact (above hs).2
      | false =>
        intro a k _
        rw [exact_ hs, show leastExp f + j - e = q - e by omega, show (e - leastExp f - j).toNat = 0 by omega, Nat.pow_zero, Nat.mul_one]
        cases compare (a * 2 ^ (q - e).toNat) (k * m) <;> rfl
    obtain ⟨b1, b2⟩ := size (m / 2 ^ (q - e).toNat) (by rw [if_pos lt])
    have up := roundAt_up (r := r) (neg := neg) (sticky := sticky) (m := m) lt
    obtain ⟨c1, c2, c3, c4, c5⟩ := roundAt_cut (r := r) (neg := neg) lt cuts
    rw [hc] at up c3 c4 c5
    generalize m / 2 ^ (q - e).toNat = lo at *
    obtain ⟨u1, u2, par⟩ := b1u lo b1 b2
    refine finish lo b1 b2 ⟨j * 2 ^ f.mbits + lo, by rw [u1]; exact c1, by rw [u2]; exact c2, ?_, ?_⟩ ?_ up
    · rw [u1]
      intro h
      rw [c4 (c3.1 h)]
    · rw [u1, u2]
      intro h
      have ix : c.inexact = true := by
        cases hx : c.inexact with
        | true => rfl
        | false => rw [c3.2 hx] at h; exact absurd h (by decide)
      have mid : lo * 2 ^ j + (lo + 1) * 2 ^ j = (2 * lo + 1) * 2 ^ j := by rw [← Nat.add_mul]; congr 1; omega
      have gap : (lo + 1) * 2 ^ j - lo * 2 ^ j = 2 ^ j := by rw [← Nat.sub_mul]; simp
      have pt : ∀ n, 2 ^ 16 * (lo * 2 ^ j) + n * 2 ^ j = (2 ^ 16 * lo + n) * 2 ^ j := fun n => by rw [Nat.add_mul, Nat.mul_assoc]
      have c5 := c5 ix
      rw [mid, par]
      simp only [gap, pt]
      cases hr : r.rnd <;> simp only [hr] at c5 ⊢
      · rw [c5]
        cases cmp ((2 * lo + 1) * 2 ^ j) 2 <;> simp only [] <;> (try split) <;> omega
      · rw [c5]
      · rw [c5]; split <;> rfl
      · rw [c5]; split <;> rfl
      · rw [c5]
        cases cmp ((2 * lo + 1) * 2 ^ j) 2 <;> simp only [] <;> omega
      · rw [c5]; split <;> omega
      · obtain ⟨part, a1, a2, a3, a4⟩ := c5
        exact ⟨part, a1, by rw [a2]; split <;> omega, a3, a4⟩
    · rcases up with u | u
      · rw [u]
        cases hx : c.inexact with
        | true => exact ⟨fun _ h => (by rw [c3.1 h] at hx; exact absurd hx (by decide)), fun _ => rfl⟩
        | false => simp [c3.2 hx]
      · rw [u, c2]
        cases hx : c.inexact with
        | true => simp
        | false => exact absurd (c4 hx) (by omega)
  · have st : sticky = false := by
      cases hs : sticky with
      | true => exact absurd (above hs).1 lt
      | false => rfl
    have cc : c = ⟨m * 2 ^ (e - q).toNat, false⟩ := by
      rw [← hc, roundAt, if_pos (by omega), st]
      cases r.rnd <;> simp
    obtain ⟨b1, b2⟩ := size c.base (by rw [if_neg lt, cc])
    obtain ⟨u1, u2, -⟩ := b1u c.base b1 b2
    have at_ : ∀ a, cmp (a * 2 ^ j) 1 = compare a c.base := fun a => by
      rw [exact_ st, cc, show (leastExp f + j - e).toNat = 0 by omega, show e - leastExp f - j = e - q by omega, Nat.pow_zero, Nat.mul_one, Nat.one_mul]
    refine finish c.base b1 b2 ⟨j * 2 ^ f.mbits + c.base, ?_, ?_, fun _ => rfl, ?_⟩ ?_ (.inl rfl)
    · rw [u1, at_, cmp_eq rfl]; decide
    · rw [u2, at_, cmp_gt (Nat.lt_succ_self _)]
    · rw [u1, at_, cmp_eq rfl]; intro h; exact absurd h (by decide)
    · rw [at_, cmp_eq rfl, cc]; simp

theorem double_pow (x n : Nat) : x * 2 ^ (n + 1) = 2 * (x * 2 ^ n) := by rw [Nat.pow_succ, Nat.mul_comm (2 ^ n) 2, Nat.mul_left_comm]

/-- The digits of a logarithm follow those before them. -/
theorem log2Digits_bounds {p : Nat} : ∀ n y acc, acc * 2 ^ n ≤ log2Digits p n y acc ∧ log2Digits p n y acc < (acc + 1) * 2 ^ n
  | 0, _, acc => by simp [log2Digits]
  | n + 1, y, acc => by
    simp only [log2Digits, double_pow]
    split
    · have := log2Digits_bounds (p := p) n (y * y / 2 ^ p / 2) (2 * acc + 1)
      simp only [Nat.add_mul, Nat.mul_assoc, Nat.one_mul] at *; omega
    · have := log2Digits_bounds (p := p) n (y * y / 2 ^ p) (2 * acc)
      simp only [Nat.add_mul, Nat.mul_assoc, Nat.one_mul] at *; omega

/-- A number that lies g above 1 has only so many zeros at the head of its logarithm. -/
theorem log2Digits_low {p k : Nat} : ∀ n y acc g, k ≤ n → 2 ^ p + g ≤ y → y < 2 ^ (p + 1) → log2Digits p n y acc < acc * 2 ^ n + 2 ^ k → 2 ^ (n - k) * g ≤ 2 ^ p
  | 0, y, acc, g => by
    intro h _ _ _
    have : 2 ^ (p + 1) = 2 * 2 ^ p := by rw [Nat.pow_succ, Nat.mul_comm]
    simp; omega
  | n + 1, y, acc, g => by
    intro hk lo hi h
    have e2 : 2 ^ (p + 1) = 2 * 2 ^ p := by rw [Nat.pow_succ, Nat.mul_comm]
    by_cases hn : k = n + 1
    · subst hn; simp; omega
    simp only [log2Digits, double_pow] at h
    have kn : 2 ^ k ≤ 2 ^ n := Nat.pow_le_pow_right (by decide) (by omega)
    split at h
    · have := (log2Digits_bounds (p := p) n (y * y / 2 ^ p / 2) (2 * acc + 1)).1
      simp only [Nat.add_mul, Nat.mul_assoc, Nat.one_mul] at *; omega
    · have s : 2 ^ p + 2 * g ≤ y * y / 2 ^ p := by
        rw [Nat.le_div_iff_mul_le (Nat.two_pow_pos p)]
        refine Nat.le_trans ?_ (Nat.mul_le_mul lo lo)
        simp only [Nat.mul_add, Nat.add_mul, Nat.mul_assoc, Nat.mul_comm g (2 ^ p)]
        omega
      have := log2Digits_low (k := k) n _ (2 * acc) (2 * g) (by omega) s (by omega) (by rw [Nat.mul_assoc]; exact h)
      rw [show n + 1 - k = n - k + 1 by omega, Nat.pow_succ, Nat.mul_assoc]; exact this

/-- A number that lies g / 2^i below 2 has only so many ones at the head of its logarithm. -/
theorem log2Digits_high {p k : Nat} : ∀ n y acc i g, k ≤ n → 2 ^ i * y + g ≤ 2 ^ i * 2 ^ (p + 1) → 2 ^ p ≤ y →
    (acc + 1) * 2 ^ n ≤ log2Digits p n y acc + 2 ^ k → 3 ^ (n - k) * g ≤ 2 ^ (n - k) * (2 ^ i * 2 ^ p)
  | 0, y, acc, i, g => by
    intro h hi lo _
    have : 2 ^ (p + 1) = 2 * 2 ^ p := by rw [Nat.pow_succ, Nat.mul_comm]
    have := Nat.mul_le_mul_left (2 ^ i) lo
    rw [‹2 ^ (p + 1) = _›, Nat.mul_left_comm] at hi
    simp; omega
  | n + 1, y, acc, i, g => by
    intro hk hi lo h
    have e2 : 2 ^ (p + 1) = 2 * 2 ^ p := by rw [Nat.pow_succ, Nat.mul_comm]
    have gP := Nat.mul_le_mul_left (2 ^ i) lo
    rw [e2, Nat.mul_left_comm] at hi
    by_cases hn : k = n + 1
    · subst hn; simp; omega
    simp only [log2Digits, double_pow] at h
    have kn : 2 ^ k ≤ 2 ^ n := Nat.pow_le_pow_right (by decide) (by omega)
    split at h
    · rename_i big
      generalize hs : y * y / 2 ^ p = s at *
      have s1 : 2 ^ p * s ≤ y * y := hs ▸ Nat.mul_div_le ..
      have s2 : 2 ^ i * s + 3 * g ≤ 4 * (2 ^ i * 2 ^ p) := by
        have pos : 0 < 2 ^ i * 2 ^ p := Nat.mul_pos (Nat.two_pow_pos _) (Nat.two_pow_pos _)
        refine Nat.le_of_mul_le_mul_left ?_ pos
        have sq : 2 ^ i * 2 ^ p * (2 ^ i * s) ≤ (2 ^ i * y) * (2 ^ i * y) := by
          have := Nat.mul_le_mul_left (2 ^ i * 2 ^ i) s1
          have l : 2 ^ i * 2 ^ p * (2 ^ i * s) = 2 ^ i * 2 ^ i * (2 ^ p * s) := by ac_rfl
          have m : (2 ^ i * y) * (2 ^ i * y) = 2 ^ i * 2 ^ i * (y * y) := by ac_rfl
          omega
        generalize 2 ^ i * 2 ^ p = P at *
        generalize 2 ^ i * y = Y at *
        obtain ⟨d, hd⟩ := Nat.exists_eq_add_of_le (show g ≤ P by omega)
        have y2 : Y * Y ≤ (2 * P - g) * (2 * P - g) := Nat.mul_le_mul (by omega) (by omega)
        have h4 : (2 * P - g) * (2 * P - g) + P * (3 * g) ≤ P * (4 * P) := by
          rw [hd, show 2 * (g + d) - g = g + 2 * d by omega]
          simp only [Nat.add_mul, Nat.mul_add, Nat.mul_assoc, Nat.mul_left_comm _ 2, Nat.mul_left_comm _ 3, Nat.mul_left_comm _ 4, Nat.mul_comm d g]
          omega
        rw [Nat.mul_add]; omega
      have half : 2 * (s / 2) ≤ s := Nat.mul_div_le ..
      have ih := log2Digits_high (k := k) n (s / 2) (2 * acc + 1) (i + 1) (3 * g) (by omega)
        (by
          have := Nat.mul_le_mul_left (2 ^ i) half
          rw [e2, Nat.pow_succ, Nat.mul_assoc, Nat.mul_assoc, Nat.mul_left_comm 2 2, Nat.mul_left_comm _ 2 (2 * _), Nat.mul_left_comm _ 2 (2 ^ p)]; omega)
        (by omega) (by simp only [Nat.add_mul, Nat.mul_assoc, Nat.one_mul] at *; omega)
      rw [show n + 1 - k = n - k + 1 by omega, Nat.pow_succ, Nat.pow_succ, Nat.mul_assoc, Nat.mul_assoc]
      rw [Nat.pow_succ, Nat.mul_comm (2 ^ i) 2, Nat.mul_assoc] at ih
      exact ih
    · have := (log2Digits_bounds (p := p) n (y * y / 2 ^ p) (2 * acc)).2
      simp only [Nat.add_mul, Nat.mul_assoc, Nat.one_mul] at *; omega

theorem isqrtFrom_spec {n : Nat} : ∀ b r, r * r ≤ n → n < (r + 2 ^ b) * (r + 2 ^ b) →
    isqrtFrom n b r * isqrtFrom n b r ≤ n ∧ n < (isqrtFrom n b r + 1) * (isqrtFrom n b r + 1)
  | 0, r => by simp only [isqrtFrom, Nat.pow_zero]; exact fun a b => ⟨a, b⟩
  | b + 1, r => by
    intro lo hi
    simp only [isqrtFrom]
    split
    · exact isqrtFrom_spec b _ ‹_› (by rw [Nat.add_assoc, ← Nat.two_mul, ← Nat.pow_succ']; exact hi)
    · exact isqrtFrom_spec b _ lo (by omega)

/-- The integer square root is the greatest number whose square is no more. -/
theorem isqrt_spec (n : Nat) : isqrt n * isqrt n ≤ n ∧ n < (isqrt n + 1) * (isqrt n + 1) := by
  refine isqrtFrom_spec _ 0 (by simp) ?_
  have h : n < 2 ^ (n.log2 + 1) := Nat.lt_log2_self
  rw [Nat.zero_add, ← Nat.pow_add]
  exact Nat.lt_of_lt_of_le h (Nat.pow_le_pow_right (by decide) (by omega))

theorem le_isqrt {n k : Nat} (h : k * k ≤ n) : k ≤ isqrt n := by
  have := (isqrt_spec n).2
  apply Nat.le_of_not_lt
  intro lt
  have := Nat.mul_le_mul lt lt
  simp only [Nat.succ_eq_add_one] at this
  omega

/-- 2 to a fraction is not below 1, and its product with what it starts from is not above that of the square of the first factor. -/
theorem exp2Bits_bounds {p x : Nat} : ∀ n c acc, 2 ^ p ≤ c → acc ≤ exp2Bits p x n c acc ∧ exp2Bits p x n c acc * (2 ^ p * 2 ^ p) ≤ acc * (c * c)
  | 0, c, acc => fun h => ⟨Nat.le_refl _, Nat.mul_le_mul_left _ (Nat.mul_le_mul h h)⟩
  | n + 1, c, acc => by
    intro h
    have sq := (isqrt_spec (c * 2 ^ p)).1
    have next : 2 ^ p ≤ isqrt (c * 2 ^ p) := le_isqrt (Nat.mul_le_mul_right _ h)
    have grow : acc ≤ acc * c / 2 ^ p := by
      rw [Nat.le_div_iff_mul_le (Nat.two_pow_pos p)]; exact Nat.mul_le_mul_left _ h
    have least : ∀ b, b * 2 ^ p ≤ acc * c → b * (isqrt (c * 2 ^ p) * isqrt (c * 2 ^ p)) ≤ acc * (c * c) := fun b hb => by
      refine Nat.le_trans (Nat.mul_le_mul_left _ sq) ?_
      have := Nat.mul_le_mul_right c hb
      have l : b * (c * 2 ^ p) = b * 2 ^ p * c := by ac_rfl
      have m : acc * (c * c) = acc * c * c := by ac_rfl
      omega
    simp only [exp2Bits]
    split
    · obtain ⟨a, b⟩ := exp2Bits_bounds (x := x) n _ (acc * c / 2 ^ p) next
      exact ⟨Nat.le_trans grow a, Nat.le_trans b (least _ (Nat.div_mul_le_self ..))⟩
    · obtain ⟨a, b⟩ := exp2Bits_bounds (x := x) n _ acc next
      exact ⟨a, Nat.le_trans b (least _ (Nat.mul_le_mul_left _ h))⟩

end Sys2Proof.Machine
end

