-- ==== Sys2Proof/Tests/Slice0.lean ====
section
/-! SUPPORT. Small tests: words of the manual, ill-formed uses, single steps against the manual's worked cases, and states that meet the hypotheses of the statements. -/

namespace Sys2Proof.Tests

open Sys2Proof Sys2Proof.Machine Sys2Proof.Safety

set_option Elab.async false

/-! ## Helpers -/

/-- A machine with one running task of cluster 0, whose page at 0x4000_0000 may be read, written and executed. -/
def base : State := placeBase State.reset []

/-- One agent of the task, ready, and running now. -/
def with_ (s : State) (a : AgentId) (h : Hart) : State :=
  ({ s with cur := a }).setHart a { h with status := .ready, task := some 0, pc := 0x40000000 }

/-- A thread with values in s6, s7 and s5. -/
def thread (a : Word := 0) (b : Word := 0) (d : Word := 0) : State :=
  with_ base (.thread 0 0) (Hart.fresh.setRegs [(6, a), (7, b), (5, d)])

/-- The same with a trap handler. -/
def handled (a : Word := 0) (b : Word := 0) (d : Word := 0) : State :=
  let s := thread a b d
  s.setMe { s.me with tvec := 0x40000100 }

/-- A sequencer of the task with values in s6, s7 and s5. -/
def sequencer (x : AgentId) (a : Word := 0) (b : Word := 0) (d : Word := 0) : State :=
  with_ base x (Hart.fresh.setRegs [(6, a), (7, b), (5, d)])

/-- The next state meets a condition. -/
def gives (o : Out) (p : State → Bool) : Bool := match o with
  | .next t => p t
  | .fault _ | .refused _ => false

/-- The access of an instruction lands there. -/
def placed (i : Instr) (s : State) (p : Place) : Bool := match landing i s with
  | some (.ok q) => q = p
  | _ => false

/-- The access of an instruction is refused so. -/
def refused (i : Instr) (s : State) (f : AddrFault) : Bool := match landing i s with
  | some (.error g) => g = f
  | _ => false

/-- Every instruction of a list is legal for the agent that runs, which has no chain bound. -/
def runnable (is : List Instr) (s : State) : Bool :=
  is.all fun i => accepts s.cur i && i.wellFormed && fieldsOk s.cur i && s.me.chain.isNone

theorem mayRun {is : List Instr} {s : State} (h : runnable is s = true) : ∀ i ∈ is, MayRun i s := by
  intro i m
  have := List.all_eq_true.mp h i m
  simp only [Bool.and_eq_true, Option.isNone_iff_eq_none] at this
  exact ⟨⟨this.1.1.1, this.1.1.2, this.1.2⟩, this.2⟩

theorem atWindow_bank {i : Instr} {s : State} {b k a : Nat} (h : placed i s (.bank b k a) = true) : AtWindow i s a := by
  unfold placed at h
  split at h
  · rename_i q e; exact .inr ⟨b, k, e.trans (by simp at h; rw [h])⟩
  · exact absurd h (by simp)

theorem landing_error {i : Instr} {s : State} {f : AddrFault} (h : refused i s f = true) : landing i s = some (.error f) := by
  unfold refused at h
  split at h
  · rename_i g e; exact e.trans (by simp at h; rw [h])
  · exact absurd h (by simp)

theorem atPlain {i : Instr} {s : State} {pa : Nat} (h : placed i s (.memory pa false false false) = true)
    (k : (siteOf s pa false = .here ∧ s.tracks = [])) : AtPlainMemory i s pa := by
  unfold placed at h
  split at h
  · rename_i q e; exact ⟨⟨false, false, e.trans (by simp at h; rw [h]), k.1⟩, k.2⟩
  · exact absurd h (by simp)

/-! ## Words of the manual and words built from its fields (R42 to R58) -/

/-- The worked words of R43, R44, R53, R73, R76, R83, R84, R115 and R225. -/
theorem test_words_of_chapters_2_to_4 :
    decodeTableWord 32 0x044C6299 = some (.ld .w .acquire .cluster 5 6 4) ∧
    decodeTableWord 16 0x0862 = some (.hAdd 3 4) ∧
    decodeTableWord 32 0x588A024B = some (.vfma .f (.link .east) (.slotA 5) .tok (.link .west)) ∧
    decodeTableWord 32 0x01BC803D = some (.pfx false .none (.v 2) .rne false 0) ∧
    decodeTableWord 32 0x0100048D = some (.ldi 9 128) ∧
    decodeTableWord 32 0x2000948F = some (.ldhi 9 9 0x1000) ∧
    decodeTableWord 32 0x804E6281 = some (.cellkey .plus .zero .zero 5 6 7) ∧
    decodeTableWord 32 0x900462BF = some (.fcvt .rne .f32 (.float .bf16) 5 6) ∧
    decodeTableWord 32 0x980462BF = some (.fcvt .rna .f32 (.float .bf16) 5 6) ∧
    decodeTableWord 32 0x9C0462BF = some (.fcvt .rhd .f32 (.float .bf16) 5 6) ∧
    decodeTableWord 32 0xFF844191 = some (.blt 3 4 (BitVec.ofInt 12 (-8))) ∧
    decodeTableWord 32 0xBB8C704F = some (.esc 1 .none (.slotA 6) .tok) ∧
    decodeTableWord 32 0x5B828247 = some (.vmul .f .none (.slotA 1) (.c 0) (.link .west)) := by decide

/-- The worked words of R139, R153, R183, R187, R188, R201 and R208. -/
theorem test_words_of_chapters_5_and_6 :
    decodeTableWord 32 0x000002B1 = some (.cpgo 5) ∧
    decodeTableWord 32 0x11400031 = some (.cpwaitb 2) ∧
    decodeTableWord 32 0x985200B5 = some (.mxmm true 3 1 9) ∧
    decodeTableWord 32 0x800E6021 = some (.aredAdd .w .relaxed .device 6 7) ∧
    decodeTableWord 32 0x9C0E62A3 = some (.cas .d .acqRel .device 5 6 7) ∧
    decodeTableWord 32 0xA80002A5 = some (.fence .release .system 5) ∧
    decodeTableWord 32 0x20405025 = some (.xfence .device 5 0) ∧
    decodeTableWord 32 0x004E62A7 = some (.wexp 5 6 7) ∧
    decodeTableWord 32 0x00C002AD = some (.mrecv false 5) ∧
    decodeTableWord 32 0x018042AF = some (.sysr 5 4) := by decide

/-- Words put together field by field from the layouts of R42 and the tables of each major: d = 5, a = 6 and b = 7 where the form has them. -/
theorem test_words_by_fields :
    decodeTableWord 32 (1 + 2 * 0x00 + 2 ^ 7 * 5 + 2 ^ 12 * 6 + 2 ^ 17 * 7 + 2 ^ 22 * 0x101) = some (.sub .w 5 6 7) ∧
    decodeTableWord 32 (1 + 2 * 0x05 + 2 ^ 7 * 5 + 2 ^ 12 * 6 + 2 ^ 17 * (3 + 2 ^ 6 * 2 + 2 ^ 8)) = some (.srai .w 5 6 3) ∧
    decodeTableWord 32 (1 + 2 * 0x09 + 2 ^ 7 * 0x1FFFFFF) = some (.jmp (BitVec.ofInt 25 (-1))) ∧
    decodeTableWord 32 (1 + 2 * 0x0B + 2 ^ 7 * 5 + 2 ^ 17 * (2 ^ 14 + 9)) = some (.loop 5 9) ∧
    decodeTableWord 32 (1 + 2 * 0x0F + 2 ^ 7 * 5 + 2 ^ 12 * 6 + 2 ^ 17 * 7 + 2 ^ 22 * (2 + 2 ^ 2 * 4 + 2 ^ 5 * 1 + 2 ^ 7)) =
      some (.ldx .w .acquire .device true 5 6 7) ∧
    decodeTableWord 32 (1 + 2 * 0x14 + 2 ^ 7 * 5 + 2 ^ 12 * 6 + 2 ^ 17 * 7 + 2 ^ 22 * 1 + 2 ^ 27 * 2 + 2 ^ 30 * 2) =
      some (.clpush .release .cluster 5 6 7) ∧
    decodeTableWord 32 (1 + 2 * 0x15 + 2 ^ 7 * 5 + 2 ^ 12 * 6 + 2 ^ 22 * 1) = some (.tkplay 5 6) ∧
    decodeTableWord 32 (1 + 2 * 0x1B + 2 ^ 7 * 5 + 2 ^ 12 * 6 + 2 ^ 17 * 7) = some (.fork 5 6 7) ∧
    decodeTableWord 32 (1 + 2 * 0x1C + 2 ^ 12 * 6 + 2 ^ 17 * 7 + 2 ^ 22 * 1) = some (.cfgrun 6 7) ∧
    decodeTableWord 32 (1 + 2 * 0x1D + 2 ^ 7 * (2 + 8 * 1) + 2 ^ 12 * 6) = some (.oxmv 2 6) ∧
    decodeTableWord 32 (1 + 2 * 0x1F + 2 ^ 7 * 5 + 2 ^ 12 * 6 + 2 ^ 17 * 7 + 2 ^ 22 * (1 + 2 ^ 3 * 3 + 2 ^ 6 * 3)) =
      some (.ffma .rup .f64 5 6 7) ∧
    decodeTableWord 32 (1 + 2 * 0x1A + 2 ^ 7 * 3 + 2 ^ 12 * 6 + 2 ^ 17 * 7 + 2 ^ 22 * 10 + 2 ^ 27 * 2) = some (.evst .hi 3 6 7) ∧
    decodeTableWord 16 (2 * 0x9 + 2 ^ 5 * 3 + 2 ^ 9 * 0x7F) = some (.hBz 3 (BitVec.ofInt 7 (-1))) := by decide

/-- Encodings that are no instruction, R65: parcel 0, op4 0xF, scope 6, rounding code 7, a reserved function code, a nonzero unused field. -/
theorem test_words_refused :
    decodeTableWord 16 0x0000 = none ∧ decodeTableWord 16 (2 * 0xF) = none ∧
    decodeTableWord 32 (1 + 2 * 0x0C + 2 ^ 21 * 6) = none ∧ decodeTableWord 32 (1 + 2 * 0x1F + 2 ^ 25 * 7) = none ∧
    decodeTableWord 32 (1 + 2 ^ 22 * 0x13) = none ∧ decodeTableWord 32 (1 + 2 * 0x17 + 2 ^ 7 * 5) = none ∧
    decodeTableWord 32 (1 + 2 * 0x20 + 2 ^ 29 * 3 + 2 ^ 12 * 6) = none := by decide

/-! ## Ill-formed uses, one for each check of WellFormed -/

theorem test_illFormed : ∀ i ∈ ([
    .shli .w 5 6 32, .shri .w 5 6 32, .srai .w 5 6 63, .loop 0 4,
    .ld .d .release .thread 5 6 0, .lds .d .relaxed .thread 5 6 0, .lds .w .acqRel .thread 5 6 0, .st .d .acquire .thread 5 6 0,
    .ldx .d .release .thread false 5 6 7, .ldxSx .d .relaxed .thread false 5 6 7, .ldxSx .w .release .thread false 5 6 7,
    .stx .d .acqRel .thread false 5 6 7, .fence .relaxed .device 5, .xfence .device 0 5,
    .cldec .acquire .core 5 6 7, .clpush .acqRel .core 5 6 7, .clnext .release .core,
    .vadd .r .none .none .zero .zero, .vsub .r .none .none .zero .zero, .vmul .r .none .none .zero .zero, .vfma .r .none .none .zero .zero,
    .vmin .r .none .none .zero .zero, .vmax .r .none .none .zero .zero, .vcmpeq .r .none .none .zero .zero, .vcmplt .r .none .none .zero .zero,
    .vcmple .r .none .none .zero .zero, .vacc .r .none .none (.v 0) .tok, .vred .r .none .none .tok, .vscan .r .none .none .tok,
    .vmulh .f .none .none .zero .zero, .vabs .n .none .none .tok, .vneg .r .none .none .tok, .vscale .i .none .none .zero .zero,
    .vmerge .f .none .none .tok .tok, .vcfgt .f .none .none .tok,
    .mxmm false 0 0 5] : List Instr), i.wellFormed = false := by decide

/-! ## Integer, float and control instructions -/

/-- Hypotheses of IntegerResults, WordForms, Division, FieldsAndSelect and ImmediateForms. -/
theorem witness_integer : ∀ i ∈ ([
    .add .d 5 6 7, .sub .d 5 6 7, .and 5 6 7, .or 5 6 7, .xor 5 6 7, .andn 5 6 7, .shl .d 5 6 7, .shr .d 5 6 7, .sra .d 5 6 7,
    .min .d 5 6 7, .max .d 5 6 7, .minn .d 5 6 7, .maxn .d 5 6 7, .slt .d 5 6 7, .sltn .d 5 6 7, .mul .d 5 6 7, .mulh .d 5 6 7, .mulhn .d 5 6 7,
    .clz .d 5 6, .ctz .d 5 6, .popc .d 5 6, .add .w 0 6 7, .mulhn .w 5 6 7, .clz .w 5 6, .div .d 5 6 7, .rem .d 5 6 7, .divn .w 5 6 7, .remn .w 5 6 7,
    .bext 5 6 7, .bins 5 6 7, .sel 5 6 7, .sel 0 6 7, .addi 5 6 0x7FFF, .andi 5 6 0, .ori 5 6 0, .xori 5 6 0, .ldi 5 0x4000, .ldhi 5 6 0x7FFF,
    .shli .d 5 6 63, .shri .d 5 6 63, .srai .d 5 6 63, .shli .w 5 6 31, .shri .w 5 6 31, .srai .w 31 6 31] : List Instr), MayRun i thread :=
  mayRun (by decide)

/-- Division by zero and of the most negative value (R69), and the worked `divn.w` of R68. -/
theorem test_division :
    gives (exec (.div .d 5 6 7) (thread 9 0)) (fun t => t.me.reg 5 = BitVec.allOnes 64) = true ∧
    gives (exec (.rem .d 5 6 7) (thread (BitVec.ofInt 64 (-7)) 2)) (fun t => t.me.reg 5 = BitVec.allOnes 64) = true ∧
    gives (exec (.div .d 5 6 7) (thread 0x8000000000000000 (BitVec.allOnes 64))) (fun t => t.me.reg 5 = 0x8000000000000000) = true ∧
    gives (exec (.divn .w 5 6 7) (thread 0xFFFFFFFE 1)) (fun t => t.me.reg 5 = 0xFFFFFFFFFFFFFFFE) = true := by decide

/-- The values that the clauses of Division name: the most negative value and −1 in both widths. -/
theorem witness_division :
    ((thread 0x8000000000000000 (BitVec.allOnes 64)).me.reg 6).toInt = -2 ^ 63 ∧
    ((thread 0x8000000000000000 (BitVec.allOnes 64)).me.reg 7).toInt = -1 ∧
    (((thread 0x80000000 0xFFFFFFFF).me.reg 6).setWidth 32).toInt = -2 ^ 31 ∧ (((thread 0x80000000 0xFFFFFFFF).me.reg 7).setWidth 32).toInt = -1 := by
  decide

/-- `bext` of 8 bits from bit 60 reads four of them as zero, and `bins` leaves them unwritten (R70). -/
theorem test_bitFields :
    gives (exec (.bext 5 6 7) (thread 0xF123456789ABCDEF (60 + 2 ^ 8 * 8))) (fun t => t.me.reg 5 = 0xF) = true ∧
    gives (exec (.bins 5 6 7) (thread 0xAB (60 + 2 ^ 8 * 8) 1)) (fun t => t.me.reg 5 = 0xB000000000000001) = true := by decide

/-- The address of R73: `ldi s9, 128` and `ldhi s9, s9, 0x1000`. -/
theorem test_address :
    gives (exec (.ldhi 9 9 0x1000) (with_ base (.thread 0 0) (Hart.fresh.setRegs [(9, 128)]))) (fun t => t.me.reg 9 = 0x401000) = true := by decide

/-- A state for R76's worked cell: x = 1.25, y = 0.75, z = 2.0, h = 0.5. -/
def grid (h : Word := 0x3F000000) : State :=
  let s := thread 0x3F4000003FA00000 0x0000000040000000
  s.setMe { s.me with ox := s.me.ox.set 0 h }

theorem test_cellkey :
    gives (exec (.cellkey .zero .zero .zero 5 6 7) grid) (fun t => t.me.reg 5 = 0x10A) = true ∧
    gives (exec (.cellkey .plus .zero .zero 5 6 7) grid) (fun t => t.me.reg 5 = 0x10B) = true ∧
    gives (exec (.cellkey .zero .minus .zero 5 6 7) grid) (fun t => t.me.reg 5 = 0x108) = true ∧
    gives (exec (.cellkey .zero .zero .zero 5 6 7) (grid 0x80000000)) (fun t => t.me.reg 5 = BitVec.allOnes 64 && t.me.fstat = flagNV) = true := by decide

/-- Hypotheses of SpatialHash: a positive finite h and finite coordinates, and an h of 0. -/
theorem witness_spatialHash : MayRun (.cellkey .zero .zero .zero 5 6 7) grid ∧
    (floatFmt .f32).unpack (grid.me.oxr 0).toNat = .fin false (2 ^ 23) (-24) ∧ (floatFmt .f32).unpack (grid.me.reg 6).toNat ≠ .nan ∧
    (floatFmt .f32).unpack ((grid.me.reg 6).toNat / 2 ^ 32) ≠ .nan ∧ (floatFmt .f32).unpack (grid.me.reg 7).toNat ≠ .nan ∧
    (floatFmt .f32).unpack ((grid 0).me.oxr 0).toNat = .fin false 0 (-149) :=
  ⟨mayRun (is := [.cellkey .zero .zero .zero 5 6 7]) (by decide) _ (by decide), by decide⟩

/-- R83's rounding of 1 + 2^−8 to BF16, and its neighbours: RNE keeps 1, RNA gives the next value. -/
theorem test_convert :
    gives (exec (.fcvt .rne .f32 (.float .bf16) 5 6) (thread 0x3F808000)) (fun t => t.me.reg 5 = 0x3F80 && t.me.fstat = flagNX) = true ∧
    gives (exec (.fcvt .rna .f32 (.float .bf16) 5 6) (thread 0x3F808000)) (fun t => t.me.reg 5 = 0x3F81) = true ∧
    gives (exec (.fcvtInt .rne .i64 (.int .n8) 5 6) (thread 300)) (fun t => t.me.reg 5 = 255 && t.me.fstat = flagOF) = true := by decide

/-- Hypotheses of FloatArithmetic, CompareAndClassify and Conversions. -/
theorem witness_float : ∀ i ∈ ([
    .fadd .rne .f32 5 6 7, .fsub .rdn .f64 5 6 7, .fmul .rhd .f32 5 6 7, .fdiv .rod .f32 5 6 7, .ffma .rne .f32 5 6 7, .fsqrt .rne .f64 5 6,
    .fmin .f32 5 6 7, .fmax .f64 5 6 7, .fcmp .lt .f32 5 6 7, .fclass .f32 5 6, .fcvt .rne .f32 (.int .i8) 5 6,
    .fcvtInt .rne .i64 (.int .n8) 5 6, .fcvtInt .rne .n64 (.float .fp4) 5 6] : List Instr), MayRun i thread := mayRun (by decide)

/-- The special operands that its clauses name, in FP32: a NaN, infinities of both signs, zeros, a finite and a negative value. -/
theorem witness_floatSpecials :
    (scalarFmt .f32).unpack (0x7FC00000 % 2 ^ 32) = .nan ∧ (scalarFmt .f32).unpack (0x7F800000 % 2 ^ 32) = .inf false ∧
    (scalarFmt .f32).unpack (0xFF800000 % 2 ^ 32) = .inf true ∧ (scalarFmt .f32).unpack 0 = .fin false 0 (-149) ∧
    (scalarFmt .f32).unpack (0x3F800000 % 2 ^ 32) = .fin false (2 ^ 23) (-23) ∧ (scalarFmt .f32).unpack (0xBF800000 % 2 ^ 32) = .fin true (2 ^ 23) (-23) ∧
    (scalarFmt .f32).bits = 32 ∧ Below (.fin true 1 0) (.fin false 1 0) ∧ ¬ Below (.fin false 1 0) (.fin false 2 (-1)) ∧ ¬ Below (.fin false 2 (-1)) (.fin false 1 0) ∧
    (∃ n, (scalarFmt .f32).unpack 0x3F800000 = .fin false n (-23) ∧ n ≠ 0) := by
  refine ⟨?_, ?_, ?_, ?_, ?_, ?_, ?_, ?_, ?_, ?_, 2 ^ 23, ?_⟩ <;> first | decide | (unfold Below; decide)

/-- The operands of Conversions: a NaN, an infinity and a finite number of two types, and a target that differs from the source. -/
theorem witness_conversions : (floatFmt .bf16).unpack 0x7FC1 = .nan ∧ (floatFmt .bf16).unpack 0x3F80 = .fin false 128 (-7) ∧ (floatFmt .f16).unpack 0xFC00 = .inf true ∧
    FloatType.bf16 ≠ FloatType.fp4 ∧ (intFmt .n8).read 300 = 44 := by decide

/-- R78's ties: 1 + 2^−24 keeps 1 under RNE, and 1 × 1 + 2^−24 under RUP gives the next number, both inexact. -/
theorem test_rounded :
    gives (exec (.fadd .rne .f32 5 6 7) (thread 0x3F800000 0x33800000)) (fun t => t.me.reg 5 = 0x3F800000 && t.me.fstat = flagNX) = true ∧
    gives (exec (.ffma .rup .f32 5 6 7) (thread 0x3F800000 0x3F800000 0x33800000)) (fun t => t.me.reg 5 = 0x3F800001 && t.me.fstat = flagNX) = true := by decide

theorem test_float :
    gives (exec (.fadd .rne .f32 5 6 7) (thread 0x7F800000 0xFF800000)) (fun t => t.me.reg 5 = 0x7FC00000 && t.me.fstat = flagNV) = true ∧
    gives (exec (.fdiv .rne .f32 5 6 7) (thread 0x3F800000 0x80000000)) (fun t => t.me.reg 5 = 0xFF800000 && t.me.fstat = 0) = true ∧
    gives (exec (.fcmp .le .f32 5 6 7) (thread 0x80000000 0)) (fun t => t.me.reg 5 = 1) = true ∧
    gives (exec (.fclass .f32 5 6) (thread 0x80000001)) (fun t => t.me.reg 5 = 4) = true := by decide

/-- Hypotheses of BranchesAndJumps and ShortForms. -/
theorem witness_control : ∀ i ∈ ([
    .beq 6 7 4, .bne 6 7 4, .blt 6 7 4, .bge 6 7 4, .bltn 6 7 4, .bgen 6 7 4, .bz 6 4, .bnz 6 4, .jmp 4, .jal 4, .jalr 6 6 1, .loop 5 4,
    .hAdd 5 6, .hSub 5 6, .hAnd 5 6, .hOr 5 6, .hXor 5 6, .hAndn 5 6, .hShl 5 6, .hShr 5 6, .hSra 5 6, .hMv 5 6, .hMin 5 6, .hMax 5 6, .hMinn 5 6,
    .hMaxn 5 6, .hSlt 5 6, .hSltn 5 6, .hAddi 5 6 7, .hLdi 5 0x40, .hBz 5 4, .hBnz 5 4, .hJmp 4, .hJalr 5 6, .hNop] : List Instr), MayRun i handled :=
  mayRun (by decide)

/-- An odd and an even target of `jalr`, a count that ends and one that goes on, and a handler. -/
theorem witness_jumps : ((handled 0x1000).me.reg 6 + (BitVec.ofNat 14 1).signExtend 64).toNat % 2 = 1 ∧
    ((handled 0x1000).me.reg 6 + (BitVec.ofNat 14 2).signExtend 64).toNat % 2 = 0 ∧ ((handled 0x1001).me.reg 6).toNat % 2 = 1 ∧
    (handled 0 0 1).me.reg 5 - 1 = 0 ∧ (handled 0 0 0).me.reg 5 - 1 ≠ 0 ∧ Handles handled :=
  by decide

/-- A branch backwards, a link that keeps its source, and a loop that ends. -/
theorem test_control :
    gives (exec (.blt 3 4 (BitVec.ofInt 12 (-8))) (with_ base (.thread 0 0) (Hart.fresh.setRegs [(4, 1)]))) (fun t => t.me.pc = 0x3FFFFFF0) = true ∧
    gives (exec (.jalr 6 6 8) (thread 0x1000)) (fun t => t.me.pc = 0x1008 && t.me.reg 6 = 0x40000004) = true ∧
    gives (exec (.jalr 6 6 1) (handled 0x1000)) (fun t => t.me.pc = 0x40000100 && t.me.reg 6 = 0x1000 && t.me.ecause = 0x0402) = true ∧
    gives (exec (.loop 5 (BitVec.ofInt 14 (-2))) (thread 0 0 1)) (fun t => t.me.pc = 0x40000004 && t.me.reg 5 = 0) = true := by decide

/-! ## Traps and system instructions -/

/-- Hypotheses of Traps: an illegal use, an agent that does not accept a major, and a register that a sequencer lacks. -/
theorem witness_illegal : ¬ Legal (.ld .d .release .thread 5 6 0) handled ∧ ¬ Legal .eret (sequencer (.region 0)) ∧
    ¬ Legal (.add .d 16 6 7) (sequencer (.region 0)) ∧ Handles handled ∧
    (encodeWord (.add .d 16 6 7)).isSome = true ∧ (cellShape (.add .d 16 6 7)).isNone = true :=
  ⟨fun h => absurd h.2.1 (by decide), fun h => absurd h.1 (by decide), fun h => absurd h.2.2 (by decide), by decide⟩

theorem witness_traps : (∀ i ∈ ([.brk, .hBrk, .trap 3, .eret] : List Instr), MayRun i handled) ∧ handled.service.debugger = false ∧
    handled.me.tmode = false ∧ (handled.setMe { handled.me with tmode := true }).me.tmode = true ∧ thread.me.tvec = 0 ∧
    (sequencer (.region 0)).cur.isThread = false := ⟨mayRun (by decide), by decide⟩

/-- `trap 9` saves the address after it, class 8 and its number, and enters the handler (R206, R207); without a handler the thread stops. -/
theorem test_trap :
    gives (exec (.trap 9) handled) (fun t => t.me.pc = 0x40000100 && t.me.epc = 0x40000004 && t.me.ecause = 0x0408 && t.me.eval = 9 && t.me.tmode) = true ∧
    gives (exec (.trap 9) thread) (fun t => t.me.status = .stopped && t.me.stop = some ⟨8, 0x40000004, 9⟩) = true ∧
    gives (exec (.ld .d .release .thread 5 6 0) handled) (fun t => t.me.ecause = 0x0401 && t.me.epc = 0x40000000) = true ∧
    gives (exec .eret (handled.setMe { handled.me with tmode := true, epc := 0x40000040 })) (fun t => t.me.pc = 0x40000040 && !t.me.tmode) = true := by decide

/-- A thread in codelet mode, and one that serves an escape. -/
def inCodelet : State := handled.setMe { handled.me with codelet := true, codeRet := 0x40000200 }
def inEscape : State := handled.setMe { handled.me with origin := .escape 0 0 1 2 }

/-- Hypotheses of SystemControl. -/
theorem witness_systemControl :
    (∀ i ∈ ([.nop, .rdcyc 5, .yield, .hYield, .halt, .hHalt, .sleepc true 6] : List Instr), MayRun i handled ∧ MayRun i inCodelet ∧ MayRun i inEscape) ∧
    (∀ i ∈ ([.nop, .yield, .hYield, .halt, .hHalt, .sleepc false 6] : List Instr), MayRun i (sequencer (.region 0)) ∧ MayRun i (sequencer (.matrix 0 0))) ∧
    handled.me.codelet = false ∧ handled.me.held = [] ∧ handled.me.origin = .none ∧ inCodelet.me.codelet = true ∧ inEscape.me.origin = .escape 0 0 1 2 :=
  ⟨fun i m => ⟨mayRun (is := [.nop, .rdcyc 5, .yield, .hYield, .halt, .hHalt, .sleepc true 6]) (by decide) i m,
      mayRun (is := [.nop, .rdcyc 5, .yield, .hYield, .halt, .hHalt, .sleepc true 6]) (by decide) i m,
      mayRun (is := [.nop, .rdcyc 5, .yield, .hYield, .halt, .hHalt, .sleepc true 6]) (by decide) i m⟩,
    fun i m => ⟨mayRun (is := [.nop, .yield, .hYield, .halt, .hHalt, .sleepc false 6]) (by decide) i m,
      mayRun (is := [.nop, .yield, .hYield, .halt, .hHalt, .sleepc false 6]) (by decide) i m⟩, by decide⟩

/-- A thread with a promise of a copy at 100, at cycle 50 and at cycle 100. -/
def promised (clock : Nat) : State :=
  let s := handled 100
  { s.setMe { s.me with promises := [(⟨0, 0⟩, 100)] } with clock := clock }

/-- The clauses of SystemControl on `sleepc`, at the boundary of its time and of the promise. -/
theorem witness_sleep :
    (promised 99).clock < ((promised 99).me.reg 6).toNat ∧ ((promised 100).me.reg 6).toNat ≤ (promised 100).clock ∧
    (⟨0, 0⟩, 100) ∈ (promised 100).me.promises ∧ (100 : Word).toNat ≤ ((promised 100).me.reg 6).toNat ∧ Handles (promised 100) :=
  by decide

theorem test_sleep :
    gives (exec (.sleepc false 6) (promised 99)) (fun t => t.me.status = .sleeping (.clock 100) 99 && t.me.pc = 0x40000000) = true ∧
    gives (exec (.sleepc false 6) (promised 100)) (fun t => t.me.pc = 0x40000004) = true ∧
    gives (exec (.sleepc true 6) (promised 100)) (fun t => t.me.ecause = 0x0405 && t.me.eval = 100 && t.me.epc = 0x40000004) = true := by decide

/-- A thread that holds block 3 and has flags raised. -/
def holder (d : Word) : State :=
  let s := handled 0 0 d
  s.setMe { s.me with held := [3], fstat := 0x1F, tkfell := 0xF }

/-- Hypotheses of SystemRegisters. -/
theorem witness_systemRegisters : (∀ i ∈ ([.sysr 5 0, .sysr 5 4, .sysr 5 0x017, .sysr 5 0x01C, .sysr 5 0x01D, .sysr 5 0x3FF, .sysr 5 0x00F, .sysw 5 0, .sysw 5 5,
      .sysw 5 0x017, .sysw 5 0x01B, .sysw 5 0x01C] : List Instr), MayRun i (holder 3)) ∧
    (holder 3).cur = .thread 0 0 ∧ ((holder 3).me.reg 5).toNat ∈ (holder 3).me.held ∧ ((holder 4).me.reg 5).toNat ∉ (holder 4).me.held ∧
    (holder 3).myTask ≠ none := ⟨mayRun (by decide), by decide⟩

theorem test_systemRegisters :
    gives (exec (.sysr 5 0) (with_ base (.thread 0 3) Hart.fresh)) (fun t => t.me.reg 5 = 3) = true ∧
    gives (exec (.sysw 5 5) (holder 3)) (fun t => t.me.fstat = 0x1C) = true ∧
    gives (exec (.sysw 5 0x01C) (holder 4)) (fun t => t.me.mxblk = BitVec.allOnes 64 && t.me.ecause = 0x0401) = true ∧
    gives (exec (.sysw 5 4) (holder 3)) (fun t => t.clock = 0 && t.me.pc = 0x40000004) = true := by decide

/-! ## Virtual time and messages -/

/-- A joined thread of virtual time 5 under a floor of 7. -/
def timed (a : Word := 0) (b : Word := 0) : State :=
  let s := handled a b
  { s.setMe { s.me with joined := true, vtime := 5, lookahead := 2 } with service := { s.service with floor := 7 } }

theorem witness_virtualTime : ∀ i ∈ ([.tmset 5 6, .tmget 5, .floor 5, .fljoin 6, .msend 5 6 7, .mrecv true 5, .mrecv false 5] : List Instr), MayRun i timed :=
  mayRun (by decide)

theorem test_virtualTime :
    gives (exec (.tmset 5 6) (timed 3)) (fun t => t.me.vtime = 7 && t.me.reg 5 = 7) = true ∧
    gives (exec (.fljoin 6) (timed 2)) (fun t => !t.me.joined && t.me.vtime = 5) = true := by decide

def msg (n : Nat) : Message := ⟨BitVec.ofNat 64 n, 1, 2, 3⟩

/-- The thread's core with messages in its inbox. -/
def inbox (q : List Message) (a b : Word) : State := (timed a b).setCore 0 { (timed a b).core 0 with inbox := q }

theorem inbox_length (q : List Message) (a b : Word) : (inbox q a b |>.core 0).inbox.length = q.length := rfl

/-- Hypotheses of Messages: a declared core with room for one more and one that is full, and one that the task did not declare. -/
theorem witness_messageSend : (timed.myTask.map fun t => (t.hasCore 63, t.hasCore 64)) = some (true, false) ∧
    (inbox (List.replicate 255 (msg 9)) 0 0 |>.core 0).inbox.length < 256 ∧ 256 ≤ (inbox (List.replicate 256 (msg 9)) 0 0 |>.core 0).inbox.length ∧
    Handles timed :=
  ⟨by decide, by rw [inbox_length, List.length_replicate]; decide, Nat.le_of_eq (by rw [inbox_length, List.length_replicate]), by decide⟩

/-- And for `mrecv`: the stamp 9 is the last within 7 + 2, 10 is beyond it, and of two equal stamps the first is taken. -/
theorem witness_messageReceive :
    let s := inbox [msg 10, msg 9, msg 9] 0 0
    min (s.service.floor.toNat + s.me.lookahead.toNat) (2 ^ 64 - 1) = 9 ∧ (s.core 0).inbox = [msg 10] ++ msg 9 :: [msg 9] ∧
    (∀ x ∈ [msg 10], (9 : Nat) < x.stamp.toNat) ∧ (∀ x ∈ [msg 9], (9 : Nat) ≤ x.stamp.toNat) ∧
    (∀ m ∈ (inbox [msg 10] 0 0 |>.core 0).inbox, 9 < m.stamp.toNat) := by decide

theorem test_messages :
    gives (exec (.msend 5 6 7) (timed 1 3)) (fun t => t.me.reg 5 = 5 && (t.core 1).inbox = [⟨5, 0, 0, 0⟩]) = true ∧
    gives (exec (.mrecv false 8) (inbox [msg 10, msg 9, msg 9] 0 0)) (fun t => t.me.reg 8 = 9 && t.me.reg 4 = 2 && (t.core 0).inbox = [msg 10, msg 9] && t.me.vtime = 9) = true ∧
    gives (exec (.mrecv true 5) (inbox [msg 10] 0 0)) (fun t => t.me.reg 5 = BitVec.allOnes 64) = true := by decide

/-- The same beside a saved task whose inbox holds a message of stamp 3. -/
def savedTime (clock : Nat) : State := { timed with clock := clock, saves := [(4, snapshot (inbox [msg 3] 0 0) 0 (placeTask base))] }

theorem witness_floor : (savedTime 64).clock % 32 = 0 ∧ (∃ x ∈ (savedTime 64).saves, ∃ p ∈ x.2.cores, msg 3 ∈ p.2.inbox) ∧
    ∃ x ∈ (savedTime 64).saves, ∃ p ∈ x.2.harts, p.2.joined = true ∧ p.2.receiving = false ∧ p.2.status = .ready := by decide

/-- FloorPublish: a cycle of publication and one that is not, R276's first cut, and a saved task's message. -/
theorem test_floor :
    gives (exec .floorPublish { timed with clock := 64 }) (fun t => t.service.floor = 5) = true ∧
    gives (exec .floorPublish { timed with clock := 65 }) (fun t => t.service.floor = 7) = true ∧
    gives (exec .floorPublish (savedTime 64)) (fun t => t.service.floor = 3) = true := by decide

/-! ## Memory -/

/-- A thread with s6 at bank 0 of block 0 of cluster 0, where a doubleword stands, and a handler. -/
def window (b : Word := 0) (d : Word := 0) (v : Nat := 0) : State :=
  (handled 0xFF00000000000000 b d).setBytes 0xFF00000000000000 (bytesOf 8 v)

/-- A thread with s6 at a page of memory. -/
def paged (b : Word := 0) (d : Word := 0) : State := handled 0x40000000 b d

/-- Every load, store and atomic. -/
def accesses : List Instr := [
  .ld .d .relaxed .thread 5 6 0, .lds .w .acquire .device 5 6 0, .st .b .release .system 5 6 0, .ldx .h .relaxed .core true 5 6 0,
  .ldxSx .b .relaxed .thread false 5 6 0, .stx .d .relaxed .cluster true 5 6 0, .hLdD 5 6 0, .hStD 5 6 0, .hLdW 5 6 0, .hStW 5 6 0,
  .amoAdd .w .relaxed .thread 5 6 7, .amoAnd .d .acquire .device 5 6 7, .amoOr .w .release .group 5 6 7, .amoXor .w .acqRel .system 5 6 7, .amoMin .w .relaxed .thread 5 6 7,
  .amoMax .d .relaxed .thread 5 6 7, .amoMinn .w .relaxed .thread 5 6 7, .amoMaxn .w .relaxed .thread 5 6 7, .amoSwap .d .relaxed .thread 5 6 7,
  .amoFadd .w .relaxed .thread 5 6 7, .amoFmin .d .relaxed .thread 5 6 7, .amoFmax .w .relaxed .thread 5 6 7,
  .aredAdd .w .relaxed .thread 6 7, .aredAnd .d .relaxed .thread 6 7, .aredOr .w .relaxed .thread 6 7, .aredXor .w .relaxed .thread 6 7, .aredMin .w .relaxed .thread 6 7,
  .aredMax .d .relaxed .thread 6 7, .aredMinn .w .relaxed .thread 6 7, .aredMaxn .w .relaxed .thread 6 7, .aredSwap .d .relaxed .thread 6 7,
  .aredFadd .w .relaxed .thread 6 7, .aredFmin .d .relaxed .thread 6 7, .aredFmax .w .relaxed .thread 6 7,
  .cas .d .relaxed .thread 5 6 7, .incw .w .relaxed .thread 5 6 7]

/-- Value waits and the load of an ox register. -/
def waits : List Instr := [
  .waitvEq false .d .device 5 6 7, .waitvNe false .w .thread 5 6 7, .waitvLt true .d .thread 5 6 7, .waitvGe false .d .thread 5 6 7, .oxld 2 6 0]

theorem forall_all {α : Type} {p : α → Bool} {l : List α} (h : l.all p = true) : ∀ x ∈ l, p x = true := List.all_eq_true.mp h

/-- Hypotheses of AccessesComplete, WindowAccesses, AtomicResults, ExtensionRegisters and ValueWaits: they may run, and land in the window. -/
theorem witness_window : (∀ i ∈ accesses ++ waits, MayRun i window) ∧ ∀ i ∈ accesses ++ waits, AtWindow i window 0xFF00000000000000 :=
  ⟨mayRun (by decide), fun i m => atWindow_bank (forall_all (p := fun i => placed i window (.bank 0 0 0xFF00000000000000)) (by decide) i m)⟩

/-- And in memory, for CachedAccesses, ExtensionRegisters and ValueWaits: the page at 0x4000_0000 is frame 0x100, no cache holds the line and no recording is kept. -/
theorem witness_plain : (∀ i ∈ accesses ++ waits, MayRun i paged) ∧ (∀ i ∈ accesses ++ waits, AtPlainMemory i paged 0x100000) ∧
    findLine 0x4000 (paged.seg 0).lines = none ∧ findLine 0x4000 (paged.l1 0).lines = none :=
  ⟨mayRun (by decide),
    fun i m => atPlain (forall_all (p := fun i => placed i paged (.memory 0x100000 false false false)) (by decide +kernel) i m) ⟨by decide, by decide⟩, by decide⟩

/-- Hypotheses of AddressFaults: an address that is not canonical, one that is not aligned, one of a cluster not declared, and a page that is not mapped. -/
theorem witness_addressFaults : (∀ i ∈ accesses ++ waits, MayRun i handled) ∧ Handles handled ∧ handled.me.codelet = false ∧
    (0x0200000000000000 : Word).getLsbD 57 ≠ (0x0200000000000000 : Word).getLsbD 56 ∧ (0x40000004 : Word).toNat % 8 ≠ 0 ∧
    landing (.ld .d .relaxed .thread 5 6 0) (handled 0xFF00000002000000) = some (.error .protection) ∧
    landing (.st .d .relaxed .thread 5 6 0) (handled 0x80000000) = some (.error .page) :=
  ⟨mayRun (by decide), by decide, by decide, by decide, by decide, landing_error (by decide), landing_error (by decide)⟩

/-- A misaligned load traps before translation, and a missing page makes the thread sleep with the pc at the store (R90, R206). -/
theorem test_addressFaults :
    gives (exec (.ld .d .relaxed .thread 5 6 0) (handled 0x80000004)) (fun t => t.me.ecause = 0x0402 && t.me.eval = 0x80000004 && t.me.reg 5 = 0) = true ∧
    gives (exec (.ld .d .relaxed .thread 5 6 0) (handled 0x0200000000000001)) (fun t => t.me.ecause = 0x0404) = true ∧
    gives (exec (.st .d .relaxed .thread 5 6 0) (handled 0x80000000)) (fun t => t.me.status = .sleeping (.page 0x80000000) 0 && t.me.pc = 0x40000000) = true := by decide

/-- Little-endian bytes, sign extension, and a store of the low bytes (R3, R89). -/
theorem test_window :
    gives (exec (.lds .h .relaxed .thread 5 6 0) (window 0 0 0x8001)) (fun t => t.me.reg 5 = 0xFFFFFFFFFFFF8001) = true ∧
    gives (exec (.hLdW 5 6 1) (window 0 0 0x1234567800000000)) (fun t => t.me.reg 5 = 0x12345678) = true ∧
    gives (exec (.st .h .relaxed .thread 5 6 0) (window 0 0xABCD12 0)) (fun t => t.backing 0xFF00000000000001 = 0xCD && t.backing 0xFF00000000000002 = 0) = true := by decide

/-- A store at thread scope stays in the L1, and a release at device scope writes it to the home (R92, R93). -/
theorem test_caches :
    gives (exec (.st .d .relaxed .thread 5 6 0) (paged 0 0xAB)) (fun t => t.l1Byte 0 0x100000 = 0xAB && t.l1Byte 1 0x100000 = 0 && t.homeByte 0x100000 = 0) = true ∧
    gives (exec (.st .d .release .device 5 6 0) (paged 0 0xAB)) (fun t => t.homeByte 0x100000 = 0xAB) = true := by decide

/-- The two outcomes of `cas`, and the wrap of `incw` (R180). -/
theorem test_atomics :
    gives (exec (.cas .d .relaxed .device 5 6 7) (window 9 4 4)) (fun t => t.me.reg 5 = 4 && t.backing 0xFF00000000000000 = 9) = true ∧
    gives (exec (.cas .d .relaxed .device 5 6 7) (window 9 5 4)) (fun t => t.me.reg 5 = 4 && t.backing 0xFF00000000000000 = 4) = true ∧
    gives (exec (.incw .w .relaxed .device 5 6 7) (window 3 0 3)) (fun t => t.me.reg 5 = 3 && t.backing 0xFF00000000000000 = 0) = true ∧
    gives (exec (.amoMin .w .relaxed .device 5 6 7) (window 3 0 0xFFFFFFFF)) (fun t => t.me.reg 5 = 0xFFFFFFFF && t.backing 0xFF00000000000000 = 0xFF) = true := by decide

/-- Both cases of `cas` in AtomicResults. -/
theorem witness_cas : valueAt (window 9 4 4).backing 0xFF00000000000000 8 = ((window 9 4 4).me.reg 5).toNat % 2 ^ 64 ∧
    valueAt (window 9 5 4).backing 0xFF00000000000000 8 ≠ ((window 9 5 4).me.reg 5).toNat % 2 ^ 64 := by decide

/-- A posted write to a peer that no port reaches. -/
def posted : State := { handled with posted := [⟨7, some handled.cur, some 0, 0, 8, 0, false, false, false, []⟩] }

/-- A posted write to a peer whose port retrains, of a sequencer whose block the thread has given up. -/
def acquired : State :=
  { handled with posted := [⟨9, some (.matrix 0 3), some 0, 0, 8, 0, false, false, false, [handled.cur]⟩], routes := [(9, [0])], scaleUp := [(0, .retraining 3)] }

/-- Hypotheses of Fences and of ExtensionAndPrefetch. -/
theorem witness_fences : (∀ i ∈ ([.fence .release .group 5, .fence .release .device 5, .fence .acquire .device 5, .fence .acqRel .system 5, .xfence .device 5 0, .xfence .system 63 5,
      .oxli 7 0x4000, .oxmv 0 6, .pref .l1 false 6 7, .pref .mere true 6 7] : List Instr), MayRun i posted) ∧
    (∀ p ∈ posted.posted, (p.agent = some posted.cur ∧ p.task = posted.me.task ∧ p.gone = false) ∨ posted.cur ∈ p.acquired → p.lost = false → reach posted p.peer ≠ .retraining) ∧ (posted.core 0).held = [] ∧
    (∃ p ∈ posted.posted, p.agent = some posted.cur ∧ p.task = posted.me.task ∧ p.gone = false ∧ p.lost = false) ∧ posted.service.host ≠ .recovery ∧ posted.recordsWait = false :=
  ⟨mayRun (by decide), by decide⟩

/-- `pref` of an address that is not canonical does nothing (R95), and the two conditions of `waitv` (R187). -/
theorem test_waits :
    gives (exec (.pref .l1 false 6 7) (handled 0x0200000000000001)) (fun t => t.me.pc = 0x40000004) = true ∧
    gives (exec (.waitvGe false .d .device 5 6 7) (window 4 0 4)) (fun t => t.me.reg 5 = 4 && t.me.pc = 0x40000004) = true ∧
    gives (exec (.waitvLt false .d .device 5 6 7) (window 4 0 4)) (fun t => t.me.pc = 0x40000000 && t.me.status ≠ .ready) = true ∧
    gives (exec (.waitvGe true .w .thread 5 6 7) ((paged 4).setBytes 0x100000 (bytesOf 4 0x80000004))) (fun t => t.me.status ≠ .ready && t.me.pc = 0x40000000) = true ∧
    gives (exec (.waitvLt true .w .thread 5 6 7) ((paged 4).setBytes 0x100000 (bytesOf 4 0x80000004))) (fun t => t.me.reg 5 = 0x80000004) = true ∧
    gives (exec (.oxld 2 6 0) ((paged).setBytes 0x100000 (bytesOf 8 9))) (fun t => t.me.oxr 2 = 9 && t.me.pc = 0x40000004) = true ∧
    gives (exec (.fence .acqRel .system 5) posted) (fun t => t.posted = [] && t.me.reg 5 = 0) = true ∧
    gives (exec (.xfence .system 63 5) acquired) (fun t => t.me.pc = 0x40000000 && t.me.status ≠ .ready) = true ∧
    gives (exec (.fence .acqRel .system 5) acquired) (fun t => t.me.reg 5 = 0 && t.posted.length = 1) = true ∧
    gives (exec (.waitvEq false .d .device 5 6 7) ((window 4 0 4).setMe { window.me with codelet := true })) (fun t => t.me.ecause = 0x0401) = true := by decide

/-! ## Weirs -/

/-- A thread with a weir reference in s6, its weir 3 in a given state, and ox registers. -/
def weirs (w : Weir) (b : Word := 0) (o2 : Word := 0) (o3 : Word := 0) (a : Word := 3) : State :=
  let s := handled a b
  (s.setMe { s.me with ox := (s.me.ox.set 2 o2).set 3 o3 }).setWeir 3 w

/-- A weir that counts down from a balance with some parties to come. -/
def armed (bal : Int) (par : Nat) : Weir := { Weir.fresh with state := .armed, bal := bal, par := BitVec.ofNat 16 par, gen := 4, desc := #v[0, 0, 0, 0x41, 0] }

/-- Hypotheses of WeirReads and WeirBalance that name no register but these: a declared cluster and one that is not. -/
theorem witness_weirs : (∀ i ∈ ([.warm 5 6, .wexp 5 6 7, .wwait 5 6 7, .wrd false 5 6, .wrd true 5 6, .wdis 6] : List Instr), MayRun i (weirs (armed 0 1))) ∧
    ((weirs Weir.fresh).myTask.map fun t => (t.hasCluster ((3 : Word).toNat / 2 ^ 6 % 2 ^ 5), t.hasCluster ((67 : Word).toNat / 2 ^ 6 % 2 ^ 5))) = some (true, false) ∧
    Handles (weirs Weir.fresh) ∧ (weirs Weir.fresh).me.codelet = false ∧
    (vget 0 (armed 0 1).desc 3).toNat % 8 = 1 ∧ (armed 0 1).gen = ((4 : Word)).setWidth 16 ∧ (armed 0 1).gen ≠ ((5 : Word)).setWidth 16 :=
  ⟨mayRun (by decide), by decide⟩

/-- The window that `warm` captures is empty here: WLEN is 0. -/
def noWindow (s : State) : Bool := match s.task 0 with
  | some t => match armWindow s t 0 0 (s.me.oxr 0) (s.me.oxr 1) ((s.me.oxr 3).getLsbD 9) with
    | .ok w => w = []
    | .error _ => false
  | none => false

/-- The clauses on `warm`: a legal descriptor, one with ACT 5, and PAR and BAL at the edges of the three cases. -/
theorem witness_warm : armLegal (weirs Weir.fresh 0 0 0x40).me = true ∧ armLegal (weirs Weir.fresh 0 0 0x45).me = false ∧ noWindow (weirs Weir.fresh 0 0 0x40) = true ∧
    (0x0001000000000000 : Word).toNat / 2 ^ 48 = 1 ∧ (0x0000FFFFFFFFFFFF : Word).toNat % 2 ^ 48 = 2 ^ 48 - 1 := by decide

/-- R193's worked weir, first arming with two parties; a trip at once; an end passed. -/
theorem test_warm :
    gives (exec (.warm 5 6) (weirs (armed 7 0) 0 0x0002000000000000 0x40)) (fun t => (t.weir 3).par = 2 && (t.weir 3).bal = 0 && t.me.reg 5 = 4) = true ∧
    gives (exec (.warm 5 6) (weirs (armed 7 0) 0 0 0x40)) (fun t => (t.weir 3).state = .tripped && (t.weir 3).gen = 5 && (t.segment 0).wtrip = 8) = true ∧
    gives (exec (.warm 5 6) (weirs (armed 7 0) 0 0x0000FFFFFFFFFFFF 0x40)) (fun t => (t.weir 3).pastEnd && (t.weir 3).state = .armed) = true ∧
    gives (exec (.warm 5 6) (weirs (armed 7 0) 0 0 0 67)) (fun t => t.me.ecause = 0x0404 && t.me.eval = 67) = true := by decide

/-- Steps 3 and 5 of R193's table, and the three refusals of `wexp`. -/
theorem test_wexp :
    gives (exec (.wexp 5 6 7) (weirs (armed (-2048) 2) 4096)) (fun t => (t.weir 3).bal = 2048 && (t.weir 3).par = 1 && t.me.reg 5 = 0) = true ∧
    gives (exec (.wexp 5 6 7) (weirs (armed (-4096) 1) 4096)) (fun t => (t.weir 3).gen = 5 && (t.weir 3).par = 0) = true ∧
    gives (exec (.wexp 5 6 7) (weirs (armed 0 0) 1)) (fun t => t.me.reg 5 = 2) = true ∧
    gives (exec (.wexp 5 6 7) (weirs Weir.fresh 1)) (fun t => t.me.reg 5 = 1) = true ∧
    gives (exec (.wexp 5 6 7) (weirs (armed 0 1) 0x800000000000)) (fun t => t.me.reg 5 = 3 && (t.weir 3).bal = 0) = true := by decide

/-- The clauses on `wexp` at the edges of the i48 range. -/
theorem witness_wexp : (2 ^ 47 : Nat) ≤ (0x800000000000 : Word).toNat ∧ (0x7FFFFFFFFFFF : Word).toNat < 2 ^ 47 ∧ (armed (-2 ^ 47) 1).state = .armed ∧
    (-2 ^ 47 : Int) ≤ (armed (-2 ^ 47) 1).bal ∧ (armed (-2 ^ 47) 1).bal + ((0x7FFFFFFFFFFF : Word).toNat : Int) < 0 ∧
    (armed (-2 ^ 46) 1).bal + ((0x400000000000 : Word).toNat : Int) = 0 ∧ (armed 0 2).par ≠ 1 ∧ (armed 0 0).par = 0 ∧ Weir.fresh.state ≠ .armed := by decide

theorem test_weirReads :
    gives (exec (.wrd true 5 6) (weirs (armed 1 2))) (fun t => t.me.reg 5 = 0x14100040002) = true ∧
    gives (exec (.wwait 5 6 7) (weirs (armed 1 2) 4)) (fun t => t.me.status = .sleeping (.weir 3 4) 0) = true ∧
    gives (exec (.wwait 5 6 7) (weirs (armed 1 2) 3)) (fun t => t.me.reg 5 = 4) = true ∧
    gives (exec (.wwait 5 6 7) (weirs Weir.fresh 3)) (fun t => t.me.reg 5 = BitVec.allOnes 64) = true := by decide

/-! ## Codelets, packets, chains and recordings -/

/-- A thread with the counter of core 1 at offset 0x6100 in s6, its value there, and a ring. -/
def counting (value : Nat) (ring : List Codelet) (overflow : List Codelet := []) (b : Word := 0) (a : Word := 0x16100) : State :=
  let s := (handled a b).setBytes 0xFF00000040016100 (bytesOf 8 value ++ bytesOf 8 0x40000200)
  s.setCore 1 { s.core 1 with ring := ring, overflow := overflow }

def codelet : Codelet := ⟨0x40000300, 9, none⟩

/-- Hypotheses of CodeletCounters and CodeletPushAndNext: declared and not, aligned and not, the two crossings, room and none. -/
theorem witness_codelets : (∀ i ∈ ([.cldec .relaxed .core 5 6 0, .cldec .relaxed .core 5 6 7, .clpush .relaxed .thread 5 6 7, .clnext .relaxed .core] : List Instr), MayRun i (counting 1 [])) ∧
    ((counting 1 []).myTask.map fun t => (t.hasCore 1, t.hasCore 64)) = some (true, false) ∧ Handles (counting 1 []) ∧
    (0x16100 : Nat) % 2 ^ 16 % 8 = 0 ∧ (0x16104 : Nat) % 2 ^ 16 % 8 ≠ 0 ∧ (0x1BFF0 : Nat) % 2 ^ 16 + 16 ≤ 0xC000 ∧
    0 < (1 : Word).toInt ∧ ((1 : Word) - 1).toInt ≤ 0 ∧ ¬ 0 < (0 : Word).toInt ∧ (∀ p ∈ (counting 1 [codelet]).harts, p.2.status = .ready) :=
  ⟨mayRun (by decide), by decide⟩

theorem counting_ring (n : Nat) : ((counting 1 (List.replicate n codelet)).core 1).ring.length = n := List.length_replicate
theorem counting_overflow (n : Nat) : ((counting 1 [] (List.replicate n codelet)).core 1).overflow.length = n := List.length_replicate

/-- A crossing pushes once, a decrement at 0 pushes nothing, and `clnext` enters the oldest entry (R197, R198). -/
theorem test_codelets :
    gives (exec (.cldec .relaxed .core 5 6 0) (counting 1 [])) (fun t => t.me.reg 5 = 0 && (t.core 1).ring = [⟨0x40000200, 0x16100, none⟩]) = true ∧
    gives (exec (.cldec .relaxed .core 5 6 0) (counting 0 [])) (fun t => t.me.reg 5 = BitVec.allOnes 64 && (t.core 1).ring = []) = true ∧
    gives (exec (.clpush .relaxed .core 5 6 7) (handled 0x40000300 9 1)) (fun t => (t.core 1).ring = [codelet]) = true ∧
    gives (exec (.clnext .relaxed .core) ((handled).setCore 0 { handled.core 0 with ring := [codelet, codelet] }))
      (fun t => t.me.pc = 0x40000300 && t.me.reg 3 = 9 && t.me.reg 1 = 0x40000004 && t.me.codelet && (t.core 0).ring = [codelet]) = true := by decide

/-- A queue of the task's address space with room or none; s6 names a packet in bank 0. -/
def queued (opened : Bool) (wmax rd : Nat) (st : QueueState := .idle) : State :=
  (window 3).setQueue 3 { Queue.fresh with opened := opened, wmax := wmax, rd := rd, state := st, desc := #v[0, 2, 0, 0, 0] }

/-- Hypotheses of LaunchAndTrigger: an open queue of 4 slots with room, a full one, a closed one, and a packet that can be read. -/
theorem witness_launch : (∀ i ∈ ([.launch 5 6 7, .trig, .renq false 5 6 7, .renq true 5 6 7] : List Instr), MayRun i (queued true 3 0)) ∧
    ((queued true 3 0).queue 3).opened = true ∧ ((queued true 3 0).queue 3).wmax < ((queued true 3 0).queue 3).rd + ((queued true 3 0).queue 3).size ∧
    ((queued true 4 0).queue 3).wmax = ((queued true 4 0).queue 3).rd + ((queued true 4 0).queue 3).size ∧ ((queued false 0 0).queue 3).opened = false ∧
    ((queued true 3 0).myTask.map fun t => (vget 0 ((queued true 3 0).queue 3).desc 4).toNat = t.root) = some True ∧ ((queued true 3 0).queue 3).state ≠ .error ∧
    ((queued true 3 0).me.reg 7).toNat % 2 ^ 12 = 3 :=
  ⟨mayRun (by decide), by decide, by decide, by decide, by decide, by simp [queued]; decide, by decide⟩

/-- A packet of 64 bytes that a bank holds. -/
def packetThere (s : State) (va : Word) : Bool := match resolve s s.cur s.me.task va 64 .read false with
  | .ok (.bank _ _ _) => true
  | _ => false

theorem packetThere_read {s : State} {va : Word} (sc : Scope) (h : packetThere s va = true) : ∃ t ws, PacketRead s sc va t ws := by
  unfold packetThere at h
  split at h
  · rename_i b k a e; exact ⟨_, _, .inl ⟨a, .inl ⟨b, k, e⟩, rfl, rfl⟩⟩
  · exact absurd h (by simp)

theorem witness_packet : ∃ t ws, PacketRead (queued true 3 0) .device ((queued true 3 0).me.reg 6) t ws := packetThere_read _ (by decide)

/-- The packet takes the next index and kicks the queue; a full or closed one answers all ones (R199). -/
theorem test_launch :
    gives (exec (.launch 5 6 7) (queued true 3 0)) (fun t => t.me.reg 5 = 3 && (t.queue 3).wmax = 4 && (t.queue 3).state = .fetching) = true ∧
    gives (exec (.launch 5 6 7) (queued true 4 0)) (fun t => t.me.reg 5 = BitVec.allOnes 64 && (t.queue 3).wmax = 4) = true ∧
    gives (exec .trig (queued true 4 0)) (fun t => (t.task 0).any Task.trig) = true := by decide

/-- The same thread with a peer 9 behind port 0 and a packet at s7. -/
def peered (credits : Nat) (p : PortState) : State :=
  { (window 0xFF00000000000000).setMe { (window 0xFF00000000000000).me with x := (window 0xFF00000000000000).me.x.set 6 (9 + 2 ^ 18 * 3) } with
    scaleUp := [(0, p)], routes := [(9, [0])], renqCredits := [(9, credits)] }

theorem witness_renq : (∀ i ∈ ([.renq false 5 6 7, .renq true 5 6 7] : List Instr), MayRun i (peered 2 .up)) ∧
    (∃ t ws, PacketRead (peered 2 .up) .system ((peered 2 .up).me.reg 7) t ws) ∧ (peered 2 .up).renqs = [] ∧ tfind 9 { (peered 2 .up) with renqCredits := [] }.renqCredits = none ∧ ((peered 2 .up).me.reg 6).toNat % 2 ^ 18 = 9 ∧ (9 : Nat) ≠ (peered 2 .up).ownDevice ∧
    tfind 9 (peered 2 .up).renqCredits = some (1 + 1) ∧ reach (peered 2 .up) 9 ≠ .down ∧
    tfind 9 (peered 0 .up).renqCredits = some 0 ∧ reach (peered 0 (.retraining 0)) 9 ≠ .down ∧ reach (peered 0 .down) 9 = .down :=
  ⟨mayRun (by decide), packetThere_read _ (by decide), by decide⟩

/-- A packet of this pc that is out already, and a peer declared down whose record waits for a host link in recovery. -/
def sentAlready : State :=
  let s := peered 2 .up
  { s with renqs := [⟨9, 3, Vector.replicate 8 0, s.cur, s.me.task, 0xFF00000000000000, true, 5, .renq true 5 6 7, s.me.pc, none, false, false, false⟩] }
def downWaits : State :=
  let s := peered 2 .down
  { s with peersDown := [(9, 0)], links := { s.links with lectl := 1, lebase := BitVec.ofNat 64 (2 ^ 47) }, service := { s.service with host := .recovery } }

theorem witness_renqDown : (∃ r ∈ sentAlready.renqs, r.sender = sentAlready.cur ∧ r.ack = true ∧ r.gone = false ∧ r.pc = sentAlready.me.pc ∧ r.task = sentAlready.me.task) ∧
    tfind 9 (peered 2 .down).peersDown = none ∧ tfind 9 downWaits.peersDown ≠ none ∧ (renqFailed downWaits 9 0xFF00000000000000).recordsWait = true ∧
    (renqFailed { downWaits with service := { downWaits.service with host := .up } } 9 0xFF00000000000000).recordsWait = false := by decide +kernel

theorem test_renq :
    gives (exec (.renq true 5 6 7) (peered 2 .up)) (fun t => t.me.status = .sleeping .answer 0 && (t.renqs.map Renq.queue) = [3] && t.renqCredits = [(9, 1)]) = true ∧
    gives (exec (.renq true 5 6 7) (peered 2 .down)) (fun t => t.me.reg 5 = 3 && t.renqs = []) = true ∧
    gives (exec (.renq false 5 6 7) (peered 2 .down)) (fun t => t.me.reg 5 = 0 && t.renqs = []) = true ∧
    gives (exec (.renq true 5 6 7) sentAlready) (fun t => t.me.status = .sleeping .answer 0 && t.renqs.length = 1 && t.renqCredits = [(9, 2)]) = true ∧
    gives (exec (.renq true 5 6 7) downWaits) (fun t => t.me.status = .sleeping .answer 0 && t.renqs.map Renq.answer = [some 3] && t.frontWrites.length = 1) = true := by decide +kernel

/-- A thread of core 0 bound between core 1 and core 1's neighbour. -/
def bound (up down : Option Nat) (q : List (Word × Nat)) (b : Word := 0) : State :=
  let s := handled 0 b
  (s.setMe { s.me with chain := some (up, down) }).setCore 0 { s.core 0 with chain := q }

/-- Hypotheses of Chains: sides that differ by 1 and one that does not, an unbound thread, a bound one, values due and not, and room for the eighth. -/
theorem witness_chains : MayRun (.qbind false 5 6 7) (handled 1 (BitVec.allOnes 64)) ∧ Legal (.qbind true 5 0 0) (bound (some 1) none []) ∧
    (∀ p ∈ (handled 1 0).harts, p.2.chain = none) ∧ (bound (some 1) (some 1) []).me.chain = some (some 1, some 1) ∧
    ((bound (some 1) none [(4, 0)]).core 0).chain = (4, 0) :: [] ∧ (bound none none []).clock < 1 ∧
    (((handled).setCore 1 { Core.fresh with chain := List.replicate 7 (0, 0) }).core 1).chain.length < 8 ∧
    (∃ p ∈ (with_ (bound (some 1) none []) (.thread 0 1) Hart.fresh).harts, ∃ n x y, p.1 = .thread 0 n ∧ p.2.chain = some (some x, y)) ∧
    (with_ (bound (some 1) none []) (.thread 0 1) Hart.fresh).me.chain = none :=
  ⟨mayRun (is := [.qbind false 5 6 7]) (by decide) _ (by decide), by decide, by decide, by decide, by decide, by decide, by decide,
    ⟨_, List.mem_of_mem_head? (by decide : _ = some (.thread 0 0, (bound (some 1) none []).me)), 0, 1, none, by decide⟩, by decide⟩

/-- Core 1's thread is bound downstream of another core, so its upstream side faces elsewhere; a bound thread takes a new binding. -/
def neighbour (up : Option Nat) : State :=
  let s := handled (BitVec.allOnes 64) 1
  s.setHart (.thread 1 0) { Hart.fresh with chain := some (up, none) }

theorem witness_chainTaken : (∃ n h, (AgentId.thread 1 n, h) ∈ (neighbour (some 2)).harts ∧ h.chain = some (some 2, none)) ∧ (2 : Nat) ≠ 0 ∧
    gives (exec (.qbind false 5 6 7) (neighbour (some 2))) (fun t => t.me.reg 5 = 2 && t.me.chain = none) = true ∧
    gives (exec (.qbind false 5 6 7) (neighbour (some 0))) (fun t => t.me.reg 5 = 0 && t.me.chain = some (none, some 1)) = true ∧
    gives (exec (.qbind false 5 6 7) ((bound (some 1) none []).setMe { (bound (some 1) none []).me with x := ((bound (some 1) none []).me.x.set 6 (BitVec.allOnes 64)).set 7 1 }))
      (fun t => t.me.reg 5 = 0 && t.me.chain = some (none, some 1)) = true :=
  ⟨⟨0, _, List.mem_of_mem_getLast? (by decide : _ = some (AgentId.thread 1 0, { Hart.fresh with chain := some (some 2, none) })), rfl⟩, by decide⟩

/-- s28 pops and s29 pushes; an empty queue makes the instruction sleep with nothing taken (R60, R200). -/
theorem test_chains :
    gives (exec (.qbind false 5 6 7) (handled 1 (BitVec.allOnes 64))) (fun t => t.me.reg 5 = 0 && t.me.chain = some (some 1, none)) = true ∧
    gives (exec (.qbind false 5 6 7) (handled 2 (BitVec.allOnes 64))) (fun t => t.me.reg 5 = 1 && t.me.chain = none) = true ∧
    gives (exec (.add .d 29 28 7) (bound (some 1) (some 1) [(4, 0)] 3)) (fun t => (t.core 1).chain.map Prod.fst = [7] && (t.core 0).chain = []) = true ∧
    gives (exec (.add .d 5 28 7) (bound (some 1) none [] 3)) (fun t => t.me.status = .sleeping .chainInput 0 && t.me.pc = 0x40000000) = true := by decide

/-! ## Trackway -/

/-- A thread with its range in ox0 and ox1, its options in ox2 and recording 3 in a state. -/
def tracking (st : TrackState) (parts : List ((Nat × Nat) × Nat)) (start : Word := 0x1000) (len : Word := 0x1000) (o2 : Word := 0) : State :=
  let s := handled 3
  (s.setMe { s.me with ox := ((s.me.ox.set 0 start).set 1 len).set 2 o2 }).setTrack 0 3
    { Track.fresh with state := st, base := 0x1000, len := 0x1000, parts := parts, deps := 65535, pushed := 2, usedp := 1, iters := 4 }

/-- Hypotheses of Trackway: the thread is a part or is not, legal and illegal ranges, both sides of the reserved bits, and counters at the edge of their fields. -/
theorem witness_trackway : (∀ i ∈ ([.tkrec 5 6, .tkplay 5 6, .tkend 5 6, .tkdrop 5 6, .tkstat false 5 6, .tkstat true 5 6] : List Instr), MayRun i (tracking .none [])) ∧
    (tracking .none []).cur = .thread 0 0 ∧ (tracking .none []).me.task = some 0 ∧ badRange 0x1000 0x1000 = false ∧ recordersFull (tracking .none []) 0 3 0 = false ∧
    ((tracking .none []).track 0 3).state = .none ∧ ((tracking .recorded []).track 0 3).state = .recorded ∧
    (tfind (0, 0) ((tracking .recording [((0, 0), 5)]).track 0 3).parts).isSome = true ∧ (tfind (0, 0) ((tracking .recording []).track 0 3).parts).isSome = false ∧
    (0xFFF : Nat) % 4096 ≠ 0 ∧ (2 ^ 17 : Nat) / 2 ^ 17 ≠ 0 ∧ (2 ^ 17 - 1) / 2 ^ 17 = 0 ∧ ((tracking .none []).track 0 3).deps < 2 ^ 16 :=
  ⟨mayRun (by decide), by decide⟩

theorem test_trackway :
    gives (exec (.tkrec 5 6) (tracking .none [] 0x1000 0x800)) (fun t => t.me.reg 5 = 1) = true ∧
    gives (exec (.tkrec 5 6) (tracking .recording [((0, 1), 0)] 0x1000 0x2000)) (fun t => t.me.reg 5 = 2) = true ∧
    gives (exec (.tkplay 5 6) (tracking .recorded [] 0 0 0x1FFFF)) (fun t => t.me.reg 5 = 0 && (t.track 0 3).threshold = 65535 && (t.track 0 3).trapEnable && (t.track 0 3).state = .playing) = true ∧
    gives (exec (.tkplay 5 6) (tracking .recorded [] 0 0 0x20000)) (fun t => t.me.ecause = 0x0401) = true ∧
    gives (exec (.tkend 5 6) (tracking .recording [((0, 0), 5)])) (fun t => (t.track 0 3).state = .recorded && (t.track 0 3).parts = []) = true ∧
    gives (exec (.tkstat true 5 6) (tracking .playing [])) (fun t => t.me.reg 5 = 0x200010004) = true ∧
    gives (exec (.tkstat false 5 6) (tracking .playing [])) (fun t => t.me.reg 5 = 0xFFFF0003) = true := by decide

/-! ## Copies -/

def someCopy : Copy := ⟨⟨0, 9⟩, .thread 0 0, 0, .tile, Vector.replicate 8 0, 0, 0, none, [], [], 0, 0, 0, 0, none⟩

/-- A thread with a descriptor of doublewords in ox2 and ox5, and commands in the queue of its engine. -/
def copying (queue : List Copy) (o5 : Word := 3) (a : Word := 0x40000100) (b : Word := 2) : State :=
  let s := handled a b
  (s.setMe { s.me with ox := ((((s.me.ox.set 0 0x40000000).set 1 0xFF00000000000000).set 2 4).set 5 o5) }).setEngine s.cur.engine
    { s.engine s.cur.engine with queue := queue }

/-- Hypotheses of CopyInstructions: a legal descriptor, one of ESZ 6, a queue with one place and a full one, no rows and one, sealed batches at the edge, and streams. -/
theorem witness_copies : (∀ i ∈ ([.cpgo 5, .cpmx 5, .cpgath 5 6 7, .cpscat 5 6 7, .cpseal 5, .cpwaitb 2, .cpdisc 6 7, .cppre 6 7, .cpfree 6, .cpstr 5 6] : List Instr), MayRun i (copying [])) ∧
    (copying []).me.task = some 0 ∧ CopyDesc.legal (copying []).me.ox (copying []).cur.cluster true = true ∧ CopyDesc.legal (copying [] 6).me.ox (copying [] 6).cur.cluster false = false ∧
    ((copying (List.replicate 31 someCopy)).engine (copying []).cur.engine).queue.length < 32 ∧
    (2 : Nat) % 2 ^ 16 ≠ 0 ∧ (0x10000 : Nat) % 2 ^ 16 = 0 ∧ (copying []).me.sealedBatches.length < 16 ∧
    0 < (256 : Word).toNat ∧ (256 : Word).toNat ≤ 256 ∧ 256 < (257 : Word).toNat ∧
    (∀ c ∈ ((copying [{ someCopy with kind := .stream 2, stream := 0 }]).engine (copying []).cur.engine).queue, c.stream ≠ 1) ∧ (copying []).me.codelet = false :=
  ⟨mayRun (by decide), by decide⟩

theorem test_copies :
    gives (exec (.cpgo 5) (copying [someCopy])) (fun t => (t.engine t.cur.engine).queue.map Copy.kind = [.tile, .tile] && t.me.openBatch.length = 1) = true ∧
    gives (exec (.cpgath 5 6 7) (copying [] 3 0x40000100 0x10000)) (fun t => (t.engine t.cur.engine).queue = [] && t.me.openBatch = []) = true ∧
    gives (exec (.cpstr 5 6) (copying [{ someCopy with kind := .stream 2, stream := 0 }] 3 257)) (fun t => t.me.ecause = 0x0401) = true ∧
    gives (exec (.cpstr 5 6) (copying [{ someCopy with kind := .stream 2, stream := 0 }] 3 1)) (fun t => t.me.reg 5 = BitVec.ofNat 64 (16 * t.cur.engine + 1)) = true ∧
    gives (exec (.cpwaitb 0) ((copying []).setMe { (copying []).me with sealedBatches := [(4, [⟨0, 9⟩])] })) (fun t => t.me.status = .sleeping (.batches 0) 0) = true ∧
    gives (exec (.cpseal 5) ((copying []).setMe { (copying []).me with nextBatch := 7 })) (fun t => t.me.reg 5 = 7 && t.me.nextBatch = 8 && t.me.sealedBatches = []) = true := by decide

/-! ## Matrix commands and the epilogue -/

/-- A product of 16 by 16 by 32 elements of INT8 in banks 0 and 1 of block 0. -/
def product (fmt : Word := 5) : Vector Word 8 := #v[0xFF00000000000000, 0xFF00000000020000, 0x2000100010, 0x2000000020, 0, fmt, 0, 0]

def mxCmd (op : MatrixOp) : MatrixCmd := ⟨op, .matrix 0 0, 0, false, false, [], [], none, none, none, [], [], []⟩

/-- The sequencer of block 0 with an operand descriptor, and a block of it. -/
def matrix (k : Block) (a : Word := 0) (b : Word := 0) (fmt : Word := 5) : State :=
  let s := (sequencer (.matrix 0 0) a b).setBlock 0 k
  s.setMe { s.me with ox := product fmt }

def room (n : Nat) : Block := { Block.fresh with queue := List.replicate n (mxCmd .unload) }

/-- Hypotheses of MatrixQueueing: room for a fourth command and for none, a legal descriptor and one of FMT 10, legal operations and unassigned ones, and a deferred slot in each case. -/
theorem witness_matrix : (∀ i ∈ ([.mxprog true false 6, .mxprog false true 6, .mxclr 2 7, .mxmm false 3 1 0, .mxmm true 3 1 7, .mxwait true, .mxwait false] : List Instr), MayRun i (matrix (room 3))) ∧
    (matrix (room 3)).cur = .matrix 0 0 ∧ (matrix (room 3)).me.task = some 0 ∧
    ((matrix (room 3)).block 0).queue.length < 4 ∧ ¬ ((matrix (room 4)).block 0).queue.length < 4 ∧
    MatrixDesc.legal #v[0xFF00000000000000, 0xFF00000000020000, 0x2000100010, 0x2000000020, 0, 5] = true ∧
    MatrixDesc.legal #v[0xFF00000000000000, 0xFF00000000020000, 0x2000100010, 0x2000000020, 0, 10] = false ∧
    programFits (programAhead (room 3)) #v[0, 0, 0, 0, 0, 5] = true ∧ programFits (some (true, 0)) #v[0, 0, 0, 0, 0, 0] = false ∧
    microLegal 0x3098 = true ∧ microLegal 0xB000 = false ∧ (∀ n, n < 8 → (vget ⟨none, 0, 0, false⟩ (room 0).slots n).cmd = none) ∧ (matrix (room 3)).me.codelet = false ∧
    stepStopped (matrix (room 0)) 0 = false :=
  ⟨mayRun (by decide), by decide⟩

/-- And of a thread that holds the block of its MXBLK. -/
theorem witness_matrixThread : let s := (handled).setMe { (handled).me with mxblk := 3, held := [3] }
    s.cur.isThread = true ∧ s.me.mxblk.toNat = 3 ∧ 3 ∈ s.me.held ∧ accepts s.cur (.mxwait true) = true ∧ handled.cur.isThread = true ∧ handled.me.mxblk.toNat ∉ handled.me.held ∧
    runnable [.mxprog true false 6, .mxmm false 3 1 0, .mxclr 2 7, .mxwait true] handled = true ∧
    gives (exec (.mxclr 2 7) handled) (fun t => t.me.ecause = 0x0401) = true := by decide

/-- A debugger steps the thread of block 3, and its matrix sequencer has been stopped (R371). -/
def stepping : State :=
  let s := (handled).setMe { (handled).me with mxblk := 3, held := [3] }
  let s := (s.setBlock 3 { Block.fresh with holder := some (0, 0) }).setHart (.matrix 0 3) { Hart.fresh with status := .stopped, task := some 0 }
  { s with tasks := s.tasks.map fun p => (p.1, { p.2 with debugHalted := true, stepping := some s.cur }) }

theorem witness_stepStopped : stepStopped stepping 3 = true ∧ stepping.me.codelet = false ∧ 3 ∈ stepping.me.held ∧
    gives (exec (.mxwait true) stepping) (fun t => t.me.pc = 0x40000000 && t.me.status ≠ .ready) = true ∧
    gives (exec (.rdz 5 6) (stepping.setMe { stepping.me with x := stepping.me.x.set 6 3 })) (fun t => t.me.pc = 0x40000000 && t.me.held = [3]) = true := by decide

theorem test_matrix :
    gives (exec (.mxclr 2 7) (matrix (room 3) 0 0x3F800000)) (fun t => (t.block 0).queue.length = 4 && t.me.pc = 0x40000004) = true ∧
    gives (exec (.mxclr 2 7) (matrix (room 4))) (fun t => t.me.status = .sleeping .matrixQueue 0) = true ∧
    gives (exec (.mxmm false 3 1 0) (matrix (room 0) 0 0 10)) (fun t => (t.block 0).queue = [] && t.me.status = .stopped) = true ∧
    gives (exec (.mxmm true 3 1 7) (matrix (room 0) 0 2)) (fun t => (t.block 0).queue = [] && (vget ⟨none, 0, 0, false⟩ (t.block 0).slots 3).need = 2) = true ∧
    gives (exec (.mxmm true 3 1 7) (matrix (room 0) 0 0)) (fun t => (t.block 0).queue.length = 1) = true ∧
    gives (exec (.mxwait false) (matrix (room 1))) (fun t => t.me.status = .sleeping (.matrixIdle false) 0) = true := by decide

/-- The epilogue sequencer of block 0 with rows in v1 and v2, an element width, and an address in s6. -/
def epilogue (x : Row := 0) (y : Row := 0) (mode : BitVec 6 := 2) (a : Word := 0xFF00000000000000) (b : Word := 0) : State :=
  (sequencer (.epilogue 0 0) a b).setEpilogue 0 { Epilogue.fresh with v := (Epilogue.fresh.v.set 1 x).set 2 y, emode := mode }

/-- Hypotheses of Epilogue: an accumulator that no command names and one that a queued product does, rows that may be read and stored, and cell words over rows. -/
theorem witness_epilogue : (∀ i ∈ ([.evacc true 1 3 6, .evacc false 1 3 6, .evld 3 6 7, .evst .whole 3 6 7, .evst .lo 3 6 7, .evst .hi 3 6 7,
      .vadd .n .none (.reg 3) (.v 2) (.v 1), .vmulh .n .none (.reg 3) (.v 2) (.v 1), .vred .n .none (.reg 4) (.v 1), .vadd .n .none (.link .east) (.v 2) (.v 1),
      .pfx true .none .zero .rne false 0] : List Instr), MayRun i epilogue) ∧ epilogue.cur = .epilogue 0 0 ∧
    accumulatorBusy (epilogue.block 0) 1 = false ∧
    accumulatorBusy ((epilogue.setBlock 0 { Block.fresh with queue := [mxCmd (.fill 1 0)] }).block 0) 1 = true ∧
    (linesRead epilogue 0 (epilogue.me.reg 6) 8 matches .ok _) = true ∧ (bytesWrite epilogue 0 (epilogue.me.reg 6) 512 0 9 matches .ok _) = true ∧
    (rowOp (epilogue.epilogue 0) (.vadd .n .none (.reg 3) (.v 2) (.v 1)) .implied).isSome = true ∧
    rowOp (epilogue.epilogue 0) (.vadd .n .none (.link .east) (.v 2) (.v 1)) .implied = none ∧ (laneOf (.vadd .n .none (.reg 3) (.v 2) (.v 1))).isSome = true ∧
    widthOk (.vadd .n .none (.reg 3) (.v 2) (.v 1)) (epilogue.epilogue 0).w = true ∧ ((epilogue.epilogue 0).source (.v 1)).isSome = true :=
  ⟨mayRun (by decide), by decide⟩

/-- Row arithmetic, and elements stored from v1 at 32 bits (R136, R165). -/
theorem test_epilogue :
    gives (exec (.vadd .n .none (.reg 3) (.v 2) (.v 1)) (epilogue 5 0x200000007)) (fun t => (t.epilogue 0).v.get 3 = 0x20000000C) = true ∧
    gives (exec (.evst .whole 1 6 7) (epilogue 0x0102030405060708 0 2 0xFF00000000000000 1)) (fun t => t.backing 0xFF00000000000000 = 8 && t.backing 0xFF00000000000004 = 0 && t.me.pc = 0x40000004) = true ∧
    gives (exec (.evld 3 6 0) (epilogue.setBytes 0xFF00000000000000 [9])) (fun t => (t.epilogue 0).v.get 3 = 9) = true ∧
    gives (exec (.evacc true 1 3 6) (epilogue.setBlock 0 { Block.fresh with queue := [mxCmd (.fill 1 0)] })) (fun t => t.me.status = .sleeping (.accumulator 1) 0) = true := by decide +kernel

/-! ## Blocks and escapes -/

/-- A thread with a program table in its local memory: the matrix program at 0x4000_0100, no other, and the pointer 7. -/
def forking (holder : Option (Nat × Nat)) (held : List Nat) (b : Word := 3) : State :=
  let s := (handled 0xFF00000040006100 b).setBytes 0xFF00000040006100 (bytesOf 8 0x40000100 ++ bytesOf 8 0 ++ bytesOf 8 0 ++ bytesOf 8 7)
  (s.setBlock 3 { Block.fresh with holder := holder, discarded := true }).setMe { s.me with held := held }

/-- A doubleword that a local memory holds there. -/
def inLocal (s : State) (va : Word) (core addr : Nat) : Bool := match resolve s s.cur s.me.task va 8 .read false with
  | .ok (.localMem m a) => m = core && a = addr
  | _ => false

/-- Hypotheses of Forking: a free block, one held by another, a table in a local memory, and one of the task's blocks. -/
theorem witness_fork : MayRun (.fork 5 6 7) (forking none []) ∧ ((forking none []).myTask.map fun t => t.hasBlock 0 3) = some true ∧ Handles (forking none []) ∧
    (∀ h, ((forking (some (0, 0)) [3]).block 3).holder = some h → h = (0, 0)) ∧ ((forking (some (0, 1)) []).block 3).holder = some (0, 1) ∧
    (∀ k, k < 4 → inLocal (forking none []) ((forking none []).me.reg 6 + BitVec.ofNat 64 (8 * k)) 0 (0xFF00000040006100 + 8 * k) = true) ∧ ((forking none []).hart (.matrix 0 3)).status = .empty :=
  ⟨mayRun (is := [.fork 5 6 7]) (by decide) _ (by decide), by decide⟩

/-- A task that declares no block is refused its number (R167). -/
theorem witness_forkProtection : let s := forking none []
    let t := s.setTask 0 ((s.task 0).getD (placeTask s))
    (t.task 0).isSome = true ∧ ((t.task 0).map fun k => ({ k with desc := Vector.replicate 24 0 } : Task).hasBlock 0 3) = some false := by decide

/-- An escape thread: entry 2, ticket 5 of tile 4 of cluster 0. -/
def escaping : State :=
  let s := thread 3 4
  (s.setMe { s.me with origin := .escape 0 4 2 5, x := ((s.me.x.set 3 1).set 4 2) }).setTile 0 4
    { Tile.fresh with tickets := [⟨1, 2, 5, 0, ⟨0, false, false, 7⟩, none⟩] }

/-- Hypotheses of RendezvousAndReturn: held and not, quiet and not, in codelet mode and not, and an escape that holds no block. -/
theorem witness_rdz : MayRun (.rdz 5 6) ((forking (some (0, 0)) [3]).setMe { (forking (some (0, 0)) [3]).me with x := (forking none []).me.x.set 6 3 }) ∧
    MayRun .escr escaping ∧ escaping.me.held = [] ∧ escaping.me.origin = .escape 0 4 2 5 ∧ (∀ p q x y, handled.me.origin ≠ .escape p q x y) ∧
    3 ∈ (forking (some (0, 0)) [3]).me.held ∧ 3 ∉ (forking none []).me.held ∧ blockQuiet (forking (some (0, 0)) [3]) 3 = true ∧
    stepStopped (forking (some (0, 0)) [3]) 3 = false ∧ blockQuiet (with_ base (.matrix 0 3) Hart.fresh) 3 = false ∧ inCodelet.me.codelet = true :=
  ⟨mayRun (is := [.rdz 5 6]) (by decide) _ (by decide), mayRun (is := [.escr]) (by decide) _ (by decide), by decide, by decide,
    fun _ _ _ _ h => Origin.noConfusion h, by decide⟩

/-- The block is held, its matrix sequencer runs from the table, and an entry of 0 starts nothing (R167); `rdz` reports DISC in bit 5 (R168); `escr` answers (R170). -/
theorem test_blocks :
    gives (exec (.fork 5 6 7) (forking none [])) (fun t => t.me.reg 5 = 3 && t.me.mxblk = 3 && t.me.held = [3] && (t.hart (.matrix 0 3)).pc = 0x40000100 && (t.hart (.matrix 0 3)).reg 14 = 7 &&
      (t.hart (.epilogue 0 3)).status = .halted && !(t.block 3).discarded) = true ∧
    gives (exec (.rdz 5 7) (forking (some (0, 0)) [3] 3)) (fun t => t.me.reg 5 = 0x20 && t.me.held = [] && (t.block 3).holder.isNone) = true ∧
    gives (exec (.rdz 5 7) (forking none [])) (fun t => t.me.reg 5 = BitVec.allOnes 64) = true ∧
    gives (exec (.rdz 5 7) { (forking (some (0, 0)) [3] 3) with posted := [⟨9, some (.matrix 0 3), some 0, 0, 8, 0, false, false, false, []⟩] })
      (fun t => t.posted.map Posted.acquired = [[.thread 0 0]]) = true ∧
    gives (exec .escr escaping) (fun t => t.me.status = .empty && ((t.tile 0 4).tickets.map fun k => k.reply.map fun r => (r.1.toNat % 2 ^ 128, r.2.1)) = [some (1 + 2 ^ 64 * 2, 8)]) = true := by decide

/-! ## Configuration -/

/-- The sequencer of region 0 with values in s6 and s7, and its region. -/
def region (r : Region) (a : Word := 0) (b : Word := 0) : State := (sequencer (.region 0) a b).setRegion 0 r

/-- Hypotheses of SequencerRegisters on the epilogue and on a region: a value that EMODE takes and two that it does not, and registers that are missing. -/
theorem witness_sequencerRegisters : (∀ i ∈ ([.sysr 5 0x018, .sysr 5 0x019, .sysw 5 0x018, .sysw 5 0x019, .sysr 5 0, .sysr 5 0x00F, .sysw 5 0x00F, .sysr 5 0x027, .sysw 5 0x027, .sysw 5 0x033,
      .sysr 5 0x028, .sysw 5 0x029, .sysr 5 0x02F, .sysw 5 0x038, .sysr 5 0x03F, .sysr 5 0x010, .sysw 5 0x017, .sysr 5 0x001, .sysw 5 0x048] : List Instr), MayRun i epilogue) ∧
    (∀ i ∈ ([.sysr 5 0, .sysr 5 0x00F, .sysw 5 0x3FF] : List Instr), MayRun i (region Region.fresh)) ∧ (region Region.fresh).cur.isThread = false ∧
    (0x3E : Word).toNat < 2 ^ 6 ∧ (0x3E : Word).toNat % 4 ≠ 3 ∧ (0x3F : Word).toNat % 4 = 3 ∧ 2 ^ 6 ≤ (0x40 : Word).toNat :=
  ⟨mayRun (by decide), mayRun (by decide), by decide⟩

/-- A mask's upper half, k0, EMODE, a register that a region lacks, and a bit of WTRIP cleared (R163, R211, R212). -/
theorem test_sequencerRegisters :
    let e := fun (d : Word) => epilogue.setMe { epilogue.me with x := epilogue.me.x.set 5 d }
    gives (exec (.sysw 5 0x02B) (e 9)) (fun t => (t.epilogue 0).k.get 1 = 9 * 2 ^ 64) = true ∧
    gives (exec (.sysw 5 0x028) (e 9)) (fun t => t.me.pc = 0x40000004 && (t.epilogue 0).mask 0 = BitVec.allOnes 128) = true ∧
    gives (exec (.sysr 5 0x029) (e 9)) (fun t => t.me.reg 5 = BitVec.allOnes 64) = true ∧
    gives (exec (.sysw 5 0x00F) (e 0x3F)) (fun t => t.me.status = .stopped && (t.epilogue 0).emode = 2) = true ∧
    gives (exec (.sysr 5 0x00F) (region Region.fresh)) (fun t => t.me.status = .stopped) = true ∧
    gives (exec (.sysw 5 0x018) ((e 1).setSegment 0 { Segment.fresh with wtrip := 3 })) (fun t => (t.segment 0).wtrip = 2) = true := by decide +kernel

/-- A node descriptor in bank 0: a leaf of cluster 0, and one of kind 2 without children. -/
def spawning (word : Nat) : State := (region Region.fresh 0xFF00000000000000).setBytes 0xFF00000000000000 (bytesOf 8 word)

/-- Hypotheses of RegionControl. -/
theorem witness_region : (∀ i ∈ ([.cfgld 5 6 7, .cfgrun 6 7, .cfgpatch 5 6 7, .cfgseam false 6, .cfgseam true 6, .cfgsync .device, .cfgest 6, .cfgspawn 5 6, .cfgjoin 5 6] : List Instr),
      MayRun i (region Region.fresh)) ∧ (region Region.fresh).cur = .region 0 ∧
    canonical (0x40000010 : Word) = true ∧ (0x40000010 : Word).toNat % 64 ≠ 0 ∧ slotRuns (region Region.fresh) (stitchedGroup (region Region.fresh) 0) 0 = false ∧
    (∀ x ∈ stitchedGroup (region Region.fresh) 0, x = 0) ∧ ((region Region.fresh).region 0).run = none ∧
    ({ Region.fresh with node := some 3 } : Region).node.isSome = true ∧
    columnCluster 0 0 ∈ stitchedGroup (region Region.fresh) 0 ∧ columnCluster 0 1 ∉ stitchedGroup (region Region.fresh) 0 ∧
    patchStatus (region Region.fresh) 0 0 0 0 0 ≠ 0 ∧ onEdge 0 0x1 = true ∧ onEdge 0 0x10000 = false ∧
    (region Region.fresh).posted = [] ∧ (region Region.fresh).node 0 = none ∧
    (readNode (spawning 3) (.region 0) (some 0) 0xFF00000000000000 [] 4 matches .ok _) = true ∧
    nodeLegal (placeTask (region Region.fresh)) #v[3, 0, 0, 0] = true ∧ nodeLegal (placeTask (region Region.fresh)) #v[2, 0, 0, 0] = false ∧
    nodeRoom (region Region.fresh) #v[3, 0, 0, 0] = true ∧ nodeRoom ((region Region.fresh).setRegion 0 { Region.fresh with node := some 3 }) #v[3, 0, 0, 0] = false :=
  ⟨mayRun (by decide), by decide⟩

/-- The clauses on `cfgld`: an image of one tile in bank 0, and bytes that are none. -/
theorem witness_load : (loadImage (spawning 1) 0 0xFF00000000000000 5 matches .loaded _) = true ∧ (loadImage (spawning 0) 0 0xFF00000000000000 5 matches .failed _ _) = true := by decide +kernel

/-- The image with two port records, the second bound to argument slot 1 with OFFSET 16, and the argument 0xFF00_0000_0000_2000 in that slot. -/
def imaged : State :=
  let s := spawning 0x20001
  let s := (((s.setBytes 0xFF000000000001C0 (bytesOf 8 0xFF00000000001000)).setBytes 0xFF00000000000230 (bytesOf 8 0x20008 ++ bytesOf 8 (2 ^ 32 + 16))).setBytes 0xFF00000000000808
    (bytesOf 8 0xFF00000000002000))
  { s with tasks := s.tasks.map fun p => (p.1, { p.2 with packet := vset p.2.packet 3 0xFF00000000000800 }) }

/-- Its four parts can be read, one after the other, and its load succeeds. -/
def imageRead (s : State) (va : Word) : Bool :=
  let task := (s.hart (.region 0)).task
  match readLines s (.region 0) task va 1 with
  | .error _ => false
  | .ok (h, s1) => match readLines s1 (.region 0) task (va + 64) 3 with
    | .error _ => false
    | .ok (_, s2) => match readRecords s2 (.region 0) task (va + 256) 3 ((nth 0 h 0).toNat % 2 ^ 16) with
      | .error _ => false
      | .ok (recs, s3) => match readRecords s3 (.region 0) task (va + BitVec.ofNat 64 (256 + 192 * ((nth 0 h 0).toNat % 2 ^ 16))) 1 ((nth 0 h 0).toNat / 2 ^ 16 % 2 ^ 16) with
        | .error _ => false
        | .ok (ports, _) => recs.length = 1 && ports.length = 2 && (loadImage s 0 va 5 matches .loaded _)

theorem imageRead_parts {s : State} {va : Word} (h : imageRead s va = true) : ∃ s1 s2 s3 s4 t, ∃ hd tables : List Word, ∃ recs ports : List (List Word),
    readLines s (.region 0) (s.hart (.region 0)).task va 1 = .ok (hd, s1) ∧ readLines s1 (.region 0) (s.hart (.region 0)).task (va + 64) 3 = .ok (tables, s2) ∧
    readRecords s2 (.region 0) (s.hart (.region 0)).task (va + 256) 3 ((nth 0 hd 0).toNat % 2 ^ 16) = .ok (recs, s3) ∧
    readRecords s3 (.region 0) (s.hart (.region 0)).task (va + BitVec.ofNat 64 (256 + 192 * ((nth 0 hd 0).toNat % 2 ^ 16))) 1 ((nth 0 hd 0).toNat / 2 ^ 16 % 2 ^ 16) = .ok (ports, s4) ∧
    recs.length = 1 ∧ ports.length = 2 ∧ loadImage s 0 va 5 = .loaded t := by
  unfold imageRead at h
  dsimp only at h
  split at h
  · exact absurd h (by simp)
  · rename_i hd s1 e1
    split at h
    · exact absurd h (by simp)
    · rename_i tables s2 e2
      split at h
      · exact absurd h (by simp)
      · rename_i recs s3 e3
        split at h
        · exact absurd h (by simp)
        · rename_i ports s4 e4
          simp only [Bool.and_eq_true, decide_eq_true_eq] at h
          obtain ⟨⟨a, b⟩, c⟩ := h
          split at c
          · rename_i t e5
            exact ⟨s1, s2, s3, s4, t, hd, tables, recs, ports, e1, e2, e3, e4, a, b, e5⟩
          · exact absurd c (by simp)

/-- Hypotheses of LoadedImage. -/
theorem witness_loadedImage : imageRead imaged 0xFF00000000000000 = true := by decide +kernel

/-- The bound record's BASE is the argument plus OFFSET; the other stands as it is (R288). -/
theorem test_loadedImage : (match loadImage imaged 0 0xFF00000000000000 5 with
    | .loaded t => (vget none (t.region 0).loaded 5).map fun l => l.ports.map fun p => (p.1, p.2.get 0)
    | _ => none) = some [(0, 0xFF00000000001000), (1, 0xFF00000000002010)] := by decide +kernel

/-- A misaligned image (R172), a run of slot 5 with its counts (R173), a seam at the edge (R175), an estimate (R176), a node of the region (R177). -/
theorem test_region :
    gives (exec (.cfgld 5 6 7) ((spawning 1).setMe { (spawning 1).me with x := (spawning 1).me.x.set 7 5 })) (fun t => t.me.reg 5 = 0 && (vget none (t.region 0).loaded 5).isSome && (vget TileContext.fresh (t.tile 0 0).contexts 5).loaded) = true ∧
    gives (exec (.cfgld 5 6 7) (spawning 0)) (fun t => t.me.reg 5 = 2) = true ∧
    gives (exec (.cfgrun 6 7) (region Region.fresh 5 0x0001000200030004)) (fun t => ((t.region 0).run.map fun r => (r.slot, r.n.toList)) = some (5, [4, 3, 2, 1]) && t.me.status = .sleeping .run 0) = true ∧
    gives (exec (.cfgseam false 6) (region Region.fresh 1)) (fun t => t.me.status = .stopped) = true ∧
    gives (exec (.cfgest 6) (region Region.fresh 0x123456789)) (fun t => (t.task 0).map Task.estimate = some 0xFFFFFFFF) = true ∧
    gives (exec (.cfgspawn 5 6) (spawning 3)) (fun t => t.me.reg 5 = 0 && (t.node 0).map Node.phase = some .waiting && (t.region 0).node = some 0) = true ∧
    gives (exec (.cfgspawn 5 6) (spawning 2)) (fun t => (t.node 0).map Node.phase = some (.ended 1)) = true ∧
    gives (exec (.cfgjoin 5 6) (region Region.fresh 9)) (fun t => t.me.reg 5 = BitVec.allOnes 64) = true := by decide +kernel

/-! ## Cell tiles -/

/-- Tile 0 of cluster 0 with one instruction in slot 15, run for one iteration, and changes to the tile; its sources hold a token of value 0 and its links 4 credits. -/
def tile (i : Instr) (f : Tile → Tile := id) (pfx : Nat := 0) : State :=
  let s := placeTile base 0 ((encodeWord i).getD 0)
  let s := { s with cur := .tile 0 0 15 }
  let t := f (s.tile 0 0)
  let k := vget TileContext.fresh t.contexts 0
  s.setTile 0 0 { t with contexts := vset t.contexts 0 { k with slots := vset k.slots 15 (vget 0 k.slots 15 + BitVec.ofNat 64 pfx) } }

def data (n : Nat) (tag : BitVec 16 := 0) (last : Bool := false) (at_ : Nat := 0) : Option Landed := some ⟨⟨BitVec.ofNat 256 n, false, last, tag⟩, at_⟩

/-- The instruction of slot 15 of that tile is placed. -/
def placedTile (i : Instr) (s : State) : Bool := tileActive s 0 && match contextOf s 0 0 with
  | none => false
  | some k => match k.instr 15, cellShape i with
    | some (j, p), some c => j = i && (!isGenerator c p || vget 0 (s.tile 0 0).counts 15 < iterations s 0) && (regsOf c p).all fun n => !regPending (s.tile 0 0) n
    | _, _ => false

theorem placedTile_placed {i : Instr} {s : State} (h : placedTile i s = true) : ∃ k p c, Placed s 0 0 15 i k p c := by
  unfold placedTile at h
  simp only [Bool.and_eq_true] at h
  obtain ⟨a, h⟩ := h
  split at h
  · exact absurd h (by simp)
  · rename_i k hk
    split at h
    · rename_i j p c hj hc
      simp only [Bool.and_eq_true, Bool.or_eq_true, Bool.not_eq_true', decide_eq_true_eq, List.all_eq_true] at h
      obtain ⟨⟨rfl, b⟩, r⟩ := h
      exact ⟨k, p, c, a, hk, hj, hc, fun g => b.resolve_left (by rw [g]; simp), r⟩
    · exact absurd h (by simp)

/-- Hypotheses of LaneFirings, RoutingFirings and ConfigAndEscapeFirings: placed instructions of every kind, a generator among them. -/
theorem witness_tiles : ∀ i ∈ ([.vadd .i .none (.reg 3) (.link .west) .tok, .vmov .none .done .iter, .vsteer (.link .east) (.link .south) .tok (.link .west),
      .vgate .none (.link .east) .tok (.link .west), .vdrop .none (.link .east) .tok, .vmerge .r .none (.link .east) .tok (.link .west), .vmerge .n .none (.link .east) .tok (.link .west),
      .vmerge .i .none (.link .east) .tok (.link .west), .vcfgt .r .none (.link .east) .tok, .vcfgt .n (.link .south) (.link .east) .tok, .vacc .n .none (.link .east) (.v 2) .tok,
      .esc 1 .none .done .tok] : List Instr), ∃ k p c, Placed (tile i) 0 0 15 i k p c :=
  fun i m => placedTile_placed (forall_all (p := fun i => placedTile i (tile i)) (by decide +kernel) i m)

/-- Sources landed and not, data and config tokens, an end, a target that accepts and one that does not, and a merge's tags and ages. -/
theorem witness_firings :
    laneOf (.vadd .i .none (.reg 3) (.link .west) .tok) matches some _ ∧
    configSource (tile (.vmov .none .done .tok)) ((tile (.vmov .none .done .tok)).tile 0 0) 15 [(0, .tok)] = none ∧
    (landedToken (tile .nop) ((tile .nop).tile 0 0) 15 0 .tok).isSome = true ∧
    landedToken (tile .nop) { (tile .nop).tile 0 0 with slotA := Vector.replicate 16 none } 15 0 .tok = none ∧
    canAccept ((tile .nop).tile 0 0) (.link .east) = true ∧ canAccept { (tile .nop).tile 0 0 with credits := Vector.replicate 4 0 } (.link .east) = false ∧
    ((landedToken (tile .nop) { (tile .nop).tile 0 0 with slotA := Vector.replicate 16 (data 9 7 true) } 15 0 .tok).map fun x => (x.token.last, x.token.tag)) = some (true, 7) ∧
    (configSource (tile .nop) { (tile .nop).tile 0 0 with slotA := Vector.replicate 16 (some ⟨⟨5, true, false, 0⟩, 0⟩) } 15 [(0, .tok)]).isSome = true ∧
    (escapeEntry (tile (.esc 1 .none .done .tok)) 0 1).pool = 1 ∧ regionTask (tile .nop) 0 = some 0 := by decide +kernel

/-- A tile's own registers, counts, links and results. -/
theorem test_firing :
    gives (exec (.vadd .n .none (.reg 3) (.link .west) .tok) (tile (.vadd .n .none (.reg 3) (.link .west) .tok) fun t => { t with slotA := vset t.slotA 15 (data 0x0001FFFF 7) }))
      (fun t => (t.tile 0 0).flights.map (fun f => (f.due, f.dest, f.token)) = [(1, .reg 3, ⟨0x0001FFFF, false, false, 7⟩)] && (vget none (t.tile 0 0).slotA 15).isNone &&
        vget [] (t.tile 0 0).fifo (Link.west).code = [] && vget 0 (t.tile 0 0).counts 15 = 1) = true ∧
    gives (exec (.vsteer (.link .east) (.link .south) .tok (.link .west)) (tile (.vsteer (.link .east) (.link .south) .tok (.link .west)) fun t => { t with slotB := vset t.slotB 15 (data 1) }))
      (fun t => (t.tile 0 0).flights.map Flight.dest = [.link .east] && vget 0 (t.tile 0 0).credits (Link.east).code = 3) = true ∧
    gives (exec (.vgate .none (.link .east) .tok (.link .west)) (tile (.vgate .none (.link .east) .tok (.link .west)))) (fun t => (t.tile 0 0).flights = [] && (vget none (t.tile 0 0).slotB 15).isNone) = true := by decide +kernel

theorem test_routing :
    gives (exec (.vacc .n .none (.link .east) (.v 2) .tok) (tile (.vacc .n .none (.link .east) (.v 2) .tok) fun t => { t with v := t.v.set 2 5, slotA := vset t.slotA 15 (data 4 7 true) }))
      (fun t => (t.tile 0 0).flights.map (fun f => (f.dest, f.token.payload)) = [(.link .east, 9), (.reg 2, 0)]) = true ∧
    gives (exec (.esc 1 .none .done .tok) (tile (.esc 1 .none .done .tok) fun t => { t with slotA := vset t.slotA 15 (data 4 7) }))
      (fun t => (t.segment 0).parked = [⟨0, 0, 0, 15, 1, 0, 4, 7⟩] && (t.tile 0 0).flights = [] && (t.tile 0 0).tickets.length = 1) = true ∧
    gives (exec (.configFiring 0 0 15) (tile (.vadd .n .none (.link .east) (.link .west) .tok) fun t => { t with slotA := vset t.slotA 15 (some ⟨⟨5, true, false, 3⟩, 0⟩) }))
      (fun t => (t.tile 0 0).flights.map (fun f => (f.dest, f.token)) = [(.link .east, ⟨5, true, false, 3⟩)] && vget 0 (t.tile 0 0).counts 15 = 0) = true := by decide +kernel

/-- Lanes of 256 bits with element 1 inactive, as R113 has them. -/
def lanes (w : Nat) (sat : Bool := false) (z : Bool := false) : Lanes := ⟨256, w, false, false, 0, fun e => e ≠ 1, z, sat, .rne, fun _ => 0⟩

theorem witness_lanes : ((lanes 8).w = 8 ∧ (lanes 16).w = 16 ∧ (lanes 32).w = 32) ∧ (lanes 8).bits = 256 ∧ (31 : Nat) < 256 / 8 ∧ (lanes 8).active 31 = true ∧ (lanes 8).active 1 = false ∧
    ({ lanes 32 with bits := 4096 } : Lanes).bits = 4096 ∧ (127 : Nat) < 4096 / 32 := by decide

/-- Elements on their own: a saturated sum, a merge of an inactive one, a high product, and a scan over active ones. -/
theorem test_lanes :
    (laneAdd .n (lanes 8 true) 0x0101FF 0x0101FF 0).low = 0x0201FF ∧ (laneMulh .i (lanes 8) 0xFF 0xFF 0).low = 0 ∧
    (laneSub .n (lanes 16 false true) 0 0x00010001 0).low = 0xFFFF ∧ (laneRed .n (lanes 8) 0x030201 0 0).low = 4 := by decide +kernel

/-- Operands of each kind that LaneNumbers names, in FP32: a NaN, infinities, zeros, a power of two, a number between two, a negative one; a scale of 0xFF and others; and integers for `vexp2`. -/
theorem witness_laneNumbers :
    let u := (floatFmt .f32).unpack
    (lanes 32).active 0 = true ∧ (lanes 32 true).sat = true ∧ (0 : Nat) < (lanes 32).bits / (lanes 32).w ∧ u 0x7FC00000 = .nan ∧ u 0x7F800000 = .inf false ∧ u 0xFF800000 = .inf true ∧
    u 0 = .fin false 0 (-149) ∧ u 0x80000000 = .fin true 0 (-149) ∧ u 0x40000000 = .fin false (2 ^ 23) (-22) ∧ u 0x3FC00000 = .fin false 0xC00000 (-23) ∧
    2 ^ 23 < 0xC00000 ∧ 0xC00000 < 2 ^ (23 + 1) ∧ u 0xC0000000 = .fin true (2 ^ 23) (-22) ∧ (0x21 : Nat) ≠ 0xFF ∧ (0x21 : Nat) % 32 ≠ 0 ∧ (0x20 : Nat) % 32 = 0 ∧
    unitsOf false (2 ^ 23) (-22) (min (-22) 0) = 2 * unitsOf false 1 0 (min (-22) 0) ∧
    1 * unitsOf false 1 0 (min (-23) 0) < unitsOf false 0xC00000 (-23) (min (-23) 0) ∧ unitsOf false 0xC00000 (-23) (min (-23) 0) < 2 * unitsOf false 1 0 (min (-23) 0) := by decide

/-- Worked from R16, R31 and R125: 2^2, log2 of 4, 1/4, a root, a NaN's sign, a comparison of zeros, 2.0 to an integer and 3 to a float, and a scale by 2. -/
theorem test_laneNumbers :
    (laneExp2 (lanes 16) 0x4000 0 0).low % 2 ^ 16 = 0x4080 ∧ (laneLog2 (lanes 16) 0x4080 0 0).low % 2 ^ 16 = 0x4000 ∧ (laneSqrt (lanes 32) 0x40800000 0 0).low = 0x40000000 ∧
    (laneNeg .f (lanes 32) 0xFFC00001 0 0).low % 2 ^ 32 = 0x7FC00000 ∧ (laneCmpeq .f (lanes 32) 0x80000000 0 0).low % 2 ^ 32 = 0xFFFFFFFF ∧ (laneCvt .f (lanes 32) 0x40000000 0 0).low = 2 ∧
    (laneCvt .i (lanes 32) 3 0 0).low = 0x40400000 ∧ (laneScale .r (lanes 32) 0x3F800000 1 0).low = 0x40000000 ∧ (laneScan .n (lanes 32) (5 * 2 ^ 64 + 4 * 2 ^ 32 + 3) 0 0).low / 2 ^ 64 % 2 ^ 32 = 8 := by decide +kernel

/-! ## Tokens and escapes on their way -/

/-- A debugger has halted every task. -/
def halted (s : State) : State := { s with tasks := s.tasks.map fun p => (p.1, { p.2 with debugHalted := true }) }

/-- A tile with a flight due at cycle 3 for slot A of instruction 2 and a credit due at 3, at a clock. -/
def flying (clock : Nat) : State :=
  { (tile .nop fun t => { t with flights := [⟨3, .slotA 2, ⟨9, false, false, 1⟩, 15⟩], creditsDue := [(1, 3)] }) with clock := clock }

theorem witness_tokens : nth? ((flying 3).tile 0 0).flights 0 = some ⟨3, .slotA 2, ⟨9, false, false, 1⟩, 15⟩ ∧ (flying 2).clock < 3 ∧ 3 ≤ (flying 3).clock ∧
    (∀ g ∈ ((flying 3).tile 0 0).flights.take 0, g.dest ≠ .slotA 2) ∧ nth? ((flying 3).tile 0 0).creditsDue 0 = some (1, 3) ∧
    clusterHeld (flying 3) 0 = false ∧ clusterHeld (halted (flying 3)) 0 = true := by decide

theorem test_tokens :
    gives (exec (.tokenDelivery 0 0 0) (flying 3)) (fun t => (vget none (t.tile 0 0).slotA 2).any (fun x => x.token.payload = 9 && x.at_ = 3) && (t.tile 0 0).flights = []) = true ∧
    gives (exec (.tokenDelivery 0 0 0) (flying 2)) (fun t => (t.tile 0 0).flights.length = 1) = true ∧
    gives (exec (.creditReturn 0 0 0) (flying 3)) (fun t => vget 0 (t.tile 0 0).credits 1 = 5 && (t.tile 0 0).creditsDue = []) = true ∧
    gives (exec (.creditReturn 0 0 0) (halted (flying 3))) (fun t => vget 0 (t.tile 0 0).credits 1 = 4 && (t.tile 0 0).creditsDue = [(1, 3)]) = true := by decide +kernel

/-- A payload parked at tile 0, and the same in the segment's queue. -/
def parkedEscape : Escape := ⟨0, 0, 0, 15, 1, 0, 0xABCD, 7⟩
def parking (parked escapes : List Escape) : State :=
  ((tile (.esc 1 .none .done .tok)).setQueue 0 { Queue.fresh with desc := #v[0, 0x10, 0, 0, 0] }).setSegment 0 { Segment.fresh with parked := parked, escapes := escapes }

theorem witness_escapes : let s := parking [parkedEscape] []
    taskRuns s 0 = true ∧ bestCore s parkedEscape (candidates s parkedEscape) = some 0 ∧ (dispatchSlots s 0 0).head? = some 0 ∧
    (loadedOf s 0).isSome = true ∧ headTakes (parking [] [parkedEscape]) parkedEscape 0 0 = true ∧ ((parking [] [parkedEscape]).segment 0).reserved = [] ∧
    bestCore s { parkedEscape with task := 4 } (candidates s { parkedEscape with task := 4 }) = none ∧ isClassU s 0 = false := by decide +kernel

/-- R132: the handler's thread has the payload in s3 to s6, the tag in s7, and entry and ticket in s8. -/
theorem test_escapes :
    gives (exec (.escapeDispatch 0 0 0) (parking [parkedEscape] [])) (fun t => let h := t.hart (.thread 0 0)
      h.status = .ready && h.reg 3 = 0xABCD && h.reg 7 = 7 && h.reg 8 = 0x10 && h.reg 2 = 0xFF0000004000C400 && (t.segment 0).parked = []) = true ∧
    gives (exec (.escapeQueueStart 0 0 0) (parking [] [parkedEscape])) (fun t => (t.hart (.thread 0 0)).reg 3 = 0xABCD && (t.segment 0).escapes = []) = true := by decide +kernel

/-- An answered ticket of entry 1 whose reply is due, and one whose target is slot A of instruction 6, which the tile has consumed in cycle 8. -/
def consumed (clock : Nat) : State :=
  { (tile (.esc 1 .none (.slotA 6) .tok) fun t => { t with tickets := [⟨15, 1, 0, 0, ⟨4, false, true, 7⟩, some (6, 8, 0)⟩], consumed := [.slotA 6], lastFired := some 8 }) with clock := clock }
def answered (clock : Nat) : State :=
  { (tile (.esc 1 .none (.link .east) .tok) fun t => { t with tickets := [⟨15, 1, 0, 0, ⟨4, false, true, 7⟩, some (6, 8, 0)⟩] }) with clock := clock }

theorem witness_reply : (((answered 8).tile 0 0).tickets.find? (fun k => k.idx = 15 && k.ticket = 0)).isSome = true ∧ tileActive (answered 8) 0 = true ∧
    ((contextOf (answered 8) 0 0).bind fun c => replyTargets c 15) = some [.link .east] ∧
    replyTurn ((answered 8).tile 0 0) (escapeEntry (answered 8) 0 1).ordered ⟨15, 1, 0, 0, ⟨4, false, true, 7⟩, some (6, 8, 0)⟩ 0 = true ∧
    canAccept ((answered 8).tile 0 0) (.link .east) = true ∧ justConsumed ((answered 8).tile 0 0) (.link .east) = false ∧
    canAccept ((consumed 8).tile 0 0) (.slotA 6) = true ∧ justConsumed ((consumed 8).tile 0 0) (.slotA 6) = true ∧ ((consumed 8).tile 0 0).lastFired = some (consumed 8).clock := by decide +kernel

theorem test_reply :
    gives (exec (.escapeReplyDelivery 0 0 15 0) (answered 8)) (fun t => (t.tile 0 0).flights.map (fun f => (f.dest, f.token)) = [(.link .east, ⟨6, false, true, 7⟩)] && (t.tile 0 0).tickets = []) = true ∧
    gives (exec (.escapeReplyDelivery 0 0 15 0) (answered 7)) (fun t => (t.tile 0 0).flights = []) = true ∧
    gives (exec (.escapeReplyDelivery 0 0 15 0) (consumed 8)) (fun t => (t.tile 0 0).flights = [] && (t.tile 0 0).tickets.length = 1) = true ∧
    gives (exec (.escapeReplyDelivery 0 0 15 0) (consumed 9)) (fun t => (t.tile 0 0).flights.map Flight.dest = [.slotA 6]) = true := by decide +kernel

/-! ## Stages, seams and patches -/

def freshStage : Stage := ⟨0x10202, 1, none, [], [], 0, 0, 0, none, none, Vector.replicate 8 4, 0, [], Vector.replicate 8 []⟩

/-- The tile as the only replica of stage 0: an entry and an exit; the stage has two replicas placed. -/
def staged (g : Stage) : State :=
  let s := tile .nop fun t => { t with contexts := vset t.contexts 0 { vget TileContext.fresh t.contexts 0 with control := 1 + 2 ^ 22 + 2 ^ 26 + 2 ^ 27 } }
  { s.setRegion 0 { s.region 0 with stages := [g] } with clock := 300 }

def tok (n : Nat) : Token := ⟨BitVec.ofNat 256 n, false, false, 0⟩
def fence : Token := ⟨0, true, true, 0xFFFF⟩

/-- A stage that changes, for its last fence; and one whose input was full since cycle 44. -/
def changing : Stage := { freshStage with changing := some 2, fencesLeft := 0, exits := vset freshStage.exits 0 [⟨fence, 0⟩] }
def dwelling : Stage := { freshStage with highSince := some 44, lowSince := some 44 }

theorem witness_stages : (stageOf (staged freshStage) 0 0).isSome = true ∧ tileActive (staged freshStage) 0 = true ∧
    (replicaTile (staged freshStage) 0 0 0 TileContext.entry).isSome = true ∧ vget 0 freshStage.entryCredits 0 ≠ 0 ∧ dealCount freshStage = 1 ∧
    exitHead (staged changing) changing 0 = some fence ∧ isFence fence = true ∧ isFence (tok 3) = false ∧ StageEntry.placed freshStage.entry = 2 ∧
    dwelling.highSince = some 44 ∧ 44 + 256 ≤ (staged dwelling).clock ∧ (1 : Nat) < { dwelling with active := 2 }.active := by decide +kernel

/-- The splitter deals, a dwell mark of 256 cycles begins a change, and the last fence ends it (R253 to R255). -/
theorem test_stages :
    gives (exec (.splitterDeal 0 0) (staged { freshStage with input := [⟨tok 7, 0⟩] })) (fun t => (vget [] (t.tile 0 0).fifo 0).map (fun x => (x.token.payload, x.at_)) = [(0, 0), (7, 302)]) = true ∧
    gives (exec (.stageHigh 0 0) (staged dwelling)) (fun t => (stageOf t 0 0).any fun g => g.changing = some 2 && g.fencesLeft = 1) = true ∧
    gives (exec (.stageHigh 0 0) (staged { dwelling with highSince := some 45 })) (fun t => (stageOf t 0 0).any fun g => g.changing = none) = true ∧
    gives (exec (.stageFenceMerge 0 0) (staged changing)) (fun t => (stageOf t 0 0).any fun g => g.active = 2 && g.changing = none && vget [] g.exits 0 = []) = true ∧
    gives (exec (.mergerTake 0 0) (staged { freshStage with exits := vset freshStage.exits 0 [⟨tok 7, 0⟩] })) (fun t => (stageOf t 0 0).any fun g => g.output.map Landed.token = [tok 7]) = true := by decide +kernel

/-- Both sides of the sluice ask to stitch port 16 of cluster 0, or to unstitch it. -/
def seams (off : Bool) : State :=
  ((tile .nop).setRegion 0 { Region.fresh with seamAsk := some (0x10000, off), stitched := if off then 0x10000 else 0 }).setRegion 1
    { Region.fresh with seamAsk := some (1, off), stitched := if off then 1 else 0 }

/-- A node that is drained, for slot 3 of the running context. -/
def patching : State := tile .nop fun t => { t with draining := some ⟨0, 3, 0x123, .region 0, 5, Vector.replicate 4 0, Vector.replicate 4 0⟩ }

theorem witness_seams : acrossSluice 0 .east = some 1 ∧ seamAsks (seams false) 0 16 = some false ∧ seamAsks (seams true) 1 0 = some true ∧ seamAsks (seams false) 0 17 = none ∧
    linkEmpty (seams true) 0 15 .east = true ∧ linkEmpty (seams true) 1 0 .west = true ∧
    (((patching.tile 0 0).draining).any fun d => d.idx < 16 && d.ctx < 8 && (patching.hart d.issuer).chain.isNone && drained (patching.tile 0 0) d) = true ∧
    clusterHeld (seams true) 0 = false ∧ clusterHeld (seams true) 1 = false ∧ clusterHeld (halted (seams true)) 0 = true ∧ clusterHeld patching 0 = false ∧ clusterHeld (halted patching) 0 = true := by decide +kernel

theorem test_seams :
    gives (exec (.seamStitch 0 16) (seams false)) (fun t => (t.region 0).stitched = 0x10000 && (t.region 1).stitched = 1 && vget 0 (t.tile 0 15).credits Link.east.code = 4) = true ∧
    gives (exec (.seamStitch 0 16) (seams true)) (fun t => (t.region 0).stitched = 0 && (t.region 1).stitched = 0) = true ∧
    gives (exec (.seamStitch 0 16) (halted (seams true))) (fun t => (t.region 0).stitched = 0x10000) = true ∧
    gives (exec (.nodeReplace 0 0 3) (halted patching)) (fun t => (t.tile 0 0).draining.isSome) = true ∧
    gives (exec (.nodeReplace 0 0 3) patching) (fun t => (t.hart (.region 0)).reg 5 = 0 && (t.hart (.region 0)).status = .ready && vget 0 (vget TileContext.fresh (t.tile 0 0).contexts 0).slots 3 = 0x123) = true := by decide +kernel

/-! ## Runs, nodes and ports -/

/-- A run of no iteration, which has converged at once, or of one, at a clock. -/
def running (n : Nat) (clock : Nat) (node : Option Nat := none) : State :=
  let s := tile .nop
  let s := s.setRegion 0 { s.region 0 with run := some ⟨0, Vector.replicate 4 n, 0, 0, node, [0]⟩ }
  { s.setNode 2 ⟨#v[3, 0, 0, 0], 0, none, none, .running, [], [], false⟩ with clock := clock }

/-- A waiting leaf of cluster 1, loaded in slot 4 with counts. -/
def leaf (gated : Bool) : State :=
  let s := tile .nop
  ((s.setNode 2 ⟨#v[if gated then 0x1000B else 0x10003, 0, 0x0001000200030004, 0xC], 0, none, none, .waiting, [], [], false⟩).setRegion 1 { Region.fresh with node := some 2 })

theorem witness_runs : converged (running 0 9) 0 = true ∧ converged (running 1 0) 0 = false ∧ regionRuns (running 1 0) 0 = true ∧ ((running 1 0).region 0).failed = none ∧
    ((running 0 9 (some 2)).node 2).any (fun x => x.parent.isNone) = true ∧ tokensLeft (running 0 9) 0 = true ∧ ((running 1 65536).region 0).progress + 65536 ≤ (running 1 65536).clock ∧
    (running 1 65535).clock < ((running 1 65535).region 0).progress + 65536 ∧ ((running 1 0).hart (.region 0)).status ≠ .stopped ∧
    othersIdle (leaf false) 1 = true ∧ nodeLoaded #v[3, 0, 0, 0xC] = true ∧ nodeGated #v[0xB, 0, 0, 0xC] = true ∧ taskRuns (leaf false) 0 = true ∧
    nodeKind #v[1, 0, 5, 0] ≠ 3 ∧ nodeRuns #v[1, 0, 5, 0] ≠ 0 := by decide +kernel

theorem test_runs :
    gives (exec (.converge 0) (running 0 9)) (fun t => (t.region 0).run.isNone && (t.region 0).lastConverged = some 9 && (t.hart (.region 0)).status = .ready) = true ∧
    gives (exec (.converge 0) (running 0 9 (some 2))) (fun t => (t.node 2).any fun x => x.phase = .ended 0x100) = true ∧
    gives (exec (.stallDetect 0) (running 1 65536)) (fun t => (t.region 0).frozen && (t.region 0).failed = some (4, true) && (t.hart (.region 0)).status = .halted) = true ∧
    gives (exec (.stallDetect 0) (running 1 65535)) (fun t => !(t.region 0).frozen) = true ∧
    gives (exec (.nodeStart 2) (leaf false)) (fun t => (t.region 1).run.any (fun r => r.slot = 4 && r.n.toList = [4, 3, 2, 1]) && (t.node 2).any fun x => x.phase = .running) = true ∧
    gives (exec (.nodeStart 2) (leaf true)) (fun t => (t.region 1).run.isNone) = true := by decide +kernel

/-- Port 0 of cluster 0 with a streaming record of two accesses in bank 0, 32 bytes apart, that reads or writes. -/
def portRec (wr : Bool) (base : Word := 0xFF00000000000000) : Vector Word 8 := #v[base, 2, 0x2000000000, 0, 0, 0, if wr then 4 else 0, 0]
def porting (x : Port) : State := ((tile .nop).setPort 0 x).setBytes 0xFF00000000000020 [7]

def frozenPort : Port := { Port.fresh with record := some (portRec false), fault := some ⟨0x80000000, [], 0, 0, 0, 0, 0, 1, 1⟩ }

theorem witness_ports : portActive (porting Port.fresh) 0 = true ∧ PortRec.cls (portRec false) ≠ 1 ∧ portTotal (portRec false) = 2 ∧ PortRec.wr (portRec true) = true ∧
    PortRec.aop (portRec true) = 0 ∧ selfDescribing (porting Port.fresh) 0 (regionTask (porting Port.fresh) 0) 0xFF00000000000000 = false ∧
    (genRead (porting Port.fresh) 0 (some 0) 0xFF00000000000000 32 false matches .done _ _) = true ∧
    genWriteCheck (porting Port.fresh) 0 (some 0) 0xFF00000000000000 32 = .done 0 (porting Port.fresh) ∧
    genRead (porting Port.fresh) 0 (some 0) 0x80000000 32 false = .fault 1 0 ∧
    (portRec false 0x80000000).get 0 = streamAddress (portRec false 0x80000000) 0 ∧ frozenPort.fault.any (fun f => f.state = 1 && f.cause = 1) = true := by decide +kernel

theorem test_ports :
    gives (exec (.portAccess 0 0) (porting { Port.fresh with record := some (portRec false), next := 1, taken := 1 })) (fun t => (t.port 0).buffer = [⟨7, false, true, 1⟩] && (t.port 0).next = 2) = true ∧
    gives (exec (.portAccess 0 0) (porting { Port.fresh with record := some (portRec false 0x80000000) })) (fun t => (t.port 0).fault.any (fun f => f.va = 0x80000000 && f.cause = 1) && (t.port 0).next = 0) = true ∧
    gives (exec (.portAccess 0 0) (porting { Port.fresh with record := some (portRec true), input := [⟨tok 0xAB, 0⟩] })) (fun t => t.backing 0xFF00000000000000 = 0xAB && (t.port 0).input = []) = true ∧
    gives (exec (.portResponse 0 0) (porting { Port.fresh with record := some (portRec false), buffer := [tok 9] })) (fun t => (vget [] (t.tile 0 0).fifo Link.north.code).map Landed.token = [tok 0, tok 9] && (t.port 0).buffer = []) = true ∧
    gives (exec (.wakeToken (.port 0)) (porting frozenPort)) (fun t => (t.port 0).fault.any fun f => f.state = 2) = true := by decide +kernel

/-! ## Copies under way -/

/-- A copy of two doublewords within bank 0, and one whose elements are clipped. -/
def wordCopy : Copy := { someCopy with desc := #v[0xFF00000000000000, 0xFF00000000001000, 2, 0, 0, 3, 0, 0], number := 5 }
def clippedCopy : Copy := { wordCopy with desc := #v[0xFF00000000000000, 0xFF00000000001000, 2, 0, 0, 0x4003, 0, 0] }
def streamCopy : Copy := { wordCopy with kind := .stream 2, stream := 1, started := 2, freed := 0, desc := #v[0xFF00000000000000, 0xFF00000000001000, 0x0003000100010002, 0, 0, 3, 0, 0] }

/-- Engine 0 with a queue and commands that run; bank 0 holds 0x1122 at its start. -/
def engined (queue run : List Copy) : State :=
  let s := (handled).setBytes 0xFF00000000000000 [0x22, 0x11]
  { (s.setMe { s.me with openBatch := [⟨0, 9⟩], fstat := 1 }).setEngine 0 ⟨queue, run, 0, [], 10⟩ with freed := [1] }

theorem witness_engine : ((engined [someCopy] []).engine 0).running.length < 4 ∧ taskRuns (engined [someCopy] []) 0 = true ∧
    nth? ((engined [] [wordCopy]).engine 0).running 0 = some wordCopy ∧ wordCopy.total = 2 ∧ wordCopy.reads = [(0xFF00000000000000, 8)] ∧ CopyDesc.pairs wordCopy.desc = false ∧
    CopyDesc.esz wordCopy.desc ≠ 4 ∧ wordCopy.clipped wordCopy.place.1 = false ∧ wordCopy.strays 0 = false ∧ wordCopy.targets 0 = [0xFF00000000001000] ∧ engineCluster 0 = 0 ∧
    (genRead (engined [] [wordCopy]) 0 (some 0) 0xFF00000000000000 8 false matches .done 0x1122 _) = true ∧
    genWriteCheck (engined [] [wordCopy]) 0 (some 0) 0xFF00000000001000 8 = .done 0 (engined [] [wordCopy]) ∧
    clippedCopy.allClipped = true ∧ CopyDesc.zf clippedCopy.desc = false ∧ ({ wordCopy with next := 2 } : Copy).total ≤ 2 ∧ wordCopy.id ∈ ((engined [] [wordCopy]).hart wordCopy.owner).openBatch ∧
    (16 * 0 + 1) ∈ (engined [] [streamCopy]).freed ∧ streamCopy.freed < streamCopy.started ∧ CopyDesc.ext streamCopy.desc 3 = 3 := by decide +kernel

theorem test_engine :
    gives (exec (.copyStart 0) (engined [someCopy] [wordCopy])) (fun t => (t.engine 0).queue = [] && (t.engine 0).running = [wordCopy, someCopy]) = true ∧
    gives (exec (.copyStart 0) (engined [someCopy] (List.replicate 4 wordCopy))) (fun t => (t.engine 0).running.length = 4) = true ∧
    gives (exec (.copyElement 0 0) (engined [] [wordCopy])) (fun t => t.backing 0xFF00000000001001 = 0x11 && (t.engine 0).running.map Copy.next = [1]) = true ∧
    gives (exec (.copyElement 0 0) (engined [] [clippedCopy])) (fun t => t.backing 0xFF00000000001001 = 0 && (t.engine 0).running.map Copy.next = [1]) = true ∧
    gives (exec (.copyComplete 0 0) (engined [] [{ wordCopy with next := 2, flags := 4 }])) (fun t => (t.engine 0).running = [] && t.me.fstat = 5 && t.me.openBatch = []) = true ∧
    gives (exec (.streamTileStart 0 1) (engined [] [streamCopy])) (fun t => (t.engine 0).running.map (fun c => (c.freed, c.started)) = [(1, 3)] && t.freed = []) = true ∧
    gives (exec (.streamTileStart 0 1) (engined [] [{ streamCopy with freed := 2 }])) (fun t => (t.engine 0).strstat = 2) = true := by decide +kernel

/-! ## Matrix commands and banks under way -/

/-- Block 0 with a queue, one deferred command in slot 3 that needs two landings, and a landing on its way. -/
def deferring (landed : Nat) (released : Bool) (releases : List Nat) (queue : List MatrixCmd := []) : State :=
  let s := (sequencer (.matrix 0 0)).setBlock 0 { Block.fresh with
    queue := queue, releases := releases, slots := vset Block.fresh.slots 3 ⟨some (mxCmd .unload), 2, landed, released⟩ }
  { s with landings := [(0, 3)] }

/-- The same with the cluster's task halted. -/
def deferringHeld : State := halted (deferring 0 false [])

/-- A product of one row, column and element of FP32 in bank 0: 2.0 by 3.0, and the same with its operand outside the task's banks. -/
def oneProduct (va : Word := 0xFF00000000000000) (a b : Option (List Nat) := none) (fetching : Bool := false) : MatrixCmd :=
  { mxCmd (.multiply 1 #v[va, 0xFF00000000000040, 0x100010001, 0, 0, 0]) with fetching := fetching, rowsA := a, rowsB := b }
def producing (c : MatrixCmd) : State :=
  (((sequencer (.matrix 0 0)).setBlock 0 { Block.fresh with queue := [c] }).setBytes 0xFF00000000000000 (bytesOf 4 0x40000000)).setBytes 0xFF00000000000040 (bytesOf 4 0x40400000)

/-- Blocks 0 and 1 name each other in MCAST, with the same operands; and block 0 alone has its product there. -/
def together : MatrixCmd := { oneProduct with op := .multiply 1 #v[0xFF00000000000000, 0xFF00000000000040, 0x100010001, 0, 0x30101, 0] }
def meeting : State := ((producing together).setBlock 1 { Block.fresh with queue := [together] })

/-- R161 and R339: the group waits for its last member, and then one fetch serves both. -/
theorem witness_matrixMeets : taskRuns meeting 0 = true ∧ MatrixDesc.mcast #v[0xFF00000000000000, 0xFF00000000000040, 0x100010001, 0, 0x30101, 0] = 3 ∧
    headProduct (producing together) 1 = none ∧ (headProduct meeting 1).isSome = true ∧ together.met = false ∧ together.rowsA = none ∧
    sameOperand 0 1 #v[0xFF00000000000000, 0xFF00000000000040, 0x100010001, 0, 0x30101, 0] #v[0xFF00000000000000, 0xFF00000000000040, 0x100010001, 0, 0x30101, 0] false = true ∧
    (fetchRows meeting 0 together #v[0xFF00000000000000, 0xFF00000000000040, 0x100010001, 0, 0x30101, 0] false matches .ok _) = true ∧
    gives (exec (.matrixFetchStart 0) (producing together)) (fun t => (t.block 0).queue = [together]) = true ∧
    gives (exec (.matrixFetchStart 0) meeting) (fun t => ((t.block 0).queue ++ (t.block 1).queue).map (fun c => (c.met, c.rowsA)) = [(true, some [0x40000000]), (true, some [0x40000000])]) = true := by decide +kernel

theorem witness_matrixWork : (0, 3) ∈ (deferring 0 false []).landings ∧ clusterHeld deferringHeld 0 = true ∧ clusterHeld (deferring 0 false []) 0 = false ∧ (vget ⟨none, 0, 0, false⟩ ((deferring 0 false []).block 0).slots 3).landed + 1 < 2 ∧
    2 ≤ (vget ⟨none, 0, 0, false⟩ ((deferring 1 false []).block 0).slots 3).landed + 1 ∧ ((deferring 1 false []).block 0).queue.length < 4 ∧ ((deferring 1 true [3]).block 0).releases = 3 :: [] ∧
    taskRuns (producing oneProduct) 0 = true ∧ MatrixDesc.mcast #v[0, 0, 0x100010001, 0, 0, 0] = 0 ∧ MatrixDesc.kind #v[0, 0, 0x100010001, 0, 0, 0] true ≠ 2 ∧
    (fetchRows (producing oneProduct) 0 oneProduct #v[0xFF00000000000000, 0xFF00000000000040, 0x100010001, 0, 0, 0] false matches .ok _) = true ∧
    (fetchRows (producing (oneProduct 0xFF00000002000000)) 0 (oneProduct 0xFF00000002000000) #v[0xFF00000002000000, 0xFF00000000000040, 0x100010001, 0, 0, 0] false matches .error _) = true ∧
    ((producing (oneProduct 0 (some [0x40000000]) (some [0x40400000]) true)).block 0).program = none := by decide +kernel

theorem test_matrixWork :
    gives (exec (.landingNotice 0 3) (deferring 0 false [])) (fun t => (vget ⟨none, 0, 0, false⟩ (t.block 0).slots 3).landed = 1 && (t.block 0).queue = [] && t.landings = []) = true ∧
    gives (exec (.landingNotice 0 3) deferringHeld) (fun t => (vget ⟨none, 0, 0, false⟩ (t.block 0).slots 3).landed = 0 && t.landings.length = 1) = true ∧
    gives (exec (.landingNotice 0 3) (deferring 1 false [])) (fun t => (t.block 0).queue.length = 1 && (vget ⟨none, 0, 0, false⟩ (t.block 0).slots 3).cmd.isNone) = true ∧
    gives (exec (.deferredEnter 0 3) (deferring 1 true [3])) (fun t => (t.block 0).queue.length = 1 && (t.block 0).releases = []) = true ∧
    gives (exec (.matrixFetchStart 0) (producing oneProduct)) (fun t => (t.block 0).queue.map (fun c => (c.rowsA, c.rowsB)) = [(some [0x40000000], some [0x40400000])]) = true ∧
    gives (exec (.matrixFetchStart 0) (producing (oneProduct 0xFF00000002000000))) (fun t => (t.block 0).stopped && (t.hart (.matrix 0 0)).status = .stopped) = true ∧
    gives (exec (.matrixCommandComplete 0) (producing (oneProduct 0 (some [0x40000000]) (some [0x40400000]) true))) (fun t => tget 0 0 (vget [] (t.block 0).acc 1) = 0x40C00000 && (t.block 0).queue = []) = true := by decide +kernel

/-- Bank 0 in a mode, switching to another or not. -/
def banked (mode : BankMode) (busy : Option BankMode) : State := (window 0 0 0x1234).setBlock 0 { Block.fresh with banks := vset Block.fresh.banks 0 ⟨mode, busy, [], 0⟩ }

/-- Weir 3 of the task with a notice and a credit of some bytes on their way. -/
def noticed (w : Weir) (bytes : Nat) : State :=
  { (weirs { w with task := some 0 }) with notices := [⟨3, some 0, 1, bytes⟩], credits := [⟨3, some 0, 1, bytes⟩] }

/-- The same with the task saved. -/
def withheld : State :=
  let s := noticed (armed 8 0) 8
  { s with tasks := s.tasks.map fun p => (p.1, { p.2 with phase := .saved }) }

theorem witness_banks : modeOf 2 = some .fifo ∧ modeOf 3 = none ∧ (vget Bank.fresh ((banked .scratch none).block 0).banks 0).busy = none ∧
    (vget Bank.fresh ((banked .scratch (some .fifo)).block 0).banks 0).busy = some .fifo ∧ switchHeld (banked .scratch (some .fifo)) 0 = false ∧
    nth? (noticed (armed 8 0) 8).notices 0 = some ⟨3, some 0, 1, 8⟩ ∧ (noticed (armed 8 0) 8).notices.take 0 = [] ∧ ((noticed (armed 8 0) 8).weir 3).task = some 0 ∧
    ((noticed (armed 8 0) 8).weir 3).bal = 8 ∧ ((noticed (armed 8 0) 8).weir 3).par = 0 ∧ ((noticed (armed 8 1) 8).weir 3).par ≠ 0 ∧
    -(2 ^ 47) ≤ (-2 ^ 47 + 8 : Int) - 8 ∧ Weir.periodic (armed 8 0) = false ∧
    ((noticed (armed 8 0) 8).task 0).all (fun t => t.phase ≠ .saving && t.phase ≠ .saved) = true ∧
    ((withheld).task 0).any (fun t => t.phase = .saved) = true := by decide +kernel

theorem test_bankHeld : clusterHeld (halted (banked .scratch (some .fifo))) 0 = true ∧ clusterHeld (banked .scratch (some .fifo)) 0 = false ∧
    gives (exec (.bankSwitchComplete 0 0) (halted (banked .scratch (some .fifo)))) (fun t => (vget Bank.fresh (t.block 0).banks 0).busy = some .fifo) = true := by decide +kernel

theorem test_banks :
    gives (exec (.bankctlWrite 0 0 2) (banked .scratch none)) (fun t => (vget Bank.fresh (t.block 0).banks 0).busy = some .fifo && t.backing 0xFF00000000000000 = 0x34) = true ∧
    gives (exec (.bankSwitchComplete 0 0) (banked .scratch (some .fifo))) (fun t => vget Bank.fresh (t.block 0).banks 0 = ⟨.fifo, none, [], 0⟩ && t.backing 0xFF00000000000000 = 0) = true ∧
    gives (exec (.weirCountNotice 0) (noticed (armed 8 0) 8)) (fun t => (t.weir 3).state = .tripped && (t.weir 3).gen = 5) = true ∧
    gives (exec (.weirCredit 0) (noticed (armed 8 1) 8)) (fun t => (t.weir 3).bal = 0 && (t.weir 3).state = .armed) = true ∧
    gives (exec (.weirCountNotice 0) (noticed (armed 4 0) 8)) (fun t => (t.weir 3).pastEnd && (t.weir 3).bal = -4) = true ∧
    gives (exec (.weirCredit 0) (noticed Weir.fresh 8)) (fun t => (t.weir 3).late) = true ∧
    gives (exec (.weirCountNotice 0) withheld) (fun t => t.notices.length = 1 && (t.weir 3).state = .armed) = true := by decide +kernel

/-! ## Waking, faults and caches -/

/-- A thread that sleeps since cycle 4, at a clock. -/
def sleeping (w : Wait) (clock : Nat) (wdog : Word := 0) : State :=
  let s := window 0 0 7
  { s.setMe { s.me with status := .sleeping w 4, wdog := wdog } with clock := clock }

/-- Its page at 0x8000_0000 is missing, or an acknowledged packet is answered. -/
def sentPacket (answer : Option Nat := none) : Renq := ⟨9, 3, Vector.replicate 8 0, .thread 0 0, some 0, 0, true, 5, .renq true 5 6 7, 0x40000000, answer, false, false, false⟩
def awaiting (answer : Option Nat := none) : State := { sleeping .answer 9 with renqs := [sentPacket answer], routes := [(9, [0])], scaleUp := [(0, .up)] }
/-- The same with a record of the link error ring that is not written yet. -/
def recordWaits : State := { awaiting (some 3) with frontWrites := [⟨2 ^ 47 + 64, false, [5], none, 0, true, none, none, none⟩] }
/-- The same with every port to the packet's device retraining. -/
def unreached : State := { awaiting with scaleUp := [(0, .retraining 3)] }
def credited : State := { sleeping (.packetSlot 9) 9 with renqCredits := [(9, 1)] }

theorem witness_wake : (AgentId.thread 0 0).exists = true ∧ agentRuns (sleeping (.clock 9) 9) (.thread 0 0) = true ∧ waitOver (sleeping (.clock 9) 9) (.thread 0 0) 4 (.clock 9) = true ∧
    waitOver (sleeping (.clock 9) 8) (.thread 0 0) 4 (.clock 9) = false ∧ (5 : Word).toNat < (sleeping (.clock 9) 10 5).clock - 4 ∧ (sleeping (.clock 9) 9 5).clock - 4 ≤ (5 : Word).toNat ∧
    (awaiting.renqs.find? (fun r => r.sender = .thread 0 0 && r.ack && !r.gone && r.pc = (awaiting.hart (.thread 0 0)).pc && r.task = (awaiting.hart (.thread 0 0)).task && r.handler = (awaiting.hart (.thread 0 0)).tmode)) = some (sentPacket none) ∧
    reach awaiting (sentPacket none).dest = .up ∧ reach unreached (sentPacket none).dest ≠ .up ∧
    (awaiting.hart (.thread 0 0)).chain = none ∧ awaiting.renqs.count (sentPacket none) = 1 ∧ (awaiting (some 3)).recordsWait = false ∧ recordWaits.recordsWait = true ∧ recordWaits.renqs = (awaiting (some 3)).renqs ∧
    tget 0 9 credited.renqCredits ≠ 0 ∧ (0x001000B9 : Word).getLsbD 0 = true ∧ (0x001000B9 : Word).getLsbD 7 = true ∧ (0x001000B9 : Word).getLsbD 8 = false ∧ (0x001000B9 : Word) &&& Pte.reserved = 0 ∧ (0x00100039 : Word).getLsbD 7 = false ∧
    Pte.backed (Pte.frame 0x001000B9) = true ∧ frameEnabled (sleeping (.clock 9) 9).closedUnits (Pte.frame 0x001000B9 / 4096) = true ∧ inWindowRange (0x80000000 : Word).toNat = false ∧ ((sleeping (.clock 9) 9).hart (.thread 0 0)).chain = none := by decide +kernel

/-- A re-read of `waitv`: the instruction at the pc is `waitv.eq.d` on the bank's doubleword. -/
def rereading (v : Nat) : State :=
  let s := sleeping (.value 0x3FC000000000000) 9
  ((s.setBytes 0xFF00000000000000 (bytesOf 8 v)).setBytes 0x100000 (encode (.waitvEq false .d .device 5 6 7)))

def rereader (v : Nat) : State :=
  { (rereading v).setHart (.thread 0 0) { (rereading v).hart (.thread 0 0) with status := .ready, wokenAt := some (rereading v).clock, receiving := false } with cur := .thread 0 0 }

/-- The four forms are the agent's instruction; the comparison holds with the one doubleword and not with the other. -/
theorem witness_reread : instrOf (rereading 0) (.thread 0 0) = some (.waitvEq false .d .device 5 6 7) ∧
    (∀ i ∈ ([.waitvNe false .d .device 5 6 7, .waitvLt false .d .device 5 6 7, .waitvGe false .d .device 5 6 7] : List Instr),
      instrOf ((rereading 0).setBytes 0x100000 (encode i)) (.thread 0 0) = some i) ∧
    (landing (.waitvEq false .d .device 5 6 7) (rereader 0) matches some (.ok (.bank _ _ 0xFF00000000000000))) = true ∧ ((rereading 0).hart (.thread 0 0)).codelet = false ∧
    valueAt (rereading 0).backing 0xFF00000000000000 8 = ((rereading 0).hart (.thread 0 0)).reg 7 ∧ valueAt (rereading 9).backing 0xFF00000000000000 8 ≠ (((rereading 9).hart (.thread 0 0)).reg 7).toNat := by decide +kernel

theorem witness_rereadRuns : MayRun (.waitvEq false .d .device 5 6 7) (rereader 0) := mayRun (is := [.waitvEq false .d .device 5 6 7]) (by decide +kernel) _ (by decide)

theorem test_wake :
    gives (exec (.threadWake (.thread 0 0)) (sleeping (.clock 9) 9)) (fun t => t.me.status = .ready) = true ∧
    gives (exec (.threadWake (.thread 0 0)) (sleeping (.clock 9) 8)) (fun t => t.me.status = .sleeping (.clock 9) 4) = true ∧
    gives (exec (.watchdogExpiry (.thread 0 0)) (sleeping (.clock 9) 10 5)) (fun t => t.me.ecause.toNat % 256 = 9 && t.me.eval = 6 && t.me.status = .ready) = true ∧
    gives (exec (.faultUnresolvable (.agent (.thread 0 0))) (sleeping (.page 0x80000000) 9)) (fun t => t.me.ecause.toNat % 256 = 3 && t.me.eval = 0x80000000) = true ∧
    gives (exec (.pageFaultResolved (.agent (.thread 0 0)) 0x001000B9 none) (sleeping (.page 0x80000000) 9)) (fun t => t.me.status = .ready && t.maps.length = 2) = true ∧
    gives (exec (.pageFaultResolved (.agent (.thread 0 0)) 0x00100039 none) (sleeping (.page 0x80000000) 9)) (fun t => t.me.status ≠ .ready && t.maps.length = 1) = true ∧
    gives (exec (.waitvReread (.thread 0 0)) (rereading 0)) (fun t => t.me.pc = 0x40000004) = true ∧
    gives (exec (.waitvReread (.thread 0 0)) (rereading 9)) (fun t => t.me.pc = 0x40000000 && (t.me.status matches .sleeping (.value _) 4)) = true ∧
    gives (exec (.threadWake (.thread 0 0)) credited) (fun t => t.me.status = .ready) = true ∧
    gives (exec (.threadWake (.thread 0 0)) (awaiting (some 1))) (fun t => t.me.pc = 0x40000004 && t.renqs = []) = true ∧
    gives (exec (.threadWake (.thread 0 0)) (awaiting (some 3))) (fun t => t.me.reg 5 = 3 && t.renqs = []) = true ∧
    gives (exec (.threadWake (.thread 0 0)) unreached) (fun t => t.me.pc = 0x40000000 && t.renqs.length = 1) = true ∧
    gives (exec (.threadWake (.thread 0 0)) recordWaits) (fun t => t.me.pc = 0x40000000 && t.renqs.length = 1) = true ∧
    gives (exec .illegalInstruction handled) (fun t => t.me.ecause.toNat % 256 = 1 && t.me.epc = 0x40000000) = true := by decide +kernel

/-- Core 1 with an entry in its overflow queue, one taken at cycle 4; and a line of host memory in the mere. -/
def refilling (clock : Nat) : State := { (handled).setCore 1 { Core.fresh with overflow := [codelet], lastRefill := some 4 } with clock := clock }
def hostLine : Line := { Line.filled (2 ^ 41) (vset (Vector.replicate 64 0) 3 0xAB) (Vector.replicate 4 0) with dirty := 8 }
def snooped (l : LinkState := .up) : State :=
  { handled with mere := [hostLine], homes := [(7, ⟨9, true, [], true, false, none, [], none⟩)], routes := [(9, [0])], scaleUp := [(0, .up)], service := { handled.service with host := l } }

/-- Core 1's task is held by a debugger. -/
def refillHeld : State :=
  let s := refilling 8
  { s with tasks := s.tasks.map fun p => (p.1, { p.2 with debugHalted := true }) }

/-- Line 5 is dirty in the L1 of core 1 and in the segment cache of cluster 1. -/
def dirtyLine : Line := { Line.filled 5 (vset (Vector.replicate 64 0) 3 0xAB) (Vector.replicate 4 0) with dirty := 8 }
def dirtied : State :=
  let s := (handled).setCore 1 { Core.fresh with l1 := { Core.fresh.l1 with lines := [dirtyLine] } }
  s.setSegment 1 { s.segment 1 with cache := { (s.segment 1).cache with lines := [dirtyLine] } }

theorem witness_refills : ((refilling 8).core 1).overflow = [codelet] ∧ 4 + 4 ≤ (refilling 8).clock ∧ (refilling 7).clock < 4 + 4 ∧ ((refilling 8).core 1).ring.length < 1024 ∧ ((refilling 8).core 1).waitingPushes = [] ∧
    findLine (2 ^ 41) snooped.mere = some hostLine ∧ snooped.service.host = .up ∧ (snooped .recovery).service.host ≠ .up ∧ hostLine.dirty ≠ 0 ∧
    clusterHeld refillHeld 0 = true ∧ clusterHeld (refilling 8) 0 = false ∧ findLine 5 (dirtied.core 1).l1.lines = some dirtyLine ∧ findLine 5 (dirtied.segment 1).cache.lines = some dirtyLine ∧ dirtyLine.dirty.getLsbD 3 = true ∧ hostLine.dirty.getLsbD 3 = true ∧ (snooped.core 1).held = [] ∧ frameEnabled snooped.closedUnits 5 = true ∧
    (translate snooped 0 0 (4096 * 0x40000) matches .ok (0x100000, _)) = true ∧ (0x40000 : Nat) < 2 ^ 45 ∧ tfind 7 snooped.homes = some ⟨9, true, [], true, false, none, [], none⟩ ∧ (9 : Nat) ≠ snooped.ownDevice ∧ reach snooped 9 = .up := by decide +kernel

/-- The task's root lies in the frame that its page maps. -/
def rootMapped : State := { snooped with tasks := snooped.tasks.map fun p => (p.1, { p.2 with desc := vset p.2.desc 0 0x100000 }) }

theorem witness_moves : pageFrames snooped 0 0 (4096 * 0x40000) = 1 ∧ framesMovable snooped 0x100 1 = true ∧ (translate rootMapped 0 0x100000 (4096 * 0x40000) matches .ok (0x100000, _)) = true ∧
    pageFrames rootMapped 0 0x100000 (4096 * 0x40000) = 1 ∧ framesMovable rootMapped 0x100 1 = false ∧ tableEntries snooped 0x100 1 = [] ∧
    gives (exec (.pageMove 0 0x40000 5) rootMapped) (fun t => translate t 0 0x100000 (4096 * 0x40000) matches .ok (0x100000, _)) = true := by decide +kernel

theorem test_refills :
    gives (exec (.ringRefill 1) (refilling 8)) (fun t => (t.core 1).ring = [codelet] && (t.core 1).overflow = [] && (t.core 1).lastRefill = some 8) = true ∧
    gives (exec (.ringRefill 1) (refilling 7)) (fun t => (t.core 1).ring = []) = true ∧
    gives (exec (.hostSnoop (2 ^ 41)) snooped) (fun t => t.mere = [] && t.backing (2 ^ 47 + 3) = 0xAB) = true ∧
    gives (exec (.hostSnoop (2 ^ 41)) (snooped .recovery)) (fun t => t.mere = [hostLine] && t.backing (2 ^ 47 + 3) = 0) = true ∧
    gives (exec (.ringRefill 1) refillHeld) (fun t => (t.core 1).ring = []) = true ∧
    gives (exec (.lineEviction 1 5) dirtied) (fun t => t.segByte 0 323 = 0xAB && t.homeByte 323 = 0 && (t.core 1).l1.lines = []) = true ∧
    gives (exec (.lineEviction 2049 5) dirtied) (fun t => t.homeByte 323 = 0xAB && (t.segment 1).cache.lines = []) = true ∧
    gives (exec (.lineEviction 2080 (2 ^ 41)) snooped) (fun t => t.mere = [] && t.backing (2 ^ 47 + 3) = 0xAB) = true ∧
    gives (exec (.readCopyInvalidate 7) snooped) (fun t => t.homes.map (fun p => p.2.copy) = [false]) = true := by decide +kernel

/-! ## Queues and tasks -/

/-- Three tables at 0x10000 that map the first GiB to itself. -/
def rooted (s : State) : State := ((s.setBytes 0x10000 (bytesOf 8 0x11001)).setBytes 0x11000 (bytesOf 8 0x12001)).setBytes 0x12000 (bytesOf 8 0x99)

/-- Queue 2 of 16 packets at 0x40000, class 1, with 8 tokens, and the first packet's words. -/
def someQueue (wmax rd : Nat) (st : QueueState) : Queue :=
  { Queue.fresh with opened := true, desc := #v[0x40000, 0x814, 0, 0x50000, 0x10000], wmax := wmax, rd := rd, state := st, balance := 3 }
def fronted (q : Queue) (w : Nat) (clock : Nat := 0) : State :=
  let s := (rooted handled).setQueue 2 q
  { s.setBytes 0x40000 (bytesOf 8 w) with clock := clock, service := { s.service with phase := .running, host := .up } }

/-- A queue whose page table leads on into host memory, while the host link is in recovery. -/
def hostPacket : State :=
  let s := fronted (someQueue 1 0 .fetching) 0
  { s.setBytes 0x12008 (bytesOf 8 (2 ^ 47 + 0x99)) with service := { s.service with host := .recovery } }

/-- The no-op that the queue holds as task 1, with BARRIER and EARLY as its packet has them. -/
def pendingNoop (head : Word) : State :=
  let s := fronted { someQueue 1 1 .idle with pending := some 1 } 0
  s.setTask 1 { acceptedTask s 2 [head] [] [] none with index := 1 }

theorem witness_queues : queueLegal #v[0x40000, 0x814, 0, 0x50000, 0x10000] = true ∧ ((fronted Queue.fresh 0).queue 2).opened = false ∧ (fronted Queue.fresh 0).service.phase = .running ∧
    (someQueue 0 0 .idle).rd + 2 ^ ((vget 0 (someQueue 0 0 .idle).desc 1).toNat % 16) = 16 ∧
    (rootWords (fronted (someQueue 1 0 .fetching) 0) 0x10000 0x40000 8 matches .ok _) = true ∧ (rootWords (fronted (someQueue 1 0 .fetching) 0) 0x20000 0x40000 8 matches .error .page) = true ∧
    (rootWords hostPacket 0x10000 0x40000000 8 matches .error .waits) = true ∧ pendingTask (pendingNoop 0) 2 = ((pendingNoop 0).task 1).map (fun t => (1, t)) ∧
    packetError [0, 0, 0, 0, 0, 0, 0, 0] = none ∧ packetError [0x20000, 0, 0, 0, 0, 0, 0, 0] = some (2, 1) ∧
    (readLaunch (fronted (someQueue 1 0 .fetching) 0) 2 [0x10000, 0, 0, 0, 0, 0, 0, 0] matches .ok _) = true ∧
    (readLaunch (fronted (someQueue 1 0 .fetching) 0) 2 [0x10000, 0, 0x40000000, 0, 0, 0, 0, 0] matches .error (some (16, 3))) = true ∧
    ((pendingNoop 0).task 1).any (fun t => t.noop && t.phase = .accepted && t.queue = 2 && !t.flag 24) = true ∧ ((pendingNoop 0x1000000).task 1).any (fun t => t.flag 24 && !t.flag 25) = true := by decide +kernel

/-- R351, R353, R354 and R356 at their bounds. -/
theorem test_queues :
    gives (exec (.queueOpen 2 #v[0x40000, 0x814, 0, 0x50000, 0x10000]) (fronted Queue.fresh 0)) (fun t => (t.queue 2).opened && (t.queue 2).balance = 8) = true ∧
    gives (exec (.kick 2 16) (fronted (someQueue 0 0 .idle) 0)) (fun t => (t.queue 2).wmax = 16 && (t.queue 2).state = .fetching) = true ∧
    gives (exec (.kick 2 17) (fronted (someQueue 0 0 .idle) 0)) (fun t => (t.queue 2).wmax = 0 && (t.queue 2).state = .error) = true ∧
    gives (exec (.resume 2 3) (fronted (someQueue 3 1 .error) 0)) (fun t => (t.queue 2).rd = 3 && (t.queue 2).state = .idle) = true ∧
    gives (exec (.queuePoll 2) (fronted (someQueue 3 1 .waiting) 0 2500)) (fun t => (t.queue 2).state = .fetching) = true ∧
    gives (exec (.queuePoll 2) (fronted (someQueue 3 1 .waiting) 0 2499)) (fun t => (t.queue 2).state = .waiting) = true ∧
    gives (exec (.tokenReplenish 2) (fronted (someQueue 3 1 .idle) 0 250000)) (fun t => (t.queue 2).balance = 4 && (t.queue 2).tokenSince = 250000) = true := by decide +kernel

theorem test_packets :
    gives (exec (.packetFetch 2) (fronted (someQueue 1 0 .fetching) 0)) (fun t => (t.queue 2).rd = 1 && (t.queue 2).pending = some 1 && (t.task 1).any Task.noop) = true ∧
    gives (exec (.packetFetch 2) (fronted (someQueue 1 0 .fetching) 5)) (fun t => (t.queue 2).rd = 0 && (t.queue 2).state = .waiting) = true ∧
    gives (exec (.packetFetch 2) (fronted (someQueue 1 0 .fetching) 0x20000)) (fun t => (t.queue 2).state = .error && t.homeWord 0x50008 = 0x201) = true ∧
    gives (exec (.noopComplete 2) (pendingNoop 0)) (fun t => (t.task 1).any (fun k => k.phase = .done) && (t.queue 2).pending.isNone) = true := by decide +kernel

/-- A launch of queue 2: an image at 0x20000 whose variants lie at 0x21000, cores 0 and 1 of cluster 0, three threads. -/
def launchTask (s : State) (size : Word) (more : List Section := []) (image : Word := 0x20000) : Task :=
  acceptedTask s 2 [0x10000, image] [0, 0x0003000000000001, 0, 0, 0, 0x40000000, 0x60000000, 0x400] [(0, 3, List.replicate 64 0)] (some ((8, 0x1000, size, 0) :: more)) 0x10000
def launching (size : Word := 576) (retired : List Nat := []) (other : Bool := false) (more : List Section := []) : State :=
  let s := (rooted State.reset).setQueue 2 { someQueue 1 1 .idle with pending := some 1 }
  let s := { s with service := { s.service with phase := .running, host := .up, retired := retired } }
  let s := s.setTask 1 (launchTask s size more)
  if other then s.setTask 0 (placeTask s) else s

/-- The second GiB leads on through a table in host memory, and the host link is in recovery. -/
def awayTable (s : State) : State := { s.setBytes 0x12008 (bytesOf 8 (2 ^ 47 + 1)) with service := { s.service with host := .recovery } }

/-- Its image lies there; and it lies at 0x20000, with a unit retired or none. -/
def launchingAway (retired : List Nat := []) : State :=
  let s := awayTable (launching 576 retired)
  s.setTask 1 (launchTask s 576 [] 0x40000000)

/-- The first variant ends past LEN, or has a context table at 0x22000 that names a context in a page that the task does not have. -/
def longVariant (retired : List Nat := []) : State := (launching 576 retired).setBytes 0x21008 (bytesOf 8 0xFFFF ++ bytesOf 8 2)
def tableShort : State := (((launching 576 [] false [(6, 0x2000, 64, 0x50000000)]).setBytes 0x21008 (bytesOf 8 0x2000 ++ bytesOf 8 64)).setBytes 0x22000 (bytesOf 8 1)).setBytes 0x22040 (bytesOf 8 0x10000)

/-- The variants of its image. -/
def variantsOf (s : State) : Except AddrFault (List Variant) := ((s.task 1).map (imageVariants s)).getD (.error .protection)

/-- What the steps of its start give, and the variant chosen. -/
def startOf (s : State) : StartOut := match s.task 1, variantsOf s with
  | some t, .ok vs => match chooseVariant s t vs, t.image with
    | some p, some ss => startSteps s 1 t ss p.1 p.2 0x1000 0x2000 0x70000000
    | _, _ => .refused 9
  | _, _ => .refused 9
def chosenOf (s : State) : Option Nat := match s.task 1, variantsOf s with
  | some t, .ok vs => (chooseVariant s t vs).map Prod.fst
  | _, _ => none

theorem witness_launchTask : ((launching).task 1).any (fun t => !t.noop && barrierOpen launching t && t.waitPage.isNone && !t.pageLost && mayStart launching 1 t &&
      !(declaredUnits launching 1 t).any launching.service.retired.contains && t.cores.length = 1 && (t.word 1).toNat / 2 ^ 48 = 3) = true ∧
    (declaredUnits (launching 576 [288]) 1 (launchTask launching 576)).any (launching 576 [288]).service.retired.contains = true ∧ mayStart (launching 576 [] true) 1 (launchTask launching 576) = false ∧
    pendingTask launching 2 = (launching.task 1).map (fun t => (1, t)) ∧
    (variantsOf (launching 0) matches .ok []) = true ∧ chosenOf (launching 0) = none ∧ (chosenOf (launching 576 [288])).isSome = true ∧
    (variantsOf (launching 0 [288]) matches .ok []) = true ∧ chosenOf (launching 0 [288]) = none ∧
    (variantsOf launchingAway matches .error .waits) = true ∧ (variantsOf (launchingAway [288]) matches .error .waits) = true ∧
    (variantsOf longVariant matches .error .protection) = true ∧ (variantsOf (longVariant [288]) matches .error .protection) = true := by decide +kernel

/-- The start itself: the plain one, whose only section is none that it maps, and each way in which its steps end. -/
theorem witness_startSteps : chosenOf launching = some 0 ∧ framesGood launching (launchTask launching 576) [(8, 0x1000, 576, 0)] 0x1000 0x2000 0x70000000 = true ∧
    findSection 6 [(8, (0x1000 : Word), (576 : Word), (0 : Word))] = none ∧ ((launching).task 1).any (fun t => t.image = some [(8, 0x1000, 576, 0)]) = true ∧ launching.service.draining = [] ∧
    (startOf launching matches .started _) = true ∧ (startOf (launching 576 [] false [(1, 0x40000000, 4096, 0)]) matches .refused 3) = true ∧
    (startOf (awayTable (launching 576 [] false [(1, 0x3FFE0000, 4096, 0)])) matches .later) = true ∧ (startOf tableShort matches .waits 0x50010000) = true := by decide +kernel

/-- R358: thread 2 of three on two cores is the second of core 0; causes 1 and 2. -/
theorem test_launchTask :
    gives (exec (.taskStart 2 0x1000 0x2000 0x70000000) launching) (fun t => let h := t.hart (.thread 0 1)
      (t.task 1).any (fun k => k.phase = .running && k.variant = some 0) && h.status = .ready && h.reg 3 = 2 && h.reg 4 = 3 && h.reg 2 = 0x60000C00 && h.pc = 0x40000000) = true ∧
    gives (exec (.taskStart 2 0x1000 0x2000 0x70000000) (launching 0)) (fun t => (t.task 1).any fun k => k.phase = .done && k.cause = 1) = true ∧
    gives (exec (.taskStart 2 0x1000 0x2000 0x70000000) (launching 0 [288])) (fun t => (t.task 1).any fun k => k.phase = .done && k.cause = 1) = true ∧
    gives (exec (.taskStart 2 0x1000 0x2000 0x70000000) (launching 576 [288])) (fun t => (t.task 1).any fun k => k.phase = .done && k.cause = 2) = true ∧
    gives (exec (.taskStart 2 0x1000 0x2000 0x70000000) longVariant) (fun t => (t.task 1).any fun k => k.phase = .done && k.cause = 3) = true ∧
    gives (exec (.taskStart 2 0x1000 0x2000 0x70000000) (launchingAway [288])) (fun t => (t.task 1).any fun k => k.phase = .accepted) = true ∧
    gives (exec (.taskStart 2 0x1000 0x2000 0x70000000) tableShort) (fun t => (t.task 1).any fun k => k.phase = .accepted && k.waitPage = some 0x50010000) = true := by decide +kernel

/-- A running task of cluster 1 without blocks or cores, checkpointable and restartable or not, with a save area at 0x40000 and an estimate in µs; and one of class 0 that waits for the cluster. -/
def lifeTask (s : State) (flags : Word) (e : Nat) (phase : TaskPhase) : Task :=
  { acceptedTask s 2 [0x10000] [] [] none with
    phase := phase, estimate := e, desc := Vector.ofFn fun k => if k.val = 1 then 2 else if k.val = 0 then 0x10000 else if k.val = 21 then 0x100000000 else if k.val = 22 then flags else if k.val = 23 then 0x40000 else 0 }
def living (flags : Word) (e : Nat) (phase : TaskPhase := .running) (clock : Nat := 0) : State :=
  let s := rooted { State.reset with clock := clock, service := { Service.fresh with phase := .running, host := .up } }
  let s := ((s.setQueue 2 (someQueue 1 1 .idle)).setQueue 3 { someQueue 1 1 .idle with desc := #v[0, 4, 0, 0, 0x10000] }).setBytes 0x40040 (bytesOf 8 0x100000)
  (s.setTask 5 (lifeTask s flags e phase)).setTask 6 { lifeTask s 0 0 .accepted with queue := 3 }

theorem witness_life : ((living 3 9).task 5).any (fun t => t.phase = .running && !t.stopped && taskEnded (living 3 9) 5 t && t.checkpointable && t.restartable && t.waitPage.isNone && !t.finalDrain) = true ∧
    ((living 3 9).task 6).any (fun y => mayPreempt (living 3 9) y && overlaps y (lifeTask (living 3 9) 3 9 .running) && !y.spent && classOf (living 3 9) y = 0) = true ∧
    (lifeTask (living 3 9) 3 9 .running).decidedAt = none ∧
    classOf (living 3 9) (lifeTask (living 3 9) 3 9 .running) = 1 ∧
    taskEnded ((living 3 9).setHart (.thread 64 0) { Hart.fresh with status := .ready, task := some 5 }) 5 (lifeTask (living 3 9) 3 9 .running) = false := by decide +kernel

/-- The action of the scheduler on task 5. -/
def decided (o : Out) : Option Action := match o with
  | .next t => (t.task 5).map Task.action
  | .fault _ | .refused _ => none

/-- The rows of R363 against the limit of 25 µs. -/
theorem test_decisions :
    decided (exec (.scheduleDecision 6 5) (living 3 25)) = some .drain ∧ decided (exec (.scheduleDecision 6 5) (living 3 26)) = some .checkpoint ∧
    decided (exec (.scheduleDecision 6 5) (living 1 26)) = some .kill ∧ decided (exec (.scheduleDecision 6 5) (living 0 26)) = some .drain ∧
    gives (exec (.scheduleDecision 6 5) (living 3 26)) (fun t => (t.queue 3).balance = 2) = true := by decide +kernel

theorem test_life :
    gives (exec (.taskComplete 5) (living 3 9)) (fun t => (t.task 5).any fun k => k.phase = .done && k.cause = 0) = true ∧
    gives (exec (.kill 5) (living 3 9)) (fun t => (t.task 5).any fun k => k.phase = .done && k.cause = 4) = true ∧
    gives (exec (.debugHalt 5) (living 3 9)) (fun t => t.service.debugger && (t.task 5).any Task.debugHalted) = true := by decide +kernel

/-- The hypotheses on a checkpoint: the area is long enough and its pages can be written; and an area that is too short. -/
theorem witness_checkpoint : let s := freezeTask (living 3 9) 5 (lifeTask (living 3 9) 3 9 .running)
    let t := { lifeTask (living 3 9) 3 9 .saving with frozenEst := 9, heldSince := some 0 }
    (s.task 5).any (fun k => k = t) = true ∧ (areaPlace (living 3 9) 5 (lifeTask (living 3 9) 3 9 .running) 0x40000 .write matches .ok _) = true ∧ (areaRead s 5 t (t.word 23 + 64) matches .ok 0x100000) = true ∧ bodyBytes s 5 t ≤ 0x100000 ∧
    areaFault s 5 t (t.word 23) (((t.word 23).toNat % 4096 + 128 + bodyBytes s 5 t + 4095) / 4096) = none ∧ (0 : Word).toNat < bodyBytes s 5 t := by decide +kernel

/-- A saved task with its header in memory, for the clauses on a restore and a regroup: core 64 is retired, and 65 may stand for it. -/
def savedMachine : State :=
  let s := (living 3 9 .saved).setBytes 0x40000 (bytesOf 8 (saveMagic * 2 ^ 32 + 2 ^ 16))
  let t := { lifeTask s 3 9 .saved with cores := [(1, 1, List.replicate 64 0)] }
  { ((s.setTask 5 t).setTask 6 { lifeTask s 0 0 .done with queue := 3 }) with saves := [(5, snapshot s 5 t)] }

/-- With every core of the segment retired no spare is left. -/
def segmentRetired : State := { savedMachine with service := { savedMachine.service with retired := (List.range 64).map (352 + ·) } }

theorem witness_regroup : let s := { savedMachine with service := { savedMachine.service with retired := [288 + 64] } }
    inColumn s 65 = false ∧ standsIn s 65 = false ∧ (s.task 5).any (fun t => t.hasCore 64 && !t.hasCore 65) = true ∧ (64 : Nat) / 64 = 65 / 64 ∧ s.saves.length = 1 ∧
    (288 + (tget Core.fresh 64 (s.saves.flatMap fun p => p.2.cores)).physical.getD 64) ∈ s.service.retired ∧
    (List.range 64).all (fun k => (segmentRetired.task 5).any fun t => !isSpare segmentRetired t 64 (64 + k)) = true ∧
    gives (exec (.regroup 64 65) segmentRetired) (fun t => (t.task 5).any (fun k => k.phase = .accepted && k.relaunched) && t.saves = []) = true ∧
    gives (exec (.regroup 64 65) s) (fun t => (tfind 5 t.saves).any fun p => (tget Core.fresh 64 p.cores).physical = some 65) = true := by decide +kernel

theorem witness_saved : (savedMachine.task 5).any (fun t => t.phase = .saved && mayStart savedMachine 5 t && t.waitPage.isNone && !t.pageLost && (areaRead savedMachine 5 t 0x40000 matches .ok 0x5356413100010000)) = true ∧ headerValid 0x5356413100010000 = true ∧ headerValid 0 = false ∧
    (tfind 5 savedMachine.saves).any (fun p => p.engines.isEmpty && decide (p.harts.map Prod.fst).Nodup) = true ∧
    gives (exec (.restore 5) savedMachine) (fun t => (t.task 5).any (fun k => k.phase = .running) && (tfind 5 t.saves).isNone) = true ∧
    gives (exec (.restore 5) (savedMachine.setBytes 0x40000 [0, 0, 0, 0, 0, 0, 0, 0])) (fun t => (t.task 5).any fun k => k.phase = .done && k.cause = 4) = true := by decide +kernel

/-- A drain that has run out, and a task that a debugger has halted. -/
theorem test_drain :
    decided (exec (.drainTimeout 5) ((living 3 9 .running 62500).setTask 5 { lifeTask (living 3 9 .running 62500) 3 9 .running with action := .drain, decidedAt := some 0, limit := 62500 })) = some .checkpoint ∧
    gives (exec (.debugStep (.thread 64 0)) (((living 3 9).setHart (.thread 64 0) { Hart.fresh with status := .ready, task := some 5 }).setTask 5 { lifeTask (living 3 9) 3 9 .running with debugHalted := true }))
      (fun t => (t.task 5).any fun k => k.stepping = some (.thread 64 0)) = true ∧
    gives (exec (.debugResume 5 true) { (living 3 9) with service := { (living 3 9).service with debugger := true } }) (fun t => !t.service.debugger) = true := by decide +kernel

/-! ## Host and peers -/

/-- A machine with its host link in a state, a Dyke window over page 5 that the host may not enter, and queue 2. -/
def hosted (l : LinkState) : State :=
  let s := (handled).setQueue 2 (someQueue 0 0 .idle)
  { s with service := { s.service with phase := .running, host := l, dyke := vset s.service.dyke 0 (0x5001, 0x5001), heldKicks := if l = .recovery then [(2, false, 3)] else [] } }

theorem witness_host : (hosted .up).service.host = .up ∧ dykeAllowsHost (hosted .up) 0x7000 = true ∧ dykeAllowsHost (hosted .up) 0x5008 = false ∧ (0x7000 : Nat) % sizeBytes .d = 0 ∧
    siteOf (hosted .up) 0x7000 true ≠ .moving ∧ (hosted .recovery).service.heldKicks = [(2, false, 3)] ∧ (hosted .recovery).service.phase = .running := by decide +kernel

/-- Nothing of the host goes through while its link is down (R387). -/
theorem witness_hostDown : (hosted .down).service.host = .down ∧
    gives (exec (.hostAccess (.memory 0x7000) true .d 5) (hosted .down)) (fun t => t.homeByte 0x7000 = 0 && t.reports = []) = true ∧
    gives (exec (.registerWrite 0x08 0x12345) (hosted .down)) (fun t => t.links.lebase = 0) = true ∧
    gives (exec (.hostAccess (.kickPage 2 0) true .d 3) (hosted .down)) (fun t => (t.queue 2).wmax = 0 && t.service.heldKicks = []) = true := by decide +kernel

theorem test_host :
    gives (exec (.hostAccess (.memory 0x7000) true .w 0x1234567890) (hosted .up)) (fun t => t.homeByte 0x7003 = 0x34 && t.homeByte 0x7004 = 0) = true ∧
    gives (exec (.hostAccess (.memory 0x5008) true .w 1) (hosted .up)) (fun t => t.homeByte 0x5008 = 0 && t.reports = [.hostAbort]) = true ∧
    gives (exec (.hostAccess (.memory (2 ^ 47)) true .w 0x1234567890) (hosted .up)) (fun t => t.homeByte (2 ^ 47 + 3) = 0x34 && t.homeByte (2 ^ 47 + 4) = 0) = true ∧
    gives (exec (.hostAccess (.memory (2 ^ 48 - 4)) false .w 0) (hosted .up)) (fun t => t.reports = [.hostData 0]) = true ∧
    gives (exec (.registerWrite 0x08 0x12345) (hosted .up)) (fun t => t.links.lebase = 0x12340) = true ∧
    gives (exec (.hostAccess (.kickPage 2 0) true .d 3) (hosted .recovery)) (fun t => (t.queue 2).wmax = 0 && t.service.heldKicks.length = 2) = true ∧
    gives (exec (.hostLinkRecovery true) (hosted .recovery)) (fun t => (t.queue 2).wmax = 3 && t.service.host = .up) = true ∧
    gives (exec .hostLinkDown (hosted .recovery)) (fun t => t.service.host = .down && t.tasks.all fun p => p.2.phase = .done) = true ∧
    gives (exec (.ownershipChange 6) (hosted .up)) (fun t => t.service.owner = 6 && t.harts = [] && !(t.queue 2).opened && t.backing 0x100000 = 0) = true := by decide +kernel

/-- A write of the front end that waits for the link, with no kick held. -/
def waitingWrite : State := { (hosted .recovery) with frontWrites := [⟨2 ^ 47 + 8, false, [5], none, 0, false, some 4, none, none⟩], service := { (hosted .recovery).service with heldKicks := [] } }

theorem witness_waitingWrite : waitingWrite.service.host = .recovery ∧ waitingWrite.service.heldKicks = [] ∧ (2 ^ 47 + 8) % 64 + 8 * [(5 : Word)].length ≤ 64 ∧
    (hosted .recovery).frontWrites = [] ∧ ({ Service.fresh with phase := .off } : Service).phase ≠ .running ∧
    (waitingWrite.frontWrites.all fun w => w.root.isNone && w.after.isNone) = true ∧
    gives (exec (.hostLinkRecovery true) waitingWrite) (fun t => t.homeWord (2 ^ 47 + 8) = 5 && t.frontWrites = [] && t.service.host = .up && t.reports.contains (.msix 4)) = true ∧
    ({ (hosted .recovery) with mere := [hostLine] } : State).mere.all (fun l => 2 ^ 41 ≤ l.no) = true ∧
    gives (exec (.hostLinkRecovery true) { (hosted .recovery) with mere := [hostLine], service := { (hosted .recovery).service with heldKicks := [] } })
      (fun t => t.mere = [] && t.backing (2 ^ 47 + 3) = 0xAB && t.service.host = .up) = true ∧
    gives (exec (.hostAccess (.register 0x20) true .d 9) (hosted .up)) (fun t => t.links.leridx = 9) = true ∧
    gives (exec (.hostAccess (.kickPage 2 0x10) false .d 0) (hosted .up)) (fun t => t.reports = [.hostData 0]) = true := by decide +kernel

def entry (home : Nat) (copies : List Nat) (moving : Bool := false) (tomb : Option Nat := none) (held : List Remote := []) : HomeEntry :=
  ⟨home, true, copies, false, moving, tomb, held, none⟩

/-- This device is 0; device 9 lies behind port 0, which is up; page 7 is shared. -/
def sharing (e : HomeEntry) (p : PortState := .up) (down : Tbl Nat Nat := []) : State :=
  let s := hosted .up
  { s.setQueue 2 { someQueue 0 0 .idle with desc := #v[0x40000, 0x8000814, 0, 0x50000, 0x10000] } with
    scaleUp := [(0, p), (1, .up)], routes := [(9, [0]), (8, [1])], homes := [(7, e)], peersDown := down }

/-- Device 9 is down, and its only route names a 49th port, which no module has (R1). -/
def farOff : State := { (sharing (entry 0 []) .down [(9, 0)]) with routes := [(9, [48])] }

def remote (n : Nat) : Remote := ⟨n, .write, 0x7000, .d, 1⟩

theorem witness_peers : (sharing (entry 0 [])).ownDevice = 0 ∧ reach (sharing (entry 0 [])) 9 = .up ∧ tfind (0x7000 / 4096) (sharing (entry 0 [])).homes = some (entry 0 []) ∧
    weirCovers (sharing (entry 0 [])) 7 = false ∧ (entry 0 [] true).moving = true ∧ (entry 9 []).home ≠ 0 ∧ (entry 9 [] false (some 9) [remote 1, remote 2]).tombstone = some 9 ∧
    (∀ x ∈ [remote 1, remote 2].take 1, x.source ≠ (remote 2).source) ∧ (sharing (entry 0 [])).scalePort 0 = .up ∧ (sharing (entry 0 []) (.retraining 3)).scalePort 0 = .retraining 3 ∧
    tfind 9 (sharing (entry 0 []) .down [(9, 0)]).peersDown ≠ none ∧ tfind 9 (sharing (entry 0 [])).peersDown = none ∧ dykeAllowsTask (sharing (entry 0 [])) 0x7000 .write = true ∧
    dykeAllowsTask (sharing (entry 0 [])) 0x5000 .write = false ∧ (sharing (entry 0 [])).frontWrites = [] ∧ tget [] 9 (sharing (entry 0 [])).routes = 0 :: [] ∧
    ((tget [] 9 (sharing (entry 0 [])).routes).filter fun p => p < 48) ≠ [] ∧ ((tget [] 9 farOff.routes).filter fun p => p < 48) = [] ∧ tfind 9 farOff.peersDown ≠ none ∧ ((sharing (entry 0 [])).queue 2).remote = true := by decide +kernel

/-- Page 7 is at home at device 8, to which a write is on its way. -/
def learning (next : Option Nat) : State := { (sharing { entry 8 [] with next := next }) with posted := [⟨8, none, none, 0, 8, 7, false, false, false, []⟩] }

/-- Device 9 asks for page 5, which a window keeps from it; and for page 7, of which 1,023 devices have a copy. -/
def copied (n : Nat) : HomeEntry := entry 0 ((List.range n).map fun k => k + 10)

theorem witness_copies1023 : (copied 1022).copies.length < 1023 ∧ 1023 ≤ (copied 1023).copies.length ∧ (9 : Nat) ∉ (copied 1023).copies ∧ dykeAllowsTask (sharing (entry 0 [])) (4096 * 5) .read = false ∧
    dykeAllowsTask (sharing (entry 0 [])) (4096 * 7) .read = true ∧ (sharing (entry 0 [])).frontWrites = [] ∧ (sharing (entry 0 [])).ownDevice < 200000 ∧
    gives (exec (.remoteReadMiss 9 7) (sharing (copied 1023))) (fun t => t.homes.map (fun p => p.2.copies.length) = [1023]) = true ∧
    gives (exec (.remoteReadMiss 9 5) { (sharing (entry 0 [])) with homes := [(5, entry 0 [])] }) (fun t => t.reports = [.peerRefused 9 0x5000] && t.homes.map (fun p => p.2.copies) = [[]]) = true ∧
    gives (exec (.pageHandover 7 200000) (sharing (entry 0 []))) (fun t => t.homes.map (fun p => p.2.moving) = [false]) = true := by decide +kernel

/-- Page 7 comes back to this device, whose tombstone still holds a write of device 9. -/
theorem witness_return : (entry 8 [] false (some 8) [⟨9, .write, 0x7008, .d, 0x66⟩]).home ≠ 0 ∧ dykeAllowsTask (sharing (entry 0 [])) 0x7008 .write = true ∧ reach (sharing (entry 0 [])) 9 = .up ∧ reach (sharing (entry 0 [])) 8 = .up ∧
    gives (exec (.pageHandover 7 0) (sharing (entry 8 [] false (some 8) [⟨9, .write, 0x7008, .d, 0x66⟩]))) (fun t => t.homeByte 0x7008 = 0x66 && t.homes.map (fun p => (p.2.home, p.2.tombstone, p.2.held)) = [(0, none, [])]) = true := by decide +kernel

theorem witness_learning : (∃ p ∈ (learning none).posted, p.frame = 7 ∧ p.lost = false) ∧ (8 : Nat) ≠ (learning none).ownDevice ∧ (9 : Nat) ≠ (learning none).ownDevice ∧
    tfind 7 (learning (some 9)).homes = some { entry 8 [] with next := some 9 } ∧
    gives (exec (.pageHandover 7 9) (learning none)) (fun t => t.homes.map (fun p => (p.2.home, p.2.next)) = [(8, some 9)]) = true ∧
    gives (exec (.pageHandover 7 9) (learning (some 9))) (fun t => t.homes.map (fun p => (p.2.home, p.2.next)) = [(9, none)] && t.posted = []) = true ∧
    gives (exec (.remoteRequest 9 .write 0x5008 .w 0x55) (sharing (entry 0 []))) (fun t => t.homeByte 0x5008 = 0) = true ∧
    gives (exec (.tombstoneRemove 7) (sharing (entry 9 [] false (some 9)))) (fun t => t.homes.map (fun p => p.2.tombstone) = [none]) = true ∧
    gives (exec (.portRetrain 0) (sharing (entry 0 []) (.retraining 3))) (fun t => t.scalePort 0 = .up) = true ∧
    gives (exec (.renqReceive 9 2 (Vector.replicate 8 0)) (sharing (entry 0 []))) (fun t => (t.queue 2).wmax = 1 && (t.queue 2).state = .fetching) = true := by decide +kernel

theorem test_peers :
    gives (exec (.remoteRequest 9 .write 0x7008 .w 0x55) (sharing (entry 0 [9, 4]))) (fun t => t.homeByte 0x7008 = 0x55 && t.reports = [.peerAnswer 9 0] && t.homes.map (fun p => p.2.copies) = [[9]]) = true ∧
    gives (exec (.remoteRequest 9 .write 0x7008 .w 0x55) (sharing (entry 0 [] true))) (fun t => t.homeByte 0x7008 = 0 && t.homes.map (fun p => p.2.held.length) = [1]) = true ∧
    gives (exec (.remoteReadMiss 9 7) (sharing (entry 0 [4]))) (fun t => t.homes.map (fun p => p.2.copies) = [[4, 9]]) = true ∧
    gives (exec (.pageHandover 7 9) (sharing (entry 0 [4]))) (fun t => t.homes.map (fun p => (p.2.moving, p.2.copies)) = [(true, [])]) = true ∧
    gives (exec (.pageHandover 7 9) (sharing { entry 0 [] true with next := some 9 })) (fun t => t.homes.map (fun p => (p.2.home, p.2.tombstone, p.2.next)) = [(9, some 9, none)]) = true ∧
    gives (exec (.pageHandover 7 11) (sharing { entry 0 [] true with next := some 9 })) (fun t => t.homes.map (fun p => (p.2.home, p.2.next)) = [(0, some 9)]) = true ∧
    gives (exec (.pageHandover 7 0) { (sharing (entry 8 [])) with scaleUp := [(1, .retraining 3)] }) (fun t => t.homes.map (fun p => p.2.home) = [8]) = true ∧
    gives (exec (.tombstoneForward 7 1) (sharing (entry 9 [] false (some 9) [remote 1, remote 2]))) (fun t => t.homes.map (fun p => p.2.held) = [[remote 1]]) = true ∧
    gives (exec (.portDown 0) (sharing (entry 0 []) (.retraining 3))) (fun t => t.peersDown = [(9, 0)] && t.scalePort 0 = .down) = true ∧
    gives (exec (.peerComeBack 9) (sharing (entry 0 []) .down [(9, 0)])) (fun t => t.peersDown = [] && t.scalePort 0 = .up) = true ∧
    gives (exec (.peerComeBack 9) farOff) (fun t => t.peersDown = [(9, 0)] && t.scalePort 48 ≠ .up) = true ∧
    gives (exec (.portRetrain 0) { (sharing (entry 0 []) (.retraining 3)) with posted := [⟨9, none, none, 0, 8, 7, false, true, false, []⟩] })
      (fun t => t.posted.map Posted.waiting = [false]) = true ∧
    gives (exec (.pageHandover 7 0) (sharing (entry 8 [] false (some 8) [⟨9, .write, 0x7008, .d, 0x66⟩]) (.retraining 3))) (fun t => t.homeByte 0x7008 = 0x66) = true := by decide +kernel

/-! ## Boot and service -/

def booted (p : Phase) : State := { hosted .down with service := { Service.fresh with phase := p, boot := 4 } }
def input (bad : List Nat) (training : Option Nat := none) : BootInput := ⟨none, bad, [0], 0, [], training⟩
/-- A configuration table of two cores per column, at cores 0 and 2, with every role on both. -/
def table : Vector Word 8 := #v[0x20002, 0x3FF, 0, 0, 0, 0, 0, 0]

/-- A boot in a step, with records of it or of the boot before as (step, state, boot); the recovery image of the table is known by 77. -/
def recording (p : Phase) (rs : List (Nat × Nat × Nat)) : State :=
  let s := booted p
  { s with service := { s.service with table := some table, flash := ⟨⟨none, none, [(0, 77)]⟩, rs.map fun r => ⟨r.1, r.2.1, r.2.2, 0, recordCrc r.1 r.2.1 r.2.2 0⟩⟩ } }
/-- The step, STATE and DETAIL of the last record, if it is not torn. -/
def lastRecord (s : State) : Option (Nat × Nat × Nat) := match s.service.flash.journal.getLast? with
  | some r => if r.torn then none else some (r.step, r.state, r.detail)
  | none => none

/-- Each mode in which a step begins, and the ends of a step. -/
theorem witness_journal : lastState (recording (.booting 1) [(1, 2, 4)]).service 4 1 = some 2 ∧ lastState (recording (.booting 1) [(2, 1, 3), (1, 2, 4)]).service 3 2 = some 1 ∧
    lastState (recording (.booting 2) [(2, 4, 3)]).service 3 2 = some 4 ∧ lastState (recording (.booting 2) [(2, 1, 4)]).service 4 2 = some 1 ∧
    tfind (vget 0 table 2).toNat (recording (.booting 4) []).service.flash.tables.images = some 77 ∧ (input []).devid.toNat % 2 ^ 18 < 200000 := by decide +kernel

/-- R404 and R405: a step begins as normal, on its alternative, skipped or in recovery; it trains, ends once, and leaves the power loss a record to tear. -/
theorem test_journal :
    gives (exec (.powerOn (input [])) (recording (.booting 1) [(1, 2, 4)])) (fun t => t.service.phase = .booting 2 && lastRecord t = some (2, 1, 0)) = true ∧
    gives (exec (.powerOn (input [])) (recording (.booting 1) [(2, 1, 3), (1, 2, 4)])) (fun t => t.service.phase = .booting 2 && lastRecord t = some (2, 4, 0)) = true ∧
    gives (exec (.powerOn (input [])) (recording (.booting 2) [(3, 1, 3), (2, 2, 4)])) (fun t => t.service.phase = .booting 3 && lastRecord t = some (3, 3, 0)) = true ∧
    gives (exec (.powerOn (input [])) (recording (.booting 4) [(5, 1, 3), (4, 2, 4)])) (fun t => t.service.phase = .recovery) = true ∧
    gives (exec (.powerOn (input [] (some 5))) (recording (.booting 3) [(3, 1, 4)])) (fun t => t.service.phase = .booting 3 && lastRecord t = some (3, 1, 5)) = true ∧
    gives (exec (.powerOn (input [])) (recording (.booting 4) [(4, 1, 4)])) (fun t => lastRecord t = some (4, 2, 0) && t.service.firmwareImage = some 77) = true ∧
    gives (exec (.powerOn (input [])) (recording (.booting 6) [(6, 1, 4)])) (fun t => t.service.phase = .booting 6 && lastRecord t = some (6, 2, 0) && t.service.host = .up) = true ∧
    gives (exec (.powerOn (input [])) (recording (.booting 6) [(6, 2, 4)])) (fun t => t.service.phase = .running) = true ∧
    gives (exec (.powerLoss true) (recording (.booting 3) [(2, 2, 4), (3, 1, 4)])) (fun t => t.service.flash.journal.map Journal.torn = [false, true]) = true := by decide +kernel

/-- The worked values of FIPS 180-4 and of CRC-32 (log entry 54). -/
theorem test_hashes : sha256 [0x61, 0x62, 0x63] = 0xba7816bf8f01cfea414140de5dae2223b00361a396177a9cb410ff61f20015ad#256 ∧
    crc32 [0x31, 0x32, 0x33, 0x34, 0x35, 0x36, 0x37, 0x38, 0x39] = 0xCBF43926#32 := by decide +kernel

/-- The boot's hypotheses; a table in flash that passes passes with its signature, which is a free value. -/
theorem witness_boot : (booted .off).service.phase = .off ∧ chosenTable (booted .off).service.flash.tables = none ∧ tableLegal table = true ∧
    (booted (.booting 2)).service.phase = .booting 2 ∧ lastState (booted (.booting 2)).service 4 2 ≠ some 4 ∧ (vget (0, 0) (hosted .up).service.dyke 0).2.getLsbD 0 = true ∧
    (vget (0, 0) (hosted .up).service.dyke 1).2.getLsbD 0 = false ∧ (booted .running).service.rolled = [] ∧ urgentIdle (booted .running) = true ∧
    (32 + 3) ∉ (booted .running).service.retired ∧ (∃ p ∈ (booted .running).tasks, p.2.phase = .running ∧ (32 + 3) ∈ declaredUnits (booted .running) p.1 p.2) := by decide +kernel

theorem witness_bootTable (h : Config.signatureGood 5 table.toList = true) : chosenTable ⟨some (table, 5), none, []⟩ = some table := by
  unfold chosenTable
  simp only [h, (by decide +kernel : tableLegal table = true), Bool.and_self, if_true]

/-- Task agents may not read page 5, which holds Krany's data; column 8 stands by. -/
def columned : State :=
  let s := booted .running
  { s with service := { s.service with standby := 8, dyke := vset s.service.dyke 0 (0x5001, 0x5001) } }

/-- Krany's line and another; a channel in which nothing lies, and one that holds the task's page. -/
theorem witness_service : kranyLine columned 0x140 = true ∧ kranyLine columned 9 = false ∧ channelUsed (booted .running) 2597 = false ∧
    (List.range 12288).any (fun c => channelUsed (booted .running) (2592 + c)) = true := by decide +kernel

/-- The task on block 3 is saved. -/
def savedBlock : State := { (booted .running) with tasks := (booted .running).tasks.map fun p => (p.1, { p.2 with phase := .saved }) }

theorem test_boot :
    gives (exec (.powerOn (input [])) (booted .off)) (fun t => t.service.boot = 5 && t.service.phase = .recovery) = true ∧
    gives (exec (.powerOn (input [1])) (booted (.booting 2))) (fun t => t.service.phase = .booting 2) = true ∧
    gives (exec (.powerLoss false) (booted .running)) (fun t => t.harts = [] && t.tasks = [] && t.service.phase = .off && t.service.boot = 4) = true ∧
    gives (exec (.dykeWrite 0 7) (hosted .up)) (fun t => (vget (0, 0) t.service.dyke 0).1 = 0x5001) = true ∧
    gives (exec (.dykeWrite 2 0x7FFF) (hosted .up)) (fun t => (vget (0, 0) t.service.dyke 1).1 = 0x7001) = true ∧
    gives (exec (.unitRetire (.block 3) false) (booted .running)) (fun t => !t.service.retired.contains 35 && t.service.draining.contains 35) = true ∧
    gives (exec (.scrubUncorrectable 9) (booted .running)) (fun t => t.service.poison.contains 9 && t.reports.contains (.uncorrectable 9) && t.service.column = 0) = true ∧
    gives (exec (.scrubUncorrectable 0x140) columned) (fun t => t.service.column = 8 && t.service.standby = 0) = true ∧
    gives (exec (.unitRetire (.pseudoChannel 5) false) (booted .running)) (fun t => t.service.retired = [2597]) = true ∧
    gives (exec (.unitRetire (.pseudoChannel 5) true) { (booted .running) with service := { (booted .running).service with retired := [2597] } }) (fun t => t.service.retired = [2597]) = true ∧
    gives (exec (.attestChallenge 6) (booted .running)) (fun t => t.reports.length = 1 && vget 1 t.service.meas 4 = 0) = true ∧
    gives (exec (.powerOn { input [] with devid := 200000 }) (booted (.booting 4))) (fun t => t.service.phase = .booting 4) = true ∧
    gives (exec (.dykeWrite 2 0x7FFF) (booted .off)) (fun t => (vget (0, 0) t.service.dyke 1).1 = 0) = true ∧
    gives (exec (.unitRetire (.block 3) false) savedBlock) (fun t => t.service.retired.contains 35 && (t.task 0).any (fun k => k.phase = .accepted && k.relaunched)) = true ∧
    gives (exec .thermalTrip (booted .running)) (fun t => t.service.phase = .recovery && t.service.host = .down && t.tasks.all fun p => p.2.phase = .done && p.2.cause = 4) = true ∧
    gives (exec .thermalTrip (booted .off)) (fun t => t.service.phase = .off) = true := by decide +kernel

/-! ## Encoding, steps and memory -/

/-- The bytes of instructions of every format decode to them, and leave what follows. -/
theorem test_roundTrip : ∀ i ∈ ([.sub .w 31 1 2, .lds .h .relaxed .system 31 1 0x7FF, .stx .d .release .group true 3 4 5, .amoMaxn .w .acqRel .core 9 8 7, .evst .hi 15 31 30, .mxmm true 7 3 31,
      .vfma .f (.slotB 15) (.reg 9) (.v 15) (.c 7), .pfx true (.slotC 7) (.link .north) .rhd true 7, .esc 3 .done .none .tok, .fcvtInt .rdn .n64 (.float .fp4) 31 30, .hLdW 5 31 31, .hBnz 15 0x7F] : List Instr),
    (encodeWord i).isSome = true ∧ (match decode (encode i ++ [0xAA, 0x55]) with
      | .ok (j, rest) => j = i && rest = [0xAA, 0x55]
      | .error _ => false) = true := by decide +kernel

/-- Hypotheses of EncodingRoundTrip: an `amo` of s0 is the `ared`. -/
theorem witness_encoding : (encodeWord (.amoAdd .w .relaxed .device 0 6 7)).isSome = true ∧ asDecoded (.amoAdd .w .relaxed .device 0 6 7) = .aredAdd .w .relaxed .device 6 7 ∧
    (match decode (encode (.amoAdd .w .relaxed .device 0 6 7)) with
      | .ok (j, []) => j = .aredAdd .w .relaxed .device 6 7
      | _ => false) = true := by decide +kernel

/-- The first word of R44's example runs in the next step (R73). -/
theorem test_step : gives (step (State.reset.withFetchWord 32 0x0100048D)) (fun t => (t.hart (.thread 0 0)).reg 9 = 128 && (t.hart (.thread 0 0)).pc = 0x40000004) = true := by decide +kernel

/-- Hypotheses of StepRunsTheInstruction: an agenda and none, a core that has issued in the cycle and one that has not, a tile that has fired, a slot picked and none, a sequencer that is ready and one that is not, a tile's choice, an event, and bytes that decode and bytes that do not. -/
theorem witness_step :
    let s := State.reset.withFetchWord 32 0x0100048D
    s.agenda = [] ∧ ({ s with agenda := [⟨2, .core 3⟩] } : State).agenda = ⟨2, .core 3⟩ :: [] ∧ (nextTurn s).1 = .core 0 ∧ pickSlot (nextTurn s).2 0 = some 0 ∧ pickSlot State.reset 0 = none ∧
    ((nextTurn s).2.core 0).issuedAt ≠ some (nextTurn s).2.clock ∧
    gives (step { s with agenda := [⟨0, .core 0⟩, ⟨0, .core 0⟩] }) (fun u => (u.core 0).issuedAt = some (nextTurn u).2.clock) = true ∧
    (match fetchBytes { noteIssue (nextTurn s).2 0 0 with cur := .thread 0 0 } 0x40000000 with
      | .ok bs => (match decode bs with
        | .ok (i, _) => i = .ldi 9 128
        | .error _ => false)
      | .error _ => false) = true ∧
    (dueTrap ({ noteIssue (nextTurn s).2 0 0 with cur := .thread 0 0 } : State).me).1.isNone = true ∧
    sequencerReady (sequencer (.region 0)) (.region 0) = true ∧ sequencerReady (noteSequencer (sequencer (.region 0)) (.region 0)) (.region 0) = false ∧
    ((noteSequencer (sequencer (.region 0)) (.region 0)).hart (.region 0)).lastIssue = some (sequencer (.region 0)).clock ∧ sequencerReady State.reset (.region 0) = false ∧ (AgentId.region 0).exists = true ∧
    (arbitrate (tile (.vadd .i .none (.reg 3) (.link .west) .tok)) 0 0).1 = some 15 ∧
    hasFired (tile (.vadd .i .none (.reg 3) (.link .west) .tok) fun t => { t with lastFired := some 0 }) 0 0 = true ∧ isTile 0 = true ∧ isEvent .hostLinkDown = true ∧
    (match decode [0, 0, 0, 0] with
      | .ok _ => false
      | .error _ => true) = true := by decide +kernel

/-- Hypotheses of MemoryStaysCanonical: reset's memory and one with a byte, whose next step is a next state. -/
theorem witness_memory : memWf State.reset.mem = true ∧ memWf (State.reset.withFetchWord 32 0x0100048D).mem = true ∧
    gives (step (State.reset.withFetchWord 32 0x0100048D)) (fun t => memWf t.mem) = true := by decide +kernel

/-- A unit that the module does not have, and one that it has (R1). -/
theorem test_units : exec (.kick 4096 0) State.reset = .fault .noSuchUnit ∧ gives (exec (.kick 4095 0) State.reset) (fun t => t.clock = 0) = true := by
  constructor
  · rfl
  · decide

end Sys2Proof.Tests
end

section
/-! SUPPORT. Every instruction goes on to a next state, and an event stops only where it names a unit that the module does not have (R1):
one rule for each way an instruction ends and for each shared operation, then the instructions and the events. -/

namespace Sys2Proof.Machine

open Sys2Proof.Safety

/-- The outcome is a next state: neither a fault nor a refusal. -/
def GoesOn (o : Out) : Prop := ∃ t, o = .next t

/-! ## How an instruction ends -/

section Rules
variable {i : Instr} {s : State}

@[simp] theorem goesOn_next : GoesOn (.next s) := ⟨s, rfl⟩
@[simp] theorem goesOn_trapHere {c : TrapClass} {v : Word} : GoesOn (trapHere i c v s) := trapHere_next i c v s
@[simp] theorem goesOn_trapNext {c : TrapClass} {v : Word} : GoesOn (trapNext i c v s) := ⟨_, rfl⟩
@[simp] theorem goesOn_illegal : GoesOn (illegal i s) := goesOn_trapHere
@[simp] theorem goesOn_sleepOn {w : Wait} : GoesOn (sleepOn w s) := ⟨_, sleepOn_eq w s⟩
@[simp] theorem goesOn_retire {ws : List (Reg × Word)} : GoesOn (retire i ws s) := ⟨_, rfl⟩
@[simp] theorem goesOn_retireTo {ws : List (Reg × Word)} {t : Word} : GoesOn (retireTo i ws t s) := ⟨_, rfl⟩
@[simp] theorem goesOn_retireOx {x : Fin 8} {v : Word} : GoesOn (retireOx i x v s) := goesOn_retire
@[simp] theorem goesOn_addressFault {va : Word} {f : AddrFault} : GoesOn (addressFault i va f s) := by
  fun_cases addressFault <;> simp
@[simp] theorem goesOn_returnFromTrap : GoesOn (returnFromTrap i s) := by
  fun_cases returnFromTrap <;> simp
/-- A branch of an instruction. -/
theorem goesOn_ite {c : Prop} [Decidable c] {o p : Out} (ho : GoesOn o) (hp : GoesOn p) : GoesOn (if c then o else p) := by
  split
  · exact ho
  · exact hp

/-! ## Checks before an instruction's own meaning -/

theorem goesOn_issue {k : Hart → Out} (hk : ∀ h, GoesOn (k h)) : GoesOn (issue i s k) := by
  fun_cases issue <;> simp [hk]
theorem goesOn_notInCodelet {o : Out} (ho : GoesOn o) : GoesOn (notInCodelet i s o) := goesOn_ite goesOn_illegal ho
theorem goesOn_afterHeld {k : State → Out} (hk : ∀ s, GoesOn (k s)) : GoesOn (afterHeld s k) := goesOn_ite (hk _) goesOn_sleepOn
theorem goesOn_withWeir {ref : Word} {k : Nat → Out} (hk : ∀ n, GoesOn (k n)) : GoesOn (withWeir i ref s k) := by
  fun_cases withWeir <;> simp [hk]
theorem goesOn_withRecord {ref : Word} {k : Nat → Nat → Out} (hk : ∀ c a, GoesOn (k c a)) : GoesOn (withRecord i ref s k) :=
  goesOn_ite goesOn_trapHere (goesOn_ite goesOn_trapHere (goesOn_ite goesOn_trapHere (hk _ _)))
theorem goesOn_matrixOp {k : Nat → Nat → Hart → Out} (hk : ∀ b t h, GoesOn (k b t h)) : GoesOn (matrixOp i s k) :=
  goesOn_issue fun _ => by split <;> simp [hk]
theorem goesOn_cfgOp {k : Nat → Hart → Out} (hk : ∀ cl h, GoesOn (k cl h)) : GoesOn (cfgOp i s k) :=
  goesOn_issue fun _ => by split <;> simp [hk]
theorem goesOn_trackOp {a : Reg} {k : Hart → Nat → Nat → Nat → Nat → Out} (hk : ∀ h n id c sl, GoesOn (k h n id c sl)) :
    GoesOn (trackOp i a s k) :=
  goesOn_issue fun _ => by split <;> simp [hk]
theorem goesOn_copyOp {landing : Bool} {k : Nat → CopyDesc → Hart → Out} (hk : ∀ t d h, GoesOn (k t d h)) :
    GoesOn (copyOp i landing s k) :=
  goesOn_issue fun _ => by
    dsimp only
    split
    · exact goesOn_illegal
    · exact goesOn_ite goesOn_illegal (goesOn_ite goesOn_sleepOn (hk _ _ _))

/-! ## Accesses to memory -/

section Accesses
variable {sc : Scope} {va : Word} {n : Nat}

theorem goesOn_readAt {plainD : Bool} {k : Nat → State → Out} (hk : ∀ m s, GoesOn (k m s)) : GoesOn (readAt i s sc va n plainD k) := by
  simp only [readAt]
  repeat' split
  all_goals simp [hk]
theorem goesOn_writeAt {place : Place} {v : Nat} {k : State → Out} (hk : ∀ s, GoesOn (k s)) : GoesOn (writeAt i s place sc va n v k) := by
  simp only [writeAt]
  repeat' split
  all_goals simp [hk]
theorem goesOn_updateAt {place : Place} {f : Nat → Option Nat} {k : Nat → State → Out} (hk : ∀ m s, GoesOn (k m s)) :
    GoesOn (updateAt i s place sc va n f k) := by
  simp only [updateAt]
  repeat' split
  all_goals simp [hk]
theorem goesOn_withPacket {ready : Bool} {wait : Wait} {k : List Word → State → Out} (hk : ∀ ws s, GoesOn (k ws s)) :
    GoesOn (withPacket i sc va ready wait s k) := by
  simp only [withPacket]
  repeat' split
  all_goals simp [hk]
theorem goesOn_readWords {acc : List Word} {k : List Word → State → Out} (hk : ∀ ws s, GoesOn (k ws s)) :
    GoesOn (readWords i s va n acc k) := by
  induction n generalizing s va acc with
  | zero => exact hk acc s
  | succ n ih => exact goesOn_readAt fun _ _ => ih

end Accesses

/-! ## Operations that several instructions share -/

theorem goesOn_compute {d : Reg} {f : Hart → Word} : GoesOn (compute i s d f) := goesOn_issue fun _ => goesOn_retire
theorem goesOn_computeFlags {d : Reg} {f : Hart → Nat × Flags} : GoesOn (computeFlags i s d f) := goesOn_issue fun _ => goesOn_retire
theorem goesOn_aluOp {f : (n : Nat) → BitVec n → BitVec n → BitVec n} {width : Width} {d a b : Reg} :
    GoesOn (aluOp i f width d a b s) := goesOn_compute
theorem goesOn_immOp {f : Word → Word → Word} {d a : Reg} {imm : Word} : GoesOn (immOp i f d a imm s) := goesOn_compute
theorem goesOn_shortOp {f : (n : Nat) → BitVec n → BitVec n → BitVec n} {d a : HReg} : GoesOn (shortOp i f d a s) := goesOn_compute
theorem goesOn_floatOp {op : FloatFmt → Rounding → Bool → Nat → Nat → Nat × Flags} {r : Rnd} {f : ScalarFmt} {d a b : Reg} :
    GoesOn (floatOp i op r f d a b s) := goesOn_computeFlags
theorem goesOn_branchOp {n : Nat} {off : BitVec n} {c : Hart → Bool} : GoesOn (branchOp i off c s) :=
  goesOn_issue fun _ => goesOn_ite goesOn_retireTo goesOn_retire
theorem goesOn_jumpOp {n : Nat} {off : BitVec n} {link : List Reg} : GoesOn (jumpOp i off link s) := goesOn_issue fun _ => goesOn_retireTo
theorem goesOn_jumpRegister {d : Reg} {t : Hart → Word} : GoesOn (jumpRegister i d t s) :=
  goesOn_issue fun _ => goesOn_ite goesOn_trapHere goesOn_retireTo
theorem goesOn_loadOp {z : Size} {o : Order} {sc : Scope} {signed plainD : Bool} {d : Reg} {ea : Hart → Word} :
    GoesOn (loadOp i s z o sc signed plainD d ea) :=
  goesOn_issue fun _ => goesOn_readAt fun _ _ => goesOn_retire
theorem goesOn_storeOp {z : Size} {o : Order} {sc : Scope} {plainD : Bool} {ea value : Hart → Word} :
    GoesOn (storeOp i s z o sc plainD ea value) :=
  goesOn_issue fun _ => by
    split
    · exact goesOn_addressFault
    · exact goesOn_writeAt fun _ => goesOn_retire
theorem goesOn_atomicOp {n : Nat} {o : Order} {sc : Scope} {d : Option Reg} {ea : Hart → Word} {f : Hart → Nat → Option Nat} :
    GoesOn (atomicOp i s n o sc d ea f) :=
  goesOn_issue fun _ => by
    split
    · exact goesOn_addressFault
    · exact goesOn_updateAt fun _ _ => goesOn_retire
theorem goesOn_amoOp {z : Width} {o : Order} {sc : Scope} {d : Option Reg} {a b : Reg} {f : Width → Nat → Nat → Nat} :
    GoesOn (amoOp i z o sc d a b f s) := goesOn_atomicOp
theorem goesOn_settleFence {sc : Scope} {d : Reg} {effect : State → State} : GoesOn (settleFence i sc d effect s) := by
  fun_cases settleFence <;> simp
theorem goesOn_waitValue {acq : Bool} {z : Width} {sc : Scope} {d a b : Reg} {holds : (n : Nat) → BitVec n → BitVec n → Bool} :
    GoesOn (waitValue i acq z sc d a b holds s) :=
  goesOn_issue fun _ => goesOn_notInCodelet <| goesOn_readAt fun _ _ => goesOn_ite goesOn_retire goesOn_sleepOn
theorem goesOn_queueCmd {blk task : Nat} {op : MatrixOp} : GoesOn (queueCmd i blk task op s) := goesOn_ite goesOn_retire goesOn_sleepOn
theorem goesOn_rangeOp {kind : Hart → CopyKind} : GoesOn (rangeOp i kind s) :=
  goesOn_issue fun _ => by
    split
    · exact goesOn_illegal
    · exact goesOn_ite goesOn_sleepOn goesOn_retire
theorem goesOn_fireCell {cl pos idx : Nat} : GoesOn (fireCell i cl pos idx s) := by
  fun_cases fireCell <;> simp
theorem goesOn_runRow {p : Prefix} {len : Nat} : GoesOn (runRow i p len s) := by
  fun_cases runRow <;> simp
/-- A cell instruction fires on a tile and runs on a row of an epilogue engine. -/
theorem goesOn_cellOp : GoesOn (cellOp i s) := by
  unfold cellOp asFiring
  split
  · exact goesOn_fireCell
  all_goals exact goesOn_runRow
theorem goesOn_rebind {b : Option (Option Nat × Option Nat)} {o : Out} (ho : GoesOn o) : GoesOn (rebind b o) := by
  obtain ⟨t, rfl⟩ := ho
  exact goesOn_next
theorem goesOn_yieldOp : GoesOn (yieldOp i s) := goesOn_issue fun _ => by split <;> exact goesOn_retire
/-- With a debugger the task halts after the instruction, and without one the thread traps past it. -/
theorem goesOn_breakOp : GoesOn (breakOp i s) :=
  goesOn_issue fun _ => by
    split
    · exact goesOn_next
    · exact goesOn_trapNext
theorem goesOn_haltOp : GoesOn (haltOp i s) :=
  goesOn_issue fun _ => goesOn_ite goesOn_next <| goesOn_ite goesOn_illegal <| goesOn_ite goesOn_sleepOn <| goesOn_afterHeld fun _ => goesOn_next
theorem goesOn_enterCodelet {o : Order} {sc : Scope} {core : Nat} : GoesOn (enterCodelet o sc core s) := by
  fun_cases enterCodelet <;> simp
theorem goesOn_renqUnreachable {ack : Bool} {d : Reg} {dest q : Nat} {va : Word} {ws : List Word} :
    GoesOn (renqUnreachable ack i d dest q va ws s) :=
  goesOn_ite goesOn_retire (goesOn_ite goesOn_sleepOn goesOn_retire)

end Rules

/-! ## Instructions of threads and sequencers with a meaning of their own -/

section Instructions
variable {s : State} {d a b : Reg}

theorem goesOn_execLoop {off : BitVec 14} : GoesOn (execLoop d off s) := by
  simp only [execLoop]
  exact goesOn_issue fun _ => goesOn_ite goesOn_retireTo goesOn_retire
theorem goesOn_execOxld {x : Fin 8} {off : BitVec 15} : GoesOn (execOxld x a off s) := by
  simp only [execOxld]
  exact goesOn_issue fun _ => goesOn_readAt fun _ _ => goesOn_retireOx
theorem goesOn_execFence {o : Order} {sc : Scope} : GoesOn (execFence o sc d s) := by
  simp only [execFence]
  exact goesOn_issue fun _ => goesOn_settleFence
theorem goesOn_execXfence {sc : Scope} {paths : BitVec 6} : GoesOn (execXfence sc paths d s) := by
  simp only [execXfence]
  exact goesOn_issue fun _ => goesOn_ite goesOn_sleepOn goesOn_settleFence
theorem goesOn_execSysr {n : BitVec 10} : GoesOn (execSysr d n s) := by
  simp only [execSysr]
  exact goesOn_issue fun _ => by split <;> simp
theorem goesOn_execSysw {n : BitVec 10} : GoesOn (execSysw d n s) := by
  simp only [execSysw]
  exact goesOn_issue fun _ => by split <;> simp
theorem goesOn_execSleepc {p : Bool} : GoesOn (execSleepc p a s) := by
  simp only [execSleepc]
  exact goesOn_issue fun _ => goesOn_notInCodelet <| goesOn_ite goesOn_sleepOn <| by split <;> simp
theorem goesOn_execMsend : GoesOn (execMsend d a b s) := by
  simp only [execMsend]
  exact goesOn_issue fun _ => goesOn_ite goesOn_trapHere (goesOn_ite goesOn_sleepOn goesOn_retire)
theorem goesOn_execMrecv {nb : Bool} : GoesOn (execMrecv nb d s) := by
  simp only [execMrecv]
  exact goesOn_issue fun _ => goesOn_ite goesOn_illegal <| by
    split
    · split
      · exact goesOn_retire
      · exact goesOn_ite goesOn_retire goesOn_sleepOn
    all_goals exact goesOn_illegal

/-! ### Weirs -/

theorem goesOn_execWarm : GoesOn (execWarm d a s) := by
  simp only [execWarm]
  exact goesOn_issue fun _ => goesOn_withWeir fun _ => goesOn_ite goesOn_illegal <| by
    split
    · split <;> simp
    · exact goesOn_trapHere
theorem goesOn_execWexp : GoesOn (execWexp d a b s) := by
  simp only [execWexp]
  exact goesOn_issue fun _ => goesOn_withWeir fun _ => goesOn_ite goesOn_retire <| goesOn_ite goesOn_retire <| goesOn_ite goesOn_retire goesOn_retire
theorem goesOn_execWwait : GoesOn (execWwait d a b s) := by
  simp only [execWwait]
  exact goesOn_issue fun _ => goesOn_notInCodelet <| goesOn_withWeir fun _ => goesOn_ite goesOn_retire <| goesOn_ite goesOn_sleepOn goesOn_retire
theorem goesOn_execWrd {status : Bool} : GoesOn (execWrd status d a s) := by
  simp only [execWrd]
  exact goesOn_issue fun _ => goesOn_withWeir fun _ => goesOn_retire
theorem goesOn_execWdis : GoesOn (execWdis a s) := by
  simp only [execWdis]
  exact goesOn_issue fun _ => goesOn_withWeir fun _ => goesOn_retire

/-! ### Codelets, packets and chains -/

theorem goesOn_execCldec {o : Order} {sc : Scope} : GoesOn (execCldec o sc d a b s) := by
  simp only [execCldec]
  exact goesOn_issue fun _ => goesOn_withRecord fun _ _ => goesOn_ite goesOn_addressFault <| goesOn_ite goesOn_sleepOn goesOn_retire
theorem goesOn_execClpush {o : Order} {sc : Scope} : GoesOn (execClpush o sc d a b s) := by
  simp only [execClpush]
  exact goesOn_issue fun _ => goesOn_ite goesOn_trapHere <| goesOn_ite goesOn_sleepOn goesOn_retire
theorem goesOn_execClnext {o : Order} {sc : Scope} : GoesOn (execClnext o sc s) := by
  simp only [execClnext]
  exact goesOn_issue fun _ => goesOn_notInCodelet <| by
    split
    · exact goesOn_ite goesOn_sleepOn goesOn_enterCodelet
    all_goals exact goesOn_illegal
theorem goesOn_execLaunch : GoesOn (execLaunch d a b s) := by
  simp only [execLaunch]
  exact goesOn_issue fun _ => goesOn_withPacket fun _ _ => goesOn_ite goesOn_retire goesOn_retire
theorem goesOn_execRenq {ack : Bool} : GoesOn (execRenq ack d a b s) := by
  simp only [execRenq]
  exact goesOn_issue fun _ => goesOn_ite goesOn_sleepOn <| goesOn_ite (goesOn_withPacket fun _ _ => goesOn_ite goesOn_retire goesOn_retire) <| by
    split
    · exact goesOn_withPacket fun _ _ => goesOn_renqUnreachable
    all_goals exact goesOn_withPacket fun _ _ => goesOn_ite goesOn_sleepOn goesOn_retire
theorem goesOn_execQbind {off : Bool} : GoesOn (execQbind off d a b s) := by
  simp only [execQbind]
  exact goesOn_issue fun _ => goesOn_ite (goesOn_ite (goesOn_rebind goesOn_retire) goesOn_sleepOn) <| by
    split
    · split
      · exact goesOn_rebind goesOn_retire
      · exact goesOn_retire
    all_goals exact goesOn_illegal

/-! ### Trackway -/

theorem goesOn_execTkrec : GoesOn (execTkrec d a s) := by
  simp only [execTkrec]
  exact goesOn_trackOp fun _ _ _ _ _ => goesOn_ite goesOn_retire <| goesOn_ite goesOn_retire <| goesOn_ite goesOn_retire <| by
    split
    case h_4 => exact goesOn_ite goesOn_retire goesOn_sleepOn
    all_goals exact goesOn_retire
theorem goesOn_execTkplay : GoesOn (execTkplay d a s) := by
  simp only [execTkplay]
  exact goesOn_trackOp fun _ _ _ _ _ => goesOn_ite goesOn_illegal <| by split <;> simp
theorem goesOn_execTkend : GoesOn (execTkend d a s) := by
  simp only [execTkend]
  exact goesOn_trackOp fun _ _ _ _ _ => by split <;> simp
theorem goesOn_execTkstat {counts : Bool} : GoesOn (execTkstat counts d a s) := by
  simp only [execTkstat]
  exact goesOn_trackOp fun _ _ _ _ _ => goesOn_retire
theorem goesOn_execTkdrop : GoesOn (execTkdrop d a s) := by
  simp only [execTkdrop]
  exact goesOn_trackOp fun _ _ _ _ _ => by split <;> simp

/-! ### Copies -/

theorem goesOn_execCpgo : GoesOn (execCpgo d s) := by
  simp only [execCpgo]
  exact goesOn_copyOp fun _ _ _ => goesOn_retire
theorem goesOn_execCpmx : GoesOn (execCpmx d s) := by
  simp only [execCpmx]
  exact goesOn_copyOp fun _ _ _ => goesOn_retire
theorem goesOn_execCpgath : GoesOn (execCpgath d a b s) := by
  simp only [execCpgath]
  exact goesOn_copyOp fun _ _ _ => goesOn_ite goesOn_retire goesOn_retire
theorem goesOn_execCpscat : GoesOn (execCpscat d a b s) := by
  simp only [execCpscat]
  exact goesOn_copyOp fun _ _ _ => goesOn_ite goesOn_retire goesOn_retire
theorem goesOn_execCpseal : GoesOn (execCpseal d s) := by
  simp only [execCpseal]
  exact goesOn_issue fun _ => goesOn_ite goesOn_sleepOn goesOn_retire
theorem goesOn_execCpwaitb {n : BitVec 5} : GoesOn (execCpwaitb n s) := by
  simp only [execCpwaitb]
  exact goesOn_issue fun _ => goesOn_notInCodelet <| goesOn_ite goesOn_sleepOn goesOn_retire
theorem goesOn_execCpstr : GoesOn (execCpstr d a s) := by
  simp only [execCpstr]
  exact goesOn_issue fun _ => by
    split
    · exact goesOn_illegal
    · refine goesOn_ite goesOn_illegal ?_
      split
      · exact goesOn_sleepOn
      · exact goesOn_ite goesOn_sleepOn goesOn_retire

/-! ### Matrix blocks and epilogue engines -/

theorem goesOn_execMxprog {i32 unload : Bool} : GoesOn (execMxprog i32 unload a s) := by
  simp only [execMxprog]
  exact goesOn_matrixOp fun _ _ _ => goesOn_ite goesOn_queueCmd <| goesOn_ite goesOn_illegal goesOn_queueCmd
theorem goesOn_execMxclr {acc : Fin 4} : GoesOn (execMxclr acc b s) := by
  simp only [execMxclr]
  exact goesOn_matrixOp fun _ _ _ => goesOn_queueCmd
theorem goesOn_execMxmm {deferred : Bool} {slot : Fin 8} {acc : Fin 4} : GoesOn (execMxmm deferred slot acc b s) := by
  simp only [execMxmm]
  exact goesOn_matrixOp fun _ _ _ => goesOn_ite goesOn_illegal <| goesOn_ite (goesOn_ite goesOn_sleepOn goesOn_retire) goesOn_queueCmd
theorem goesOn_execMxwait {all : Bool} : GoesOn (execMxwait all s) := by
  simp only [execMxwait]
  exact goesOn_matrixOp fun _ _ _ => goesOn_notInCodelet <| goesOn_ite goesOn_retire goesOn_sleepOn
theorem goesOn_execEvacc {bs : Bool} {acc : Fin 4} {v : Fin 16} : GoesOn (execEvacc bs acc v a s) := by
  simp only [execEvacc]
  exact goesOn_issue fun _ => by
    split
    · exact goesOn_ite goesOn_sleepOn goesOn_retire
    all_goals exact goesOn_illegal
theorem goesOn_execEvld {v : Fin 16} : GoesOn (execEvld v a b s) := by
  simp only [execEvld]
  exact goesOn_issue fun _ => by
    split
    · split <;> simp
    all_goals exact goesOn_illegal
theorem goesOn_execEvst {part : Part} {v : Fin 16} : GoesOn (execEvst part v a b s) := by
  simp only [execEvst]
  exact goesOn_issue fun _ => by
    split
    · refine goesOn_ite goesOn_addressFault <| goesOn_ite goesOn_addressFault ?_
      split <;> simp
    all_goals exact goesOn_illegal
theorem goesOn_execPfx {sat : Bool} {t : Tgt} {c : Src} {r : Rnd} {z : Bool} {k : Fin 8} : GoesOn (execPfx sat t c r z k s) := by
  simp only [execPfx]
  exact goesOn_issue fun _ => by split <;> simp [goesOn_runRow]

/-! ### Blocks that a thread forks, and escapes -/

theorem goesOn_execFork : GoesOn (execFork d a b s) := by
  simp only [execFork]
  exact goesOn_issue fun _ => by
    split
    · refine goesOn_ite goesOn_trapHere <| goesOn_ite goesOn_sleepOn ?_
      split
      · exact goesOn_addressFault
      · exact goesOn_readWords fun _ _ => goesOn_retire
    · exact goesOn_illegal
theorem goesOn_execRdz : GoesOn (execRdz d a s) := by
  simp only [execRdz]
  exact goesOn_issue fun _ => goesOn_notInCodelet <| goesOn_ite goesOn_retire <| goesOn_ite goesOn_sleepOn goesOn_retire
theorem goesOn_execEscr : GoesOn (execEscr s) := by
  simp only [execEscr]
  exact goesOn_issue fun _ => by
    split
    · exact goesOn_afterHeld fun _ => goesOn_next
    all_goals exact goesOn_illegal

/-! ### Regions -/

theorem goesOn_execCfgld : GoesOn (execCfgld d a b s) := by
  simp only [execCfgld]
  exact goesOn_cfgOp fun _ _ => by split <;> simp
theorem goesOn_execCfgrun : GoesOn (execCfgrun a b s) := by
  simp only [execCfgrun]
  exact goesOn_cfgOp fun _ _ => goesOn_ite goesOn_sleepOn goesOn_sleepOn
theorem goesOn_execCfgpatch : GoesOn (execCfgpatch d a b s) := by
  simp only [execCfgpatch]
  exact goesOn_cfgOp fun _ _ => goesOn_ite goesOn_retire <| goesOn_ite goesOn_retire <| goesOn_ite goesOn_retire <|
    goesOn_ite goesOn_sleepOn goesOn_sleepOn
theorem goesOn_execCfgseam {off : Bool} : GoesOn (execCfgseam off a s) := by
  simp only [execCfgseam]
  exact goesOn_cfgOp fun _ _ => goesOn_ite goesOn_illegal <| goesOn_ite goesOn_retire goesOn_sleepOn
theorem goesOn_execCfgsync {sc : Scope} : GoesOn (execCfgsync sc s) := by
  simp only [execCfgsync]
  exact goesOn_cfgOp fun _ _ => by split <;> simp
theorem goesOn_execCfgest : GoesOn (execCfgest a s) := by
  simp only [execCfgest]
  exact goesOn_cfgOp fun _ _ => goesOn_retire
theorem goesOn_execCfgspawn : GoesOn (execCfgspawn d a s) := by
  simp only [execCfgspawn]
  exact goesOn_cfgOp fun _ _ => by
    split
    · exact goesOn_addressFault
    · exact goesOn_ite goesOn_sleepOn goesOn_retire
    · exact goesOn_illegal
theorem goesOn_execCfgjoin : GoesOn (execCfgjoin d a s) := by
  simp only [execCfgjoin]
  exact goesOn_cfgOp fun _ _ => by
    split
    · exact goesOn_retire
    · refine goesOn_ite goesOn_retire ?_
      split <;> simp

end Instructions

/-- What is no event goes on whatever the state: no program can stop the module. -/
theorem exec_goesOn_of_instruction {i : Instr} (h : isEvent i = false) (s : State) : GoesOn (exec i s) := by
  cases i with
    dsimp only [exec]
  | add | sub | shl | shr | sra | min | max | minn | maxn | slt | sltn | mul | mulh | mulhn | div | divn | rem | remn
  | clz | ctz | popc => exact goesOn_aluOp
  | addi | andi | ori | xori | ldhi | shli | shri | srai => exact goesOn_immOp
  | hAdd | hSub | hShl | hShr | hSra | hMin | hMax | hMinn | hMaxn | hSlt | hSltn | hAnd | hOr | hXor | hAndn => exact goesOn_shortOp
  | and | or | xor | andn | bext | bins | sel | ldi | fcmp | fclass | rdcyc | tmget | floor | hMv | hAddi | hLdi => exact goesOn_compute
  | fadd | fsub | fmul | fdiv => exact goesOn_floatOp
  | cellkey | ffma | fsqrt | fmin | fmax | fcvt | fcvtInt => exact goesOn_computeFlags
  | beq | bne | blt | bge | bltn | bgen | bz | bnz | hBz | hBnz => exact goesOn_branchOp
  | jmp | jal | hJmp => exact goesOn_jumpOp
  | jalr | hJalr => exact goesOn_jumpRegister
  | ld | lds | ldx | ldxSx | hLdD | hLdW => exact goesOn_loadOp
  | st | stx | hStD | hStW => exact goesOn_storeOp
  | amoAdd | amoAnd | amoOr | amoXor | amoMin | amoMax | amoMinn | amoMaxn | amoSwap | amoFadd | amoFmin | amoFmax
  | aredAdd | aredAnd | aredOr | aredXor | aredMin | aredMax | aredMinn | aredMaxn | aredSwap | aredFadd | aredFmin | aredFmax =>
    exact goesOn_amoOp
  | cas | incw => exact goesOn_atomicOp
  | waitvEq | waitvNe | waitvLt | waitvGe => exact goesOn_waitValue
  | pref | oxli | oxmv | cpfree | nop | hNop | tmset | fljoin | trig => exact goesOn_issue fun _ => goesOn_retire
  | trap => exact goesOn_issue fun _ => goesOn_trapNext
  | eret => exact goesOn_issue fun _ => goesOn_returnFromTrap
  | yield | hYield => exact goesOn_yieldOp
  | brk | hBrk => exact goesOn_breakOp
  | halt | hHalt => exact goesOn_haltOp
  | cpdisc | cppre => exact goesOn_rangeOp
  | vmov | vadd | vsub | vmul | vmulh | vfma | vmin | vmax | vabs | vneg | vand | vor | vxor | vshl | vshr | vsra
  | vcmpeq | vcmplt | vcmple | vsel | vcvt | vpack | vunpk | vscale | vrcp | vrsq | vsqrt | vexp2 | vlog2 | vacc | vred | vscan
  | vsteer | vmerge | vgate | vshuf | vbcast | vidx | vdrop | esc | vcfgt => exact goesOn_cellOp
  | loop => exact goesOn_execLoop
  | oxld => exact goesOn_execOxld
  | fence => exact goesOn_execFence
  | xfence => exact goesOn_execXfence
  | sysr => exact goesOn_execSysr
  | sysw => exact goesOn_execSysw
  | sleepc => exact goesOn_execSleepc
  | msend => exact goesOn_execMsend
  | mrecv => exact goesOn_execMrecv
  | warm => exact goesOn_execWarm
  | wexp => exact goesOn_execWexp
  | wwait => exact goesOn_execWwait
  | wrd => exact goesOn_execWrd
  | wdis => exact goesOn_execWdis
  | cldec => exact goesOn_execCldec
  | clpush => exact goesOn_execClpush
  | clnext => exact goesOn_execClnext
  | launch => exact goesOn_execLaunch
  | renq => exact goesOn_execRenq
  | qbind => exact goesOn_execQbind
  | tkrec => exact goesOn_execTkrec
  | tkplay => exact goesOn_execTkplay
  | tkend => exact goesOn_execTkend
  | tkstat => exact goesOn_execTkstat
  | tkdrop => exact goesOn_execTkdrop
  | cpgo => exact goesOn_execCpgo
  | cpmx => exact goesOn_execCpmx
  | cpgath => exact goesOn_execCpgath
  | cpscat => exact goesOn_execCpscat
  | cpseal => exact goesOn_execCpseal
  | cpwaitb => exact goesOn_execCpwaitb
  | cpstr => exact goesOn_execCpstr
  | mxprog => exact goesOn_execMxprog
  | mxclr => exact goesOn_execMxclr
  | mxmm => exact goesOn_execMxmm
  | mxwait => exact goesOn_execMxwait
  | evacc => exact goesOn_execEvacc
  | evld => exact goesOn_execEvld
  | evst => exact goesOn_execEvst
  | pfx => exact goesOn_execPfx
  | fork => exact goesOn_execFork
  | rdz => exact goesOn_execRdz
  | escr => exact goesOn_execEscr
  | cfgld => exact goesOn_execCfgld
  | cfgrun => exact goesOn_execCfgrun
  | cfgpatch => exact goesOn_execCfgpatch
  | cfgseam => exact goesOn_execCfgseam
  | cfgsync => exact goesOn_execCfgsync
  | cfgest => exact goesOn_execCfgest
  | cfgspawn => exact goesOn_execCfgspawn
  | cfgjoin => exact goesOn_execCfgjoin
  | illegalInstruction => exact goesOn_next
  | configFiring => fun_cases execConfigFiring <;> exact goesOn_next
  | _ => cases h

/-! ## Events -/

/-- The outcome of an event: a next state, or the stop of a unit that the module does not have. -/
def Settled (i : Instr) (o : Out) : Prop := GoesOn o ∨ (o = .fault .noSuchUnit ∧ namesNoUnit i)

section Stops
variable {i : Instr}

theorem settled_next {s : State} : Settled i (.next s) := .inl goesOn_next
theorem settled_stop (unit : namesNoUnit i) : Settled i (.fault .noSuchUnit) := .inr ⟨rfl, unit⟩
/-- An event that checks its units first. -/
theorem settled_guard {c : Prop} [Decidable c] {o : Out} (unit : c → namesNoUnit i) (rest : GoesOn o) :
    Settled i (if c then .fault .noSuchUnit else o) := by
  split
  case isTrue hc => exact settled_stop (unit hc)
  case isFalse => exact .inl rest
/-- An event that first sees that its unit is one of the module's. -/
theorem settled_checked {c : Prop} [Decidable c] {s : State} (unit : ¬ c → namesNoUnit i) :
    Settled i (if c then .next s else .fault .noSuchUnit) := by
  split
  case isTrue => exact settled_next
  case isFalse hc => exact settled_stop (unit hc)

end Stops

/-- The kick pages are those of the 4,096 queues (R351). -/
theorem settled_execHostAccess (g : HostTarget) (write : Bool) (z : Size) (v : Word) (s : State) :
    Settled (.hostAccess g write z v) (execHostAccess g write z v s) := by
  fun_cases execHostAccess
  case case3 h _ _ => exact settled_stop h
  all_goals exact settled_next

/-- The caches are numbered in the order L1, segment caches, mere cache, blocks' ways. -/
theorem settled_execLineEviction (cache line : Nat) (s : State) : Settled (.lineEviction cache line) (execLineEviction cache line s) := by
  fun_cases execLineEviction
  case case5 => exact settled_stop (by simp only [namesNoUnit]; omega)
  all_goals exact settled_next

/-- The frame is looked at where the task stands. -/
theorem settled_execPageMove (task page frame : Nat) (s : State) : Settled (.pageMove task page frame) (execPageMove task page frame s) := by
  fun_cases execPageMove
  case case2 h => exact settled_stop (by simpa only [namesNoUnit, Bool.not_eq_true'] using h)
  all_goals exact settled_next

/-- Stacks and lanes are checked by themselves, and of the other kinds a unit without a number is one that the module does not have (R408). -/
theorem settled_execUnitRetire (u : ModuleUnit) (back : Bool) (s : State) : Settled (.unitRetire u back) (execUnitRetire u back s) := by
  cases u with
    simp only [execUnitRetire]
  | stack n => exact settled_checked Nat.le_of_not_lt
  | lane p =>
    split
    · exact settled_checked Nat.le_of_not_lt
    · exact settled_checked Nat.le_of_not_lt
  | cluster n | block n | core n | slice n | pseudoChannel n =>
    split
    case h_1 none => exact settled_stop (by simpa [unitNumber, namesNoUnit] using none)
    case h_2 => split <;> exact settled_next

/-- An event goes on, or it stops at a check of its units, which it names beyond those of the module. -/
theorem exec_settled_of_event {i : Instr} (h : isEvent i = true) (s : State) : Settled i (exec i s) := by
  cases i with
    dsimp only [exec]
  | hostAccess => exact settled_execHostAccess ..
  | lineEviction => exact settled_execLineEviction ..
  | pageMove => exact settled_execPageMove ..
  | unitRetire => exact settled_execUnitRetire ..
  | regroup => exact settled_guard (by simp only [Bool.or_eq_true, decide_eq_true_eq]; exact id) goesOn_next
  | queueOpen | kick | resume | renqReceive | threadWake | waitvReread | watchdogExpiry | seamStitch | portAccess | portResponse
  | bankctlWrite | bankSwitchComplete | landingNotice | streamTileStart | escapeQueueStart | ringRefill
  | portRetrain | portDown | dykeWrite | scrubUncorrectable =>
    simp only [execQueueOpen, execKick, execResume, execRenqReceive, execThreadWake, execWaitvReread, execWatchdogExpiry, execSeamStitch,
      execPortAccess, execPortResponse, execBankctlWrite, execBankSwitchComplete, execLandingNotice, execStreamTileStart,
      execEscapeQueueStart, execRingRefill, execPortRetrain, execPortDown, execDykeWrite, execScrubUncorrectable]
    -- Each looks at its units' numbers first, and every branch after that is a next state.
    refine settled_guard ?unit ?rest
    case unit => simp [namesNoUnit, numPorts]
    case rest =>
      repeat' split
      all_goals exact goesOn_next
  | tokenDelivery | creditReturn | escapeReplyDelivery | escapeDispatch | splitterDeal | mergerTake | stageHigh | stageLow | stageFenceMerge
  | converge | nodeReplace | nodeStart | stallDetect
  | deferredEnter | matrixFetchStart | matrixCommandComplete | weirCountNotice | weirCredit | copyStart | copyElement | copyComplete | wakeToken
  | pageFaultResolved | faultUnresolvable | floorPublish | hostSnoop | readCopyInvalidate
  | queuePoll | tokenReplenish | packetFetch | noopComplete | taskStart | taskComplete | kill | scheduleDecision | drainTimeout
  | checkpoint | restore | debugHalt | debugStep | debugResume
  | registerWrite | hostLinkRecovery | hostLinkDown | ownershipChange | remoteRequest | remoteReadMiss | pageHandover | tombstoneForward
  | tombstoneRemove | peerComeBack | powerOn | powerLoss | attestChallenge | firmwareRoll | thermalTrip =>
    simp only [execTokenDelivery, execCreditReturn, execEscapeReplyDelivery, execEscapeDispatch, execSplitterDeal, execMergerTake,
      execStageHigh, execStageLow, execStageFenceMerge, execConverge, execNodeReplace, execNodeStart, execStallDetect,
      execDeferredEnter, execMatrixFetchStart, execMatrixCommandComplete, execWeirCountNotice, execWeirCredit,
      execCopyStart, execCopyElement, execCopyComplete, execWakeToken,
      execPageFaultResolved, execFaultUnresolvable, execFloorPublish, execHostSnoop, execReadCopyInvalidate,
      execQueuePoll, execTokenReplenish, execPacketFetch, execNoopComplete, execTaskStart, execTaskComplete, execKill,
      execScheduleDecision, execDrainTimeout, execCheckpoint, execRestore, execDebugHalt, execDebugStep, execDebugResume,
      execRegisterWrite, execHostLinkRecovery, execHostLinkDown, execOwnershipChange, execRemoteRequest, execRemoteReadMiss,
      execPageHandover, execTombstoneForward, execTombstoneRemove, execPeerComeBack,
      execPowerOn, execPowerLoss, execAttestChallenge, execFirmwareRoll, execThermalTrip]
    -- None of these asks for a unit by its number: whatever it finds, every branch is a next state.
    repeat' split
    all_goals exact settled_next
  | _ => cases h

/-- Settles O60: an instruction always goes on, and an event goes on or names a unit that the module does not have. -/
theorem nothingIsRefused : Obligations.NothingIsRefused := by
  intro i s
  cases h : isEvent i with
  | false => exact .inl (exec_goesOn_of_instruction h s)
  | true => exact exec_settled_of_event h s

end Sys2Proof.Machine
end

section
/-! SUPPORT. H-forms: the operations of two registers at 64 bits, and issue and retirement with a length of 2 bytes (R44, R45). -/

namespace Sys2Proof.Machine
open Sys2Proof.Safety

section ShortForms
variable {i : Instr} {s : State}

/-- A parcel offset is twice the offset (R41). -/
theorem parcels_eq {n : Nat} (v : BitVec n) : parcels v = 2 * v.signExtend 64 := by
  rw [parcels, BitVec.shiftLeft_eq_mul_twoPow, BitVec.mul_comm]
  rfl

theorem minB_eq {n : Nat} (x y : BitVec n) : minB n x y = if x.toInt ≤ y.toInt then x else y := by
  simp only [minB, BitVec.slt_eq_decide, decide_eq_true_eq]
  grind
theorem maxB_eq {n : Nat} (x y : BitVec n) : maxB n x y = if y.toInt ≤ x.toInt then x else y := by
  simp only [maxB, BitVec.slt_eq_decide, decide_eq_true_eq]
  grind
theorem minnB_eq {n : Nat} (x y : BitVec n) : minnB n x y = if x.toNat ≤ y.toNat then x else y := by
  simp only [minnB, BitVec.ult_eq_decide, decide_eq_true_eq]
  grind
theorem maxnB_eq {n : Nat} (x y : BitVec n) : maxnB n x y = if y.toNat ≤ x.toNat then x else y := by
  simp only [maxnB, BitVec.ult_eq_decide, decide_eq_true_eq]
  grind
theorem sltB_eq {n : Nat} (x y : BitVec n) : sltB n x y = if x.toInt < y.toInt then BitVec.ofNat n 1 else 0 := by
  simp only [sltB, BitVec.slt_eq_decide, decide_eq_true_eq]
theorem sltnB_eq {n : Nat} (x y : BitVec n) : sltnB n x y = if x.toNat < y.toNat then BitVec.ofNat n 1 else 0 := by
  simp only [sltnB, BitVec.ult_eq_decide, decide_eq_true_eq]

/-- An instruction of 2 bytes that computes a value writes it, with the next instruction 2 bytes on. -/
theorem compute_short {d : Reg} (f : Hart → Word) {v : Word} (short : i.length = 2) (run : exec i s = compute i s d f) (value : f s.me = v) :
    MayRun i s → exec i s = .next (s.setMe { s.me.setReg d v with pc := s.me.pc + 2 }) := by
  intro h
  rw [run, compute_mayRun h, done, short, value]
  rfl

/-- A two-operand H-form writes the 64-bit operation of its registers. -/
theorem shortOp_short (f : (n : Nat) → BitVec n → BitVec n → BitVec n) {d a : HReg} {v : Word} (short : i.length = 2)
    (run : exec i s = shortOp i f d a s) (value : f 64 (s.me.reg (hreg d)) (s.me.reg (hreg a)) = v) :
    MayRun i s → exec i s = .next (s.setMe { s.me.setReg (hreg d) v with pc := s.me.pc + 2 }) :=
  compute_short _ short run value

/-- A branch of 2 bytes goes to its target, or to the next instruction 2 bytes on. -/
theorem branchOp_short {n : Nat} {off : BitVec n} (c : Hart → Bool) {taken : Bool} (short : i.length = 2)
    (run : exec i s = branchOp i off c s) (cond : c s.me = taken) :
    MayRun i s → exec i s =
      .next (if taken then jumped [] (s.me.pc + 2 * off.signExtend 64) s else s.setMe { s.me with pc := s.me.pc + 2 }) := by
  intro h
  rw [run, branchOp, issue_mayRun h, retireTo_plain h.2, retire_plain h.2, branchTarget, parcels_eq, done, short, cond]
  cases taken <;> rfl

/-- A jump without a link goes to its target. -/
theorem jumpOp_mayRun (h : MayRun i s) {n : Nat} (off : BitVec n) :
    jumpOp i off [] s = .next (jumped [] (s.me.pc + 2 * off.signExtend 64) s) := by
  rw [jumpOp, issue_mayRun h, retireTo_plain h.2, branchTarget, parcels_eq]
  rfl

theorem getLsbD_zero_iff_odd {n : Nat} (v : BitVec n) : v.getLsbD 0 = true ↔ v.toNat % 2 = 1 := by
  simp [BitVec.getLsbD, Nat.testBit_zero]

/-- A jump to an even address links and goes there (R86). -/
theorem jumpRegister_even (h : MayRun i s) {t : Hart → Word} (even : (t s.me).toNat % 2 = 0) (d : Reg) :
    jumpRegister i d t s = .next (jumped [(d, s.me.pc + BitVec.ofNat 64 i.length)] (t s.me) s) := by
  have even : ¬ (t s.me).getLsbD 0 = true := by rw [getLsbD_zero_iff_odd]; omega
  rw [jumpRegister, issue_mayRun h]
  simp only [if_neg even, retireTo_plain h.2]

/-- A jump to an odd address traps on itself (R86). -/
theorem jumpRegister_odd (h : MayRun i s) {t : Hart → Word} (odd : (t s.me).toNat % 2 = 1) (d : Reg) :
    jumpRegister i d t s = .next (enterTrap s s.cur .misalignment i.length s.me.pc (t s.me)) := by
  rw [jumpRegister, issue_mayRun h]
  simp only [if_pos ((getLsbD_zero_iff_odd _).mpr odd), trapHere]

end ShortForms

/-- Settles O11: each H-form is the operation of its expansion at 64 bits, issued with a length of 2. -/
theorem shortForms : Obligations.ShortForms := by
  intro s d a i3 i7 i11
  refine ⟨?add, ?sub, ?and, ?or, ?xor, ?andn, ?shl, ?shr, ?sra, ?mv, ?min, ?max, ?minn, ?maxn, ?slt, ?sltn, ?addi, ?ldi,
    ?bz, ?bnz, ?jmp, ?jalr, ?jalrOdd, ?nop⟩
  case add => exact shortOp_short addB rfl rfl rfl
  case sub => exact shortOp_short subB rfl rfl rfl
  case and => exact shortOp_short (fun _ x y => x &&& y) rfl rfl rfl
  case or => exact shortOp_short (fun _ x y => x ||| y) rfl rfl rfl
  case xor => exact shortOp_short (fun _ x y => x ^^^ y) rfl rfl rfl
  case andn => exact shortOp_short (fun _ x y => x &&& ~~~y) rfl rfl rfl
  case shl => exact shortOp_short shlB rfl rfl rfl
  case shr => exact shortOp_short shrB rfl rfl rfl
  case sra => exact shortOp_short sraB rfl rfl rfl
  case min => exact shortOp_short minB rfl rfl (minB_eq _ _)
  case max => exact shortOp_short maxB rfl rfl (maxB_eq _ _)
  case minn => exact shortOp_short minnB rfl rfl (minnB_eq _ _)
  case maxn => exact shortOp_short maxnB rfl rfl (maxnB_eq _ _)
  case slt => exact shortOp_short sltB rfl rfl (sltB_eq _ _)
  case sltn => exact shortOp_short sltnB rfl rfl (sltnB_eq _ _)
  case mv => exact compute_short (fun h => h.reg (hreg a)) rfl rfl rfl
  case addi => exact compute_short (fun h => h.reg (hreg a) + sext i3) rfl rfl rfl
  case ldi => exact compute_short (fun _ => sext i7) rfl rfl rfl
  case bz => exact branchOp_short (fun h => h.reg (hreg d) = 0) rfl rfl rfl
  case bnz => exact branchOp_short (fun h => h.reg (hreg d) ≠ 0) rfl rfl (decide_not ..)
  case jmp => exact fun h => jumpOp_mayRun h i11
  case jalr => exact fun h even => jumpRegister_even h (t := fun h => h.reg (hreg a)) even (hreg d)
  case jalrOdd =>
    intro h odd handles
    rw [← enterTrap_handles handles]
    exact jumpRegister_odd h (t := fun h => h.reg (hreg a)) odd (hreg d)
  case nop => exact fun h => (issue_mayRun h fun _ => retire .hNop [] s).trans (retire_plain h.2)
end Sys2Proof.Machine
end

section
/-! SUPPORT. Traps: the illegal use of every instruction, traps that a handler takes, and traps that stop the agent (R65, R97, R98, R207). -/

namespace Sys2Proof.Machine
open Sys2Proof.Safety

section Illegal
variable {i : Instr} {s : State}

/-! ## Illegal uses: every shared operation looks at the instruction before it does anything -/

section Shared
variable (h : ¬ Legal i s)
include h

theorem compute_illegal {d : Reg} {f : Hart → Word} : compute i s d f = illegal i s := issue_illegal h _
theorem computeFlags_illegal {d : Reg} {f : Hart → Nat × Flags} : computeFlags i s d f = illegal i s := issue_illegal h _
theorem aluOp_illegal {f : (n : Nat) → BitVec n → BitVec n → BitVec n} {width : Width} {d a b : Reg} :
    aluOp i f width d a b s = illegal i s := compute_illegal h
theorem immOp_illegal {f : Word → Word → Word} {d a : Reg} {imm : Word} : immOp i f d a imm s = illegal i s := compute_illegal h
theorem shortOp_illegal {f : (n : Nat) → BitVec n → BitVec n → BitVec n} {d a : HReg} : shortOp i f d a s = illegal i s :=
  compute_illegal h
theorem floatOp_illegal {op : FloatFmt → Rounding → Bool → Nat → Nat → Nat × Flags} {r : Rnd} {f : ScalarFmt} {d a b : Reg} :
    floatOp i op r f d a b s = illegal i s := computeFlags_illegal h
theorem branchOp_illegal {n : Nat} {off : BitVec n} {c : Hart → Bool} : branchOp i off c s = illegal i s := issue_illegal h _
theorem jumpOp_illegal {n : Nat} {off : BitVec n} {link : List Reg} : jumpOp i off link s = illegal i s := issue_illegal h _
theorem jumpRegister_illegal {d : Reg} {t : Hart → Word} : jumpRegister i d t s = illegal i s := issue_illegal h _
theorem loadOp_illegal {z : Size} {o : Order} {sc : Scope} {signed plainD : Bool} {d : Reg} {ea : Hart → Word} :
    loadOp i s z o sc signed plainD d ea = illegal i s := issue_illegal h _
theorem storeOp_illegal {z : Size} {o : Order} {sc : Scope} {plainD : Bool} {ea value : Hart → Word} :
    storeOp i s z o sc plainD ea value = illegal i s := issue_illegal h _
theorem atomicOp_illegal {n : Nat} {o : Order} {sc : Scope} {d : Option Reg} {ea : Hart → Word} {f : Hart → Nat → Option Nat} :
    atomicOp i s n o sc d ea f = illegal i s := issue_illegal h _
theorem amoOp_illegal {z : Width} {o : Order} {sc : Scope} {d : Option Reg} {a b : Reg} {f : Width → Nat → Nat → Nat} :
    amoOp i z o sc d a b f s = illegal i s := atomicOp_illegal h
theorem waitValue_illegal {acq : Bool} {z : Width} {sc : Scope} {d a b : Reg} {holds : (n : Nat) → BitVec n → BitVec n → Bool} :
    waitValue i acq z sc d a b holds s = illegal i s := issue_illegal h _
theorem matrixOp_illegal {k : Nat → Nat → Hart → Out} : matrixOp i s k = illegal i s := issue_illegal h _
theorem cfgOp_illegal {k : Nat → Hart → Out} : cfgOp i s k = illegal i s := issue_illegal h _
theorem trackOp_illegal {a : Reg} {k : Hart → Nat → Nat → Nat → Nat → Out} : trackOp i a s k = illegal i s := issue_illegal h _
theorem copyOp_illegal {landing : Bool} {k : Nat → CopyDesc → Hart → Out} : copyOp i landing s k = illegal i s := issue_illegal h _
theorem rangeOp_illegal {kind : Hart → CopyKind} : rangeOp i kind s = illegal i s := issue_illegal h _
theorem yieldOp_illegal : yieldOp i s = illegal i s := issue_illegal h _
theorem breakOp_illegal : breakOp i s = illegal i s := issue_illegal h _
theorem haltOp_illegal : haltOp i s = illegal i s := issue_illegal h _

end Shared

theorem exec_illegal (word : (encodeWord i).isSome = true) (cell : (cellShape i).isNone = true) (h : ¬ Legal i s) :
    exec i s = illegal i s := by
  cases i with
    dsimp only [exec]
  | add | sub | shl | shr | sra | min | max | minn | maxn | slt | sltn | mul | mulh | mulhn | div | divn | rem | remn
  | clz | ctz | popc => exact aluOp_illegal h
  | addi | andi | ori | xori | ldhi | shli | shri | srai => exact immOp_illegal h
  | hAdd | hSub | hShl | hShr | hSra | hMin | hMax | hMinn | hMaxn | hSlt | hSltn | hAnd | hOr | hXor | hAndn => exact shortOp_illegal h
  | and | or | xor | andn | bext | bins | sel | ldi | fcmp | fclass | rdcyc | tmget | floor | hMv | hAddi | hLdi => exact compute_illegal h
  | fadd | fsub | fmul | fdiv => exact floatOp_illegal h
  | cellkey | ffma | fsqrt | fmin | fmax | fcvt | fcvtInt => exact computeFlags_illegal h
  | beq | bne | blt | bge | bltn | bgen | bz | bnz | hBz | hBnz => exact branchOp_illegal h
  | jmp | jal | hJmp => exact jumpOp_illegal h
  | jalr | hJalr => exact jumpRegister_illegal h
  | ld | lds | ldx | ldxSx | hLdD | hLdW => exact loadOp_illegal h
  | st | stx | hStD | hStW => exact storeOp_illegal h
  | amoAdd | amoAnd | amoOr | amoXor | amoMin | amoMax | amoMinn | amoMaxn | amoSwap | amoFadd | amoFmin | amoFmax
  | aredAdd | aredAnd | aredOr | aredXor | aredMin | aredMax | aredMinn | aredMaxn | aredSwap | aredFadd | aredFmin | aredFmax =>
    exact amoOp_illegal h
  | cas | incw => exact atomicOp_illegal h
  | waitvEq | waitvNe | waitvLt | waitvGe => exact waitValue_illegal h
  | yield | hYield => exact yieldOp_illegal h
  | brk | hBrk => exact breakOp_illegal h
  | halt | hHalt => exact haltOp_illegal h
  | cpdisc | cppre => exact rangeOp_illegal h
  | vmov | vadd | vsub | vmul | vmulh | vfma | vmin | vmax | vabs | vneg | vand | vor | vxor | vshl | vshr | vsra
  | vcmpeq | vcmplt | vcmple | vsel | vcvt | vpack | vunpk | vscale | vrcp | vrsq | vsqrt | vexp2 | vlog2 | vacc | vred | vscan
  | vsteer | vmerge | vgate | vshuf | vbcast | vidx | vdrop | esc | vcfgt => cases cell
  | tkrec | tkplay | tkend | tkstat | tkdrop => exact trackOp_illegal h
  | cpgo | cpmx | cpgath | cpscat => exact copyOp_illegal h
  | mxprog | mxclr | mxmm | mxwait => exact matrixOp_illegal h
  | cfgld | cfgrun | cfgpatch | cfgseam | cfgsync | cfgest | cfgspawn | cfgjoin => exact cfgOp_illegal h
  | pref | oxli | oxmv | oxld | cpfree | nop | hNop | tmset | fljoin | trig | trap | eret | loop | fence | xfence | sysr | sysw
  | sleepc | msend | mrecv | warm | wexp | wwait | wrd | wdis | cldec | clpush | clnext | launch | renq | qbind | cpseal | cpwaitb
  | escr => exact issue_illegal h _
  | fork | rdz | cpstr | evacc | evld | evst | pfx =>
    simp only [execFork, execRdz, execCpstr, execEvacc, execEvld, execEvst, execPfx, issue_illegal h]
  | _ => cases word

end Illegal

/-! ## Traps that stop (R97, R207) -/

@[simp] theorem State.hart_report (s : State) (r : Report) (a : AgentId) : (s.report r).hart a = s.hart a := rfl
@[simp] theorem State.hart_setRegion (s : State) (cl : Nat) (r : Region) (a : AgentId) : (s.setRegion cl r).hart a = s.hart a := rfl
@[simp] theorem State.hart_setBlock (s : State) (n : Nat) (k : Block) (a : AgentId) : (s.setBlock n k).hart a = s.hart a := rfl

@[simp] theorem escapeLost_harts (s : State) (o : Origin) : (escapeLost s o).harts = s.harts := by
  cases o <;> rfl
@[simp] theorem escapeLost_mem (s : State) (o : Origin) : (escapeLost s o).mem = s.mem := by
  cases o <;> rfl

/-- A stopped agent bears its record, and no other thread or sequencer changes. -/
theorem stopAgent_harts (s : State) (a : AgentId) (r : TrapRecord) :
    (stopAgent s a r).harts = (s.setHart a { s.hart a with status := .stopped, stop := some r }).harts := by
  cases a <;> simp [stopAgent]
theorem stopAgent_mem (s : State) (a : AgentId) (r : TrapRecord) : (stopAgent s a r).mem = s.mem := by
  cases a <;> simp [stopAgent]

/-- A trap of a sequencer, of a thread without a handler or of one in it stops the agent (R97, R207). -/
theorem enterTrap_stops {s : State} {a : AgentId} (h : a.isThread = false ∨ (s.hart a).tmode = true ∨ (s.hart a).tvec = 0)
    (c : TrapClass) (len : Nat) (epc eval : Word) : enterTrap s a c len epc eval = stopAgent s a ⟨c.code, epc, eval⟩ := by
  have stops : (!a.isThread || (s.hart a).tmode || decide ((s.hart a).tvec = 0)) = true := by
    rcases h with h | h | h <;> simp [h]
  exact if_pos stops

/-! ## Traps of legal instructions (R207, R208) -/

/-- A trap that a thread with a handler takes after its instruction. -/
theorem trapNext_handles {i : Instr} {s : State} (h : Handles s) (c : TrapClass) (v : Word) :
    trapNext i c v s = .next (trapped c i.length (s.me.pc + BitVec.ofNat 64 i.length) v s) :=
  congrArg _ (enterTrap_handles h ..)

/-- Without a debugger a breakpoint is a trap. -/
theorem breakOp_mayRun {i : Instr} {s : State} (may : MayRun i s) (alone : s.service.debugger = false) :
    breakOp i s = trapNext i .breakpoint 0 s := by
  rw [breakOp, issue_mayRun may, alone]

/-- Settles O12: illegal uses by the check that opens every instruction, the trap instructions by trap entry, and traps that stop by the agent's kind. -/
theorem traps : Obligations.Traps := by
  refine ⟨fun i s word cell bad => ?illegal, fun s n => ⟨?brk, ?hBrk, ?trap, ?eret, ?eretOutside⟩, fun s c len epc eval stops => ?stop⟩
  case illegal =>
    rw [exec_illegal word cell bad]
    exact ⟨rfl, fun handles => congrArg _ (enterTrap_handles handles ..)⟩
  case brk => exact fun may handles alone => (breakOp_mayRun may alone).trans (trapNext_handles handles ..)
  case hBrk => exact fun may handles alone => (breakOp_mayRun may alone).trans (trapNext_handles handles ..)
  case trap => exact fun may handles => (issue_mayRun may fun _ => trapNext (.trap n) .trap (zext n) s).trans (trapNext_handles handles ..)
  case eret =>
    intro may inside
    refine (issue_mayRun may fun _ => returnFromTrap .eret s).trans ?_
    simp only [returnFromTrap, inside, if_true]
  case eretOutside =>
    intro may outside
    refine (issue_mayRun may fun _ => returnFromTrap .eret s).trans ?_
    rw [returnFromTrap, outside]
    rfl
  case stop =>
    rw [enterTrap_stops stops]
    have harts (b : AgentId) : (stopAgent s s.cur ⟨c.code, epc, eval⟩).hart b =
        (s.setMe { s.me with status := .stopped, stop := some ⟨c.code, epc, eval⟩ }).hart b :=
      congrArg (tget Hart.fresh b) (stopAgent_harts ..)
    simp only [harts, State.hart_setMe, stopAgent_mem]
    exact ⟨trivial, trivial, trivial, trivial, trivial, fun b other => State.hart_setMe_ne s (Ne.symm other) _⟩
end Sys2Proof.Machine
end

section
/-! SUPPORT. One step: cycles that pass, fetch and decode, and the turns of cores, sequencers and tiles (R40, R65, R97, R104, R106, R263). -/

namespace Sys2Proof.Machine

open Sys2Proof.Safety

/-! ## Cycles that pass (R106, R261) -/

/-- A tile keeps all but its wait counts and readiness ages. -/
theorem idleTile_eq (s : State) (last : Nat) (p : (Nat × Nat) × Tile) :
    ∃ w a, idleTile s last p = (p.1, { p.2 with waits := w, readySince := a }) := by
  fun_cases idleTile <;> exact ⟨_, _, rfl⟩

/-- A region keeps all but its count of cycles without progress. -/
theorem idleRegion_eq (s : State) (last : Nat) (p : Nat × Region) : ∃ n, idleRegion s last p = (p.1, { p.2 with progress := n }) := by
  fun_cases idleRegion <;> exact ⟨_, rfl⟩

@[simp] theorem passCycles_zero (s : State) : passCycles s 0 = s := rfl

/-- Cycles that pass change no tile and no region beyond that, and nothing else of the machine. -/
theorem passCycles_eq (s : State) (dt : Nat) : ∃ tiles regions, passCycles s dt = { s with tiles := tiles, regions := regions } ∧
    tiles.map Prod.fst = s.tiles.map Prod.fst ∧ regions.map Prod.fst = s.regions.map Prod.fst ∧
    (∀ p ∈ s.tiles, ∃ w a, (p.1, { p.2 with waits := w, readySince := a }) ∈ tiles) ∧
    ∀ p ∈ s.regions, ∃ n, (p.1, { p.2 with progress := n }) ∈ regions := by
  by_cases still : dt = 0
  · subst still
    exact ⟨s.tiles, s.regions, rfl, rfl, rfl, fun p mem => ⟨p.2.waits, p.2.readySince, mem⟩, fun p mem => ⟨p.2.progress, mem⟩⟩
  · refine ⟨_, _, if_neg still, ?_, ?_, fun p mem => ?_, fun p mem => ?_⟩
    · rw [List.map_map]
      exact List.map_congr_left fun p _ => by obtain ⟨w, a, e⟩ := idleTile_eq s (s.clock + dt - 1) p; simp [e]
    · rw [List.map_map]
      exact List.map_congr_left fun p _ => by obtain ⟨n, e⟩ := idleRegion_eq s (s.clock + dt - 1) p; simp [e]
    · obtain ⟨w, a, e⟩ := idleTile_eq s (s.clock + dt - 1) p
      exact ⟨w, a, e ▸ List.mem_map_of_mem mem⟩
    · obtain ⟨n, e⟩ := idleRegion_eq s (s.clock + dt - 1) p
      exact ⟨n, e ▸ List.mem_map_of_mem mem⟩

/-! ## Turns -/

section Fetch
variable {a : AgentId} {s : State} {bs : List Byte} {i : Instr} {rest : List Byte} {r : Reject}

/-- An agent without a due trap, whose bytes can be fetched, issues the instruction that they decode to. -/
theorem fetchNext_ok (due : (dueTrap s.me).1 = none) (fetched : fetchBytes s s.me.pc = .ok bs) (decoded : decode bs = .ok (i, rest)) :
    fetchNext s = .instr i := by
  rw [fetchNext, show dueTrap s.me = (none, (dueTrap s.me).2) from Prod.ext due rfl]
  simp only [fetched, decoded]

/-- Where they decode to none, it issues the illegal-instruction trap (R65). -/
theorem fetchNext_error (due : (dueTrap s.me).1 = none) (fetched : fetchBytes s s.me.pc = .ok bs) (decoded : decode bs = .error r) :
    fetchNext s = .instr .illegalInstruction := by
  rw [fetchNext, show dueTrap s.me = (none, (dueTrap s.me).2) from Prod.ext due rfl]
  simp only [fetched, decoded]

theorem issueNext_instr (next : fetchNext { s with cur := a } = .instr i) : issueNext a s = afterIssue a (exec i { s with cur := a }) := by
  simp only [issueNext, next]

/-- An agent's turn runs what its bytes decode to. -/
theorem issueNext_fetched (due : (dueTrap { s with cur := a }.me).1 = none)
    (fetched : fetchBytes { s with cur := a } { s with cur := a }.me.pc = .ok bs) :
    (∀ i rest, decode bs = .ok (i, rest) → issueNext a s = afterIssue a (exec i { s with cur := a })) ∧
    ∀ r, decode bs = .error r → issueNext a s = afterIssue a (exec .illegalInstruction { s with cur := a }) :=
  ⟨fun _ _ decoded => issueNext_instr (fetchNext_ok due fetched decoded),
    fun _ decoded => issueNext_instr (fetchNext_error due fetched decoded)⟩

end Fetch

theorem step_eq {s : State} {t : Turn} (h : (nextTurn s).1 = t) : step s = takeTurn t (nextTurn s).2 := by rw [step, h]

section Core
variable {c : Nat} {s : State}

theorem core_of_module (unit : c < 2048) : ¬ numCores ≤ c := Nat.not_le.mpr unit

/-- A core that has issued in this cycle waits for the next; any other issues from the slot that its barrel picks (R263). -/
theorem coreTurn_issued (unit : c < 2048) (issued : (s.core c).issuedAt = some s.clock) : coreTurn c s = .next s := by
  rw [coreTurn, if_neg (core_of_module unit), if_pos issued]
theorem coreTurn_picked {n : Nat} (unit : c < 2048) (free : (s.core c).issuedAt ≠ some s.clock) (pick : pickSlot s c = some n) :
    coreTurn c s = issueNext (.thread c n) (noteIssue s c n) := by
  rw [coreTurn, if_neg (core_of_module unit), if_neg free, pick]
theorem coreTurn_idle (unit : c < 2048) (pick : pickSlot s c = none) : coreTurn c s = .next s := by
  rw [coreTurn, if_neg (core_of_module unit), pick]
  exact ite_self _

end Core

section Sequencer
variable {a : AgentId} {s : State}

/-- A sequencer of the module issues where it can, and else its turn passes (R97). -/
theorem sequencerTurn_eq (exists_ : a.exists = true) (thread : a.isThread = false) (tile : ∀ cl pos idx, a ≠ .tile cl pos idx) :
    sequencerTurn a s = if sequencerReady s a then issueNext a (noteSequencer s a) else .next s := by
  cases a with
  | thread => cases thread
  | tile cl pos idx => exact absurd rfl (tile cl pos idx)
  | region | matrix | epilogue | copySeq => simp only [sequencerTurn, exists_, Bool.not_true, Bool.false_eq_true, if_false]

/-- One that has issued in this cycle cannot issue again. -/
theorem sequencerReady_issued (issued : (s.hart a).lastIssue = some s.clock) : sequencerReady s a = false := by
  simp [sequencerReady, issued]

end Sequencer

section Tile
variable {cl pos : Nat} {s : State}

theorem tile_of_module (cluster : cl < 32) (tile : isTile pos = true) : (decide (numClusters ≤ cl) || !isTile pos) = false := by
  have : ¬ numClusters ≤ cl := Nat.not_le.mpr cluster
  simp [this, tile]

/-- A tile fires at most once in a cycle (R104). -/
theorem tileTurn_fired (cluster : cl < 32) (tile : isTile pos = true) (fired : hasFired s cl pos = true) : tileTurn cl pos s = .next s := by
  simp only [tileTurn, tile_of_module cluster tile, fired, Bool.false_eq_true, if_false, if_true]

/-- What a tile chooses has not fired in this cycle, and the choice leaves that as it was. -/
theorem hasFired_chosen {idx : Nat} {i : Instr} (chosen : chosenInstr s cl pos idx = some i) : hasFired s cl pos = false := by
  cases fired : hasFired s cl pos with
  | false => rfl
  | true => simp [chosenInstr, readyFiring, fired] at chosen
theorem hasFired_arbitrate (s : State) (cl pos : Nat) : hasFired (arbitrate s cl pos).2 cl pos = hasFired s cl pos := by
  simp [arbitrate, hasFired, ageReady]

/-- A tile fires the instruction that its arbiter picks (R106). -/
theorem tileTurn_fires {idx : Nat} {t : State} {i : Instr} (cluster : cl < 32) (tile : isTile pos = true)
    (pick : arbitrate s cl pos = (some idx, t)) (chosen : chosenInstr t cl pos idx = some i) :
    tileTurn cl pos s = exec i { t with cur := .tile cl pos idx } := by
  have fired : hasFired s cl pos = false := by
    rw [← hasFired_arbitrate, pick]
    exact hasFired_chosen chosen
  simp only [tileTurn, tile_of_module cluster tile, fired, Bool.false_eq_true, if_false, pick, chosen]

end Tile

/-- Settles O57: a step is the turn that the agenda names, and each kind of turn issues, fires or runs what it picks. -/
theorem stepRunsTheInstruction : Obligations.StepRunsTheInstruction := by
  intro s
  refine ⟨fun it r agenda => ?item, fun agenda => ?standing, passCycles_zero s, passCycles_eq s, fun c turn unit issued => ?issued,
    fun c n turn unit free pick due bs fetched => ?slot, fun c turn unit pick => ?idle, fun a turn unit thread tile => ?sequencer,
    fun cl pos turn cluster tile fired => ?fired, fun cl pos idx t i turn cluster tile pick chosen => ?fires, fun e turn event => ?event⟩
  case item => rw [nextTurn, agenda]
  case standing => rw [nextTurn, agenda]
  case issued => exact (step_eq turn).trans (coreTurn_issued unit issued)
  case slot =>
    rw [(step_eq turn).trans (coreTurn_picked unit free pick)]
    exact issueNext_fetched due fetched
  case idle => exact (step_eq turn).trans (coreTurn_idle unit pick)
  case sequencer =>
    have run := (step_eq turn).trans (sequencerTurn_eq unit thread tile)
    have waits : sequencerReady (nextTurn s).2 a = false → step s = .next (nextTurn s).2 := fun not => by rw [run, not]; rfl
    refine ⟨fun ready due bs fetched => ?_, waits, fun issued => waits (sequencerReady_issued issued)⟩
    rw [run, if_pos ready]
    exact issueNext_fetched due fetched
  case fired => exact (step_eq turn).trans (tileTurn_fired cluster tile fired)
  case fires => exact (step_eq turn).trans (tileTurn_fires cluster tile pick chosen)
  case event => exact (step_eq turn).trans (if_pos event)

end Sys2Proof.Machine
end

section
/-! SUPPORT. The encoder and the decoder disagree on a field that an instruction does not use (R43, R153). -/

namespace Sys2Proof.Machine

/-- Refutes O55: `encodeWord` gives an `mxmm` without `.def` a word with a copy count in b, a field that it does not use, so that `decode` rejects the word (R43, R153). The case is `.mxmm false 0 0 1`, of bytes 35 00 42 00. -/
theorem not_encodingRoundTrip : ¬ Obligations.EncodingRoundTrip := by
  intro h
  have decoded := (h.1 (.mxmm false 0 0 1) [] rfl).2
  have rejected : decode (encode (.mxmm false 0 0 1) ++ []) = .error .reservedNonzero := rfl
  exact absurd (rejected.symm.trans decoded) nofun

end Sys2Proof.Machine
end

section
/-! SUPPORT. Sleepers, their answers and value waits, the watchdog and page faults (R187, R206, R264, R297, R393, R398, R400). -/

namespace Sys2Proof.Machine

open Sys2Proof.Safety

/-! ## Records written twice -/

@[simp] theorem tset_tset_same {κ α : Type} [DecidableEq κ] (k : κ) (v w : α) (t : Tbl κ α) : tset k v (tset k w t) = tset k v t := by
  induction t with
  | nil => simp [tset]
  | cons p r ih => by_cases e : p.1 = k <;> simp [tset, e, ih]

@[simp] theorem State.setHart_setHart_same (s : State) (a : AgentId) (h g : Hart) : (s.setHart a g).setHart a h = s.setHart a h := by
  simp [State.setHart]

/-! ## Agents that sleep -/

section Sleeping
variable {s : State} {a : AgentId} {w : Wait} {since : Nat}

/-- A woken sleeper is Ready from this cycle on, and one that woke in `mrecv` still receives (R276). -/
theorem makeReady_sleeping (asleep : (s.hart a).status = .sleeping w since) : makeReady s a =
    s.setHart a { s.hart a with status := .ready, wokenAt := some s.clock, receiving := decide (w = .message) } := by
  unfold makeReady
  simp only [asleep]
  cases w <;> rfl

/-- A task of which an agent runs does not stand still (R366, R370). -/
theorem taskHeld_of_agentRuns (runs : agentRuns s a = true) : taskHeld s (s.hart a).task = false := by
  unfold agentRuns at runs
  unfold taskHeld
  cases task : (s.hart a).task.bind s.task with
  | none => rfl
  | some k =>
    simp only [task, Bool.and_eq_true, Bool.or_eq_true, decide_eq_true_eq, Bool.not_eq_true'] at runs
    obtain ⟨⟨phase, -⟩, halted | stepping⟩ := runs
    · simp [phase, halted]
    · cases st : k.stepping with
      | none => simp [st] at stepping
      | some b => simp [phase, st]

/-! ## Waking (R264) -/

/-- A wait that an event of its own does not complete is over, or the agent sleeps on. -/
theorem threadWake_plain (unit : a.exists = true) (asleep : (s.hart a).status = .sleeping w since) (runs : agentRuns s a = true)
    (codelet : w ≠ .codelet) (answer : w ≠ .answer) (packet : ∀ dest, w ≠ .packetSlot dest) :
    execThreadWake a s = if waitOver s a since w then .next (makeReady s a) else .next s := by
  simp only [execThreadWake, unit, asleep, runs, Bool.not_true, Bool.false_eq_true, if_false]
  split
  · exact absurd rfl codelet
  · exact absurd rfl answer
  · exact absurd rfl (packet _)
  · rfl

/-- A sender that has a credit toward its destination wakes (R393). -/
theorem threadWake_packetSlot {dest : Nat} (unit : a.exists = true) (asleep : (s.hart a).status = .sleeping (.packetSlot dest) since)
    (runs : agentRuns s a = true) (credit : tget 0 dest s.renqCredits ≠ 0) : execThreadWake a s = .next (makeReady s a) := by
  simp only [execThreadWake, unit, asleep, runs, Bool.not_true, Bool.false_eq_true, if_false]
  exact congrArg _ (if_pos credit)

theorem threadWake_answer (unit : a.exists = true) (asleep : (s.hart a).status = .sleeping .answer since)
    (runs : agentRuns s a = true) : execThreadWake a s = .next (answerRenq s a) := by
  simp only [execThreadWake, unit, asleep, runs, Bool.not_true, Bool.false_eq_true, if_false]

theorem threadWake_ready (unit : a.exists = true) (ready : (s.hart a).status = .ready) : execThreadWake a s = .next s := by
  simp only [execThreadWake, unit, ready, Bool.not_true, Bool.false_eq_true, if_false]

/-! ## The watchdog (R206) -/

theorem lengthStandIn_ok {s : State} {lo : Nat} (fetched : fetchParcel s s.me.pc = .ok lo) :
    lengthStandIn s = (if lo % 2 = 1 then .nop else .hNop, s) := by simp only [lengthStandIn, fetched]
theorem lengthStandIn_error {s : State} {e : AddrFault} (fetched : fetchParcel s s.me.pc = .error e) :
    lengthStandIn s = (if (Config.free s.freeCtr).getLsbD 0 then .nop else .hNop, s.bumpFree) := by simp only [lengthStandIn, fetched]
/-- The stand-ins of the two lengths. -/
theorem standIn_length (c : Prop) [Decidable c] : (if c then Instr.nop else .hNop).length = if c then 4 else 2 := by
  split <;> rfl

/-- A trap of a sleeper bears the length of its first parcel, and where that cannot be read a free value decides between 2 and 4 (log entry 32). -/
theorem trapAsleep_eq (s : State) (a : AgentId) (c : TrapClass) (eval : Word) : ∃ len f, (len = 2 ∨ len = 4) ∧
    (∀ lo, fetchParcel { s with cur := a } (s.hart a).pc = .ok lo → f = s.freeCtr ∧ len = if lo % 2 = 1 then 4 else 2) ∧
    trapAsleep s a c eval = enterTrap { s with freeCtr := f } a c len (s.hart a).pc eval := by
  have either (c : Prop) [Decidable c] : (if c then 4 else 2) = 2 ∨ (if c then 4 else 2) = 4 := by split <;> simp
  cases fetched : fetchParcel { s with cur := a } { s with cur := a }.me.pc with
  | error e =>
    refine ⟨_, s.freeCtr + 1, either ((Config.free s.freeCtr).getLsbD 0 = true), fun lo ok => absurd (fetched.symm.trans ok) nofun, ?_⟩
    rw [trapAsleep, lengthStandIn_error fetched, standIn_length]
    rfl
  | ok lo =>
    refine ⟨_, s.freeCtr, either (lo % 2 = 1), fun lo' ok => ?_, ?_⟩
    · obtain rfl : lo = lo' := Except.ok.inj (fetched.symm.trans ok)
      exact ⟨rfl, rfl⟩
    · rw [trapAsleep, lengthStandIn_ok fetched, standIn_length]

theorem watchdogExpiry_due (unit : a.exists = true) (asleep : (s.hart a).status = .sleeping w since) (runs : agentRuns s a = true)
    (thread : a.isThread = true) (armed : (s.hart a).wdog ≠ 0) (due : (s.hart a).wdog.toNat < s.clock - since) :
    execWatchdogExpiry a s = .next (trapAsleep s a .watchdog (BitVec.ofNat 64 (s.clock - since))) := by
  simp only [execWatchdogExpiry, unit, asleep, runs, thread, Bool.not_true, Bool.false_eq_true, if_false, Bool.true_and]
  refine if_pos ?_
  simp only [Bool.and_eq_true, decide_eq_true_eq]
  exact ⟨armed, due⟩
theorem watchdogExpiry_early (unit : a.exists = true) (asleep : (s.hart a).status = .sleeping w since)
    (early : (s.hart a).wdog = 0 ∨ s.clock - since ≤ (s.hart a).wdog.toNat) : execWatchdogExpiry a s = .next s := by
  have : ¬ ((s.hart a).wdog ≠ 0 ∧ (s.hart a).wdog.toNat < s.clock - since) := by
    rintro ⟨armed, due⟩
    exact early.elim armed fun n => by omega
  simp only [execWatchdogExpiry, unit, asleep, Bool.not_true, Bool.false_eq_true, if_false]
  refine if_neg ?_
  simp only [Bool.and_eq_true, decide_eq_true_eq]
  exact fun all => this ⟨all.1.2, all.2⟩

end Sleeping

/-! ## An agent that completes the instruction it slept in -/

section Completing
variable {s : State} {a : AgentId}

@[simp] theorem State.me_asCur (s : State) (a : AgentId) (h : Hart) : State.me { s.setHart a h with cur := a } = h := s.hart_setHart a h

/-- With no chain bound it writes its registers and goes on past the instruction. -/
theorem completeFor_plain (h : (s.hart a).chain = none) (i : Instr) (ws : List (Reg × Word)) : completeFor a i ws s =
    { done i ws { s.setHart a { s.hart a with status := .ready, wokenAt := some s.clock } with cur := a } with cur := s.cur } := by
  rw [completeFor, retire_plain]
  rw [State.me_asCur]
  exact h

theorem completeFor_renqs (h : (s.hart a).chain = none) (i : Instr) (ws : List (Reg × Word)) : (completeFor a i ws s).renqs = s.renqs := by
  rw [completeFor_plain h]
  rfl
theorem completeFor_renqCredits (h : (s.hart a).chain = none) (i : Instr) (ws : List (Reg × Word)) :
    (completeFor a i ws s).renqCredits = s.renqCredits := by
  rw [completeFor_plain h]
  rfl
/-- Its register and its pc. -/
theorem completeFor_hart (h : (s.hart a).chain = none) (i : Instr) (d : Reg) (v : Word) : (completeFor a i [(d, v)] s).hart a =
    { (s.hart a).setReg d v with status := .ready, wokenAt := some s.clock, pc := (s.hart a).pc + BitVec.ofNat 64 i.length } := by
  rw [completeFor_plain h]
  refine (State.hart_setMe { s.setHart a { s.hart a with status := .ready, wokenAt := some s.clock } with cur := a } _).trans ?_
  rw [State.me_asCur, Hart.setRegs_one]
  unfold Hart.setReg
  split <;> rfl

end Completing

/-! ## Answers (R199, R398, R400) -/

section Answers
variable {s : State} {a : AgentId} {r : Renq}

/-- The only mark that a packet's answer changes is the answer. -/
theorem Renq.of_answered (s : State) (a : AgentId) (r : Renq) (n : Option Nat) : Renq.of s a { r with answer := n } = Renq.of s a r := rfl

/-- The packet that is found first and is there once, marked as answered, is the one that leaves the list. -/
theorem erase_answered {p : Renq → Bool} {f : Renq → Renq} : ∀ {l : List Renq}, l.find? p = some r → p (f r) = true → l.count r = 1 →
    (l.map fun x => if x = r then f x else x).erase (f r) = l.erase r
  | [], found, _, _ => by simp at found
  | x :: l, found, answered, once => by
    by_cases px : p x = true
    · obtain rfl : x = r := by simpa [px] using found
      have rest : x ∉ l := by simpa [List.count_cons_self, List.count_eq_zero] using once
      have same : (l.map fun y => if y = x then f y else y) = l :=
        (List.map_congr_left fun y mem => if_neg (ne_of_mem_of_not_mem mem rest)).trans (List.map_id l)
      simp [same]
    · have ne : x ≠ r := fun e => px (e ▸ List.find?_some found)
      have ne' : x ≠ f r := fun e => px (e ▸ answered)
      have once : l.count r = 1 := by rwa [List.count_cons_of_ne ne] at once
      have found : l.find? p = some r := by simpa [List.find?_cons, px] using found
      simp [ne, ne', erase_answered found answered once]

/-- The packet found is its sender's own, and its sender waits for the answer. -/
theorem Renq.of_found (found : s.renqs.find? (Renq.of s a) = some r) : r.sender = a ∧ (r.ack && !r.gone) = true := by
  have := List.find?_some found
  simp only [Renq.of, Bool.and_eq_true, decide_eq_true_eq] at this
  simp [this]

/-- The packet's answer completes its sender: the packet is gone, and the status is in its register. -/
theorem answerWith_eq (chain : (s.hart r.sender).chain = none) (n : Nat) : (answerWith s r n).renqs = s.renqs.erase r ∧
    (answerWith s r n).renqCredits = s.renqCredits ∧
    (answerWith s r n).hart r.sender = { (s.hart r.sender).setReg r.dest_ (BitVec.ofNat 64 n) with
      status := .ready, wokenAt := some s.clock, pc := (s.hart r.sender).pc + BitVec.ofNat 64 r.instr.length } := by
  exact ⟨completeFor_renqs (s := { s with renqs := s.renqs.erase r }) chain ..,
    completeFor_renqCredits (s := { s with renqs := s.renqs.erase r }) chain ..,
    completeFor_hart (s := { s with renqs := s.renqs.erase r }) chain ..⟩

/-- The packet of a sender that waits is marked with its answer. -/
theorem packetAnswer_renqs (waits : (r.ack && !r.gone) = true) : (packetAnswer s r).2.renqs =
    s.renqs.map fun x => if x = r then { x with answer := some (packetAnswer s r).1 } else x := by
  simp only [packetAnswer, waits, if_true]

/-- The statuses of a receiver are 0, 1, 2 and 4 (R199). -/
theorem packetAnswer_status (s : State) (r : Renq) :
    (packetAnswer s r).1 = 0 ∨ (packetAnswer s r).1 = 1 ∨ (packetAnswer s r).1 = 2 ∨ (packetAnswer s r).1 = 4 := by
  unfold packetAnswer
  dsimp only
  split <;> simp

section Found
variable (found : s.renqs.find? (Renq.of s a) = some r)
include found

/-- An answer that has come is taken, but for a 3 whose record is not written yet (R400). -/
theorem answerRenq_came {n : Nat} (came : r.answer = some n) :
    answerRenq s a = if n = 3 && s.recordsWait then s else answerWith s r n := by
  simp only [answerRenq, found, came]

/-- One that has not come does not come over ports that are down or retrain (R398). -/
theorem answerRenq_unreachable (waits : r.answer = none) (down : reach s r.dest ≠ .up) : answerRenq s a = s := by
  simp only [answerRenq, found, waits]
  exact if_pos down

/-- Over a port that is up it comes, with a credit for its destination. -/
theorem answerRenq_comes (waits : r.answer = none) (up : reach s r.dest = .up) :
    answerRenq s a = answerWith (packetAnswer s r).2 { r with answer := some (packetAnswer s r).1 } (packetAnswer s r).1 := by
  simp only [answerRenq, found, waits]
  exact if_neg fun down => down up

/-- The packet that is answered is gone from the list once its sender has taken the answer. -/
theorem packetAnswer_erase (once : s.renqs.count r = 1) :
    (packetAnswer s r).2.renqs.erase { r with answer := some (packetAnswer s r).1 } = s.renqs.erase r := by
  have answered : Renq.of s a { r with answer := some (packetAnswer s r).1 } = true :=
    (Renq.of_answered ..).trans (List.find?_some found)
  rw [packetAnswer_renqs (Renq.of_found found).2]
  exact erase_answered (f := fun x => { x with answer := some (packetAnswer s r).1 }) found answered once

end Found

end Answers

/-! ## A value wait that reads its location again (R187) -/

section Reread
variable {s : State} {a : AgentId} {i : Instr} {addr : Nat}

/-- The comparison of a `waitv` at its access size. -/
def waitHolds (holds : (n : Nat) → BitVec n → BitVec n → Bool) (z : Width) (m : Nat) (v : Word) : Bool :=
  match z with
  | .w => holds 32 (BitVec.ofNat 32 m) (v.setWidth 32)
  | .d => holds 64 (BitVec.ofNat 64 m) v

/-- A read of a bank or of a local memory goes on with the bytes there, and changes nothing. -/
theorem readAt_window {sc : Scope} {va : Word} {n : Nat} {plainD : Bool} {k : Nat → State → Out}
    (window : (∃ c, resolve s s.cur s.me.task va n .read plainD = .ok (.localMem c addr)) ∨
      ∃ b j, resolve s s.cur s.me.task va n .read plainD = .ok (.bank b j addr)) :
    readAt i s sc va n plainD k = k (valueAt s.backing addr n) s := by
  rw [← backingBytes_eq]
  obtain ⟨c, place⟩ | ⟨b, j, place⟩ := window <;> simp only [readAt, place]

/-- A relaxed `waitv` of such an address completes with the value, or sleeps on its line. -/
theorem waitValue_window {z : Width} {sc : Scope} {d x y : Reg} {holds : (n : Nat) → BitVec n → BitVec n → Bool}
    (may : MayRun i s) (codelet : s.me.codelet = false)
    (window : (∃ c, resolve s s.cur s.me.task (s.me.reg x) (widthBytes z) .read false = .ok (.localMem c addr)) ∨
      ∃ b j, resolve s s.cur s.me.task (s.me.reg x) (widthBytes z) .read false = .ok (.bank b j addr)) :
    waitValue i false z sc d x y holds s =
      if waitHolds holds z (valueAt s.backing addr (widthBytes z)) (s.me.reg y)
        then .next (done i [(d, BitVec.ofNat 64 (valueAt s.backing addr (widthBytes z)))] s)
        else .next (asleep (.value (watchedLine s (s.me.reg x))) s) := by
  rw [waitValue, issue_mayRun may, notInCodelet, codelet, if_neg Bool.false_ne_true, readAt_window window]
  cases z <;> simp only [waitHolds, retire_plain may.2, sleepOn_eq, Bool.false_eq_true, if_false] <;> rfl

theorem valueAt_lt (f : Nat → Byte) (b n : Nat) : valueAt f b n < 2 ^ (8 * n) := by
  induction n generalizing b with
  | zero => simp [valueAt]
  | succ n ih =>
    have := (f b).isLt
    have := ih (b + 1)
    rw [valueAt_succ, Nat.mul_succ, Nat.pow_add]
    omega

/-- The signed reading of a number at `n` bytes. -/
def signedAt (n k : Nat) : Int := if 2 ^ (8 * n - 1) ≤ k then (k : Int) - 2 ^ (8 * n) else k

theorem toInt_ofNat_at {n k : Nat} (h : 0 < n) (fits : k < 2 ^ (8 * n)) : (BitVec.ofNat (8 * n) k).toInt = signedAt n k := by
  have half : 2 ^ (8 * n) = 2 * 2 ^ (8 * n - 1) := by rw [← Nat.pow_succ']; congr 1; omega
  rw [BitVec.toInt_eq_toNat_cond, BitVec.toNat_ofNat, Nat.mod_eq_of_lt fits, signedAt]
  grind

section Compare
variable {z : Width} {m : Nat} {v : Word}

/-- The operand at the access size. -/
def operandAt (z : Width) (v : Word) : Nat := v.toNat % 2 ^ (8 * widthBytes z)

theorem operandAt_lt (z : Width) (v : Word) : operandAt z v < 2 ^ (8 * widthBytes z) := Nat.mod_lt _ (Nat.two_pow_pos _)

theorem waitHolds_eq (holds : (n : Nat) → BitVec n → BitVec n → Bool) (z : Width) (m : Nat) (v : Word) : waitHolds holds z m v =
    holds (8 * widthBytes z) (BitVec.ofNat (8 * widthBytes z) m) (BitVec.ofNat (8 * widthBytes z) (operandAt z v)) := by
  cases z with
  | w =>
    have low : v.setWidth 32 = BitVec.ofNat 32 (operandAt .w v) := BitVec.eq_of_toNat_eq (by simp [operandAt, widthBytes])
    rw [waitHolds, low]
    rfl
  | d =>
    have whole : BitVec.ofNat 64 (operandAt .d v) = v := BitVec.eq_of_toNat_eq (by simpa [operandAt, widthBytes] using v.isLt)
    show holds 64 _ v = holds 64 _ (BitVec.ofNat 64 _)
    rw [whole]
    rfl

section Fits
variable (fits : m < 2 ^ (8 * widthBytes z))
include fits

theorem waitHolds_eq_iff : waitHolds (fun _ x y => x = y) z m v = true ↔ m = operandAt z v := by
  rw [waitHolds_eq, decide_eq_true_eq, ← BitVec.toNat_inj, BitVec.toNat_ofNat, BitVec.toNat_ofNat, Nat.mod_eq_of_lt fits,
    Nat.mod_eq_of_lt (operandAt_lt z v)]
theorem waitHolds_ne_iff : waitHolds (fun _ x y => x ≠ y) z m v = true ↔ m ≠ operandAt z v := by
  rw [waitHolds_eq, decide_eq_true_eq, ne_eq, ← BitVec.toNat_inj, BitVec.toNat_ofNat, BitVec.toNat_ofNat, Nat.mod_eq_of_lt fits,
    Nat.mod_eq_of_lt (operandAt_lt z v)]
theorem waitHolds_lt_iff : waitHolds (fun _ x y => x.slt y) z m v = true ↔
    signedAt (widthBytes z) m < signedAt (widthBytes z) (operandAt z v) := by
  have bytes : 0 < widthBytes z := by cases z <;> decide
  rw [waitHolds_eq, BitVec.slt_iff_toInt_lt, toInt_ofNat_at bytes fits, toInt_ofNat_at bytes (operandAt_lt z v)]
theorem waitHolds_ge_iff : waitHolds (fun _ x y => !x.slt y) z m v = true ↔
    signedAt (widthBytes z) (operandAt z v) ≤ signedAt (widthBytes z) m := by
  rw [← Int.not_lt, ← waitHolds_lt_iff fits, waitHolds_eq, waitHolds_eq, Bool.not_eq_true', Bool.not_eq_true]

end Fits

end Compare

/-- A `waitv` that sleeps on has slept since it first did. -/
theorem keepSince_asleep {l m since : Nat} {h : Hart} (asleep : h.status = .sleeping (.value l) m) :
    keepSince a since (s.setHart a h) = s.setHart a { h with status := .sleeping (.value l) since } := by
  simp only [keepSince, State.hart_setHart, asleep, State.setHart_setHart_same]

theorem keepSince_ready {since : Nat} (ready : (s.hart a).status = .ready) : keepSince a since s = s := by
  simp only [keepSince, ready]

/-- The place of an access in the device window is the one that its address resolves to. -/
theorem resolve_of_atWindow {va : Word} {n : Nat} (access : accessOf s.me i = some (va, n)) (window : AtWindow i s addr) :
    (∃ c, resolve s s.cur s.me.task va n (accessKind i) (isPlainD i) = .ok (.localMem c addr)) ∨
      ∃ b k, resolve s s.cur s.me.task va n (accessKind i) (isPlainD i) = .ok (.bank b k addr) := by
  simpa only [AtWindow, landing, access, Option.map_some, Option.some.injEq] using window

section Performed
variable {w : Wait} {since : Nat} {t : State} (asleep : (s.hart a).status = .sleeping w since) (woken : t = { makeReady s a with cur := a })
include asleep woken

theorem woken_me : t.me = { s.hart a with status := .ready, wokenAt := some s.clock, receiving := decide (w = .message) } := by
  rw [woken, makeReady_sleeping asleep, State.me_asCur]

/-- A meaning that completes leaves its agent Ready. -/
theorem keepSince_completed {f : State → Out} {ws : List (Reg × Word)} (f_eq : f t = .next (done i ws t)) :
    keepSince a since (performAs s a f) = { done i ws t with cur := s.cur } := by
  have performed : performAs s a f = { done i ws t with cur := s.cur } := by rw [performAs, ← woken, f_eq]; rfl
  have cur : t.cur = a := by rw [woken]
  rw [performed]
  refine keepSince_ready ?_
  have hart : ({ done i ws t with cur := s.cur } : State).hart a = { t.me.setRegs ws with pc := t.me.pc + BitVec.ofNat 64 i.length } := by
    rw [← cur]; exact State.hart_setMe t _
  rw [hart]
  show (t.me.setRegs ws).status = .ready
  rw [Hart.setRegs_status, woken_me asleep woken]

/-- One that sleeps on a value has slept since the agent went to sleep. -/
theorem keepSince_sleeps {f : State → Out} {l : Nat} (f_eq : f t = .next (Safety.asleep (.value l) t)) :
    keepSince a since (performAs s a f) = s.setHart a { s.hart a with
      status := .sleeping (.value l) since, wokenAt := some s.clock, receiving := decide (w = .message) } := by
  have performed : performAs s a f = s.setHart a { t.me with status := .sleeping (.value l) t.clock } := by
    rw [performAs, ← woken, f_eq]
    simp only [outState, Safety.asleep, State.setMe, woken, makeReady, State.setHart, tset_tset_same]
  rw [performed, keepSince_asleep rfl, woken_me asleep woken]

end Performed

/-- The value waits. -/
def isWaitv : Instr → Bool
  | .waitvEq .. | .waitvNe .. | .waitvLt .. | .waitvGe .. => true
  | _ => false

/-- An agent that sleeps in a value wait runs it again when its location is read again, and sleeps on from when it first slept. -/
theorem waitvReread_runs {l since : Nat} (unit : a.exists = true) (asleep : (s.hart a).status = .sleeping (.value l) since)
    (runs : agentRuns s a = true) (instr : instrOf s a = some i) (waitv : isWaitv i = true) :
    execWaitvReread a s = .next (keepSince a since (performAs s a (exec i))) := by
  unfold isWaitv at waitv
  split at waitv
  case h_5 => exact absurd waitv Bool.false_ne_true
  all_goals
    simp only [execWaitvReread, unit, asleep, runs, instr, Bool.not_true, Bool.false_eq_true, if_false]
    rfl

/-- A sleeping `waitv` that reads its location again completes where the comparison holds, and sleeps on where it does not. -/
theorem reread_window {l since : Nat} {t : State} {z : Width} {sc : Scope} {d x y : Reg} {holds : (n : Nat) → BitVec n → BitVec n → Bool} {Q : Prop}
    (asleep : (s.hart a).status = .sleeping (.value l) since) (woken : t = { makeReady s a with cur := a }) (codelet : (s.hart a).codelet = false)
    (may : MayRun i t) (access : accessOf t.me i = some (t.me.reg x, widthBytes z)) (kind : accessKind i = .read ∧ isPlainD i = false)
    (window : AtWindow i t addr)
    (run : execWaitvReread a s = .next (keepSince a since (performAs s a (waitValue i false z sc d x y holds))))
    (iff : waitHolds holds z (valueAt s.backing addr (widthBytes z)) ((s.hart a).reg y) = true ↔ Q) :
    (Q → execWaitvReread a s = .next { done i [(d, BitVec.ofNat 64 (valueAt s.backing addr (widthBytes z)))] t with cur := s.cur }) ∧
    (¬ Q → ∃ l', execWaitvReread a s = .next (s.setHart a { s.hart a with
      status := .sleeping (.value l') since, wokenAt := some s.clock, receiving := false })) := by
  have me := woken_me asleep woken
  have backing : t.backing = s.backing := by rw [woken, makeReady_sleeping asleep]; rfl
  have place := resolve_of_atWindow access window
  rw [kind.1, kind.2] at place
  have performed := waitValue_window (sc := sc) (d := d) (y := y) (holds := holds) may (by rw [me]; exact codelet) place
  have operand : t.me.reg y = (s.hart a).reg y := by rw [me]; rfl
  rw [backing, operand] at performed
  refine ⟨fun q => ?_, fun q => ⟨watchedLine t (t.me.reg x), ?_⟩⟩
  · rw [if_pos (iff.mpr q)] at performed
    rw [run, keepSince_completed asleep woken performed]
  · rw [if_neg (mt iff.mp q)] at performed
    rw [run, keepSince_sleeps asleep woken performed]
    rfl

end Reread

/-! ## Page faults (R206, R293, R297) -/

section Pages
variable {s : State} {a : AgentId} {t : Nat} {va pte : Word} {since : Nat}

theorem faultPage_agent (asleep : (s.hart a).status = .sleeping (.page va) since) (task : (s.hart a).task = some t) :
    faultPage s (.agent a) = some (t, va) := by
  simp only [faultPage, asleep, task]

/-- An entry that R293 calls malformed maps nothing. -/
theorem mapPage_malformed (malformed : pte.getLsbD 0 = false ∨ pte.getLsbD 7 = false ∨ pte &&& Pte.reserved ≠ 0) :
    mapPage s t va pte = none := by
  have illegal : entryLegal s (va.toNat % 2 ^ 57 / 4096) pte = false := by
    simp only [entryLegal, Pte.bit]
    obtain bit | bit | bits := malformed
    · simp only [bit, Bool.false_and]
    · simp only [bit, Bool.and_false, Bool.false_and]
    · simp only [bits, decide_false, Bool.and_false, Bool.false_and]
  simp only [mapPage, illegal, Bool.not_false, Bool.true_or, if_true]

/-- A leaf entry for a page alone, of a backed frame of an enabled unit, maps that page. -/
theorem mapPage_single (valid : pte.getLsbD 0 = true) (leaf : pte.getLsbD 7 = true) (single : pte.getLsbD 8 = false)
    (reserved : pte &&& Pte.reserved = 0) (backed : Pte.backed (Pte.frame pte) = true)
    (enabled : frameEnabled s.closedUnits (Pte.frame pte / 4096) = true) (outside : inWindowRange va.toNat = false) :
    mapPage s t va pte = some { s with maps := (t, va.toNat % 2 ^ 57 / 4096, pte) ::
      (s.maps.filter fun m => !(m.1 = t && m.2.1 = va.toNat % 2 ^ 57 / 4096)) } := by
  have group : mappedGroup (va.toNat % 2 ^ 57 / 4096) pte = [(va.toNat % 2 ^ 57 / 4096, pte)] := by
    simp only [mappedGroup, Pte.bit, single, Bool.false_eq_true, if_false]
  have legal : entryLegal s (va.toNat % 2 ^ 57 / 4096) pte = true := by
    simp only [entryLegal, group, Pte.bit, valid, leaf, single, reserved, List.all_cons, List.all_nil, backed, enabled]
    rfl
  simp only [mapPage, legal, outside, group, Bool.not_true, Bool.or_false, Bool.false_eq_true, if_false, List.map_cons, List.map_nil,
    List.any_cons, List.any_nil, List.singleton_append, eq_comm]

section Faulting
variable (asleep : (s.hart a).status = .sleeping (.page va) since) (task : (s.hart a).task = some t) (runs : agentRuns s a = true)
include asleep task

/-- Krany's answer that maps nothing leaves the fault. -/
theorem pageFaultResolved_unmapped (unmapped : mapPage s t va pte = none) : execPageFaultResolved (.agent a) pte none s = .next s := by
  simp only [execPageFaultResolved, faultPage_agent asleep task, unmapped]

include runs

/-- Where it maps the page the agent is Ready. -/
theorem pageFaultResolved_mapped {maps : List (Nat × Nat × Word)} (mapped : mapPage s t va pte = some { s with maps := maps }) :
    execPageFaultResolved (.agent a) pte none s =
      .next { s.setHart a { s.hart a with status := .ready, wokenAt := some s.clock, receiving := false } with maps := maps } := by
  have asleep' : (State.hart { s with maps := maps } a).status = .sleeping (.page va) since := asleep
  have held : siteHeld { s with maps := maps } (.agent a) = false := taskHeld_of_agentRuns runs
  simp only [execPageFaultResolved, faultPage_agent asleep task, mapped, noteHome, asleep', held, Bool.false_eq_true, if_false, makeReady_sleeping asleep']
  rfl

end Faulting

theorem faultUnresolvable_traps (asleep : (s.hart a).status = .sleeping (.page va) since) (runs : agentRuns s a = true) :
    execFaultUnresolvable (.agent a) s = .next (trapAsleep s a .pageFault va) := by
  have held : siteHeld s (.agent a) = false := taskHeld_of_agentRuns runs
  simp only [execFaultUnresolvable, held, asleep, Bool.false_eq_true, if_false]

end Pages
/-! ## Answers taken and values read again -/

section Sleepers
variable {s : State} {a : AgentId} {w : Wait} {since : Nat}

/-- The sleeper in `renq.ack` wakes with the answer in its register and goes on, and its packet is gone. -/
def TakesAnswer (s : State) (a : AgentId) (r : Renq) (u : State) (v : Word) : Prop :=
  execThreadWake a s = .next u ∧ u.renqs = s.renqs.erase r ∧
  u.hart a = { (s.hart a).setReg r.dest_ v with status := .ready, wokenAt := some s.clock, pc := (s.hart a).pc + BitVec.ofNat 64 r.instr.length }

/-- What a sleeper in `renq.ack` does with the packet's answer. -/
theorem answer_taken {r : Renq} (unit : a.exists = true) (asleep : (s.hart a).status = .sleeping .answer since) (runs : agentRuns s a = true)
    (found : s.renqs.find? (Renq.of s a) = some r) (chain : (s.hart a).chain = none) :
    (r.answer = none → reach s r.dest ≠ .up → execThreadWake a s = .next s) ∧
    (r.answer = none → reach s r.dest = .up → s.renqs.count r = 1 → ∃ u v, TakesAnswer s a r u v ∧ (v = 0 ∨ v = 1 ∨ v = 2 ∨ v = 4) ∧
      u.renqCredits = tset r.dest (tget 0 r.dest s.renqCredits + 1) s.renqCredits) ∧
    (∀ n, r.answer = some n → n ≠ 3 ∨ s.recordsWait = false → ∃ u, TakesAnswer s a r u (BitVec.ofNat 64 n) ∧ u.renqCredits = s.renqCredits) ∧
    (r.answer = some 3 → s.recordsWait = true → execThreadWake a s = .next s) := by
  have wake := threadWake_answer unit asleep runs
  obtain ⟨rfl, -⟩ := Renq.of_found found
  refine ⟨fun waits down => ?unreachable, fun waits up once => ?comes, fun n came written => ?came, fun came unwritten => ?unwritten⟩
  case unreachable => rw [wake, answerRenq_unreachable found waits down]
  case comes =>
    obtain ⟨renqs, credits, hart⟩ := answerWith_eq (s := (packetAnswer s r).2) (r := { r with answer := some (packetAnswer s r).1 }) chain (packetAnswer s r).1
    refine ⟨_, BitVec.ofNat 64 (packetAnswer s r).1, ⟨by rw [wake, answerRenq_comes found waits up], ?_, hart⟩, ?_, credits⟩
    · exact renqs.trans (packetAnswer_erase found once)
    · obtain status | status | status | status := packetAnswer_status s r <;> simp [status]
  case came =>
    obtain ⟨renqs, credits, hart⟩ := answerWith_eq chain n
    have taken : (decide (n = 3) && s.recordsWait) = false := by obtain other | written := written <;> simp [*]
    exact ⟨_, ⟨by rw [wake, answerRenq_came found came, taken]; rfl, renqs, hart⟩, credits⟩
  case unwritten => rw [wake, answerRenq_came found came, unwritten]; rfl

/-- A value wait in the device window, of any of the four comparisons. -/
theorem waitv_rereads {l addr : Nat} {z : Width} {sc : Scope} {d x y : Reg} {i : Instr} {t : State} {Q : Prop} {holds : (n : Nat) → BitVec n → BitVec n → Bool}
    (unit : a.exists = true) (asleep : (s.hart a).status = .sleeping (.value l) since) (runs : agentRuns s a = true)
    (codelet : (s.hart a).codelet = false) (woken : t = { makeReady s a with cur := a }) (waitv : isWaitv i = true)
    (meaning : exec i = waitValue i false z sc d x y holds) (access : accessOf t.me i = some (t.me.reg x, widthBytes z))
    (kind : accessKind i = .read ∧ isPlainD i = false)
    (iff : waitHolds holds z (valueAt s.backing addr (widthBytes z)) ((s.hart a).reg y) = true ↔ Q)
    (instr : instrOf s a = some i) (may : MayRun i t) (window : AtWindow i t addr) :
    (Q → execWaitvReread a s = .next { done i [(d, BitVec.ofNat 64 (valueAt s.backing addr (widthBytes z)))] t with cur := s.cur }) ∧
    (¬ Q → ∃ l', execWaitvReread a s = .next (s.setHart a { s.hart a with
      status := .sleeping (.value l') since, wokenAt := some s.clock, receiving := false })) := by
  have run := waitvReread_runs unit asleep runs instr waitv
  rw [meaning] at run
  exact reread_window asleep woken codelet may access kind window run iff

end Sleepers

/-- Settles O47: sleepers by what they wait for, then the watchdog, the value waits, the page faults and the word that is no instruction. -/
theorem wakingAndFaults : Obligations.WakingAndFaults := by
  intro s a unit
  refine ⟨fun w since asleep runs => ⟨fun codelet answer packet => ?plain, fun dest waits credit => ?packet,
    fun waits r found chain => ?answer, fun thread => ⟨fun armed due => ?expires, watchdogExpiry_early unit asleep⟩,
    fun l z sc d x y addr waits codelet => ?value, fun va t waits task => ?page⟩, threadWake_ready unit, rfl⟩
  case plain =>
    have wake := threadWake_plain unit asleep runs codelet answer packet
    rw [makeReady_sleeping asleep] at wake
    exact ⟨fun done => wake.trans (if_pos done), fun waits => wake.trans (if_neg (by simp [waits]))⟩
  case packet =>
    subst waits
    exact (threadWake_packetSlot unit asleep runs credit).trans (by rw [makeReady_sleeping asleep])
  case answer =>
    subst waits
    exact answer_taken unit asleep runs found chain
  case expires =>
    obtain ⟨len, f, size, read, trap⟩ := trapAsleep_eq s a .watchdog (BitVec.ofNat 64 (s.clock - since))
    exact ⟨len, f, size, read, (watchdogExpiry_due unit asleep runs thread armed due).trans (by rw [trap])⟩
  case value =>
    subst waits
    have woken := congrArg (fun u : State => { u with cur := a }) (makeReady_sleeping asleep).symm
    have fits := valueAt_lt s.backing addr (widthBytes z)
    exact ⟨waitv_rereads unit asleep runs codelet woken rfl rfl rfl ⟨rfl, rfl⟩ (waitHolds_eq_iff fits),
      waitv_rereads unit asleep runs codelet woken rfl rfl rfl ⟨rfl, rfl⟩ (waitHolds_ne_iff fits),
      waitv_rereads unit asleep runs codelet woken rfl rfl rfl ⟨rfl, rfl⟩ (waitHolds_lt_iff fits),
      waitv_rereads unit asleep runs codelet woken rfl rfl rfl ⟨rfl, rfl⟩ (waitHolds_ge_iff fits)⟩
  case page =>
    subst waits
    refine ⟨fun pte malformed => pageFaultResolved_unmapped asleep task (mapPage_malformed malformed), ?_, ?_⟩
    · intro pte valid leaf single reserved backed enabled outside
      exact pageFaultResolved_mapped asleep task runs (mapPage_single valid leaf single reserved backed enabled outside)
    · obtain ⟨len, f, size, read, trap⟩ := trapAsleep_eq s a .pageFault va
      exact ⟨len, f, size, read, (faultUnresolvable_traps asleep runs).trans (by rw [trap])⟩

end Sys2Proof.Machine
end

section
/-! SUPPORT. A tile that has fired in a cycle fires no other instruction in it (R104), which the statements on firings leave out. -/

namespace Sys2Proof.Machine

open Sys2Proof.Safety

section Fired
variable {s : State} {i : Instr} {cl pos idx : Nat}

theorem readyFiring_hasFired (fired : hasFired s cl pos = true) : readyFiring s cl pos idx = none := if_pos fired

theorem cellOp_hasFired (cur : s.cur = .tile cl pos idx) (fired : hasFired s cl pos = true) : cellOp i s = .next s := by
  simp only [cellOp, asFiring, cur, fireCell, readyFiring_hasFired fired]

/-- A firing on data counts, so it leaves another state. -/
theorem not_fired_self {takes : List (Nat × Src)} {sends : List (Tgt × Token)} {flights : List Flight} {f : Flags} :
    ¬ Fired s s cl pos idx true takes sends flights f := by
  intro h
  have counted := h.counts idx
  simp at counted

/-- A meaning that changes nothing is no firing on data. -/
theorem no_firing_of_unchanged {o : Out} (unchanged : o = .next s) {takes : List (Nat × Src)} {sends : List (Tgt × Token)} {flights : List Flight} {f : Flags} :
    ¬ ∃ u, o = .next u ∧ Fired s u cl pos idx true takes sends flights f := by
  rintro ⟨u, next, firing⟩
  obtain rfl : s = u := by simpa [unchanged] using next
  exact not_fired_self firing

end Fired

/-- Tile 0 of cluster 0 with an instruction in slot 15 and a data token in its slot A, in the cycle in which the tile has fired another instruction. -/
def firedTile (i : Instr) : State :=
  let s := { placeTile (placeBase State.reset []) 0 ((encodeWord i).getD 0) with cur := .tile 0 0 15 }
  s.setTile 0 0 { s.tile 0 0 with lastFired := some s.clock }

/-- The context that the tile runs. -/
def firedContext (i : Instr) : TileContext := vget TileContext.fresh ((firedTile i).tile 0 0).contexts 0

/-- The shape of a cell word whose one source is the token of slot A and whose one target is `done`. -/
def tokenToDone (options : Options) : CellShape := ⟨.none, .done, .tok, none, false, options, 1⟩

/-- The instructions of the counterexamples: one that computes, one that routes and one that takes constants. -/
def firedInstrs : List Instr := [.vmov .none .done .tok, .vdrop .none .done .tok, .vcfgt .n .none .done .tok]

theorem firedTile_hasFired (i : Instr) : hasFired (firedTile i) 0 0 = true := by
  simp only [hasFired, firedTile, State.tile_setTile, State.setTile_clock, decide_true]

theorem exec_firedTile {i : Instr} (cell : exec i = cellOp i) : exec i (firedTile i) = .next (firedTile i) := by
  rw [cell]
  exact cellOp_hasFired rfl (firedTile_hasFired i)

theorem firedTile_runs : ∀ i ∈ firedInstrs, tileActive (firedTile i) 0 = true ∧ contextOf (firedTile i) 0 0 = some (firedContext i) ∧
    (firedContext i).instr 15 = some (i, .implied) := by
  decide +kernel

theorem firedTile_landed : ∀ i ∈ firedInstrs, landedToken (firedTile i) ((firedTile i).tile 0 0) 15 0 .tok = some placeToken := by
  decide +kernel

theorem firedTile_placed {i : Instr} {options : Options} (mem : i ∈ firedInstrs) (shape : cellShape i = some (tokenToDone options)) :
    Placed (firedTile i) 0 0 15 i (firedContext i) .implied (tokenToDone options) := by
  obtain ⟨active, context, slot⟩ := firedTile_runs i mem
  exact ⟨active, context, slot, shape, nofun, nofun⟩

/-- The token is data, so no source holds a config token. -/
theorem firedTile_configSource {i : Instr} (mem : i ∈ firedInstrs) : configSource (firedTile i) ((firedTile i).tile 0 0) 15 [(0, .tok)] = none := by
  simp only [configSource, firedTile_landed _ mem]
  rfl

/-- Refutes O39: it lets a tile fire that has fired in the same cycle, where `exec` changes nothing (R104). The case is `vmov` from slot A to `done`. -/
theorem not_laneFirings : ¬ Obligations.LaneFirings := by
  unfold Obligations.LaneFirings
  rintro ⟨firings, -, -⟩
  have mem : Instr.vmov .none .done .tok ∈ firedInstrs := by simp [firedInstrs]
  have placed := firedTile_placed mem rfl
  obtain ⟨u, next, firing, -⟩ := (firings _ 0 0 15 _ _ _ _ laneMov rfl placed rfl).1 (firedTile_configSource mem)
    (by simp [onlyTokens, lettered, tokenToDone, isTokenSource, firedTile_landed _ mem])
    (by simp [tokenToDone, Prefix.implied, canAccept])
  exact no_firing_of_unchanged (exec_firedTile rfl) ⟨u, next, firing⟩

/-- Refutes O40: it lets a tile fire that has fired in the same cycle, where `exec` changes nothing (R104). The case is `vdrop` of a token that is no end. -/
theorem not_routingFirings : ¬ Obligations.RoutingFirings := by
  unfold Obligations.RoutingFirings
  intro firings
  have mem : Instr.vdrop .none .done .tok ∈ firedInstrs := by simp [firedInstrs]
  have placed := firedTile_placed mem rfl
  have drops := (firings _ 0 0 15 _ _ _ _ rfl placed (firedTile_configSource mem)).1 (by simp [lettered, tokenToDone, firedTile_landed _ mem])
  have dropped := (drops.2.2.1 _ _ _ rfl).2 (by simp [tokenToDone, firedTile_landed _ mem, placeToken]) (by simp)
  exact no_firing_of_unchanged (exec_firedTile rfl) dropped

/-- Refutes O41: it lets a tile fire that has fired in the same cycle, where `exec` changes nothing (R104). The case is `vcfgt.n` on a data token. -/
theorem not_configAndEscapeFirings : ¬ Obligations.ConfigAndEscapeFirings := by
  unfold Obligations.ConfigAndEscapeFirings
  intro firings
  have mem : Instr.vcfgt .n .none .done .tok ∈ firedInstrs := by simp [firedInstrs]
  have placed := firedTile_placed mem rfl
  obtain ⟨passes, -, -⟩ := (firings _ 0 0 15 _ _ _ _ placed).2.1 rfl _ _ _ _ rfl (firedTile_landed _ mem)
  exact no_firing_of_unchanged (exec_firedTile rfl) (passes rfl (by simp [Prefix.implied, canAccept]))

end Sys2Proof.Machine
end

section
/-! SUPPORT. Tokens, credits and replies that arrive, and escapes that start threads (R101, R103, R105, R132, R133, R268, R269). -/

namespace Sys2Proof.Machine

open Sys2Proof.Safety

/-! ## Lists and vectors -/

theorem nth?_setNth {α : Type} {l : List α} {n : Nat} {x : α} (found : nth? l n = some x) (y : α) : nth? (setNth l n y) n = some y := by
  induction l generalizing n with
  | nil => cases found
  | cons a r ih => cases n with
    | zero => rfl
    | succ n => exact ih found

theorem vget_vset {α : Type} {n k : Nat} (bound : k < n) (d : α) (v : Vector α n) (x : α) : vget d (vset v k x) k = x := by
  simp [vget, vset, bound]

theorem link_code_lt (l : Link) : l.code < 4 := by cases l <;> decide

/-! ## A tile replaced -/

section Tiles
variable {s : State} {cl pos : Nat} {t : Tile}

/-- What a replaced tile keeps, every tile keeps. -/
theorem State.tile_setTile_keeps {α : Type} (f : Tile → α) (same : f t = f (s.tile cl pos)) (c p : Nat) : f ((s.setTile cl pos t).tile c p) = f (s.tile c p) := by
  by_cases at_ : (cl, pos) = (c, p)
  · obtain ⟨rfl, rfl⟩ := Prod.mk.inj at_
    rw [State.tile_setTile, same]
  · rw [State.tile, State.setTile, tget_tset_ne _ at_]
    rfl

/-- Where links lead depends on no more of a tile than its contexts. -/
theorem linkEnd_setTile (same : t.contexts = (s.tile cl pos).contexts) (c p : Nat) (l : Link) :
    linkEnd (s.setTile cl pos t) c p l = linkEnd s c p l := by
  have contexts := State.tile_setTile_keeps Tile.contexts same c p
  have context : contextOf (s.setTile cl pos t) c p = contextOf s c p := by
    rw [contextOf, contexts]
    rfl
  rw [linkEnd, context]
  rfl

theorem flightsOf_setTile (same : t.contexts = (s.tile cl pos).contexts) (c p idx latency : Nat) (sends : List (Tgt × Token)) :
    flightsOf (s.setTile cl pos t) c p idx latency sends = flightsOf s c p idx latency sends := by
  simp only [flightsOf, hopOf, linkEnd_setTile same]
  rfl

end Tiles

/-! ## Results sent (R103 to R105) -/

/-- A token sent changes its tile alone: the result is in flight, and its contexts and tickets stand. -/
theorem sendToken_eq (s : State) (cl pos idx latency : Nat) (x : Tgt × Token) :
    (x.1 = .none ∧ sendToken s cl pos idx latency x = s) ∨
    ∃ t, sendToken s cl pos idx latency x = s.setTile cl pos t ∧ t.flights = (s.tile cl pos).flights ++ flightsOf s cl pos idx latency [x] ∧
      t.contexts = (s.tile cl pos).contexts ∧ t.tickets = (s.tile cl pos).tickets := by
  obtain ⟨g, k⟩ := x
  cases g with
  | none => exact .inl ⟨rfl, rfl⟩
  | slotA | slotB | slotC | reg | link | done => exact .inr ⟨_, rfl, rfl, rfl, rfl⟩

theorem flightsOf_cons (s : State) (cl pos idx latency : Nat) (x : Tgt × Token) (r : List (Tgt × Token)) :
    flightsOf s cl pos idx latency (x :: r) = flightsOf s cl pos idx latency [x] ++ flightsOf s cl pos idx latency r :=
  List.filterMap_append (l := [x])

/-- What several tokens sent leave of the machine. -/
structure Sends (s u : State) (cl pos idx latency : Nat) (sends : List (Tgt × Token)) : Prop where
  harts : u.harts = s.harts
  mem : u.mem = s.mem
  flights : (u.tile cl pos).flights = (s.tile cl pos).flights ++ flightsOf s cl pos idx latency sends
  tickets : (u.tile cl pos).tickets = (s.tile cl pos).tickets

theorem sends_foldl (s : State) (cl pos idx latency : Nat) (sends : List (Tgt × Token)) :
    Sends s (sends.foldl (fun s x => sendToken s cl pos idx latency x) s) cl pos idx latency sends := by
  induction sends generalizing s with
  | nil => exact ⟨rfl, rfl, (List.append_nil _).symm, rfl⟩
  | cons x r ih =>
    obtain ⟨harts, mem, flights, tickets⟩ := ih (sendToken s cl pos idx latency x)
    obtain ⟨none, sent⟩ | ⟨t, sent, sentFlights, contexts, sentTickets⟩ := sendToken_eq s cl pos idx latency x
    · have nothing : flightsOf s cl pos idx latency [x] = [] := by simp [flightsOf, none]
      rw [sent] at harts mem flights tickets
      rw [List.foldl_cons, sent]
      exact ⟨harts, mem, by rw [flights, flightsOf_cons _ _ _ _ _ x r, nothing, List.nil_append], tickets⟩
    · rw [sent] at harts mem flights tickets
      rw [State.tile_setTile, sentFlights, flightsOf_setTile contexts] at flights
      rw [State.tile_setTile, sentTickets] at tickets
      rw [List.foldl_cons, sent]
      exact ⟨harts, mem, by rw [flights, flightsOf_cons _ _ _ _ _ x r, List.append_assoc], tickets⟩

/-! ## Replies (R133) -/

section Replies
variable {s : State} {cl pos idx ticket : Nat} {k : Ticket} {c : TileContext} {v : Payload} {due back : Nat} {ts : List Tgt}
  (found : (s.tile cl pos).tickets.find? (fun k => k.idx = idx && k.ticket = ticket) = some k) (context : contextOf s cl pos = some c)
  (reply : k.reply = some (v, due, back)) (targets : replyTargets c idx = some ts) (come : due ≤ s.clock) (active : tileActive s cl = true)
  (turn : replyTurn (s.tile cl pos) (escapeEntry s cl (Fin.ofNat 4 k.entry)).ordered k back = true)
  (accept : ∀ g ∈ ts, canAccept (s.tile cl pos) g = true ∧ ∀ m, g = .reg m → regPending (s.tile cl pos) m = false)
include found context reply targets come active turn accept

/-- A reply whose turn it is becomes a token of every target, unless the tile has consumed one of them in this cycle. -/
theorem escapeReplyDelivery_eq : execEscapeReplyDelivery cl pos idx ticket s =
    .next (if hasFired s cl pos = true ∧ ∃ g ∈ ts, justConsumed (s.tile cl pos) g = true then s
      else noteProgress (ts.foldl (fun s g => sendToken s cl pos idx 1 (g, ⟨v, false, k.token.last, k.token.tag⟩))
        (s.setTile cl pos { s.tile cl pos with tickets := (s.tile cl pos).tickets.filter fun m => m ≠ k })) cl) := by
  simp only [execEscapeReplyDelivery, found, context, reply, targets]
  by_cases consumed : hasFired s cl pos = true ∧ ∃ g ∈ ts, justConsumed (s.tile cl pos) g = true
  · rw [if_pos consumed, if_neg]
    simp [consumed]
  · rw [if_neg consumed, if_pos]
    simp only [Bool.and_eq_true, List.all_eq_true, decide_eq_true_eq, Bool.not_eq_true', Bool.eq_false_iff, ne_eq, List.any_eq_true]
    refine ⟨⟨⟨⟨⟨come, active⟩, turn⟩, fun g mem => ?_⟩, fun g mem => (accept g mem).1⟩, consumed⟩
    cases g with
    | reg n => simp [(accept _ mem).2 n rfl]
    | slotA | slotB | slotC | link | done | none => rfl

theorem escapeReplyDelivery_waits (fired : (s.tile cl pos).lastFired = some s.clock) (consumed : ∃ g ∈ ts, justConsumed (s.tile cl pos) g = true) :
    execEscapeReplyDelivery cl pos idx ticket s = .next s := by
  rw [escapeReplyDelivery_eq found context reply targets come active turn accept, if_pos ⟨decide_eq_true fired, consumed⟩]

theorem escapeReplyDelivery_delivers (free : (s.tile cl pos).lastFired = some s.clock → ∀ g ∈ ts, justConsumed (s.tile cl pos) g = false) :
    ∃ u, execEscapeReplyDelivery cl pos idx ticket s = .next u ∧ u.harts = s.harts ∧ u.mem = s.mem ∧
      (u.tile cl pos).tickets = (s.tile cl pos).tickets.filter (fun m => m ≠ k) ∧
      (u.tile cl pos).flights = (s.tile cl pos).flights ++ flightsOf s cl pos idx 1 (ts.map fun g => (g, ⟨v, false, k.token.last, k.token.tag⟩)) := by
  have still : ¬ (hasFired s cl pos = true ∧ ∃ g ∈ ts, justConsumed (s.tile cl pos) g = true) := by
    rintro ⟨fired, g, mem, consumed⟩
    rw [free (of_decide_eq_true fired) g mem] at consumed
    cases consumed
  have sent := sends_foldl (s.setTile cl pos { s.tile cl pos with tickets := (s.tile cl pos).tickets.filter fun m => m ≠ k })
    cl pos idx 1 (ts.map fun g => (g, ⟨v, false, k.token.last, k.token.tag⟩))
  rw [List.foldl_map] at sent
  obtain ⟨harts, mem, flights, tickets⟩ := sent
  rw [State.tile_setTile, flightsOf_setTile (by rfl)] at flights
  rw [State.tile_setTile] at tickets
  rw [escapeReplyDelivery_eq found context reply targets come active turn accept, if_neg still]
  exact ⟨_, rfl, harts, mem, tickets, flights⟩

end Replies

/-! ## Tokens at the end of a link (R105, R253) -/

/-- The tiles of two states have the same results in flight, and the agents are the same. -/
structure OnlyArrives (s u : State) : Prop where
  harts : u.harts = s.harts
  flights : ∀ c p, (u.tile c p).flights = (s.tile c p).flights

theorem OnlyArrives.trans {s t u : State} (h : OnlyArrives s t) (g : OnlyArrives t u) : OnlyArrives s u :=
  ⟨g.harts.trans h.harts, fun c p => (g.flights c p).trans (h.flights c p)⟩

theorem onlyArrives_setTile {s : State} {cl pos : Nat} {t : Tile} (same : t.flights = (s.tile cl pos).flights) : OnlyArrives s (s.setTile cl pos t) :=
  ⟨rfl, State.tile_setTile_keeps Tile.flights same⟩
theorem onlyArrives_mapHead (s : State) (blk : Nat) (f : MatrixCmd → MatrixCmd) : OnlyArrives s (mapHead s blk f) := by
  unfold mapHead
  dsimp only
  split <;> exact ⟨rfl, fun _ _ => rfl⟩

theorem onlyArrives_takeToken {s u : State} {blk : Nat} {b : Bool} (taken : takeToken s blk b = some u) : OnlyArrives s u := by
  unfold takeToken at taken
  split at taken
  · cases taken
  · split at taken
    · cases taken
    · dsimp only at taken
      split at taken
      · cases taken
      · have head := fun f r => OnlyArrives.trans (s := s) (t := s.setBlock blk r) ⟨rfl, fun _ _ => rfl⟩ (onlyArrives_mapHead _ blk f)
        split at taken <;> cases taken
        · exact (head _ _).trans (onlyArrives_setTile rfl)
        · exact head _ _

theorem onlyArrives_takeTokens (s : State) (blk n : Nat) : OnlyArrives s (takeTokens s blk n) := by
  induction n generalizing s with
  | zero => exact ⟨rfl, fun _ _ => rfl⟩
  | succ n ih =>
    rw [takeTokens]
    split
    · exact (onlyArrives_takeToken ‹_›).trans (ih _)
    · split
      · exact (onlyArrives_takeToken ‹_›).trans (ih _)
      · exact ⟨rfl, fun _ _ => rfl⟩

/-- Without a product at the head of its queue a block takes no token. -/
theorem takeTokens_none {s : State} {blk : Nat} (none : headProduct s blk = none) (n : Nat) : takeTokens s blk n = s := by
  cases n with
  | zero => rfl
  | succ n => simp only [takeTokens, takeToken, none]

section Arriving
variable {s : State} {cl pos : Nat} {l : Link} {k : Token} {at_ : Nat}

theorem onlyArrives_arrive (s : State) (cl pos : Nat) (l : Link) (k : Token) (at_ : Nat) : OnlyArrives s (arrive s cl pos l k at_) := by
  unfold arrive
  cases linkEnd s cl pos l with
    dsimp only
  | fifo => exact onlyArrives_setTile rfl
  | block blk p => exact OnlyArrives.trans (t := s.setBlock blk _) ⟨rfl, fun _ _ => rfl⟩ (onlyArrives_takeTokens _ _ _)
  | port => exact ⟨rfl, fun _ _ => rfl⟩
  | stageIn => split <;> exact ⟨rfl, fun _ _ => rfl⟩
  | stageExit => split <;> exact ⟨rfl, fun _ _ => rfl⟩
  | nothing => exact ⟨rfl, fun _ _ => rfl⟩

theorem arrive_fifo {c p hop : Nat} {m : Link} (leads : linkEnd s cl pos l = .fifo c p m hop) :
    vget [] ((arrive s cl pos l k at_).tile c p).fifo m.code = vget [] (s.tile c p).fifo m.code ++ [⟨k, at_⟩] := by
  simp only [arrive, leads, pushFifo, State.tile_setTile, vget_vset (link_code_lt m)]

theorem arrive_port {p : Nat} (leads : linkEnd s cl pos l = .port p) :
    ((arrive s cl pos l k at_).port p).input = (s.port p).input ++ [⟨k, at_⟩] := by
  simp only [arrive, leads, State.port_setPort]

theorem arrive_block {blk p : Nat} (leads : linkEnd s cl pos l = .block blk p) (bound : p < 8) (idle : headProduct s blk = none) :
    vget [] ((arrive s cl pos l k at_).block blk).ports p = vget [] (s.block blk).ports p ++ [⟨k, at_⟩] := by
  have still (ports : Vector (List Landed) 8) : headProduct (s.setBlock blk { s.block blk with ports := ports }) blk = none := by
    rw [headProduct, State.block_setBlock]
    exact idle
  simp only [arrive, leads, takeTokens_none (still _), State.block_setBlock, vget_vset bound]

theorem stageOf_setStage {lead n : Nat} {g : Stage} (found : stageOf s lead n = some g) (g' : Stage) : stageOf (setStage s lead n g') lead n = some g' := by
  rw [stageOf, setStage, State.region_setRegion]
  exact nth?_setNth found g'

theorem arrive_stageIn {lead n : Nat} {g : Stage} (leads : linkEnd s cl pos l = .stageIn lead n) (found : stageOf s lead n = some g) :
    ∃ g', stageOf (arrive s cl pos l k at_) lead n = some g' ∧ g'.input = g.input ++ [⟨k, at_⟩] := by
  simp only [arrive, leads, found, stageOf_setStage found]
  exact ⟨_, rfl, rfl⟩

theorem arrive_stageExit {lead n r : Nat} {g : Stage} (leads : linkEnd s cl pos l = .stageExit lead n r) (bound : r < 8) (found : stageOf s lead n = some g) :
    ∃ g', stageOf (arrive s cl pos l k at_) lead n = some g' ∧ vget [] g'.exits r = vget [] g.exits r ++ [⟨k, at_⟩] := by
  simp only [arrive, leads, found, stageOf_setStage found]
  exact ⟨_, rfl, vget_vset bound ..⟩

end Arriving

/-! ## Delivery (R101, R103, R105) -/

section Delivery
variable {s : State} {cl pos n : Nat} {f : Flight}

/-- The machine without a result that is taken to its place. -/
def takeFlight (s : State) (cl pos n : Nat) : State := s.setTile cl pos { s.tile cl pos with flights := dropNth (s.tile cl pos).flights n }

@[simp] theorem takeFlight_tile (s : State) (cl pos n : Nat) :
    (takeFlight s cl pos n).tile cl pos = { s.tile cl pos with flights := dropNth (s.tile cl pos).flights n } := State.tile_setTile ..
theorem takeFlight_fifo (s : State) (cl pos n c p : Nat) : ((takeFlight s cl pos n).tile c p).fifo = (s.tile c p).fifo := by
  unfold takeFlight
  exact State.tile_setTile_keeps Tile.fifo (by rfl) c p
theorem takeFlight_linkEnd (s : State) (cl pos n c p : Nat) (l : Link) : linkEnd (takeFlight s cl pos n) c p l = linkEnd s c p l := by
  unfold takeFlight
  exact linkEnd_setTile (by rfl) c p l

theorem tokenDelivery_early (flight : nth? (s.tile cl pos).flights n = some f) (early : s.clock < f.due) : execTokenDelivery cl pos n s = .next s := by
  simp [execTokenDelivery, flight, early]

theorem tokenDelivery_due (flight : nth? (s.tile cl pos).flights n = some f) (due : f.due ≤ s.clock) (first : ∀ g ∈ (s.tile cl pos).flights.take n, g.dest ≠ f.dest) :
    execTokenDelivery cl pos n s = .next (land (takeFlight s cl pos n) cl pos f) := by
  have none : ((s.tile cl pos).flights.take n).any (fun g => g.dest = f.dest) = false := by
    simpa [List.any_eq_false] using first
  simp only [execTokenDelivery, flight, none, decide_eq_false (Nat.not_lt.mpr due)]
  rfl

/-- A result that lands takes no thread along, and no other result of its tile. -/
theorem onlyArrives_land (s : State) (cl pos : Nat) (f : Flight) : OnlyArrives s (land s cl pos f) := by
  unfold land
  dsimp only
  cases f.dest with
  | slotA | slotB | slotC | reg => exact onlyArrives_setTile rfl
  | link => exact onlyArrives_arrive ..
  | done => exact ⟨rfl, fun _ _ => rfl⟩

section Landing
variable (s : State) (cl pos : Nat) {f : Flight}

theorem land_slotA {m : Nat} (dest : f.dest = .slotA m) :
    ((land s cl pos f).tile cl pos).slotA = vset (s.tile cl pos).slotA m (some ⟨f.token, f.due⟩) := by
  simp only [land, dest, State.tile_setTile]
theorem land_slotB {m : Nat} (dest : f.dest = .slotB m) :
    ((land s cl pos f).tile cl pos).slotB = vset (s.tile cl pos).slotB m (some ⟨f.token, f.due⟩) := by
  simp only [land, dest, State.tile_setTile]
theorem land_slotC {m : Nat} (dest : f.dest = .slotC m) :
    ((land s cl pos f).tile cl pos).slotC = vset (s.tile cl pos).slotC m (some ⟨f.token, f.due⟩) := by
  simp only [land, dest, State.tile_setTile]
theorem land_reg {m : Nat} (dest : f.dest = .reg m) : ((land s cl pos f).tile cl pos).v = vset (s.tile cl pos).v m f.token.payload := by
  simp only [land, dest, State.tile_setTile]
theorem land_link {l : Link} (dest : f.dest = .link l) : land s cl pos f = arrive s cl pos l f.token f.due := by
  simp only [land, dest]

end Landing

theorem creditReturn_due {l due : Nat} (credit : nth? (s.tile cl pos).creditsDue n = some (l, due)) (come : due ≤ s.clock) (free : clusterHeld s cl = false) :
    execCreditReturn cl pos n s = .next (s.setTile cl pos { s.tile cl pos with
      creditsDue := dropNth (s.tile cl pos).creditsDue n, credits := vset (s.tile cl pos).credits l (vget 0 (s.tile cl pos).credits l + 1) }) := by
  simp only [execCreditReturn, credit, free, decide_eq_false (Nat.not_lt.mpr come)]
  rfl

theorem creditReturn_stays {l due : Nat} (credit : nth? (s.tile cl pos).creditsDue n = some (l, due)) (stays : s.clock < due ∨ clusterHeld s cl = true) :
    execCreditReturn cl pos n s = .next s := by
  simp [execCreditReturn, credit, stays]

end Delivery

/-! ## Escapes (R132, R268, R269) -/

/-- What the handler's thread of an escape starts with. -/
def StartsEscape (s : State) (e : Escape) (c sl : Nat) (u : State) : Prop :=
  ∀ t l, s.task e.task = some t → loadedOf s e.cl = some l →
    let h := u.hart (.thread c sl)
    h.status = .ready ∧ h.task = some e.task ∧ h.pc = evenPc (vget ⟨0, 0, false, false⟩ l.escapes e.entry).handler ∧ h.tvec = t.tvec ∧
    h.origin = .escape e.cl e.pos e.entry e.ticket ∧
    h.reg 6 ++ h.reg 5 ++ h.reg 4 ++ h.reg 3 = e.payload ∧ h.reg 7 = e.tag.setWidth 64 ∧
    h.reg 8 = BitVec.ofNat 64 (e.ticket + 2 ^ 4 * e.entry + 2 ^ 8 * e.pos + 2 ^ 16 * e.cl) ∧ h.reg 30 = t.args ∧
    h.reg 2 = BitVec.ofNat 64 (0xFF00000040000000 + c * 0x10000 + 0xC400 + 1024 * sl)

/-- A token's payload is its four words, the highest first. -/
theorem payload_of_words (v : Payload) :
    BitVec.ofNat 64 (bitsAt v.toNat (64 * 3) 64) ++ BitVec.ofNat 64 (bitsAt v.toNat (64 * 2) 64) ++ BitVec.ofNat 64 (bitsAt v.toNat (64 * 1) 64) ++
      BitVec.ofNat 64 (bitsAt v.toNat (64 * 0) 64) = v := by
  have word (lo : Nat) : BitVec.ofNat 64 (bitsAt v.toNat lo 64) = v.extractLsb' lo 64 :=
    BitVec.eq_of_toNat_eq (by simp [bitsAt, Nat.shiftRight_eq_div_pow])
  have join {hi lo n : Nat} (next : hi = lo + 64) : v.extractLsb' hi n ++ v.extractLsb' lo 64 = v.extractLsb' lo (n + 64) :=
    BitVec.extractLsb'_append_extractLsb'_eq_extractLsb' next
  rw [word, word, word, word, join rfl, join rfl, join rfl]
  exact BitVec.extractLsb'_eq_self

theorem startEscape_starts (s : State) (e : Escape) (c sl : Nat) : StartsEscape s e c sl (startEscape s e c sl) := by
  intro t l task loaded
  have payload := payload_of_words e.payload
  simp only [startEscape, task, loaded, State.hart_setHart, Hart.setRegs_status, Hart.setRegs_task, Hart.setRegs_pc, Hart.setRegs_tvec, Hart.setRegs_origin]
  exact ⟨trivial, trivial, trivial, trivial, trivial, payload, rfl, rfl, rfl, rfl⟩

section Dispatch
variable {s : State} {cl n core slot : Nat} {e : Escape}

theorem escapeDispatch_starts {c : Nat} {r : List Nat} (parked : nth? (s.segment cl).parked n = some e) (runs : taskRuns s e.task = true)
    (best : bestCore s e (candidates s e) = some c) (slots : dispatchSlots s e.task c = slot :: r) :
    execEscapeDispatch cl n c s =
      .next (startEscape (s.setSegment cl { s.segment cl with parked := dropNth (s.segment cl).parked n }) e c slot) := by
  simp [execEscapeDispatch, parked, runs, best, slots]

/-- With no slot a parked escape waits in the queue of its class, while that has room. -/
theorem escapeDispatch_queues (parked : nth? (s.segment cl).parked n = some e) (runs : taskRuns s e.task = true)
    (best : bestCore s e (candidates s e) = none) :
    execEscapeDispatch cl n core s =
      .next (if isClassU s e.task = true then
          if (s.segment cl).reserved.length < 64 then
            s.setSegment cl { s.segment cl with parked := dropNth (s.segment cl).parked n, reserved := (s.segment cl).reserved ++ [e] }
          else s
        else if (s.segment cl).escapes.length < 256 then
          s.setSegment cl { s.segment cl with parked := dropNth (s.segment cl).parked n, escapes := (s.segment cl).escapes ++ [e] }
        else s) := by
  simp only [execEscapeDispatch, parked, runs, best, Bool.not_true, Bool.false_eq_true, if_false]
  split <;> split <;> rfl

/-- A thread that starts leaves every other agent, memory and the segments as they are. -/
theorem startEscape_frame (s : State) (e : Escape) (c sl : Nat) :
    (startEscape s e c sl).mem = s.mem ∧ (startEscape s e c sl).segments = s.segments ∧
      ∀ x, x ≠ .thread c sl → (startEscape s e c sl).hart x = s.hart x :=
  ⟨rfl, rfl, fun _ other => State.hart_setHart_ne s (Ne.symm other) _⟩

theorem escapeQueueStart_reserved {r : List Escape} (bound : slot < 16) (takes : headTakes s e core slot = true) (queue : (s.segment cl).reserved = e :: r) :
    execEscapeQueueStart cl core slot s = .next (startEscape (s.setSegment cl { s.segment cl with reserved := r }) e core slot) := by
  simp [execEscapeQueueStart, slotHead, queue, takes, Nat.not_le.mpr bound]

theorem escapeQueueStart_shared {r : List Escape} (bound : slot < 16) (takes : headTakes s e core slot = true) (first : (s.segment cl).reserved = [])
    (queue : (s.segment cl).escapes = e :: r) :
    execEscapeQueueStart cl core slot s = .next (startEscape (s.setSegment cl { s.segment cl with escapes := r }) e core slot) := by
  simp [execEscapeQueueStart, slotHead, first, queue, takes, Nat.not_le.mpr bound]

end Dispatch

/-- Settles O42: results, credits and replies on their way, then escapes that are dispatched and that leave a queue. -/
theorem tokensAndEscapes : Obligations.TokensAndEscapes := by
  unfold Obligations.TokensAndEscapes
  refine ⟨fun s cl pos n idx ticket => ⟨fun f flight early => tokenDelivery_early flight early, fun f flight due first => ?deliver,
    fun l due credit => ⟨fun early => creditReturn_stays credit (.inl early), fun held => creditReturn_stays credit (.inr held), creditReturn_due credit⟩,
    fun k c v due back ts found context reply targets come active turn accept =>
      ⟨fun fired => escapeReplyDelivery_waits found context reply targets come active turn accept fired,
        escapeReplyDelivery_delivers found context reply targets come active turn accept⟩⟩,
    fun s cl n core slot => ⟨fun e parked runs => ⟨fun c sl r best slots => ?dispatch, fun best => ?queues⟩, fun bound e r takes => ?queueStart⟩⟩
  case deliver =>
    obtain ⟨harts, flights⟩ := onlyArrives_land (takeFlight s cl pos n) cl pos f
    refine ⟨_, tokenDelivery_due flight due first, harts, (flights cl pos).trans (by rw [takeFlight_tile]),
      fun m dest => (land_slotA _ cl pos dest).trans (by rw [takeFlight_tile]), fun m dest => (land_slotB _ cl pos dest).trans (by rw [takeFlight_tile]),
      fun m dest => (land_slotC _ cl pos dest).trans (by rw [takeFlight_tile]), fun m dest => (land_reg _ cl pos dest).trans (by rw [takeFlight_tile]),
      fun l dest => ?_⟩
    have leads := takeFlight_linkEnd s cl pos n cl pos l
    rw [land_link _ cl pos dest]
    exact ⟨fun c p l' hop end_ => (arrive_fifo (leads.trans end_)).trans (by rw [takeFlight_fifo]),
      fun p end_ => arrive_port (leads.trans end_),
      fun blk p end_ bound idle => arrive_block (leads.trans end_) bound idle,
      fun lead k g end_ found => arrive_stageIn (leads.trans end_) found,
      fun lead k r g end_ bound found => arrive_stageExit (leads.trans end_) bound found⟩
  case dispatch =>
    obtain ⟨mem, segments, others⟩ := startEscape_frame (s.setSegment cl { s.segment cl with parked := dropNth (s.segment cl).parked n }) e c sl
    exact ⟨_, escapeDispatch_starts parked runs best slots, startEscape_starts _ e c sl, mem, s.segment_setSegment cl _, others⟩
  case queues =>
    have queues := escapeDispatch_queues (core := core) parked runs best
    refine ⟨fun class_ room => queues.trans ?_, fun class_ room => queues.trans ?_, fun class_ full => queues.trans ?_⟩
    · rw [if_pos class_, if_pos room]
    · rw [if_neg (by simp [class_]), if_pos room]
    · rw [if_neg (by simp [class_]), if_neg (Nat.not_lt.mpr full)]
  case queueStart =>
    exact ⟨fun queue => ⟨_, escapeQueueStart_reserved bound takes queue, startEscape_starts _ e core slot, s.segment_setSegment cl _⟩,
      fun first queue => ⟨_, escapeQueueStart_shared bound takes first queue, startEscape_starts _ e core slot, s.segment_setSegment cl _⟩⟩

end Sys2Proof.Machine
end
